-- ==== Sys2Proof/Word.lean ====
section
/-! DEFINITION. The word types of SFE (00_scope.md R9, R10): bytes, register words, 64-bit patterns. -/

namespace Sys2Proof

/-- SYM_W = 8 bits (R9): a symbol, and a byte of memory. -/
abbrev Byte := BitVec 8

/-- REG_W = 32 bits (R9, R10): a register or table word, an address, a length, a count. -/
abbrev Word := BitVec 32

/-- PFMT = binary64 (R9, R15): the 64-bit pattern of a probability. -/
abbrev Double := BitVec 64

/-- A codeword (R14): its bits, leftmost first. -/
abbrev Codeword := List Bool

end Sys2Proof
end

