-- ==== Sys2Proof/Syntax.lean ====
section
/-! DEFINITION. The ten commands of 30_encoding.md R101. A command word carries no operand (R103, R104). -/

namespace Sys2Proof

/-- One constructor per row of spec/opcode_table.json. -/
inductive Instr
  /-- R220: nothing. -/
  | nop
  /-- R221: drop every table and every result. -/
  | clear
  /-- R130: the Frequency Table Builder. -/
  | freq
  /-- R132: the Probability Table. -/
  | ptab
  /-- R150: the Code Tree Builder. -/
  | tree
  /-- R170: the Encoder. -/
  | emit
  /-- R178: the encode operation. -/
  | encode
  /-- R190: the table parser of the Decoder. -/
  | parse
  /-- R197: the bit matcher of the Decoder. -/
  | matchBits
  /-- R205: the decode operation. -/
  | decode
deriving DecidableEq, Repr

end Sys2Proof
end

