-- ==== Sys2Proof/WellFormed.lean ====
section
/-! DEFINITION. What is well formed. An instruction has no operand that could be ill formed (30_encoding.md R103);
a command word is legal when its ZERO field is 0 and its OPC is one of ten values (R100 to R102). -/

namespace Sys2Proof

/-- Every command is well formed: there is no field to check (R103, R104). -/
def Instr.wellFormed : Instr → Bool
  | .nop | .clear | .freq | .ptab | .tree | .emit | .encode | .parse | .matchBits | .decode => true

/-- The field ZERO of a command word, bits 31:8 (R100). -/
def zeroField (c : Word) : BitVec 24 := c.extractLsb' 8 24

/-- The field OPC of a command word, bits 7:0 (R100). -/
def opcField (c : Word) : Byte := c.extractLsb' 0 8

/-- The ten opcodes of R101. -/
def opcodes : List Byte := [0x00, 0x01, 0x10, 0x11, 0x12, 0x20, 0x2F, 0x30, 0x31, 0x3F]

/-- R101: "A command word is legal exactly when its ZERO field is 0 and its OPC is one of these ten values." -/
def legalWord (c : Word) : Bool := zeroField c == 0 && opcodes.contains (opcField c)

end Sys2Proof
end

