-- ==== Sys2Proof/Decode.lean ====
section
/-! DEFINITION. Decoding of command words, total and rejecting by name (30_encoding.md R100 to R105), and the
encoder written from the same table. -/

namespace Sys2Proof

/-- Why a command word is illegal (R102). -/
inductive DecodeError
  /-- a nonzero bit in bits 31:8 -/
  | nonzeroZeroField
  /-- ZERO is 0 and OPC is outside the ten values of R101 -/
  | unknownOpcode
deriving DecidableEq, Repr

/-- The column OPC of R101, read from left to right. -/
def decodeOpcode (opc : Byte) : Except DecodeError Instr :=
  if opc = 0x00 then .ok .nop
  else if opc = 0x01 then .ok .clear
  else if opc = 0x10 then .ok .freq
  else if opc = 0x11 then .ok .ptab
  else if opc = 0x12 then .ok .tree
  else if opc = 0x20 then .ok .emit
  else if opc = 0x2F then .ok .encode
  else if opc = 0x30 then .ok .parse
  else if opc = 0x31 then .ok .matchBits
  else if opc = 0x3F then .ok .decode
  else .error .unknownOpcode

/-- R105: every 32-bit word is one of the ten legal commands or illegal. -/
def decode (c : Word) : Except DecodeError Instr :=
  if zeroField c = 0 then decodeOpcode (opcField c) else .error .nonzeroZeroField

/-- The opcode of a command (R101). -/
def Instr.opcode : Instr → Byte
  | .nop => 0x00
  | .clear => 0x01
  | .freq => 0x10
  | .ptab => 0x11
  | .tree => 0x12
  | .emit => 0x20
  | .encode => 0x2F
  | .parse => 0x30
  | .matchBits => 0x31
  | .decode => 0x3F

/-- The command word of a command (R100): ZERO = 0, OPC the opcode. -/
def encode (i : Instr) : Word := (0 : BitVec 24) ++ i.opcode

/-- The instruction the decoder reads from a row of spec/opcode_table.json: one 32-bit word, bit 0 its least
significant bit (log 21). -/
def decodeTableWord (nbits w : Nat) : Option Instr :=
  if nbits ≤ 32 ∧ w < 2 ^ 32 then (decode (BitVec.ofNat 32 w)).toOption else none

end Sys2Proof
end

