-- ==== Sys2Proof/Config.lean ====
section
/-! DEFINITION. The implementation parameters of 00_scope.md R9, the constant ID of 10_state.md R22, and the free
values of the model: constants without a body, so that nothing can be proved of what they are. -/

namespace Sys2Proof.Config

/-- NSYM_MAX (R9): the largest alphabet. -/
def nsymMax : Nat := 256

/-- CW_MAX (R9): the longest codeword in bits. -/
def cwMax : Nat := 255

/-- The memory space holds 2^32 bytes (20_memory.md R70). -/
def memSize : Nat := 2 ^ 32

/-- ID reads this value always (10_state.md R22). -/
def idWord : Word := 0x53460007

/-- REG_BASE (R9, open parameter P2): where the register space stands in the host's address map (log 9). -/
opaque regBase : Nat

/-- The word drawn by the n-th free value (93_implementation_defined.md U1, U3, U6; log 6). -/
opaque freeWord : Nat → Word

end Sys2Proof.Config
end

