-- ==== Sys2Proof/Machine/State.lean ====
section
/-! DEFINITION. The state of SFE as plain data (10_state.md R20), the reasons a step can stop, and the state after
reset (R52). -/

namespace Sys2Proof.Machine

/-- STATUS.STAGE (10_state.md R41): the stage in which the last command terminated. -/
inductive Stage
  /-- 0: NOP, CLEAR, or a command refused by an admission check -/
  | none
  /-- 1 -/
  | freq
  /-- 2 -/
  | ptab
  /-- 3 -/
  | tree
  /-- 4 -/
  | emit
  /-- 5 -/
  | parse
  /-- 6 -/
  | matchBits
deriving DecidableEq, Repr

/-- The nine error kinds (60_exceptions.md R230). An error is how a command ends, not a stop of the machine. -/
inductive ErrKind
  /-- code 1, R231 -/
  | emptyInput
  /-- code 2, R232 -/
  | unknownSymbol
  /-- code 3, R233 -/
  | unmatchedBits
  /-- code 4, R234 -/
  | malformedArtifact
  /-- code 5, R235 -/
  | illegalCommand
  /-- code 6, R236 -/
  | sequence
  /-- code 7, R237 -/
  | range
  /-- code 8, R238 -/
  | dstOverflow
  /-- code 9, R242 -/
  | bus
deriving DecidableEq, Repr

/-- The two kinds of memory access of the predicate MemOK (20_memory.md R73). -/
inductive AccessKind
  | read
  | write
deriving DecidableEq, Repr

/-- One access the engine made on its memory port, with the byte moved (20_memory.md R72, R78). -/
inductive Access
  | read (a : Word) (b : Byte)
  | write (a : Word) (b : Byte)
deriving DecidableEq, Repr

/-- Which part of the header the next byte belongs to. -/
inductive ParsePhase
  /-- the size line (43_decoder.md R191) -/
  | size
  /-- the first byte of a row, the symbol (R192) -/
  | symbol
  /-- the TAB after the symbol -/
  | tab
  /-- the probability field -/
  | prob
  /-- the codeword -/
  | code
  /-- the blank line (R193) -/
  | blank
deriving DecidableEq, Repr

/-- The variables of R190's pseudocode besides `pos`. -/
structure Parser where
  phase : ParsePhase
  /-- `N`: the value of the size line so far -/
  n : Nat
  /-- rows still to be completed -/
  rows : Nat
  /-- `s`: the symbol of the row in work -/
  sym : Byte
  /-- `k`: digits of the size line, or bytes of the probability field, so far -/
  k : Nat
deriving DecidableEq, Repr

/-- Where a running command stands between two of its memory accesses (10_state.md R49; 70_reset_and_hazards.md R270; log 1):
the stage in work with its read cursor and what else it holds. PTAB and TREE make no access and stand nowhere. -/
inductive Progress
  /-- accepted: no admission check and no access has been made -/
  | start
  /-- FREQ: the bytes at offsets below `i` are counted -/
  | freq (i : Nat)
  /-- EMIT: `rest` is the part of the header still to be written -/
  | header (rest : List Byte)
  /-- EMIT: the header has `hdr` bytes, the source bytes below `j` are read, `rest` is what is still to be written of
  the last one's codeword -/
  | bits (hdr j : Nat) (rest : List Byte)
  /-- PARSE: the header bytes below `pos` are read -/
  | parse (pos : Nat) (p : Parser)
  /-- MATCH from the offset `base`: the bytes below `j` are read, with the accumulator and the offset of its first
  bit -/
  | matching (base j : Nat) (acc : Codeword) (start : Nat)
  /-- MATCH: the bytes below `j` are read and the symbol `c` of a full accumulator is still to be written -/
  | found (base j : Nat) (c : Byte) (start : Nat)
deriving DecidableEq, Repr

/-- What the platform says of a range of addresses (log 7, log 8). -/
inductive RegionKind
  /-- MemOK(addr, read) is false -/
  | noRead
  /-- MemOK(addr, write) is false -/
  | noWrite
  /-- MemOK is false for both kinds -/
  | noAccess
  /-- device memory, which 20_memory.md R76 leaves undefined -/
  | device
deriving DecidableEq, Repr

/-- The addresses `base` to `base + size - 1`. -/
structure Region where
  base : Nat
  size : Nat
  kind : RegionKind
deriving DecidableEq, Repr

/-- Who has the turn, and what the host does with it (00_scope.md R8; 30_encoding.md R125; log 13). -/
inductive Event
  /-- the host writes the register word of index `idx` (20_memory.md R71) -/
  | portWrite (idx : BitVec 12) (v : Word)
  /-- the host reads the register word of index `idx` -/
  | portRead (idx : BitVec 12)
  /-- the host writes a byte of memory by its own means -/
  | memWrite (a : Word) (b : Byte)
  /-- the host reads a byte of memory by its own means -/
  | memRead (a : Word)
  /-- the engine's turn: a running command runs to its termination -/
  | engine
  /-- the engine makes one memory access of the running command at most (70_reset_and_hazards.md R270; log 13) -/
  | access
  /-- the input `rst` is asserted and released at once (70_reset_and_hazards.md R260, R261) -/
  | reset
  /-- the input `rst` is driven: asserted and held (`true`), or released (`false`) (R260; log 24) -/
  | rst (asserted : Bool)
deriving DecidableEq, Repr

/-- A table of 256 entries (10_state.md R42 to R44). -/
abbrev Table (α : Type) := Vector α 256

/-- The tables CLEN and CBITS (10_state.md R44). Bit `k` of `cbits[s]` is bit `k mod 32` of `CBITS[s][k div 32]`. -/
structure CodeTable where
  clen : Table Byte
  cbits : Table (BitVec 256)
deriving DecidableEq, Repr

/-- Memory: the bytes that differ from what an unlisted address reads as, addresses strictly rising. -/
abbrev Memory := List Host.Cell

/-- The state. INVENTORY.md gives each field's rule and reset value. -/
structure State where
  /-- CTRL.IE (R23) -/
  ie : Bool
  /-- STATUS.DONE (R38) -/
  done : Bool
  /-- STATUS.ERR and STATUS.ERRCODE (R39): ERR = 1 exactly when there is a kind, ERRCODE its code -/
  err : Option ErrKind
  /-- STATUS.FV (R40) -/
  fv : Bool
  /-- STATUS.PV (R40) -/
  pv : Bool
  /-- STATUS.CV (R40) -/
  cv : Bool
  /-- STATUS.STAGE (R41) -/
  stage : Stage
  /-- SRC_ADDR (R26) -/
  srcAddr : Word
  /-- SRC_LEN (R27) -/
  srcLen : Word
  /-- DST_ADDR (R28) -/
  dstAddr : Word
  /-- DST_CAP (R29) -/
  dstCap : Word
  /-- DST_LEN (R30) -/
  dstLen : Word
  /-- NSYM (R31) -/
  nsym : Word
  /-- TOTAL (R32) -/
  total : Word
  /-- BITLEN (R33) -/
  bitLen : Word
  /-- BS_OFF (R34) -/
  bsOff : Word
  /-- ERRINFO (R35) -/
  errInfo : Word
  /-- FREQ (R42), by symbol -/
  freq : Table Word
  /-- PSYM (R43), by rank -/
  psym : Table Byte
  /-- PROB (R43, R47), by rank: binary64 patterns -/
  prob : Table Double
  /-- CLEN and CBITS (R44), by symbol -/
  codes : CodeTable
  /-- hidden (R49): the accepted command word; BUSY = 1 exactly while there is one (R37) -/
  running : Option Word
  /-- hidden (R49): the read cursor, the accumulator and the bytes still to be written of the stage in work -/
  progress : Progress
  /-- hidden (R49): the output cursor `w` of 00_scope.md R12 -/
  cursor : Nat
  /-- the input `rst` is asserted (70_reset_and_hazards.md R260; log 24) -/
  rst : Bool
  /-- the memory the engine shares with the host (20_memory.md R70) -/
  mem : Memory
  /-- the model's own: the memory-port accesses of the last command, oldest first (log 15) -/
  accesses : List Access
  /-- the model's own: bytes the host overwrote under the running command, with their older values (log 10) -/
  raced : List Host.Cell
  /-- the model's own: the platform's ranges, which give MemOK (log 7) -/
  platform : List Region
  /-- the model's own: the host's events still to come (log 13) -/
  inputs : List Event
  /-- the model's own: what the last host read returned (log 14) -/
  readData : Word
  /-- the model's own: how many free values have been drawn (log 6) -/
  draws : Nat
deriving DecidableEq, Repr

/-- STATUS.BUSY (R37): 1 while a command is accepted and not terminated. -/
def State.busy (s : State) : Bool := s.running.isSome

/-- Nothing the spec describes stops the machine (log 20): no instruction and no step raises a fault. -/
inductive Fault
deriving DecidableEq, Repr

/-- Why a step gives no next state. -/
inductive Refusal
  /-- raised by an arm of exec whose instruction has no meaning yet; safe: nothing is claimed of it -/
  | notModelled (mnemonic : String)
  /-- raised by a command whose source or destination region holds a byte of device memory: 20_memory.md R76,
  "what happens then is not defined by this spec and a model refuses it" (log 8); safe: nothing is claimed of it -/
  | deviceMemory
deriving DecidableEq, Repr

/-- Every table of an engine nothing has run on (R52 leaves the content unspecified; log 4). -/
def CodeTable.atReset : CodeTable := { clen := Vector.replicate 256 0, cbits := Vector.replicate 256 0 }

/-- The machine right after reset (R52, R260): `rst` is released, no command is running and the engine waits for a write
to CMD. -/
def State.reset : State where
  ie := false
  done := false
  err := none
  fv := false
  pv := false
  cv := false
  stage := .none
  srcAddr := 0
  srcLen := 0
  dstAddr := 0
  dstCap := 0
  dstLen := 0
  nsym := 0
  total := 0
  bitLen := 0
  bsOff := 0
  errInfo := 0
  freq := Vector.replicate 256 0
  psym := Vector.replicate 256 0
  prob := Vector.replicate 256 0
  codes := CodeTable.atReset
  running := none
  progress := .start
  cursor := 0
  rst := false
  mem := []
  accesses := []
  raced := []
  platform := []
  inputs := []
  readData := 0
  draws := 0

end Sys2Proof.Machine
end

