-- ==== Sys2Proof/Machine/Operands.lean ====
section
/-! DEFINITION. The operands of a command (30_encoding.md R103): which regions and tables each command uses, and the
conditions on the regions (20_memory.md R77). A command word carries no operand; every operand is a register or a
table, read as it stands when the command is accepted. -/

namespace Sys2Proof.Machine

/-- The command uses the source region (R103, column "source region"). -/
def usesSource : Instr → Bool
  | .freq | .emit | .encode | .parse | .matchBits | .decode => true
  | .nop | .clear | .ptab | .tree => false

/-- The command uses the destination region (R103, column "destination region"). -/
def usesDest : Instr → Bool
  | .emit | .encode | .matchBits | .decode => true
  | .nop | .clear | .freq | .ptab | .tree | .parse => false

/-- The flags the command needs are 1 (R103, column "tables needed"; 60_exceptions.md R236). -/
def tablesReady (i : Instr) (s : State) : Bool :=
  match i with
  | .ptab => s.fv
  | .tree => s.pv
  | .emit => s.pv && s.cv
  | .matchBits => s.cv
  | .nop | .clear | .freq | .encode | .parse | .decode => true

/-- R77: `SRC_ADDR + SRC_LEN > 2^32`, summed as integers. -/
def sourceWraps (s : State) : Bool := Config.memSize < s.srcAddr.toNat + s.srcLen.toNat

/-- R77: `DST_ADDR + DST_CAP > 2^32`, summed as integers. -/
def destWraps (s : State) : Bool := Config.memSize < s.dstAddr.toNat + s.dstCap.toNat

/-- R77: the two regions share a byte; a region of length 0 overlaps nothing. -/
def regionsOverlap (s : State) : Bool :=
  0 < s.srcLen.toNat && 0 < s.dstCap.toNat
    && s.srcAddr.toNat < s.dstAddr.toNat + s.dstCap.toNat && s.dstAddr.toNat < s.srcAddr.toNat + s.srcLen.toNat

/-- One of the conditions of R77 holds for a region the command uses (60_exceptions.md R237). -/
def rangeBad (i : Instr) (s : State) : Bool :=
  (usesSource i && sourceWraps s) || (usesDest i && destWraps s)
    || (usesSource i && usesDest i && regionsOverlap s)

/-- The kind of the range refuses the access (20_memory.md R73; log 7). -/
def RegionKind.refuses : RegionKind → AccessKind → Bool
  | .noRead, .read => true
  | .noWrite, .write => true
  | .noAccess, _ => true
  | _, _ => false

/-- The address lies in the range. -/
def Region.covers (r : Region) (a : Nat) : Bool := r.base ≤ a && a < r.base + r.size

/-- The predicate MemOK(addr, kind) of 20_memory.md R73: no range of the platform refuses the access. -/
def State.memOK (s : State) (a : Word) (k : AccessKind) : Bool :=
  s.platform.all fun r => !(r.covers a.toNat && r.kind.refuses k)

/-- The range is device memory and shares a byte with the `len` bytes from `base` on. -/
def Region.deviceIn (r : Region) (base len : Nat) : Bool :=
  r.kind == .device && 0 < r.size && 0 < len && r.base < base + len && base < r.base + r.size

/-- A region the command uses holds a byte of device memory (20_memory.md R76; log 8). -/
def touchesDevice (i : Instr) (s : State) : Bool :=
  s.platform.any fun r =>
    (usesSource i && r.deviceIn s.srcAddr.toNat s.srcLen.toNat)
      || (usesDest i && r.deviceIn s.dstAddr.toNat s.dstCap.toNat)

end Sys2Proof.Machine
end

