-- ==== Sys2Proof/Machine/Flags.lean ====
section
/-! DEFINITION. Flags and the words that hold them: STATUS and CTRL (10_state.md R23, R24), the codes of the stages
(R41) and of the errors (60_exceptions.md R230), the valid flags (R40), the interrupt line (R48). -/

namespace Sys2Proof.Machine

/-- The number of a stage (R41). -/
def Stage.code : Stage → BitVec 4
  | .none => 0
  | .freq => 1
  | .ptab => 2
  | .tree => 3
  | .emit => 4
  | .parse => 5
  | .matchBits => 6

/-- The code of an error kind (60_exceptions.md R230). -/
def ErrKind.code : ErrKind → BitVec 4
  | .emptyInput => 1
  | .unknownSymbol => 2
  | .unmatchedBits => 3
  | .malformedArtifact => 4
  | .illegalCommand => 5
  | .sequence => 6
  | .range => 7
  | .dstOverflow => 8
  | .bus => 9

/-- STATUS.ERR (R39). -/
def State.errBit (s : State) : Bool := s.err.isSome

/-- STATUS.ERRCODE (R39): 0 when ERR = 0. -/
def State.errCode (s : State) : BitVec 4 :=
  match s.err with
  | some e => e.code
  | none => 0

/-- The word with the bit `k` set when `b`. -/
def bitAt (k : Nat) (b : Bool) : Word := if b then 1#32 <<< k else 0

/-- The fields of STATUS that are defined at every moment (R24): BUSY, DONE, ERR, ERRCODE. -/
def State.statusLow (s : State) : Word :=
  bitAt 0 s.busy ||| bitAt 1 s.done ||| bitAt 2 s.errBit ||| (s.errCode.setWidth 32 <<< 4)

/-- The fields FV, PV, CV and STAGE of STATUS (R24). -/
def State.statusHigh (s : State) : Word :=
  bitAt 8 s.fv ||| bitAt 9 s.pv ||| bitAt 10 s.cv ||| (s.stage.code.setWidth 32 <<< 12)

/-- The places of FV, PV, CV and STAGE in STATUS (R24). -/
def statusHighMask : Word := 0xF700

/-- STATUS as the host reads it when no command runs (R24); the reserved bits are 0. -/
def State.statusWord (s : State) : Word := s.statusLow ||| s.statusHigh

/-- CTRL as the host reads it (R23): bits 31:1 read 0. -/
def State.ctrlWord (s : State) : Word := bitAt 0 s.ie

/-- `irq = CTRL.IE and STATUS.DONE`, at every moment (R48, 60_exceptions.md R247). -/
def State.irq (s : State) : Bool := s.ie && s.done

/-- The valid flags take the values given (R40). -/
def State.setValid (s : State) (fv pv cv : Bool) : State := { s with fv := fv, pv := pv, cv := cv }

/-- FV, PV, CV to 0 and the result registers to 0: what CLEAR (44_control.md R221) and every error termination
(60_exceptions.md R243) share. -/
def State.dropResults (s : State) : State :=
  { s.setValid false false false with nsym := 0, total := 0, bitLen := 0, bsOff := 0, dstLen := 0 }

/-- The five triples (FV, PV, CV) that are possible (R40). -/
def State.validLegal (s : State) : Bool :=
  [(false, false, false), (true, false, false), (true, true, false), (true, true, true), (false, false, true)].contains
    (s.fv, s.pv, s.cv)

/-- A host write to STATUS with BUSY = 0 (R24): bit 1 clears DONE; bit 2 clears ERR, ERRCODE and ERRINFO. -/
def State.writeStatus (s : State) (v : Word) : State :=
  let t := if v.getLsbD 1 then { s with done := false } else s
  if v.getLsbD 2 then { t with err := none, errInfo := 0 } else t

end Sys2Proof.Machine
end

