-- ==== Sys2Proof/Machine/Binary64.lean ====
section
/-! DEFINITION. Probability arithmetic (00_scope.md R15): binary64 patterns, each operation rounded once to nearest,
ties to even. A non-negative finite pattern stands for an integer number of units of 2^-1074, so every exact value
is a quotient of natural numbers. -/

namespace Sys2Proof.Machine

/-- `rne(num / den)` (R15): the nearest integer, and the even one when two are equally near. -/
def rne (num den : Nat) : Nat :=
  let q := num / den
  let r := num % den
  if 2 * r < den then q
  else if den < 2 * r then q + 1
  else if q % 2 = 0 then q else q + 1

/-- `2^e <= num / den`, for an exponent of either sign. -/
def powLe (e : Int) (num den : Nat) : Bool :=
  if 0 ≤ e then 2 ^ e.toNat * den ≤ num else den ≤ num * 2 ^ (-e).toNat

/-- `floor(log2 (num / den))` for positive `num` and `den` (R15). -/
def floorLog2 (num den : Nat) : Int :=
  let e : Int := (num.log2 : Int) - (den.log2 : Int)
  if powLe e num den then e else e - 1

/-- `q / u` of R15 rounded to an integer, where `q = num / den` and `u = 2^(e-52)`: the 53-bit significand. -/
def significand (e : Int) (num den : Nat) : Nat :=
  if e ≤ 52 then rne (num * 2 ^ (52 - e).toNat) den else rne num (den * 2 ^ (e - 52).toNat)

/-- The pattern of `RN64(num / den)` (R15): with the significand `m` in `[2^52, 2^53]` the value `m * 2^(e-52)` has
the pattern `(e + 1022) * 2^52 + m`, the carry of `m = 2^53` into the exponent included. The quotient 0 gives +0.0. -/
def rn64 (num den : Nat) : Double :=
  if num = 0 then 0
  else
    let e := floorLog2 num den
    BitVec.ofNat 64 ((e + 1022).toNat * 2 ^ 52 + significand e num den)

/-- The biased exponent, bits 62:52 (R15). -/
def biasedExp (p : Double) : Nat := p.toNat / 2 ^ 52 % 2 ^ 11

/-- The fraction, bits 51:0 (R15). -/
def fraction (p : Double) : Nat := p.toNat % 2 ^ 52

/-- The value of a non-negative pattern in units of 2^-1074: `2^(exp-1023) * (1 + frac/2^52)` (R15); the all-zero
pattern is 0. Bit 63 is not looked at (log 16). -/
def units (p : Double) : Nat :=
  if biasedExp p = 0 then fraction p else (2 ^ 52 + fraction p) * 2 ^ (biasedExp p - 1)

/-- Units in 1.0. -/
def unitsPerOne : Nat := 2 ^ 1074

/-- `fdiv(cvt(a), cvt(b))` (R15): `cvt` is exact, the division is rounded once. -/
def fdiv (a b : Nat) : Double := rn64 a b

/-- `fadd(a, b)` (R15): the exact sum rounded once; `fadd(+0.0, b) = b`. -/
def fadd (a b : Double) : Double :=
  if a = 0 then b else rn64 (units a + units b) unitsPerOne

/-- `fhalf(a) = a / 2` (R15). -/
def fhalf (a : Double) : Double := rn64 (units a) (2 * unitsPerOne)

/-- `fle(a, b) = (a <= b)` on the two values (R15). -/
def fle (a b : Double) : Bool := units a ≤ units b

end Sys2Proof.Machine
end

