-- ==== Sys2Proof/Machine/Text.lean ====
section
/-! DEFINITION. Text primitives (00_scope.md R16): byte strings of ASCII characters. -/

namespace Sys2Proof.Machine

/-- LF (R16). -/
def LF : Byte := 0x0A
/-- TAB (R16). -/
def TAB : Byte := 0x09
/-- `'.'` (R16). -/
def POINT : Byte := 0x2E

/-- The character of a decimal digit (R16). -/
def digitChar (d : Nat) : Byte := BitVec.ofNat 8 (0x30 + d)

/-- The decimal digits of `n` put before `acc`; `fuel` digits at most. -/
def decInto : Nat → Nat → List Byte → List Byte
  | 0, _, acc => acc
  | fuel + 1, n, acc =>
    if n / 10 = 0 then digitChar (n % 10) :: acc else decInto fuel (n / 10) (digitChar (n % 10) :: acc)

/-- `dec(n)` (R16): decimal digits, most significant first, no leading zero. -/
def dec (n : Nat) : List Byte := decInto (n + 1) n []

/-- The last `k` decimal digits of `n`, most significant first, zero-padded. -/
def fixedDigits : Nat → Nat → List Byte
  | 0, _ => []
  | k + 1, n => fixedDigits k (n / 10) ++ [digitChar (n % 10)]

/-- PROB_DIGITS fractional digits of a probability (R9). -/
def probDigits : Nat := 6

/-- `r = rne(x * 10^6)` of R16. -/
def probScaled (x : Double) : Nat := rne (units x * 10 ^ probDigits) unitsPerOne

/-- `probtext(x)` (R16): one digit, a point, six digits. -/
def probText (x : Double) : List Byte :=
  digitChar (probScaled x / 10 ^ probDigits) :: POINT :: fixedDigits probDigits (probScaled x % 10 ^ probDigits)

/-- The character of a bit (R16). -/
def bitChar (b : Bool) : Byte := if b then 0x31 else 0x30

/-- `bits(c)` (R16): one byte per bit, leftmost first. -/
def bitsText (c : Codeword) : List Byte := c.map bitChar

/-- A byte is `'0'` to `'9'`. -/
def isDigit (b : Byte) : Bool := 0x30 ≤ b && b ≤ 0x39

/-- PCLASS of 43_decoder.md R190: the digits, `'.'`, `'+'`, `'-'`, `'e'`, `'E'`. -/
def isProbChar (b : Byte) : Bool := isDigit b || b == 0x2E || b == 0x2B || b == 0x2D || b == 0x65 || b == 0x45

/-- A byte is the character of a bit, `'0'` or `'1'`. -/
def isBitChar (b : Byte) : Bool := b == 0x30 || b == 0x31

/-- The bit of a bit character: `b - 0x30` (43_decoder.md R190, R197). -/
def charBit (b : Byte) : Bool := b == 0x31

end Sys2Proof.Machine
end

