-- ==== Sys2Proof/Machine/Ops.lean ====
section
/-! DEFINITION. The shared operations: tables, memory, the engine's memory port (00_scope.md R12), how a command is
accepted (30_encoding.md R116), how it runs (R117) and how it ends (60_exceptions.md R243, R244). -/

namespace Sys2Proof.Machine

/-! ### Tables (10_state.md R42 to R44) -/

/-- Entry `i` of a table; an index is eight bits wide (log 17). -/
def Table.at {α : Type} (t : Table α) (i : Nat) : α := t[i % 256]'(Nat.mod_lt _ (by decide))

/-- The table with entry `i` replaced. -/
def Table.put {α : Type} (t : Table α) (i : Nat) (v : α) : Table α := t.set (i % 256) v (Nat.mod_lt _ (by decide))

/-- Every entry of FREQ 0 (40_freq_ptab.md R130). -/
def Table.zeros : Table Word := Vector.replicate 256 0

/-- `CLEN[s] <- 0 ; CBITS[s][0..7] <- 0` for every symbol (41_tree.md R150, 43_decoder.md R190). -/
def CodeTable.empty : CodeTable := { clen := Vector.replicate 256 0, cbits := Vector.replicate 256 0 }

/-- `|code(s)| = CLEN[s]` (00_scope.md R14). -/
def CodeTable.len (t : CodeTable) (s : Byte) : Nat := (t.clen.at s.toNat).toNat

/-- `code(s)` (00_scope.md R14): bit `k` is bit `k mod 32` of `CBITS[s][k div 32]`. -/
def CodeTable.code (t : CodeTable) (s : Byte) : Codeword :=
  (List.range (t.len s)).map fun k => (t.cbits.at s.toNat).getLsbD k

/-- The word `v` with bit `k` made `b`. -/
def setBit (v : BitVec 256) (k : Nat) (b : Bool) : BitVec 256 :=
  if b then v ||| (1#256 <<< k) else v &&& ~~~(1#256 <<< k)

/-- `code(s) <- code(s) ++ b` (Append of 41_tree.md R150; 43_decoder.md R190): sets bit CLEN[s] of CBITS[s], then
`CLEN[s] <- CLEN[s] + 1`. -/
def CodeTable.append (t : CodeTable) (s : Byte) (b : Bool) : CodeTable :=
  { clen := t.clen.put s.toNat (t.clen.at s.toNat + 1)
    cbits := t.cbits.put s.toNat (setBit (t.cbits.at s.toNat) (t.len s) b) }

/-- `CBITS[s][w]` (10_state.md R44). -/
def CodeTable.word (t : CodeTable) (s : Byte) (w : Nat) : Word := (t.cbits.at s.toNat).extractLsb' (32 * w) 32

/-! ### Memory (20_memory.md R70, R76) -/

/-- What a byte nobody has written reads as (DESIGN CHOICE, log 3). -/
def Memory.unlisted : Byte := 0

/-- The byte at an address. -/
def Memory.read : Memory → Nat → Byte
  | [], _ => Memory.unlisted
  | (k, b) :: m, a => if k = a then b else Memory.read m a

/-- The memory with the byte at an address replaced, in canonical form again. -/
def Memory.write : Memory → Nat → Byte → Memory
  | [], a, b => if b = Memory.unlisted then [] else [(a, b)]
  | (k, c) :: m, a, b =>
    if a < k then (if b = Memory.unlisted then (k, c) :: m else (a, b) :: (k, c) :: m)
    else if a = k then (if b = Memory.unlisted then m else (a, b) :: m)
    else (k, c) :: Memory.write m a b

/-- The canonical form: addresses of the space, strictly rising, no entry equal to what an unlisted address reads
as. -/
def Memory.wf : Memory → Bool
  | [] => true
  | (k, b) :: m => k < Config.memSize && b != Memory.unlisted && m.all (fun c => k < c.1) && Memory.wf m

/-! ### The engine's memory port (00_scope.md R12; 20_memory.md R72, R73, R78, R80) -/

/-- What a stage ends with when it does not run to its end: `raise E(info)` (00_scope.md R13). -/
structure Raise where
  kind : ErrKind
  info : Word
deriving DecidableEq, Repr

/-- A piece of a stage: it works on the state until it ends or raises; nothing after a raise is executed (R13). -/
abbrev Engine := EStateM Raise State

/-- The older values of a byte the host overwrote while the command runs (20_memory.md R80; log 10). -/
def State.olderValues (s : State) (a : Word) : List Byte :=
  (s.raced.filter fun c => c.1 == a.toNat).map Prod.snd

/-- The byte an engine read returns, with the state after a free value may have been drawn: the byte in memory, or,
where the host writes it under the running command, the old or the new value, independently per read (R80). -/
def busRead (a : Word) (s : State) : Byte × State :=
  match s.olderValues a with
  | [] => (s.mem.read a.toNat, s)
  | old :: olds =>
    ((s.mem.read a.toNat :: old :: olds).getD ((Config.freeWord s.draws).toNat % (olds.length + 2)) old,
      { s with draws := s.draws + 1 })

/-- An engine write of a byte; where the host writes the same byte under the running command, a free value says
whose byte is left (log 10). -/
def busWrite (a : Word) (b : Byte) (s : State) : State :=
  match s.olderValues a with
  | [] => { s with mem := s.mem.write a.toNat b }
  | _ :: _ =>
    if (Config.freeWord s.draws).getLsbD 0 then { s with draws := s.draws + 1 }
    else { s with mem := s.mem.write a.toNat b, draws := s.draws + 1 }

/-- `MemRead(addr, 1)` (R12): a byte, or BusError(addr), the access then not performed (R73). -/
def memRead (a : Word) : Engine Byte := fun s =>
  if s.memOK a .read then
    .ok (busRead a s).1 { (busRead a s).2 with accesses := s.accesses ++ [.read a (busRead a s).1] }
  else .error { kind := .bus, info := a } s

/-- `MemWrite(addr, 1, v)` (R12). -/
def memWrite (a : Word) (b : Byte) : Engine Unit := fun s =>
  if s.memOK a .write then .ok () { busWrite a b s with accesses := s.accesses ++ [.write a b] }
  else .error { kind := .bus, info := a } s

/-- The address of offset `i` of the source region (R12). -/
def State.srcAt (s : State) (i : Nat) : Word := s.srcAddr + BitVec.ofNat 32 i

/-- The address of offset `i` of the destination region (R12). -/
def State.dstAt (s : State) (i : Nat) : Word := s.dstAddr + BitVec.ofNat 32 i

/-- `SrcByte(i)` (R12). -/
def srcByte (i : Nat) : Engine Byte := do
  let s ← get
  memRead (s.srcAt i)

/-- `Put(b)` (R12): the capacity is tested before the write (60_exceptions.md R238, R241). -/
def put (b : Byte) : Engine Unit := do
  let s ← get
  if s.cursor = s.dstCap.toNat then
    throw { kind := .dstOverflow, info := s.dstCap }
  else
    memWrite (s.dstAt s.cursor) b
    modify fun s => { s with cursor := s.cursor + 1 }

/-- `PutStr(t)` (R12): Put of every byte in order. -/
def putStr : List Byte → Engine Unit
  | [] => pure ()
  | b :: t => do
    put b
    putStr t

/-! ### Acceptance, execution, termination -/

/-- Acceptance of the word `c` (30_encoding.md R116), as one change: BUSY, DONE, ERR, ERRCODE, ERRINFO and STAGE, and
the hidden state starts afresh (10_state.md R49). The operand registers are taken as they stand. -/
def accept (c : Word) (s : State) : State :=
  { s with
    running := some c
    done := false
    err := none
    errInfo := 0
    stage := .none
    progress := .start
    cursor := 0
    accesses := [] }

/-- The end of the hidden state (10_state.md R49): no command runs. -/
def State.idle (s : State) : State := { s with running := none, progress := .start, cursor := 0, raced := [] }

/-- Error termination (60_exceptions.md R243), the one operation every error is taken by. STAGE stays as it is. -/
def errorTerminate (r : Raise) (s : State) : State :=
  { s.idle.dropResults with done := true, err := some r.kind, errInfo := r.info }

/-- Normal termination (60_exceptions.md R244). -/
def normalTerminate (s : State) : State := { s.idle with done := true }

/-- The admission checks after the legality of the word (60_exceptions.md R240), in their order. -/
def admission (i : Instr) (s : State) : Option Raise :=
  if !tablesReady i s then some { kind := .sequence, info := encode i }
  else if rangeBad i s then some { kind := .range, info := encode i }
  else none

/-- `STAGE <-` the number of the stage (30_encoding.md R117). -/
def enter (st : Stage) : Engine Unit := modify fun s => { s with stage := st }

/-- How a command ends once its stages have run (30_encoding.md R117, step 4). -/
def terminate : EStateM.Result Raise State Unit → State
  | .ok _ s => normalTerminate s
  | .error r s => errorTerminate r s

/-- A command from its acceptance to its termination (30_encoding.md R116, R117): acceptance (which changes nothing
where it has been made already, log 2), admission, the stages, one termination. -/
def runCommand (i : Instr) (stages : Engine Unit) (s : State) : Host.Outcome State Fault Refusal :=
  match admission i (accept (encode i) s) with
  | some r => .next (errorTerminate r (accept (encode i) s))
  | none =>
    if touchesDevice i s then .refused .deviceMemory
    else .next (terminate (stages.run (accept (encode i) s)))

/-- An accepted word that is not legal ends at once with IllegalCommand (60_exceptions.md R235; 30_encoding.md
R102). -/
def runIllegal (c : Word) (s : State) : Host.Outcome State Fault Refusal :=
  .next (errorTerminate { kind := .illegalCommand, info := c } (accept c s))

end Sys2Proof.Machine
end

