-- ==== Sys2Proof/Machine/Control.lean ====
section
/-! DEFINITION. The commands that run no stage (44_control.md). -/

namespace Sys2Proof.Machine

/-- NOP (R220): acceptance and normal termination, nothing else. -/
def execNop (s : State) : Host.Outcome State Fault Refusal := runCommand .nop (pure ()) s

/-- CLEAR (R221): the flags and the result registers to 0; the table contents are not cleared. -/
def execClear (s : State) : Host.Outcome State Fault Refusal := runCommand .clear (modify State.dropResults) s

end Sys2Proof.Machine
end

