-- ==== Sys2Proof/Machine/Decoder.lean ====
section
/-! DEFINITION. PARSE, MATCH and DECODE (43_decoder.md). -/

namespace Sys2Proof.Machine

/-! ### PARSE (R190 to R195) -/

/-- `N <- 0 ; k <- 0` (R190). -/
def Parser.start : Parser := { phase := .size, n := 0, rows := 0, sym := 0, k := 0 }

/-- What one header byte does. -/
inductive ParseStep
  /-- `Bad()` (R190): the byte is not allowed at its place -/
  | bad
  /-- the header goes on, the code table being `t` so far -/
  | more (p : Parser) (t : CodeTable)
  /-- the byte ends the header -/
  | done
deriving DecidableEq, Repr

/-- A byte of the size line (R190, R191). -/
def parseSize (p : Parser) (t : CodeTable) (b : Byte) : ParseStep :=
  if b = LF then
    if p.k = 0 then .bad
    else if Config.nsymMax < p.n then .bad
    else .more { p with phase := if p.n = 0 then .blank else .symbol, rows := p.n } t
  else if !isDigit b then .bad
  else if p.k = 3 then .bad
  else if p.k = 0 ∧ b = 0x30 then .bad
  else .more { p with n := 10 * p.n + (b.toNat - 0x30), k := p.k + 1 } t

/-- The symbol of a row: any byte that has no row yet (R190, R192). -/
def parseSymbol (p : Parser) (t : CodeTable) (b : Byte) : ParseStep :=
  if t.len b ≠ 0 then .bad else .more { p with phase := .tab, sym := b } t

/-- The TAB after the symbol (R190, R192). -/
def parseTab (p : Parser) (t : CodeTable) (b : Byte) : ParseStep :=
  if b ≠ TAB then .bad else .more { p with phase := .prob, k := 0 } t

/-- A byte of the probability field, whose value is not used (R190, R192; 30_encoding.md R109, R113). -/
def parseProb (p : Parser) (t : CodeTable) (b : Byte) : ParseStep :=
  if b = TAB then
    if p.k = 0 then .bad else .more { p with phase := .code } t
  else if !isProbChar b then .bad
  else .more { p with k := p.k + 1 } t

/-- A byte of the codeword (R190, R192): 1 to 255 bits, then LF. -/
def parseCode (p : Parser) (t : CodeTable) (b : Byte) : ParseStep :=
  if b = LF then
    if t.len p.sym = 0 then .bad
    else .more { p with phase := if p.rows = 1 then .blank else .symbol, rows := p.rows - 1 } t
  else if !isBitChar b then .bad
  else if t.len p.sym = Config.cwMax then .bad
  else .more p (t.append p.sym (charBit b))

/-- The blank line (R190, R193). -/
def parseBlank (b : Byte) : ParseStep := if b ≠ LF then .bad else .done

/-- What a header byte does in its phase (R190). -/
def parseByte (p : Parser) (t : CodeTable) (b : Byte) : ParseStep :=
  match p.phase with
  | .size => parseSize p t b
  | .symbol => parseSymbol p t b
  | .tab => parseTab p t b
  | .prob => parseProb p t b
  | .code => parseCode p t b
  | .blank => parseBlank b

/-- What PARSE writes at the end of the header (R190): `n` rows read, `pos` bytes consumed. -/
def parseResults (n pos : Nat) (s : State) : State :=
  { s.setValid false false true with
    nsym := BitVec.ofNat 32 n
    bsOff := BitVec.ofNat 32 pos
    bitLen := BitVec.ofNat 32 (s.srcLen.toNat - pos)
    total := 0 }

/-- The header loop (R190): `left` source bytes from offset `pos` on. `Next()` raises when there is none left;
`Bad()` names the offset of the byte just read. -/
def parseLoop : Nat → Nat → Parser → Engine Unit
  | 0, _, _ => do
    let s ← get
    throw { kind := .malformedArtifact, info := s.srcLen }
  | left + 1, pos, p => do
    let b ← srcByte pos
    let s ← get
    match parseByte p s.codes b with
    | .bad => throw { kind := .malformedArtifact, info := BitVec.ofNat 32 pos }
    | .more p' t => do
      set { s with codes := t }
      parseLoop left (pos + 1) p'
    | .done => set (parseResults p.n (pos + 1) s)

/-- What the PARSE stage does before its first read (R190). -/
def parseBegin : Engine Unit := do
  enter .parse
  modify fun s => { s with codes := CodeTable.empty }

/-- The PARSE stage from the source byte at offset `pos` on (R190). -/
def parseFrom (pos : Nat) (p : Parser) : Engine Unit := do
  let s ← get
  parseLoop (s.srcLen.toNat - pos) pos p

/-- The PARSE stage (R190). -/
def parseStage : Engine Unit := do
  parseBegin
  parseFrom 0 Parser.start

/-- The command PARSE (R190). -/
def execParse (s : State) : Host.Outcome State Fault Refusal := runCommand .parse parseStage s

/-! ### MATCH (R197 to R204) -/

/-- The first symbol, in ascending order, whose codeword equals the accumulator (R197, R199). -/
def findSymbol (t : CodeTable) (acc : Codeword) : Option Byte :=
  ((List.range 256).map (BitVec.ofNat 8)).find? fun s => t.len s == acc.length && t.code s == acc

/-- The matching loop (R197): `left` bitstream bytes from offset `j` on, the accumulator and the offset of its first
bit. What is left in the accumulator at the end raises UnmatchedBitsError (R200). -/
def matchLoop : Nat → Nat → Codeword → Nat → Engine Unit
  | 0, _, acc, start =>
    if acc = [] then pure () else throw { kind := .unmatchedBits, info := BitVec.ofNat 32 start }
  | left + 1, j, acc, start => do
    let b ← srcByte j
    if !isBitChar b then
      throw { kind := .malformedArtifact, info := BitVec.ofNat 32 j }
    else
      let s ← get
      let start' := if acc = [] then j else start
      match findSymbol s.codes (acc ++ [charBit b]) with
      | some c => do
        put c
        matchLoop left (j + 1) [] start'
      | none => matchLoop left (j + 1) (acc ++ [charBit b]) start'

/-- `DST_LEN <- w ; BITLEN <- SRC_LEN - base` (R197). -/
def matchResults (base : Nat) (s : State) : State :=
  { s with dstLen := BitVec.ofNat 32 s.cursor, bitLen := BitVec.ofNat 32 (s.srcLen.toNat - base) }

/-- The MATCH stage from the bitstream byte at offset `j` on, with the accumulator and the offset of its first bit
(R197). -/
def matchFrom (base j : Nat) (acc : Codeword) (start : Nat) : Engine Unit := do
  let s ← get
  matchLoop (s.srcLen.toNat - j) j acc start
  modify (matchResults base)

/-- The MATCH stage (R197) from the offset `base` on: 0 for MATCH, BS_OFF for DECODE. -/
def matchStage (base : Nat) : Engine Unit := do
  enter .matchBits
  matchFrom base base [] base

/-- The command MATCH (R197). -/
def execMatch (s : State) : Host.Outcome State Fault Refusal := runCommand .matchBits (matchStage 0) s

/-- The stages of DECODE (R205; 30_encoding.md R124). -/
def decodeStages : Engine Unit := do
  parseStage
  let s ← get
  matchStage s.bsOff.toNat

/-- The command DECODE (R205). -/
def execDecode (s : State) : Host.Outcome State Fault Refusal := runCommand .decode decodeStages s

end Sys2Proof.Machine
end

