-- ==== Sys2Proof/Machine/FreqPtab.lean ====
section
/-! DEFINITION. FREQ and PTAB (40_freq_ptab.md). -/

namespace Sys2Proof.Machine

/-! ### FREQ (R130) -/

/-- `FREQ[b] <- FREQ[b] + 1`. -/
def countByte (b : Byte) (t : Table Word) : Table Word := t.put b.toNat (t.at b.toNat + 1)

/-- The counting loop of R130: `n` source bytes from offset `i` on. -/
def freqLoop : Nat → Nat → Engine Unit
  | 0, _ => pure ()
  | n + 1, i => do
    let b ← srcByte i
    modify fun s => { s with freq := countByte b s.freq }
    freqLoop n (i + 1)

/-- The symbols with a count of at least 1, ascending. -/
def alphabet (t : Table Word) : List Byte :=
  ((List.range 256).filter fun i => 1 ≤ (t.at i).toNat).map (BitVec.ofNat 8)

/-- "number of s in [0,255] with FREQ[s] >= 1" (R130). -/
def alphabetSize (t : Table Word) : Nat := (alphabet t).length

/-- What FREQ writes once the bytes are counted (R130): NSYM, TOTAL and the valid flags. -/
def freqResults (s : State) : State :=
  { s.setValid true false false with nsym := BitVec.ofNat 32 (alphabetSize s.freq), total := s.srcLen }

/-- What the FREQ stage does before its first read (R130). -/
def freqBegin : Engine Unit := do
  enter .freq
  let s ← get
  if s.srcLen = 0 then throw { kind := .emptyInput, info := 0 }
  else modify fun s => { s with freq := Table.zeros }

/-- The FREQ stage from the source byte at offset `i` on (R130). -/
def freqFrom (i : Nat) : Engine Unit := do
  let s ← get
  freqLoop (s.srcLen.toNat - i) i
  modify freqResults

/-- The FREQ stage (R130). -/
def freqStage : Engine Unit := do
  freqBegin
  freqFrom 0

/-- The command FREQ (R130). -/
def execFreq (s : State) : Host.Outcome State Fault Refusal := runCommand .freq freqStage s

/-! ### PTAB (R132, R133) -/

/-- A ProbabilityEntry: a symbol and its probability. -/
structure Entry where
  symbol : Byte
  prob : Double
deriving DecidableEq, Repr

/-- R133: probability descending, among equal probabilities symbol ascending. -/
def before (x y : Entry) : Bool :=
  !fle x.prob y.prob || (fle x.prob y.prob && fle y.prob x.prob && x.symbol < y.symbol)

/-- Put an entry at its place in an ordered list. -/
def insertEntry (x : Entry) : List Entry → List Entry
  | [] => [x]
  | y :: ys => if before x y then x :: y :: ys else y :: insertEntry x ys

/-- The entries in the order of R133. -/
def sortEntries : List Entry → List Entry
  | [] => []
  | x :: xs => insertEntry x (sortEntries xs)

/-- The entries of the symbols of a FREQ table with their probabilities `count / total`, symbols ascending
(R132). -/
def entries (freq : Table Word) (total : Nat) : List Entry :=
  (alphabet freq).map fun b => { symbol := b, prob := fdiv (freq.at b.toNat).toNat total }

/-- `PSYM[i] <- E[i].symbol ; PROB[i] <- E[i].probability` from position `i` on (R132). -/
def storeEntries : Nat → List Entry → State → State
  | _, [], s => s
  | i, x :: xs, s => storeEntries (i + 1) xs { s with psym := s.psym.put i x.symbol, prob := s.prob.put i x.prob }

/-- What PTAB writes (R132): PSYM, PROB, PV and CV. -/
def ptabResults (s : State) : State :=
  (storeEntries 0 (sortEntries (entries s.freq s.total.toNat)) s).setValid s.fv true false

/-- The PTAB stage (R132). -/
def ptabStage : Engine Unit := do
  enter .ptab
  modify ptabResults

/-- The command PTAB (R132). -/
def execPtab (s : State) : Host.Outcome State Fault Refusal := runCommand .ptab ptabStage s

end Sys2Proof.Machine
end

