-- ==== Sys2Proof/Machine/Tree.lean ====
section
/-! DEFINITION. TREE, the probability-bisection tree builder (41_tree.md). -/

namespace Sys2Proof.Machine

/-- The indexes `lo` to `hi`, both included, ascending (R152). -/
def indexes (lo hi : Nat) : List Nat := List.range' lo (hi + 1 - lo)

/-- Line B3 (R152, R155): the sum of `PROB[i]` over the indexes, ascending, from +0.0. -/
def probSum (prob : Table Double) (is : List Nat) : Double := is.foldl (fun p i => fadd p (prob.at i)) 0

/-- Line B5 (R152, R156): the first index whose running sum is above half, `p` being the sum before the indexes. -/
def firstAbove (prob : Table Double) (half : Double) : Double → List Nat → Option Nat
  | _, [] => none
  | p, i :: is => if fle (fadd p (prob.at i)) half then firstAbove prob half (fadd p (prob.at i)) is else some i

/-- Lines B3 to B7 (R152, R155 to R158): the split point of a range. -/
def splitPoint (prob : Table Double) (lo hi : Nat) : Nat :=
  match firstAbove prob (fhalf (probSum prob (indexes lo hi))) 0 (indexes lo hi) with
  | none => lo + 1
  | some i => if i = lo then lo + 1 else i

/-- Line B8 (R152, R159): every element of the range gets one bit, 0 below the split point, 1 otherwise. -/
def appendBits (psym : Table Byte) (split : Nat) : List Nat → CodeTable → CodeTable
  | [], t => t
  | i :: is, t => appendBits psym split is (t.append (psym.at i) (decide (split ≤ i)))

/-- `Bisect(lo, hi)` (R152), at most `fuel` calls deep; a range of `m` elements needs no more than `m` (R161;
log 18). -/
def bisect (psym : Table Byte) (prob : Table Double) : Nat → Nat → Nat → CodeTable → CodeTable
  | 0, _, _, t => t
  | fuel + 1, lo, hi, t =>
    if lo = hi then t
    else if hi - lo = 1 then (t.append (psym.at lo) false).append (psym.at hi) true
    else
      let split := splitPoint prob lo hi
      bisect psym prob fuel split hi
        (bisect psym prob fuel lo (split - 1) (appendBits psym split (indexes lo hi) t))

/-- The code table TREE builds from the first `n` entries of the probability table (R150, R151). -/
def buildTree (psym : Table Byte) (prob : Table Double) (n : Nat) : CodeTable :=
  if n = 1 then CodeTable.empty.append (psym.at 0) false
  else bisect psym prob n 0 (n - 1) CodeTable.empty

/-- What TREE writes (R150): CLEN, CBITS and CV. -/
def treeResults (s : State) : State :=
  { s.setValid s.fv s.pv true with codes := buildTree s.psym s.prob s.nsym.toNat }

/-- The TREE stage (R150). -/
def treeStage : Engine Unit := do
  enter .tree
  modify treeResults

/-- The command TREE (R150). -/
def execTree (s : State) : Host.Outcome State Fault Refusal := runCommand .tree treeStage s

end Sys2Proof.Machine
end

