-- ==== Sys2Proof/Machine/Encoder.lean ====
section
/-! DEFINITION. EMIT and ENCODE (42_encoder.md); the artifact format (30_encoding.md R106 to R112). -/

namespace Sys2Proof.Machine

/-- Row `i` of the artifact (30_encoding.md R108). -/
def artifactRow (s : State) (i : Nat) : List Byte :=
  [s.psym.at i, TAB] ++ probText (s.prob.at i) ++ [TAB] ++ bitsText (s.codes.code (s.psym.at i)) ++ [LF]

/-- The header: size line, rows, blank line (30_encoding.md R106, R107, R110; R171). It depends on the tables
only. -/
def artifactHeader (s : State) : List Byte :=
  dec s.nsym.toNat ++ [LF] ++ (List.range s.nsym.toNat).flatMap (artifactRow s) ++ [LF]

/-- The bitstream packer (R173): `n` source bytes from offset `j` on; a byte without a codeword raises
UnknownSymbolError before any bit of it is written (R174). -/
def emitLoop : Nat → Nat → Engine Unit
  | 0, _ => pure ()
  | n + 1, j => do
    let b ← srcByte j
    let s ← get
    if s.codes.len b = 0 then
      throw { kind := .unknownSymbol, info := BitVec.ofNat 32 j }
    else
      putStr (bitsText (s.codes.code b))
      emitLoop n (j + 1)

/-- `BS_OFF <- hdr ; BITLEN <- w - hdr ; DST_LEN <- w` (R170). -/
def emitResults (hdr : Nat) (s : State) : State :=
  { s with
    bsOff := BitVec.ofNat 32 hdr
    bitLen := BitVec.ofNat 32 (s.cursor - hdr)
    dstLen := BitVec.ofNat 32 s.cursor }

/-- The EMIT stage from the source byte at offset `j` on, the header having `hdr` bytes (R170). -/
def bitsFrom (hdr j : Nat) : Engine Unit := do
  let s ← get
  emitLoop (s.srcLen.toNat - j) j
  modify (emitResults hdr)

/-- The EMIT stage from the header bytes `rest` on (R170): `hdr <- w` once they are written. -/
def headerFrom (rest : List Byte) : Engine Unit := do
  putStr rest
  let s ← get
  bitsFrom s.cursor 0

/-- The EMIT stage (R170): the whole header, then the bitstream. -/
def emitStage : Engine Unit := do
  enter .emit
  let s ← get
  headerFrom (artifactHeader s)

/-- The command EMIT (R170). -/
def execEmit (s : State) : Host.Outcome State Fault Refusal := runCommand .emit emitStage s

/-- The stages of ENCODE (R178; 30_encoding.md R124). -/
def encodeStages : Engine Unit := do
  freqStage
  ptabStage
  treeStage
  emitStage

/-- The command ENCODE (R178). -/
def execEncode (s : State) : Host.Outcome State Fault Refusal := runCommand .encode encodeStages s

end Sys2Proof.Machine
end

