-- ==== Sys2Proof/Machine/Dispatch.lean ====
section
/-! DEFINITION. One arm per command (30_encoding.md R101). -/

namespace Sys2Proof.Machine

def exec (i : Instr) (s : State) : Host.Outcome State Fault Refusal :=
  match i with
  | .nop => Sys2Proof.Machine.execNop s
  | .clear => Sys2Proof.Machine.execClear s
  | .freq => Sys2Proof.Machine.execFreq s
  | .ptab => Sys2Proof.Machine.execPtab s
  | .tree => Sys2Proof.Machine.execTree s
  | .emit => Sys2Proof.Machine.execEmit s
  | .encode => Sys2Proof.Machine.execEncode s
  | .parse => Sys2Proof.Machine.execParse s
  | .matchBits => Sys2Proof.Machine.execMatch s
  | .decode => Sys2Proof.Machine.execDecode s

end Sys2Proof.Machine
end

