-- ==== Sys2Proof/Machine/Access.lean ====
section
/-! DEFINITION. The engine access by access, in the order of 20_memory.md R78 (70_reset_and_hazards.md R270): from each
place between two accesses what the next access does, and what is left of the command. -/

namespace Sys2Proof.Machine

/-! ### Up to the next place -/

/-- The EMIT stage up to the first byte of the header (42_encoder.md R170). -/
def emitBegin : Engine (Option Progress) := do
  enter .emit
  let s ← get
  pure (some (.header (artifactHeader s)))

/-- The MATCH stage up to its first read (43_decoder.md R197). -/
def matchBegin (base : Nat) : Engine (Option Progress) := do
  enter .matchBits
  pure (some (.matching base base [] base))

/-- An admitted command up to its first access; `none` where its stages have run to their end. -/
def begin : Instr → Engine (Option Progress)
  | .nop => pure none
  | .clear => do
    modify State.dropResults
    pure none
  | .freq | .encode => do
    freqBegin
    pure (some (.freq 0))
  | .ptab => do
    ptabStage
    pure none
  | .tree => do
    treeStage
    pure none
  | .emit => emitBegin
  | .parse | .decode => do
    parseBegin
    pure (some (.parse 0 Parser.start))
  | .matchBits => matchBegin 0

/-- What follows the FREQ stage: in ENCODE the stages PTAB, TREE and EMIT (30_encoding.md R124). -/
def afterFreq : Instr → Engine (Option Progress)
  | .encode => do
    ptabStage
    treeStage
    emitBegin
  | .nop | .clear | .freq | .ptab | .tree | .emit | .parse | .matchBits | .decode => pure none

/-- What follows the PARSE stage: in DECODE the stage MATCH from BS_OFF on (43_decoder.md R205). -/
def afterParse : Instr → Engine (Option Progress)
  | .decode => do
    let s ← get
    matchBegin s.bsOff.toNat
  | .nop | .clear | .freq | .ptab | .tree | .emit | .encode | .parse | .matchBits => pure none

/-! ### One access -/

/-- FREQ counts the byte at offset `i`, or has counted them all (40_freq_ptab.md R130). -/
def freqAccess (c : Instr) (i : Nat) : Engine (Option Progress) := do
  let s ← get
  if i < s.srcLen.toNat then
    let b ← srcByte i
    modify fun s => { s with freq := countByte b s.freq }
    pure (some (.freq (i + 1)))
  else
    modify freqResults
    afterFreq c

/-- EMIT writes a byte of the header, or has written it (42_encoder.md R171). -/
def headerAccess : List Byte → Engine (Option Progress)
  | b :: rest => do
    put b
    pure (some (.header rest))
  | [] => do
    let s ← get
    pure (some (.bits s.cursor 0 []))

/-- EMIT writes a bit of a codeword, or reads the source byte at offset `j`, or has read them all (42_encoder.md
R173, R174). -/
def bitsAccess (hdr j : Nat) : List Byte → Engine (Option Progress)
  | b :: rest => do
    put b
    pure (some (.bits hdr j rest))
  | [] => do
    let s ← get
    if j < s.srcLen.toNat then
      let b ← srcByte j
      let t ← get
      if t.codes.len b = 0 then
        throw { kind := .unknownSymbol, info := BitVec.ofNat 32 j }
      else
        pure (some (.bits hdr (j + 1) (bitsText (t.codes.code b))))
    else
      modify (emitResults hdr)
      pure none

/-- PARSE reads the byte at offset `pos`, or finds the artifact at its end (43_decoder.md R190). -/
def parseAccess (c : Instr) (pos : Nat) (p : Parser) : Engine (Option Progress) := do
  let s ← get
  if pos < s.srcLen.toNat then
    let b ← srcByte pos
    let t ← get
    match parseByte p t.codes b with
    | .bad => throw { kind := .malformedArtifact, info := BitVec.ofNat 32 pos }
    | .more p' codes => do
      set { t with codes := codes }
      pure (some (.parse (pos + 1) p'))
    | .done => do
      set (parseResults p.n (pos + 1) t)
      afterParse c
  else
    throw { kind := .malformedArtifact, info := s.srcLen }

/-- MATCH reads the bitstream byte at offset `j`, or has read them all (43_decoder.md R197, R200, R201). -/
def matchAccess (base j : Nat) (acc : Codeword) (start : Nat) : Engine (Option Progress) := do
  let s ← get
  if j < s.srcLen.toNat then
    let b ← srcByte j
    if !isBitChar b then
      throw { kind := .malformedArtifact, info := BitVec.ofNat 32 j }
    else
      let t ← get
      let start' := if acc = [] then j else start
      match findSymbol t.codes (acc ++ [charBit b]) with
      | some c => pure (some (.found base (j + 1) c start'))
      | none => pure (some (.matching base (j + 1) (acc ++ [charBit b]) start'))
  else if acc = [] then
    modify (matchResults base)
    pure none
  else
    throw { kind := .unmatchedBits, info := BitVec.ofNat 32 start }

/-- From a place of the command `c`, the next access at most, and the place after it; `none` where the stages have run
to their end. -/
def advance (c : Instr) : Progress → Engine (Option Progress)
  | .start => begin c
  | .freq i => freqAccess c i
  | .header rest => headerAccess rest
  | .bits hdr j rest => bitsAccess hdr j rest
  | .parse pos p => parseAccess c pos p
  | .matching base j acc start => matchAccess base j acc start
  | .found base j b start => do
    put b
    pure (some (.matching base j [] start))

/-! ### What is left of a command -/

/-- The stages of a command left after the FREQ stage (30_encoding.md R124). -/
def restAfterFreq : Instr → Engine Unit
  | .encode => do
    ptabStage
    treeStage
    emitStage
  | .nop | .clear | .freq | .ptab | .tree | .emit | .parse | .matchBits | .decode => pure ()

/-- The stages of a command left after the PARSE stage (43_decoder.md R205). -/
def restAfterParse : Instr → Engine Unit
  | .decode => do
    let s ← get
    matchStage s.bsOff.toNat
  | .nop | .clear | .freq | .ptab | .tree | .emit | .encode | .parse | .matchBits => pure ()

/-- The stages of a command from their beginning (30_encoding.md R101, column "stages run"). -/
def stages : Instr → Engine Unit
  | .nop => pure ()
  | .clear => modify State.dropResults
  | .freq => freqStage
  | .ptab => ptabStage
  | .tree => treeStage
  | .emit => emitStage
  | .encode => encodeStages
  | .parse => parseStage
  | .matchBits => matchStage 0
  | .decode => decodeStages

/-- The stages of the command `c` from a place on, to their end. -/
def finish (c : Instr) : Progress → Engine Unit
  | .start => stages c
  | .freq i => do
    freqFrom i
    restAfterFreq c
  | .header rest => headerFrom rest
  | .bits hdr j rest => do
    putStr rest
    bitsFrom hdr j
  | .parse pos p => do
    parseFrom pos p
    restAfterParse c
  | .matching base j acc start => matchFrom base j acc start
  | .found base j b start => do
    put b
    matchFrom base j [] start

/-! ### The engine's turns -/

/-- The state while a piece of a command is at work: the place it starts from is taken up. -/
def State.resumed (s : State) : State := { s with progress := .start }

/-- The state after a piece of a command: between two accesses, or terminated (60_exceptions.md R243, R244). -/
def pause : EStateM.Result Raise State (Option Progress) → State
  | .ok (some p) s => { s with progress := p }
  | .ok none s => normalTerminate s
  | .error r s => errorTerminate r s

/-- The running command makes its next access at most. From acceptance on that begins with the admission checks
(30_encoding.md R117), and for a region of device memory it is refused (20_memory.md R76). An idle engine starts
nothing of its own (60_exceptions.md R246). -/
def accessTurn (s : State) : Host.Outcome State Fault Refusal :=
  match s.running with
  | none => .next s
  | some w =>
    match decode w with
    | .error _ => runIllegal w s
    | .ok c =>
      if s.progress = .start then
        match admission c (accept w s) with
        | some r => .next (errorTerminate r (accept w s))
        | none =>
          if touchesDevice c s then .refused .deviceMemory
          else .next (pause ((advance c .start).run (accept w s)))
      else .next (pause ((advance c s.progress).run s.resumed))

/-- The running command runs to its termination (30_encoding.md R117): the whole of it, or what is left of it after
some accesses. -/
def engineTurn (s : State) : Host.Outcome State Fault Refusal :=
  match s.running with
  | none => .next s
  | some w =>
    match decode w with
    | .error _ => runIllegal w s
    | .ok c => if s.progress = .start then exec c s else .next (terminate ((finish c s.progress).run s.resumed))

end Sys2Proof.Machine
end

