-- ==== Sys2Proof/Machine/HostPort.lean ====
section
/-! DEFINITION. The host (00_scope.md R8): the register space behind the host port (10_state.md R21, 20_memory.md
R71), the host's own memory accesses, the input `rst`, the engine's turn, and the host script (30_encoding.md
R125). -/

namespace Sys2Proof.Machine

/-! ### The register map (10_state.md R21) -/

/-- A word of the register space. -/
inductive Reg
  | id
  | ctrl
  | status
  | cmd
  | srcAddr
  | srcLen
  | dstAddr
  | dstCap
  | dstLen
  | nsym
  | total
  | bitLen
  | bsOff
  | errInfo
  | freq (s : Byte)
  | psym (i : Byte)
  | clen (s : Byte)
  | probLo (i : Byte)
  | probHi (i : Byte)
  | cbits (s : Byte) (w : Nat)
  | reserved
deriving DecidableEq, Repr

/-- The fourteen registers at word indexes 0 to 13; the indexes above, up to the windows, are reserved (R21, R36). -/
def lowReg (k : Nat) : Reg :=
  if k = 0 then .id
  else if k = 1 then .ctrl
  else if k = 2 then .status
  else if k = 3 then .cmd
  else if k = 4 then .srcAddr
  else if k = 5 then .srcLen
  else if k = 6 then .dstAddr
  else if k = 7 then .dstCap
  else if k = 8 then .dstLen
  else if k = 9 then .nsym
  else if k = 10 then .total
  else if k = 11 then .bitLen
  else if k = 12 then .bsOff
  else if k = 13 then .errInfo
  else .reserved

/-- The map of R21: the word at byte offset `4 * idx`. -/
def regAt (idx : BitVec 12) : Reg :=
  let k := idx.toNat
  if k < 0x400 / 4 then lowReg k
  else if k < 0x800 / 4 then .freq (BitVec.ofNat 8 (k - 0x400 / 4))
  else if k < 0xC00 / 4 then .psym (BitVec.ofNat 8 (k - 0x800 / 4))
  else if k < 0x1000 / 4 then .clen (BitVec.ofNat 8 (k - 0xC00 / 4))
  else if k < 0x1800 / 4 then
    if k % 2 = 0 then .probLo (BitVec.ofNat 8 ((k - 0x1000 / 4) / 2)) else .probHi (BitVec.ofNat 8 ((k - 0x1000 / 4) / 2))
  else if k < 0x2000 / 4 then .reserved
  else .cbits (BitVec.ofNat 8 ((k - 0x2000 / 4) / 8)) (k % 8)

/-- The address of a register word in the host's address map (R21, open parameter P2; log 9). -/
def hostAddress (idx : BitVec 12) : Nat := Config.regBase + 4 * idx.toNat

/-! ### Host-port reads -/

/-- The value a read returns when no command runs; `none` where the spec leaves it unspecified (10_state.md R43,
R46). -/
def readIdle (s : State) : Reg → Option Word
  | .id => some Config.idWord
  | .ctrl => some s.ctrlWord
  | .status => some s.statusWord
  | .cmd => some 0
  | .srcAddr => some s.srcAddr
  | .srcLen => some s.srcLen
  | .dstAddr => some s.dstAddr
  | .dstCap => some s.dstCap
  | .dstLen => some s.dstLen
  | .nsym => some s.nsym
  | .total => some s.total
  | .bitLen => some s.bitLen
  | .bsOff => some s.bsOff
  | .errInfo => some s.errInfo
  | .freq b => if s.fv then some (s.freq.at b.toNat) else none
  | .psym i => if s.pv ∧ i.toNat < s.nsym.toNat then some ((s.psym.at i.toNat).setWidth 32) else none
  | .clen b => if s.cv then some ((s.codes.clen.at b.toNat).setWidth 32) else none
  | .probLo i => if s.pv ∧ i.toNat < s.nsym.toNat then some ((s.prob.at i.toNat).extractLsb' 0 32) else none
  | .probHi i => if s.pv ∧ i.toNat < s.nsym.toNat then some ((s.prob.at i.toNat).extractLsb' 32 32) else none
  | .cbits b w => if s.cv then some (s.codes.word b w) else none
  | .reserved => some 0

/-- The value a read returns while BUSY = 1, `free` being the free value drawn for it (70_reset_and_hazards.md
R264): STATUS has its defined fields and free FV, PV, CV and STAGE; result registers and windows are free. -/
def readBusy (s : State) (free : Word) : Reg → Option Word
  | .id => some Config.idWord
  | .ctrl => some s.ctrlWord
  | .status => some (s.statusLow ||| (free &&& statusHighMask))
  | .cmd => some 0
  | .srcAddr => some s.srcAddr
  | .srcLen => some s.srcLen
  | .dstAddr => some s.dstAddr
  | .dstCap => some s.dstCap
  | .reserved => some 0
  | .dstLen | .nsym | .total | .bitLen | .bsOff | .errInfo => none
  | .freq _ | .psym _ | .clen _ | .probLo _ | .probHi _ | .cbits _ _ => none

/-- The word a host-port read returns; a value the spec leaves unspecified is the free value (R43, R46, R264). -/
def portValue (s : State) (idx : BitVec 12) : Word :=
  let free := Config.freeWord s.draws
  let v := if s.busy then readBusy s free (regAt idx) else readIdle s (regAt idx)
  v.getD free

/-- A host-port read (20_memory.md R71): no side effect on the engine. A fresh free value stands ready for every
read (log 6). -/
def portRead (idx : BitVec 12) (s : State) : State :=
  { s with readData := portValue s idx, draws := s.draws + 1 }

/-! ### Host-port writes -/

/-- A write when no command runs: the effect the register's rule gives it (10_state.md R22 to R36, R45). -/
def writeIdle (v : Word) (s : State) : Reg → State
  | .ctrl => { s with ie := v.getLsbD 0 }
  | .status => s.writeStatus v
  | .cmd => accept v s
  | .srcAddr => { s with srcAddr := v }
  | .srcLen => { s with srcLen := v }
  | .dstAddr => { s with dstAddr := v }
  | .dstCap => { s with dstCap := v }
  | .id | .dstLen | .nsym | .total | .bitLen | .bsOff | .errInfo | .reserved => s
  | .freq _ | .psym _ | .clen _ | .probLo _ | .probHi _ | .cbits _ _ => s

/-- A host-port write (20_memory.md R71). While BUSY = 1 it is ignored (70_reset_and_hazards.md R264). While `rst` is
asserted the registers stay at their values of reset and no command runs, so it is without effect (R260; log 24). -/
def portWrite (idx : BitVec 12) (v : Word) (s : State) : State :=
  if s.busy || s.rst then s else writeIdle v s (regAt idx)

/-! ### The host's memory accesses (30_encoding.md R125; 20_memory.md R79, R80) -/

/-- The host writes a byte. Under a running command the older value is remembered: the engine's reads of the byte
may still return it (R80; log 10). -/
def hostWrite (a : Word) (b : Byte) (s : State) : State :=
  { s with
    mem := s.mem.write a.toNat b
    raced := if s.busy then (a.toNat, s.mem.read a.toNat) :: s.raced else s.raced }

/-- The host reads a byte: what memory holds (R79). A byte of the destination region under a running command is so
its old content or the byte the command leaves there, by the accesses made so far (R80; log 12). -/
def hostRead (a : Word) (s : State) : Host.Outcome State Fault Refusal :=
  .next { s with readData := (s.mem.read a.toNat).setWidth 32 }

/-! ### Reset (70_reset_and_hazards.md R260, R261) -/

/-- Every register at its value of 10_state.md R52, `rst` being released. Memory is not changed; the table contents are
unspecified and no flag is 1 (R46; log 5). -/
def resetRegisters (s : State) : State :=
  { State.reset with
    freq := s.freq
    psym := s.psym
    prob := s.prob
    codes := s.codes
    mem := s.mem
    platform := s.platform
    inputs := s.inputs
    readData := s.readData
    draws := s.draws }

/-- A pulse of the input `rst` (R260). A running command is abandoned between two of its accesses: no termination takes place, and
memory keeps the bytes it has written so far (R261; log 11). -/
def hostReset (s : State) : Host.Outcome State Fault Refusal := .next (resetRegisters s)

/-- The input `rst` driven to a level (R260). Asserting it is the reset, which abandons a running command (R261), and the
state stays so while it is held; at the moment it is released the state is that of R52. Releasing it when it is not
asserted changes nothing. -/
def driveReset (asserted : Bool) (s : State) : State :=
  if asserted then { resetRegisters s with rst := true }
  else if s.rst then resetRegisters s
  else s

/-! ### One event -/

/-- What one event does. -/
def event (e : Event) (s : State) : Host.Outcome State Fault Refusal :=
  match e with
  | .portWrite idx v => .next (portWrite idx v s)
  | .portRead idx => .next (portRead idx s)
  | .memWrite a b => .next (hostWrite a b s)
  | .memRead a => hostRead a s
  | .engine => engineTurn s
  | .access => accessTurn s
  | .reset => hostReset s
  | .rst asserted => .next (driveReset asserted s)

/-- Whoever has the turn acts: the head of the list of inputs, or the engine when the list is empty (log 13). -/
def turn (s : State) : Host.Outcome State Fault Refusal :=
  match s.inputs with
  | [] => engineTurn s
  | e :: rest => event e { s with inputs := rest }

/-- The state with the command word `c` accepted and the engine's turn next: the state in which the next step runs
the command (log 13). -/
def withCommand (s : State) (c : Word) : State := { accept c s with inputs := .engine :: s.inputs }

/-! ### The host script (30_encoding.md R125) -/

/-- Line `WR`: a write of the register at a byte offset. -/
def scriptWr (offset : Nat) (v : Word) : List Event := [.portWrite (BitVec.ofNat 12 (offset / 4)) v]

/-- Line `RD`: a read of the register at a byte offset. -/
def scriptRd (offset : Nat) : List Event := [.portRead (BitVec.ofNat 12 (offset / 4))]

/-- Line `CMD`: `WR CMD,` the command word. -/
def scriptCmd (i : Instr) : List Event := scriptWr 0x0C (encode i)

/-- Line `WAIT`: the engine ends its command, and the read of STATUS that sees it. -/
def scriptWait : List Event := .engine :: scriptRd 0x08

/-- Line `ACK`: `WR STATUS, 0x00000006`. -/
def scriptAck : List Event := scriptWr 0x08 0x06

/-- Line `MEM`: bytes put in memory from an address on. -/
def scriptMem : Word → List Byte → List Event
  | _, [] => []
  | a, b :: bs => .memWrite a b :: scriptMem (a + 1) bs

end Sys2Proof.Machine
end

