-- ==== Sys2Proof/Machine/Step.lean ====
section
/-! DEFINITION. One step of the machine, and the state in which the next step runs a given command word. -/

namespace Sys2Proof.Machine

/-- One step: one event of the host, or the engine's turn (00_scope.md R8; 70_reset_and_hazards.md R270). -/
def step (s : State) : Host.Outcome State Fault Refusal := turn s

/-- The state with the command word of the bits `w` accepted (30_encoding.md R116), so that the next step runs it.
SFE fetches nothing (10_state.md R50): a command comes from the host's write to CMD (log 13, log 21). -/
def State.withFetchWord (s : State) (_nbits w : Nat) : State := withCommand s (BitVec.ofNat 32 w)

end Sys2Proof.Machine
end

