-- ==== Sys2Proof/Safety.lean ====
section
/-! DEFINITION. The terms the claims use: what the regions hold, what a command finds admitted, the text grammar of an
artifact, the codewords by range and the cuts of a bitstream written without the machine, and the invariant. -/

namespace Sys2Proof.Machine

/-! ### Regions and hypotheses -/

/-- The bytes of the source region, in address order (00_scope.md R19). -/
def srcBytes (s : State) : List Byte := (List.range s.srcLen.toNat).map fun i => s.mem.read (s.srcAt i).toNat

/-- The first `n` bytes from DST_ADDR on. -/
def dstBytes (s : State) (n : Nat) : List Byte := (List.range n).map fun k => s.mem.read (s.dstAt k).toNat

/-- The platform admits a read of every byte of the source region (20_memory.md R73). -/
def srcReadable (s : State) : Bool := (List.range s.srcLen.toNat).all fun i => s.memOK (s.srcAt i) .read

/-- The platform admits a write of the first `n` bytes from DST_ADDR on (20_memory.md R73). -/
def dstWritable (s : State) (n : Nat) : Bool := (List.range n).all fun k => s.memOK (s.dstAt k) .write

/-- The command passes its admission checks (60_exceptions.md R240) and no region it uses holds device memory
(20_memory.md R76). -/
def admitted (i : Instr) (s : State) : Bool := tablesReady i s && !rangeBad i s && !touchesDevice i s

/-- No byte was written by the host under the running command: the host keeps its duty of 20_memory.md R80. -/
def quiet (s : State) : Prop := s.raced = []

/-- The reads among the accesses of a command, in order. -/
def readsOf (l : List Access) : List (Word × Byte) :=
  l.filterMap fun
    | .read a b => some (a, b)
    | .write _ _ => none

/-- The writes among the accesses of a command, in order. -/
def writesOf (l : List Access) : List (Word × Byte) :=
  l.filterMap fun
    | .read _ _ => none
    | .write a b => some (a, b)

/-- What no command changes: CTRL, the operand registers (10_state.md R26 to R29), the input `rst`, the platform, the
host's queue and the last word it read. -/
def SameOperands (s t : State) : Prop :=
  t.ie = s.ie ∧ t.srcAddr = s.srcAddr ∧ t.srcLen = s.srcLen ∧ t.dstAddr = s.dstAddr ∧ t.dstCap = s.dstCap
    ∧ t.rst = s.rst ∧ t.platform = s.platform ∧ t.inputs = s.inputs ∧ t.readData = s.readData

/-- No command is running and no result is held: what an error termination leaves besides STATUS and ERRINFO
(60_exceptions.md R243). -/
def NoResults (t : State) : Prop :=
  t.fv = false ∧ t.pv = false ∧ t.cv = false ∧ t.nsym = 0 ∧ t.total = 0 ∧ t.bitLen = 0 ∧ t.bsOff = 0 ∧ t.dstLen = 0

/-- The command ended with the error `e`, the information word `info` and the stage `st` (60_exceptions.md R243). -/
def EndedWith (t : State) (e : ErrKind) (info : Word) (st : Stage) : Prop :=
  t.busy = false ∧ t.done = true ∧ t.err = some e ∧ t.errInfo = info ∧ t.stage = st ∧ NoResults t

/-- The command ended normally after the stage `st` (60_exceptions.md R244). -/
def EndedNormally (t : State) (st : Stage) : Prop :=
  t.busy = false ∧ t.done = true ∧ t.err = none ∧ t.errInfo = 0 ∧ t.stage = st

/-- The state of 10_state.md R52, as the host port shows it: every register 0 but ID, no flag, no command, irq 0, no
memory access made, and an engine that does nothing of its own. -/
def AtReset (u : State) : Prop :=
  portValue u 0 = 0x53460007
    ∧ (∀ idx : BitVec 12, 0 < idx.toNat → idx.toNat < 256 → portValue u idx = 0)
    ∧ u.busy = false ∧ u.done = false ∧ u.err = none ∧ u.fv = false ∧ u.pv = false ∧ u.cv = false
    ∧ u.irq = false ∧ u.accesses = [] ∧ step { u with inputs := [] } = .next { u with inputs := [] }

/-- The accesses are refused by the platform or not made: no byte of memory moved. -/
def NoAccess (s t : State) : Prop := t.accesses = [] ∧ t.mem = s.mem

/-! ### Code tables -/

/-- The symbols with an entry in the code table, ascending (10_state.md R44). -/
def CodeTable.symbols (t : CodeTable) : List Byte :=
  ((List.range 256).map (BitVec.ofNat 8)).filter fun b => t.len b ≠ 0

/-- No codeword of the table is a prefix of another (00_scope.md R14; 41_tree.md R162). -/
def CodeTable.prefixFree (t : CodeTable) : Bool :=
  t.symbols.all fun a => t.symbols.all fun b => a == b || !((t.code a).isPrefixOf (t.code b))

/-- Every bit of CBITS[s] at a position at or beyond CLEN[s] is 0 (10_state.md R44). -/
def CodeTable.padded (t : CodeTable) : Prop := ∀ (b : Byte) (k : Nat), t.len b ≤ k → (t.cbits.at b.toNat).getLsbD k = false

/-- `2^255` times the sum of `2^-CLEN[s]` over the symbols with an entry (41_tree.md R162). -/
def CodeTable.kraft (t : CodeTable) : Nat := (t.symbols.map fun b => 2 ^ (255 - t.len b)).sum

/-- The bits Bisect(lo, hi) appends to the codeword of the element `i` (41_tree.md R152, lines B1, B2, B8 to B10). -/
def codeIn (prob : Table Double) : Nat → Nat → Nat → Nat → Codeword
  | 0, _, _, _ => []
  | fuel + 1, lo, hi, i =>
    if lo = hi then []
    else if hi - lo = 1 then [decide (i = hi)]
    else if i < splitPoint prob lo hi then false :: codeIn prob fuel lo (splitPoint prob lo hi - 1) i
    else true :: codeIn prob fuel (splitPoint prob lo hi) hi i

/-- The first `n` entries of PSYM. -/
def ranked (psym : Table Byte) (n : Nat) : List Byte := (List.range n).map psym.at

/-- The first `n` entries of the probability table. -/
def rankedEntries (s : State) (n : Nat) : List Entry :=
  (List.range n).map fun i => { symbol := s.psym.at i, prob := s.prob.at i }

/-! ### Artifacts -/

/-- The counts of a list of bytes. -/
def countsOf (l : List Byte) : Table Word := l.foldl (fun t b => countByte b t) Table.zeros

/-- The tables ENCODE builds for an input (42_encoder.md R178): the stages' results, one after the other. -/
def tablesFor (l : List Byte) : State :=
  treeResults (ptabResults (freqResults { State.reset with freq := countsOf l, srcLen := BitVec.ofNat 32 l.length }))

/-- The bitstream of the source bytes `l` (30_encoding.md R111). -/
def bitstream (t : CodeTable) (l : List Byte) : List Byte := l.flatMap fun b => bitsText (t.code b)

/-- The artifact of an input (30_encoding.md R106). -/
def artifactOf (l : List Byte) : List Byte :=
  artifactHeader (tablesFor l) ++ bitstream (tablesFor l).codes l

/-- A row of an artifact header as PARSE accepts it (43_decoder.md R192; 30_encoding.md R113). -/
structure Row where
  symbol : Byte
  field : List Byte
  code : Codeword
deriving DecidableEq, Repr

/-- The text of a row. -/
def Row.text (r : Row) : List Byte := [r.symbol, TAB] ++ r.field ++ [TAB] ++ bitsText r.code ++ [LF]

/-- The probability field is one or more bytes of PCLASS, the codeword 1 to 255 bits (43_decoder.md R192). -/
def Row.ok (r : Row) : Bool :=
  !r.field.isEmpty && r.field.all isProbChar && !r.code.isEmpty && r.code.length ≤ Config.cwMax

/-- 1 to 256 rows, each in order, no symbol twice (43_decoder.md R191, R192). -/
def rowsOk (rows : List Row) : Bool :=
  0 < rows.length && rows.length ≤ Config.nsymMax && rows.all Row.ok && decide (rows.map Row.symbol).Nodup

/-- The header with these rows: size line, rows, blank line (43_decoder.md R191 to R193). -/
def headerText (rows : List Row) : List Byte := dec rows.length ++ [LF] ++ rows.flatMap Row.text ++ [LF]

/-- The bytes can begin a header and do not complete it (43_decoder.md R191 to R193): they are a proper prefix of one,
or a size of three digits above 256, which R191 refuses at the byte after it and not before. -/
def headerBegins (l : List Byte) : Prop :=
  (∃ rows rest, rowsOk rows = true ∧ rest ≠ [] ∧ headerText rows = l ++ rest)
    ∨ ∃ n, Config.nsymMax < n ∧ n ≤ 999 ∧ l = dec n

/-- The codeword the rows give a symbol; empty where it has no row. -/
def rowCode (rows : List Row) (b : Byte) : Codeword :=
  match rows.find? fun r => r.symbol == b with
  | some r => r.code
  | none => []

/-- The cuts of a bitstream by the per-bit accumulator (43_decoder.md R197, R198): the symbols, and the bits left in
the accumulator. -/
def cutBits (t : CodeTable) : Codeword → List Bool → List Byte × Codeword
  | acc, [] => ([], acc)
  | acc, b :: bs =>
    match findSymbol t (acc ++ [b]) with
    | some c => (c :: (cutBits t [] bs).1, (cutBits t [] bs).2)
    | none => cutBits t (acc ++ [b]) bs

/-! ### Memory -/

/-- The memory after a list of byte writes. -/
def writeAll : List (Word × Byte) → Memory → Memory
  | [], m => m
  | (a, b) :: l, m => writeAll l (m.write a.toNat b)

/-! ### Access by access -/

/-- The engine's next `n` turns, each of one access at most (70_reset_and_hazards.md R270). -/
def accessTurns : Nat → State → Host.Outcome State Fault Refusal
  | 0, s => .next s
  | n + 1, s =>
    match accessTurn s with
    | .next t => accessTurns n t
    | .fault f => .fault f
    | .refused r => .refused r

/-! ### The invariant -/

/-- The sum of the 256 counts (10_state.md R32). -/
def freqSum (t : Table Word) : Nat := ((List.range 256).map fun i => (t.at i).toNat).sum

/-- FREQ is being rebuilt (40_freq_ptab.md R130). -/
def Progress.counting : Progress → Bool
  | .freq _ => true
  | .start | .header _ | .bits _ _ _ | .parse _ _ | .matching _ _ _ _ | .found _ _ _ _ => false

/-- CLEN and CBITS are being rebuilt (43_decoder.md R190). -/
def Progress.parsing : Progress → Bool
  | .parse _ _ => true
  | .start | .freq _ | .header _ | .bits _ _ _ | .matching _ _ _ _ | .found _ _ _ _ => false

/-- What the variables of R190's pseudocode satisfy between two reads (43_decoder.md R191 to R193), `t` being the code
table so far. -/
def Parser.ok (p : Parser) (t : CodeTable) : Prop :=
  match p.phase with
  | .size => if p.k = 0 then p.n = 0 else 1 ≤ p.n
  | .symbol | .tab | .prob | .code => 1 ≤ p.rows ∧ p.rows ≤ p.n ∧ p.n ≤ Config.nsymMax
  | .blank => 1 ≤ p.n ∧ p.n ≤ Config.nsymMax ∧ t.symbols ≠ []

/-- What holds of a place inside the command `c` (20_memory.md R78; 10_state.md R41): the command runs that stage, its
tables are ready, and its read cursor is inside the source region. -/
def Progress.fits (c : Instr) (s : State) : Progress → Prop
  | .start => s.stage = .none
  | .freq i => c ∈ [.freq, .encode] ∧ s.stage = .freq ∧ i ≤ s.srcLen.toNat ∧ 1 ≤ s.srcLen.toNat ∧ freqSum s.freq = i
  | .header _ => c ∈ [.emit, .encode] ∧ s.stage = .emit ∧ s.pv = true ∧ s.cv = true
  | .bits hdr j _ =>
    c ∈ [.emit, .encode] ∧ s.stage = .emit ∧ s.pv = true ∧ s.cv = true ∧ j ≤ s.srcLen.toNat ∧ hdr ≤ s.cursor
  | .parse pos p => c ∈ [.parse, .decode] ∧ s.stage = .parse ∧ pos ≤ s.srcLen.toNat ∧ p.ok s.codes
  | .matching base j _ _ | .found base j _ _ =>
    c ∈ [.matchBits, .decode] ∧ s.stage = .matchBits ∧ s.cv = true ∧ base ≤ j ∧ j ≤ s.srcLen.toNat

/-- What holds of the machine at every moment, between two accesses of a command too. -/
structure Inv (s : State) : Prop where
  /-- the memory has its canonical form (log 3) -/
  memory : s.mem.wf = true
  /-- the valid flags are one of five triples (10_state.md R40) -/
  triples : s.validLegal = true
  /-- NSYM is 0 exactly when no flag is 1 (R31) -/
  nsymZero : s.nsym = 0 ↔ s.fv = false ∧ s.pv = false ∧ s.cv = false
  /-- NSYM is at most 256 (R31) -/
  nsymMax : s.nsym.toNat ≤ Config.nsymMax
  /-- with FV = 1 TOTAL is the sum of the counts and at least 1 (R32) -/
  counts : s.fv = true → s.progress.counting = false → freqSum s.freq = s.total.toNat ∧ 1 ≤ s.total.toNat
  /-- with FV = 1 NSYM is the number of counted symbols (R31) -/
  alphabetIs : s.fv = true → s.progress.counting = false → s.nsym.toNat = alphabetSize s.freq
  /-- with PV = 1 the probability table is that of the counts FREQ held when PTAB ran, which FREQ still holds unless it
  is being rebuilt, in the order of 40_freq_ptab.md R133 -/
  ranking : s.pv = true → ∃ f : Table Word, (s.progress.counting = false → f = s.freq)
    ∧ freqSum f = s.total.toNat ∧ 1 ≤ s.total.toNat ∧ s.nsym.toNat = alphabetSize f
    ∧ (rankedEntries s s.nsym.toNat).Perm (entries f s.total.toNat)
    ∧ (rankedEntries s s.nsym.toNat).Pairwise fun x y => before x y = true
  /-- with CV = 1, and while PARSE builds the code table, the bits beyond a codeword are 0 (R44) -/
  padding : s.cv = true ∨ s.progress.parsing = true → s.codes.padded
  /-- with CV = 1 some symbol has a codeword -/
  someCode : s.cv = true → s.progress.parsing = false → s.codes.symbols ≠ []
  /-- no more bytes are written than the destination region holds (R29; 00_scope.md R12) -/
  capacity : s.cursor ≤ s.dstCap.toNat
  /-- no hidden state outlives a command (R49) -/
  hidden : s.busy = false → s.progress = .start ∧ s.cursor = 0 ∧ s.raced = []
  /-- while a command runs, acceptance has cleared DONE and ERR (30_encoding.md R116) -/
  running : s.busy = true → s.done = false ∧ s.err = none
  /-- a running command stands at a place of its own; an illegal word has none but the start -/
  placed : ∀ w, s.running = some w →
    match decode w with
    | .ok c => s.progress.fits c s
    | .error _ => s.progress = .start ∧ s.stage = .none
  /-- while `rst` is asserted the state is that of reset (70_reset_and_hazards.md R260) -/
  held : s.rst = true → s = { resetRegisters s with rst := true }
  /-- ERRINFO is 0 when ERR is 0 (R35, R39) -/
  info : s.err = none → s.errInfo = 0
  /-- ERR = 1 leaves no result standing (60_exceptions.md R243) -/
  dropped : s.err ≠ none → NoResults s

/-! ### What the host can see of the tables -/

/-- Two states that agree in everything but in tables that hold no value: FREQ with FV = 0, PSYM and PROB with PV = 0
or at positions at or beyond NSYM, CLEN and CBITS with CV = 0 (10_state.md R43, R46; U2). A table the running command is
rebuilding is the same in both. -/
structure Indistinct (s t : State) : Prop where
  /-- every field besides the tables is the same -/
  rest : t = { s with freq := t.freq, psym := t.psym, prob := t.prob, codes := t.codes }
  freq : s.fv = true ∨ s.progress.counting = true → t.freq = s.freq
  ranks : s.pv = true → ∀ i, i < s.nsym.toNat → t.psym.at i = s.psym.at i ∧ t.prob.at i = s.prob.at i
  codes : s.cv = true ∨ s.progress.parsing = true → t.codes = s.codes

/-- Two outcomes that the host cannot tell apart. -/
def IndistinctOutcomes (x y : Host.Outcome State Fault Refusal) : Prop :=
  match x, y with
  | .next s, .next t => Indistinct s t
  | .refused r, .refused q => r = q
  | _, _ => False

end Sys2Proof.Machine
end

