-- ==== Sys2Proof/Certificates/Slice0/Obligations.lean ====
section
/-! DEFINITION. The statements for the provers. Each docstring names the rules of spec/ it formalises. -/

open Sys2Proof Sys2Proof.Machine

/-! ### Command words -/

/-- 30_encoding.md R101: the ten words of the column "command word", written out, decode to the ten commands. -/
def Obligations.TenCommandWordsDecode : Prop :=
  decode 0b00000000000000000000000000000000#32 = .ok .nop
    ∧ decode 0b00000000000000000000000000000001#32 = .ok .clear
    ∧ decode 0b00000000000000000000000000010000#32 = .ok .freq
    ∧ decode 0b00000000000000000000000000010001#32 = .ok .ptab
    ∧ decode 0b00000000000000000000000000010010#32 = .ok .tree
    ∧ decode 0b00000000000000000000000000100000#32 = .ok .emit
    ∧ decode 0b00000000000000000000000000101111#32 = .ok .encode
    ∧ decode 0b00000000000000000000000000110000#32 = .ok .parse
    ∧ decode 0b00000000000000000000000000110001#32 = .ok .matchBits
    ∧ decode 0b00000000000000000000000000111111#32 = .ok .decode

/-- 30_encoding.md R105, with the legality of R101 beside it: decoding is total, a word is one of the ten command
words (and then decodes to that command alone) or is rejected, and it is accepted exactly when it is legal. -/
def Obligations.EveryWordIsACommandOrIllegal : Prop :=
  ∀ c : Word,
    ((∃ i, decode c = .ok i ∧ ∀ j, c = encode j ↔ j = i) ∨ ((∃ e, decode c = .error e) ∧ ∀ j, c ≠ encode j))
      ∧ (legalWord c = true ↔ ∃ i, decode c = .ok i)

/-- 30_encoding.md R100, R101: the decoder gives back every command from its word. -/
def Obligations.DecodeGivesBackEveryCommand : Prop := ∀ i : Instr, i.wellFormed = true → decode (encode i) = .ok i

/-! ### The step -/

/-- 30_encoding.md R116, R117, 70_reset_and_hazards.md R270: the engine's turn is the execution of the accepted
command, whether the turn is given (the event `engine`, which is then used up) or the list of inputs is empty; inside a
command it is the rest of it, and one access of the engine is the first piece of its turn. The list and the places
inside a command are the model's own (log 1, log 13). -/
def Obligations.EngineTurnRunsTheAcceptedCommand : Prop :=
  ∀ (s : State) (c : Word) (i : Instr) (rest : List Event), s.running = some c → decode c = .ok i →
    (s.progress = .start →
        (s.inputs = [] → step s = exec i s)
          ∧ (s.inputs = .engine :: rest → step s = exec i { s with inputs := rest }))
      ∧ (s.progress ≠ .start →
        (s.inputs = [] → step s = .next (terminate ((finish i s.progress).run s.resumed)))
          ∧ (s.inputs = .engine :: rest →
              step s = .next (terminate ((finish i s.progress).run { s.resumed with inputs := rest }))))
      ∧ (s.inputs = .access :: rest → ∀ t, engineTurn { s with inputs := rest } = .next t →
          ∃ u, step s = .next u ∧ engineTurn u = .next t)

/-- The model's own interface (log 2, log 13): in the state that holds the word of a command for the next step, the
next step is the whole of that command from the state without it. -/
def Obligations.FetchedWordIsRunNext : Prop :=
  ∀ (s : State) (i : Instr), step (s.withFetchWord 32 (encode i).toNat) = exec i s

/-- 30_encoding.md R116: a write of a word to CMD with BUSY = 0 (and `rst` released: see
ResetLeavesEveryRegisterZero for a write while it is asserted) makes the changes of acceptance and no other; with
BUSY = 1 it changes nothing; and the engine's next turn ends the accepted command, by one termination (unless a
region holds device memory, 20_memory.md R76). -/
def Obligations.CmdWriteAcceptsTheCommand : Prop :=
  ∀ (s : State) (c : Word) (rest : List Event), s.inputs = .portWrite 3 c :: rest →
    (s.busy = true → step s = .next { s with inputs := rest })
      ∧ (s.busy = false → s.rst = false →
          ∃ t, step s = .next t
            ∧ t = { s with
                    inputs := rest, running := some c, done := false, err := none, errInfo := 0, stage := .none,
                    progress := .start, cursor := 0, accesses := [] }
            ∧ t.busy = true
            ∧ ((∀ i, touchesDevice i s = false) →
                ∃ u, engineTurn t = .next u ∧ u.busy = false ∧ u.done = true))

/-- 60_exceptions.md R235: an accepted word that is not legal ends with IllegalCommand, the word in ERRINFO, STAGE 0
and code 5. -/
def Obligations.IllegalWordEndsWithIllegalCommand : Prop :=
  ∀ (s : State) (c : Word), s.inputs = [] → s.running = some c → (∀ i, c ≠ encode i) →
    ∃ t, step s = .next t ∧ EndedWith t .illegalCommand c .none ∧ t.errCode = 5 ∧ NoAccess s t ∧ SameOperands s t

/-! ### Reset -/

/-- 70_reset_and_hazards.md R260 with the values of 10_state.md R52. A pulse of `rst`, its assertion and its release each
end in the state of R52 (with a command running or not, and whatever the host has written under it), which is also
State.reset; memory is unchanged. While `rst` is asserted the state is that of R52: so in every state with the
invariant, which every step keeps, and every write to the host port is without effect (log 24). Releasing `rst` where
it is not asserted changes nothing. -/
def Obligations.ResetLeavesEveryRegisterZero : Prop :=
  AtReset State.reset
    ∧ (∀ (s : State) (e : Event) (rest : List Event), e = .reset ∨ e = .rst true ∨ (e = .rst false ∧ s.rst = true) →
        s.inputs = e :: rest →
        ∃ t, step s = .next t ∧ AtReset t ∧ t.mem = s.mem ∧ t.inputs = rest ∧ (t.rst = true ↔ e = .rst true))
    ∧ (∀ s : State, Inv s → s.rst = true → AtReset s)
    ∧ (∀ (s : State) (idx : BitVec 12) (v : Word) (rest : List Event), s.rst = true →
        s.inputs = .portWrite idx v :: rest → step s = .next { s with inputs := rest })
    ∧ ∀ (s : State) (rest : List Event), s.rst = false → s.inputs = .rst false :: rest →
        step s = .next { s with inputs := rest }

/-- 70_reset_and_hazards.md R261, 20_memory.md R78: a reset (a pulse of `rst`, or its assertion) after any number of
accesses of a command ends in the reset state with no termination, and memory keeps the bytes the command has written
so far, a prefix of the writes it would have made; every prefix is reached by some number of accesses, and after enough
of them the command has ended (how many are made before the reset is the model's list of inputs: log 11). -/
def Obligations.ResetAbandonsTheRunningCommand : Prop :=
  ∀ (s t : State) (rest : List Event), s.busy = true → s.progress = .start → quiet s → engineTurn s = .next t →
    (∀ n, ∃ m k, accessTurns n s = .next m
        ∧ k ≤ (writesOf t.accesses).length ∧ m.mem = writeAll ((writesOf t.accesses).take k) s.mem
        ∧ ∀ e, e = .reset ∨ e = .rst true →
            ∃ u, step { m with inputs := e :: rest } = .next u ∧ u.mem = m.mem
              ∧ u.busy = false ∧ u.done = false ∧ u.err = none ∧ u.errInfo = 0 ∧ u.stage = .none ∧ NoResults u
              ∧ u.ie = false ∧ u.srcAddr = 0 ∧ u.srcLen = 0 ∧ u.dstAddr = 0 ∧ u.dstCap = 0 ∧ u.irq = false)
      ∧ (∀ k, k ≤ (writesOf t.accesses).length →
          ∃ n m, accessTurns n s = .next m ∧ m.mem = writeAll ((writesOf t.accesses).take k) s.mem)
      ∧ ∃ n, accessTurns n s = .next t

/-! ### The host port -/

/-- 70_reset_and_hazards.md R264: while BUSY = 1 a write to any offset changes nothing, and a read returns the value
the rule gives: ID, CTRL, the operand registers, 0 for CMD and reserved words, STATUS with BUSY = 1 and DONE, ERR,
ERRCODE 0; every other read, and the other fields of STATUS, are unspecified. That an unspecified word is the free
value that stands ready for the read, and that a read makes the next one ready, is the model's choice (log 6). -/
def Obligations.PortAccessesWhileBusy : Prop :=
  ∀ (s : State) (idx : BitVec 12) (v : Word) (rest : List Event), Inv s → s.busy = true →
    (s.inputs = .portWrite idx v :: rest → step s = .next { s with inputs := rest })
      ∧ (s.inputs = .portRead idx :: rest →
          ∃ t, step s = .next t ∧ t = { s with inputs := rest, readData := t.readData, draws := s.draws + 1 }
            ∧ (idx = 0 → t.readData = 0x53460007)
            ∧ (idx = 1 → t.readData = if s.ie then 1 else 0)
            ∧ (idx = 2 → t.readData.extractLsb' 0 8 = 1#8 ∧ t.readData.getLsbD 11 = false ∧ t.readData.extractLsb' 16 16 = 0
                ∧ t.readData = 1 ||| (Config.freeWord s.draws &&& 0xF700))
            ∧ (idx = 4 → t.readData = s.srcAddr) ∧ (idx = 5 → t.readData = s.srcLen)
            ∧ (idx = 6 → t.readData = s.dstAddr) ∧ (idx = 7 → t.readData = s.dstCap)
            ∧ (idx = 3 ∨ (14 ≤ idx.toNat ∧ idx.toNat < 256) ∨ (1536 ≤ idx.toNat ∧ idx.toNat < 2048) → t.readData = 0)
            ∧ ((8 ≤ idx.toNat ∧ idx.toNat < 14) ∨ (256 ≤ idx.toNat ∧ idx.toNat < 1536) ∨ 2048 ≤ idx.toNat →
                t.readData = Config.freeWord s.draws))

/-- 10_state.md R21 to R36, R42 to R44, R47, 20_memory.md R71: what a host-port read returns with BUSY = 0. The words 0
to 13 are ID, CTRL, STATUS with its fields in their places (R24), 0 for CMD, the operand registers and the result
registers; reserved words are 0; the windows show the tables whose flag is 1, word by word, at the offsets of R21. A
read changes nothing but the word read (and the free value that stands ready: log 6). -/
def Obligations.WindowsShowValidTables : Prop :=
  ∀ (s : State) (idx : BitVec 12) (b : Byte) (w : Nat) (rest : List Event), s.busy = false → w < 8 →
    (s.inputs = .portRead idx :: rest →
        step s = .next { s with inputs := rest, readData := portValue s idx, draws := s.draws + 1 })
      ∧ portValue s 0 = 0x53460007
      ∧ (portValue s 1 = if s.ie then 1 else 0)
      ∧ (portValue s 2).getLsbD 0 = false ∧ (portValue s 2).getLsbD 1 = s.done
      ∧ (portValue s 2).getLsbD 2 = s.err.isSome ∧ (portValue s 2).getLsbD 3 = false
      ∧ (portValue s 2).extractLsb' 4 4
          = (match s.err with
            | none => 0
            | some .emptyInput => 1
            | some .unknownSymbol => 2
            | some .unmatchedBits => 3
            | some .malformedArtifact => 4
            | some .illegalCommand => 5
            | some .sequence => 6
            | some .range => 7
            | some .dstOverflow => 8
            | some .bus => 9)
      ∧ (portValue s 2).getLsbD 8 = s.fv ∧ (portValue s 2).getLsbD 9 = s.pv ∧ (portValue s 2).getLsbD 10 = s.cv
      ∧ (portValue s 2).getLsbD 11 = false
      ∧ (portValue s 2).extractLsb' 12 4
          = (match s.stage with
            | .none => 0
            | .freq => 1
            | .ptab => 2
            | .tree => 3
            | .emit => 4
            | .parse => 5
            | .matchBits => 6)
      ∧ (portValue s 2).extractLsb' 16 16 = 0
      ∧ portValue s 3 = 0
      ∧ portValue s 4 = s.srcAddr ∧ portValue s 5 = s.srcLen ∧ portValue s 6 = s.dstAddr ∧ portValue s 7 = s.dstCap
      ∧ portValue s 8 = s.dstLen ∧ portValue s 9 = s.nsym ∧ portValue s 10 = s.total ∧ portValue s 11 = s.bitLen
      ∧ portValue s 12 = s.bsOff ∧ portValue s 13 = s.errInfo
      ∧ ((14 ≤ idx.toNat ∧ idx.toNat < 256) ∨ (1536 ≤ idx.toNat ∧ idx.toNat < 2048) → portValue s idx = 0)
      ∧ (s.fv = true → portValue s (BitVec.ofNat 12 ((0x0400 + 4 * b.toNat) / 4)) = s.freq.at b.toNat)
      ∧ (s.pv = true → b.toNat < s.nsym.toNat →
          portValue s (BitVec.ofNat 12 ((0x0800 + 4 * b.toNat) / 4)) = (s.psym.at b.toNat).setWidth 32
          ∧ portValue s (BitVec.ofNat 12 ((0x1004 + 8 * b.toNat) / 4))
              ++ portValue s (BitVec.ofNat 12 ((0x1000 + 8 * b.toNat) / 4)) = s.prob.at b.toNat)
      ∧ (s.cv = true →
          portValue s (BitVec.ofNat 12 ((0x0C00 + 4 * b.toNat) / 4)) = (s.codes.clen.at b.toNat).setWidth 32
          ∧ ∀ k, k < 32 →
              (portValue s (BitVec.ofNat 12 ((0x2000 + 32 * b.toNat + 4 * w) / 4))).getLsbD k
                = (s.codes.cbits.at b.toNat).getLsbD (32 * w + k))

/-- 10_state.md R43, R46: a read of a window whose flag is 0, or of a PSYM or PROB entry at or beyond NSYM, returns
the free value that stands ready for it (log 6), whatever the tables hold. -/
def Obligations.InvalidWindowsReadFreeValues : Prop :=
  ∀ (s : State) (b : Byte) (w : Nat), s.busy = false → w < 8 →
    (s.fv = false → portValue s (BitVec.ofNat 12 ((0x0400 + 4 * b.toNat) / 4)) = Config.freeWord s.draws)
      ∧ (s.pv = false ∨ s.nsym.toNat ≤ b.toNat →
          portValue s (BitVec.ofNat 12 ((0x0800 + 4 * b.toNat) / 4)) = Config.freeWord s.draws
          ∧ portValue s (BitVec.ofNat 12 ((0x1000 + 8 * b.toNat) / 4)) = Config.freeWord s.draws
          ∧ portValue s (BitVec.ofNat 12 ((0x1004 + 8 * b.toNat) / 4)) = Config.freeWord s.draws)
      ∧ (s.cv = false →
          portValue s (BitVec.ofNat 12 ((0x0C00 + 4 * b.toNat) / 4)) = Config.freeWord s.draws
          ∧ portValue s (BitVec.ofNat 12 ((0x2000 + 32 * b.toNat + 4 * w) / 4)) = Config.freeWord s.draws)

/-- 10_state.md R23, R24, R26 to R29, R36, R45: what a host write does with BUSY = 0 and `rst` released
(while it is asserted every write is without effect: log 24). STATUS: bit 1 clears DONE, bit 2
clears ERR, ERRCODE and ERRINFO, nothing else; CTRL takes bit 0; the operand registers take the word; every other
offset but CMD is ignored. -/
def Obligations.IdlePortWrites : Prop :=
  ∀ (s : State) (idx : BitVec 12) (v : Word) (rest : List Event), s.busy = false →
    s.inputs = .portWrite idx v :: rest →
    (s.rst = true → step s = .next { s with inputs := rest })
      ∧ (s.rst = false →
        (idx = 1 → step s = .next { s with inputs := rest, ie := v.getLsbD 0 })
          ∧ (idx = 2 → step s = .next { s with
              inputs := rest
              done := s.done && !v.getLsbD 1
              err := if v.getLsbD 2 then none else s.err
              errInfo := if v.getLsbD 2 then 0 else s.errInfo })
          ∧ (idx = 4 → step s = .next { s with inputs := rest, srcAddr := v })
          ∧ (idx = 5 → step s = .next { s with inputs := rest, srcLen := v })
          ∧ (idx = 6 → step s = .next { s with inputs := rest, dstAddr := v })
          ∧ (idx = 7 → step s = .next { s with inputs := rest, dstCap := v })
          ∧ (idx = 0 ∨ 8 ≤ idx.toNat → step s = .next { s with inputs := rest }))

/-- 60_exceptions.md R247, R248: every termination, normal or with an error, of a command or of an illegal word, leaves
irq exactly at CTRL.IE; irq falls when the host clears DONE (any STATUS word with bit 1 set, ACK among them) or IE (any
CTRL word with bit 0 clear), when the next command is accepted, and at reset, and stays 0 while `rst` is asserted; no
other STATUS word moves it. -/
def Obligations.IrqRisesAtTerminationAndFalls : Prop :=
  (∀ (i : Instr) (s t : State), exec i s = .next t → t.irq = s.ie)
    ∧ (∀ s t : State, s.busy = true → engineTurn s = .next t → t.busy = false ∧ t.irq = s.ie)
    ∧ (∀ s t : State, s.busy = true → accessTurn s = .next t → t.busy = false → t.irq = s.ie)
    ∧ (∀ (s : State) (v : Word), s.busy = false → s.rst = false →
        (v.getLsbD 1 = true → (portWrite 2 v s).irq = false)
          ∧ (v.getLsbD 1 = false → (portWrite 2 v s).irq = s.irq)
          ∧ (v.getLsbD 0 = false → (portWrite 1 v s).irq = false)
          ∧ (portWrite 3 v s).irq = false)
    ∧ (∀ s t : State, hostReset s = .next t → t.irq = false)
    ∧ (∀ s : State, (driveReset true s).irq = false ∧ (s.rst = true → (driveReset false s).irq = false))
    ∧ ∀ s : State, Inv s → s.rst = true → s.irq = false

/-! ### Host memory accesses under a running command -/

/-- 20_memory.md R70, R79, R80: a host write of a byte puts it in memory and changes no other byte and no other field,
but that under a running command the byte's older value is kept (with no command running nothing is kept). An engine
read returns the byte in memory or a value the byte had before the host wrote it under the running command, so after
one write with no race before it the old or the new value; where the host wrote no such byte, and where no command
runs, it is the byte in memory. A host read of the byte then returns the byte written. The list of older values is the
model's own (log 10). -/
def Obligations.RacedReadIsOldOrNew : Prop :=
  (∀ (s t : State) (a : Word) (b : Byte), memRead a s = .ok b t →
      (b = s.mem.read a.toNat ∨ (a.toNat, b) ∈ s.raced)
        ∧ ((∀ c ∈ s.raced, c.1 ≠ a.toNat) → b = s.mem.read a.toNat)
        ∧ t.mem = s.mem ∧ t.accesses = s.accesses ++ [.read a b])
    ∧ ∀ (s : State) (a : Word) (v : Byte) (rest : List Event), s.inputs = .memWrite a v :: rest → s.mem.wf = true →
        ∃ t, step s = .next t
          ∧ t = { s with inputs := rest, mem := t.mem, raced := t.raced }
          ∧ t.raced = (if s.busy then [(a.toNat, s.mem.read a.toNat)] else []) ++ s.raced
          ∧ t.mem.wf = true ∧ t.mem.read a.toNat = v ∧ (∀ x, x ≠ a.toNat → t.mem.read x = s.mem.read x)
          ∧ hostRead a t = .next { t with readData := v.setWidth 32 }
          ∧ (quiet s → ∀ b u, memRead a t = .ok b u →
              (b = v ∨ b = s.mem.read a.toNat) ∧ (s.busy = false → b = v))
          ∧ (quiet s → ∀ x b u, x ≠ a → memRead x t = .ok b u → b = s.mem.read x.toNat)

/-- 20_memory.md R79, R80, 70_reset_and_hazards.md R265: a host read of memory returns the byte that stands there and
changes nothing but the word read; after any number of accesses of a command with no race that byte is the one of
before the command or the one the command leaves there, and it is the latter once the command has ended. How many
accesses are made before the read is the model's list of inputs (log 12). -/
def Obligations.HostReadSeesOldOrFinalByte : Prop :=
  (∀ (s : State) (a : Word), hostRead a s = .next { s with readData := (s.mem.read a.toNat).setWidth 32 })
    ∧ ∀ (s t m : State) (n : Nat) (a : Word), s.busy = true → s.progress = .start → quiet s →
        engineTurn s = .next t → accessTurns n s = .next m →
        (m.mem.read a.toNat = s.mem.read a.toNat ∨ m.mem.read a.toNat = t.mem.read a.toNat)
          ∧ (m.busy = false → m = t)

/-! ### All commands -/

/-- 70_reset_and_hazards.md R268, 60_exceptions.md R243, R244: every command ends, by one termination; the one stop is
a command admitted on a region that holds device memory, which 20_memory.md R76 leaves undefined. -/
def Obligations.EveryCommandTerminates : Prop :=
  ∀ (i : Instr) (s : State),
    (touchesDevice i s = false ∨ tablesReady i s = false ∨ rangeBad i s = true →
        ∃ t, exec i s = .next t ∧ t.busy = false ∧ t.done = true)
      ∧ (touchesDevice i s = true ∧ tablesReady i s = true ∧ rangeBad i s = false →
          exec i s = .refused .deviceMemory)

/-- 10_state.md R23, R26 to R29: no command changes CTRL or an operand register (nor `rst`, the platform, the host's queue
or the last word the host read). -/
def Obligations.NoCommandChangesOperands : Prop :=
  ∀ (i : Instr) (s t : State), exec i s = .next t → SameOperands s t

/-- 10_state.md R45: FREQ is written by the FREQ stage only, PSYM and PROB by PTAB, CLEN and CBITS by TREE and PARSE.
That the other tables also stand as they were after CLEAR and after an error termination, where no flag is 1 and U2 and
60_exceptions.md R243 leave their contents open, is the model's reading (log 5). -/
def Obligations.TablesWrittenOnlyByTheirStages : Prop :=
  ∀ (i : Instr) (s t : State), exec i s = .next t →
    (i ≠ .freq → i ≠ .encode → t.freq = s.freq)
      ∧ (i ≠ .ptab → i ≠ .encode → t.psym = s.psym ∧ t.prob = s.prob)
      ∧ (i ≠ .tree → i ≠ .encode → i ≠ .parse → i ≠ .decode → t.codes = s.codes)

/-- 10_state.md R30 to R34: at a normal termination a result register is left alone by every command but those the
register's rule names. -/
def Obligations.ResultRegistersLeftAlone : Prop :=
  ∀ (i : Instr) (s t : State), exec i s = .next t → t.err = none →
    (i ∉ [.emit, .encode, .matchBits, .decode, .clear] → t.dstLen = s.dstLen)
      ∧ (i ∉ [.freq, .encode, .parse, .decode, .clear] → t.nsym = s.nsym ∧ t.total = s.total)
      ∧ (i ∉ [.emit, .encode, .parse, .matchBits, .decode, .clear] → t.bitLen = s.bitLen)
      ∧ (i ∉ [.emit, .encode, .parse, .decode, .clear] → t.bsOff = s.bsOff)

/-- 10_state.md R40, R41, 60_exceptions.md R243, R244: the valid flags move by the table of R40, and after a normal
termination STAGE is the last stage of the command. -/
def Obligations.ValidFlagsAndStageMoveByTheTables : Prop :=
  ∀ (i : Instr) (s t : State), exec i s = .next t →
    (t.err ≠ none → (t.fv, t.pv, t.cv) = (false, false, false))
      ∧ (t.err = none →
          (t.fv, t.pv, t.cv, t.stage.code) =
            match i with
            | .nop => (s.fv, s.pv, s.cv, 0)
            | .clear => (false, false, false, 0)
            | .freq => (true, false, false, 1)
            | .ptab => (true, true, false, 2)
            | .tree => (s.fv, true, true, 3)
            | .emit => (s.fv, s.pv, s.cv, 4)
            | .encode => (true, true, true, 4)
            | .parse => (false, false, true, 5)
            | .matchBits => (s.fv, s.pv, s.cv, 6)
            | .decode => (false, false, true, 6))

/-- 20_memory.md R72, R78: FREQ, PTAB, TREE, PARSE, NOP and CLEAR write no memory; NOP, CLEAR, PTAB and TREE make no
access at all. -/
def Obligations.NonStoringCommandsLeaveMemory : Prop :=
  ∀ (i : Instr) (s t : State), i ∈ [.nop, .clear, .freq, .ptab, .tree, .parse] → exec i s = .next t →
    (∀ a, t.mem.read a = s.mem.read a) ∧ writesOf t.accesses = []
      ∧ (i ∈ [.nop, .clear, .ptab, .tree] → t.accesses = [])

/-- 20_memory.md R77, R78, 00_scope.md R12: EMIT, ENCODE, MATCH and DECODE write the bytes at DST_ADDR + 0, + 1, ...
ascending, once each, at most DST_CAP of them and DST_LEN of them at a normal termination; with no race each of those
bytes then holds what was written, and every byte of memory outside them is unchanged (also with races). -/
def Obligations.StoringCommandsWriteTheDestination : Prop :=
  ∀ (i : Instr) (s t : State), i ∈ [.emit, .encode, .matchBits, .decode] → exec i s = .next t →
    ∃ bytes : List Byte,
      writesOf t.accesses = ((List.range bytes.length).map s.dstAt).zip bytes
        ∧ bytes.length ≤ s.dstCap.toNat
        ∧ (t.err = none → t.dstLen.toNat = bytes.length)
        ∧ (quiet s → s.mem.wf = true → dstBytes t bytes.length = bytes)
        ∧ ∀ a, (∀ k, k < bytes.length → a ≠ (s.dstAt k).toNat) → t.mem.read a = s.mem.read a

/-- 20_memory.md R78: the engine reads the source region from its first byte on, ascending, once each in a command
(ENCODE: once by FREQ, once by EMIT), and nothing else; at a normal termination FREQ, EMIT, MATCH and DECODE have read
all of it once, ENCODE all of it twice, and PARSE its first BS_OFF bytes. -/
def Obligations.ReadsAscendThroughTheSource : Prop :=
  ∀ (i : Instr) (s t : State), exec i s = .next t →
    (i ≠ .encode →
        ∃ n, n ≤ s.srcLen.toNat ∧ (readsOf t.accesses).map Prod.fst = (List.range n).map s.srcAt
          ∧ (t.err = none → i ∈ [.freq, .emit, .matchBits, .decode] → n = s.srcLen.toNat)
          ∧ (t.err = none → i = .parse → n = t.bsOff.toNat))
      ∧ (i = .encode →
          ∃ n m, n ≤ s.srcLen.toNat ∧ m ≤ s.srcLen.toNat ∧ (0 < m → n = s.srcLen.toNat)
            ∧ (t.err = none → n = s.srcLen.toNat ∧ m = s.srcLen.toNat)
            ∧ (readsOf t.accesses).map Prod.fst = (List.range n ++ List.range m).map s.srcAt)

/-! ### Errors -/

/-- 60_exceptions.md R243: after an error termination BUSY is 0, DONE and ERR are 1, ERRCODE is the code, the valid
flags and the result registers are 0, CTRL and the operand registers are unchanged, and memory holds the bytes the
command wrote before the raise and no other. -/
def Obligations.ErrorTerminationDropsResults : Prop :=
  ∀ (i : Instr) (s t : State) (e : ErrKind), exec i s = .next t → t.err = some e →
    t.busy = false ∧ t.done = true ∧ t.errBit = true ∧ t.errCode = e.code ∧ NoResults t ∧ SameOperands s t
      ∧ (quiet s → t.mem = writeAll (writesOf t.accesses) s.mem)

/-- 60_exceptions.md R236, first of the checks of R240 after the legality of the word: PTAB with FV = 0, TREE with
PV = 0, EMIT with PV = 0 or CV = 0, MATCH with CV = 0 end with SequenceError whatever the regions are. -/
def Obligations.SequenceErrorWithoutTable : Prop :=
  ∀ (i : Instr) (s : State),
    (i = .ptab ∧ s.fv = false) ∨ (i = .tree ∧ s.pv = false) ∨ (i = .emit ∧ (s.pv = false ∨ s.cv = false))
        ∨ (i = .matchBits ∧ s.cv = false) →
      ∃ t, exec i s = .next t ∧ EndedWith t .sequence (encode i) .none ∧ t.errCode = 6 ∧ NoAccess s t ∧ SameOperands s t

/-- 60_exceptions.md R237 with the conditions of 20_memory.md R77: a command whose tables are ready and whose region
wraps, or whose two regions overlap, ends with RangeError, before any access; and no command does so otherwise. -/
def Obligations.RangeErrorOnBadRegion : Prop :=
  ∀ (i : Instr) (s : State), tablesReady i s = true →
    ((i ∈ [.freq, .emit, .encode, .parse, .matchBits, .decode] ∧ 2 ^ 32 < s.srcAddr.toNat + s.srcLen.toNat)
        ∨ (i ∈ [.emit, .encode, .matchBits, .decode] ∧ 2 ^ 32 < s.dstAddr.toNat + s.dstCap.toNat)
        ∨ (i ∈ [.emit, .encode, .matchBits, .decode] ∧ 0 < s.srcLen.toNat ∧ 0 < s.dstCap.toNat
            ∧ s.srcAddr.toNat < s.dstAddr.toNat + s.dstCap.toNat ∧ s.dstAddr.toNat < s.srcAddr.toNat + s.srcLen.toNat)
      ↔ ∃ t, exec i s = .next t ∧ t.err = some .range)
    ∧ ∀ t, exec i s = .next t → t.err = some .range →
        EndedWith t .range (encode i) .none ∧ t.errCode = 7 ∧ NoAccess s t ∧ SameOperands s t

/-- 60_exceptions.md R231: FREQ and ENCODE on an empty source region end with EmptyInputError in stage 1, with no
memory access and FREQ untouched. -/
def Obligations.EmptyInputErrorOnEmptySource : Prop :=
  ∀ (i : Instr) (s : State), i ∈ [.freq, .encode] → admitted i s = true → s.srcLen = 0 →
    ∃ t, exec i s = .next t ∧ EndedWith t .emptyInput 0 .freq ∧ t.errCode = 1 ∧ NoAccess s t ∧ t.freq = s.freq
      ∧ SameOperands s t

/-- 60_exceptions.md R242, 20_memory.md R73: a refused access raises BusError with its address and is not made; a BusError
names an address the platform refuses; with the default platform, which refuses none, it never occurs. By stage, with
every access before the refused one made and none after it: FREQ (also in ENCODE) at the first unreadable byte; EMIT at
the first unwritable byte of the header; PARSE at the first unreadable byte after bytes that begin a header; MATCH at
the first unreadable byte after bits, and at the first unwritable byte of its output. -/
def Obligations.BusErrorNamesARefusedAddress : Prop :=
  (∀ (i : Instr) (s t : State), exec i s = .next t → t.err = some .bus →
      (s.memOK t.errInfo .read = false ∨ s.memOK t.errInfo .write = false)
        ∧ t.stage ∈ [.freq, .emit, .parse, .matchBits] ∧ s.platform ≠ [])
    ∧ (∀ (s : State) (a : Word) (b : Byte),
        (s.memOK a .read = false → memRead a s = .error { kind := .bus, info := a } s)
          ∧ (s.memOK a .write = false → memWrite a b s = .error { kind := .bus, info := a } s))
    ∧ (∀ (i : Instr) (s : State) (j : Nat), i ∈ [.freq, .encode] → admitted i s = true → j < s.srcLen.toNat →
        (∀ k, k < j → s.memOK (s.srcAt k) .read = true) → s.memOK (s.srcAt j) .read = false →
        ∃ t, exec i s = .next t ∧ EndedWith t .bus (s.srcAt j) .freq ∧ t.errCode = 9
          ∧ (readsOf t.accesses).length = j ∧ t.mem = s.mem ∧ SameOperands s t)
    ∧ (∀ (s : State) (j : Nat), admitted .emit s = true → j < (artifactHeader s).length → j < s.dstCap.toNat →
        dstWritable s j = true → s.memOK (s.dstAt j) .write = false →
        ∃ t, exec .emit s = .next t ∧ EndedWith t .bus (s.dstAt j) .emit ∧ t.errCode = 9
          ∧ (writesOf t.accesses).length = j ∧ readsOf t.accesses = [] ∧ SameOperands s t)
    ∧ (∀ (s : State) (j : Nat), admitted .parse s = true → quiet s → j < s.srcLen.toNat →
        (∀ k, k < j → s.memOK (s.srcAt k) .read = true) → s.memOK (s.srcAt j) .read = false →
        headerBegins ((srcBytes s).take j) →
        ∃ t, exec .parse s = .next t ∧ EndedWith t .bus (s.srcAt j) .parse ∧ t.errCode = 9
          ∧ (readsOf t.accesses).length = j ∧ t.mem = s.mem ∧ SameOperands s t)
    ∧ (∀ (s : State) (bits : List Bool) (b : Byte) (post : List Byte), admitted .matchBits s = true → quiet s →
        srcBytes s = bitsText bits ++ b :: post →
        (∀ k, k < bits.length → s.memOK (s.srcAt k) .read = true) → s.memOK (s.srcAt bits.length) .read = false →
        (cutBits s.codes [] bits).1.length ≤ s.dstCap.toNat →
        dstWritable s (cutBits s.codes [] bits).1.length = true →
        ∃ t, exec .matchBits s = .next t ∧ EndedWith t .bus (s.srcAt bits.length) .matchBits ∧ t.errCode = 9
          ∧ (readsOf t.accesses).length = bits.length
          ∧ (writesOf t.accesses).length = (cutBits s.codes [] bits).1.length ∧ SameOperands s t)
    ∧ ∀ (s : State) (bits : List Bool) (post : List Byte) (j : Nat), admitted .matchBits s = true → quiet s →
        srcReadable s = true → srcBytes s = bitsText bits ++ post → j < (cutBits s.codes [] bits).1.length →
        j < s.dstCap.toNat → dstWritable s j = true → s.memOK (s.dstAt j) .write = false →
        ∃ t, exec .matchBits s = .next t ∧ EndedWith t .bus (s.dstAt j) .matchBits ∧ t.errCode = 9
          ∧ (writesOf t.accesses).length = j ∧ SameOperands s t

/-- 60_exceptions.md R230, column "raised by", with the stages of R231 to R242: which command can end with which
error, and in which stage. UnknownSymbolError ends ENCODE only if the host breaks its duty (42_encoder.md R179). -/
def Obligations.ErrorsComeFromTheirCommands : Prop :=
  ∀ (i : Instr) (s t : State), exec i s = .next t →
    (t.err = some .emptyInput → i ∈ [.freq, .encode] ∧ t.stage = .freq)
      ∧ (t.err = some .unknownSymbol → (i = .emit ∨ (i = .encode ∧ ¬ quiet s)) ∧ t.stage = .emit)
      ∧ (t.err = some .unmatchedBits → i ∈ [.matchBits, .decode] ∧ t.stage = .matchBits)
      ∧ (t.err = some .malformedArtifact →
          (i ∈ [.parse, .decode] ∧ t.stage = .parse) ∨ (i ∈ [.matchBits, .decode] ∧ t.stage = .matchBits))
      ∧ t.err ≠ some .illegalCommand
      ∧ (t.err = some .sequence → i ∈ [.ptab, .tree, .emit, .matchBits] ∧ t.stage = .none)
      ∧ (t.err = some .range → i ∈ [.freq, .emit, .encode, .parse, .matchBits, .decode] ∧ t.stage = .none)
      ∧ (t.err = some .dstOverflow →
          ((i ∈ [.emit, .encode] ∧ t.stage = .emit) ∨ (i ∈ [.matchBits, .decode] ∧ t.stage = .matchBits))
          ∧ t.errInfo = s.dstCap ∧ (writesOf t.accesses).length = s.dstCap.toNat)
      ∧ (t.err = some .bus →
          (i ∈ [.freq, .encode] ∧ t.stage = .freq) ∨ (i ∈ [.emit, .encode] ∧ t.stage = .emit)
            ∨ (i ∈ [.parse, .decode] ∧ t.stage = .parse) ∨ (i ∈ [.matchBits, .decode] ∧ t.stage = .matchBits))

/-! ### NOP and CLEAR -/

/-- 44_control.md R220: NOP makes the changes of acceptance and normal termination and no other. -/
def Obligations.NopOnlyTerminates : Prop :=
  ∀ s : State, exec .nop s = .next { s with
    running := none, done := true, err := none, errInfo := 0, stage := .none, progress := .start, cursor := 0
    accesses := [], raced := [] }

/-- 44_control.md R221: CLEAR drops the flags and the result registers and changes no operand register and no byte of
memory. That the tables, which R221 does not clear and whose contents U2 leaves open, stand as they were is the
model's reading (log 5). -/
def Obligations.ClearDropsResults : Prop :=
  ∀ s : State, exec .clear s = .next { s with
    running := none, done := true, err := none, errInfo := 0, stage := .none, progress := .start, cursor := 0
    accesses := [], raced := []
    fv := false, pv := false, cv := false, nsym := 0, total := 0, bitLen := 0, bsOff := 0, dstLen := 0 }

/-! ### FREQ and PTAB -/

/-- 40_freq_ptab.md R130, R131: on a readable, non-empty source region FREQ ends normally; FREQ[b] is the number of
source bytes equal to b, TOTAL their number, NSYM the number of distinct ones; the other tables, the other result
registers and memory are unchanged. -/
def Obligations.FreqCountsTheSource : Prop :=
  ∀ s : State, admitted .freq s = true → quiet s → srcReadable s = true → s.srcLen ≠ 0 →
    ∃ t, exec .freq s = .next t ∧ EndedNormally t .freq ∧ t.fv = true ∧ t.pv = false ∧ t.cv = false
      ∧ (∀ b : Byte, (t.freq.at b.toNat).toNat = (srcBytes s).count b)
      ∧ t.total = s.srcLen ∧ t.nsym.toNat = (srcBytes s).dedup.length ∧ freqSum t.freq = t.total.toNat
      ∧ 1 ≤ t.nsym.toNat ∧ t.nsym.toNat ≤ min 256 s.srcLen.toNat
      ∧ t.psym = s.psym ∧ t.prob = s.prob ∧ t.codes = s.codes
      ∧ t.dstLen = s.dstLen ∧ t.bitLen = s.bitLen ∧ t.bsOff = s.bsOff ∧ t.mem = s.mem ∧ SameOperands s t

/-- 40_freq_ptab.md R132, R133: with FV = 1 PTAB ends normally; its entries are those of the counted symbols, each with
the probability count / total, in the order of R133; FREQ, NSYM, TOTAL and memory are unchanged. -/
def Obligations.PtabRanksTheSymbols : Prop :=
  ∀ s : State, s.fv = true →
    ∃ t, exec .ptab s = .next t ∧ EndedNormally t .ptab ∧ t.fv = true ∧ t.pv = true ∧ t.cv = false
      ∧ (∀ b : Byte, b ∈ ranked t.psym (alphabetSize s.freq) ↔ 1 ≤ (s.freq.at b.toNat).toNat)
      ∧ (∀ i, i < alphabetSize s.freq →
          t.prob.at i = rn64 (s.freq.at (t.psym.at i).toNat).toNat s.total.toNat)
      ∧ (∀ i j, i < j → j < alphabetSize s.freq →
          units (t.prob.at j) < units (t.prob.at i)
            ∨ (units (t.prob.at i) = units (t.prob.at j) ∧ (t.psym.at i).toNat < (t.psym.at j).toNat))
      ∧ t.freq = s.freq ∧ t.nsym = s.nsym ∧ t.total = s.total ∧ t.codes = s.codes
      ∧ t.dstLen = s.dstLen ∧ t.bitLen = s.bitLen ∧ t.bsOff = s.bsOff ∧ t.mem = s.mem ∧ SameOperands s t

/-- 00_scope.md R15: the primitives are rounded as the rule says. A probability (fdiv) is the binary64 number nearest to
count / total, and the one with an even significand when two are equally near; fadd is so nearest to the exact sum, and
`fadd(+0.0, b) = b`; fhalf is exactly half. The operands of fadd and fhalf range over the binary64 values of at least
2^-33 and less than 2^10, which takes in all that SFE forms. -/
def Obligations.DivisionRoundsToNearestEven : Prop :=
  (∀ c n : Nat, 1 ≤ c → c ≤ n → n < 2 ^ 32 →
      let err (p : Double) : Nat := ((units p * n : Nat) - (c * unitsPerOne : Nat) : Int).natAbs
      (fdiv c n).getLsbD 63 = false ∧ 1 ≤ biasedExp (fdiv c n) ∧ biasedExp (fdiv c n) ≤ 1023
        ∧ ∀ q : Double, biasedExp q ≤ 2046 →
            err (fdiv c n) ≤ err q
              ∧ (err (fdiv c n) = err q → units q ≠ units (fdiv c n) → fraction (fdiv c n) % 2 = 0))
    ∧ (∀ b : Double, fadd 0 b = b)
    ∧ (∀ a b : Double, a.getLsbD 63 = false → 990 ≤ biasedExp a → biasedExp a ≤ 1032 →
        b.getLsbD 63 = false → 990 ≤ biasedExp b → biasedExp b ≤ 1032 →
        let err (p : Double) : Nat := ((units p : Int) - (units a + units b : Nat)).natAbs
        (fadd a b).getLsbD 63 = false ∧ 990 ≤ biasedExp (fadd a b) ∧ biasedExp (fadd a b) ≤ 1033
          ∧ ∀ q : Double, biasedExp q ≤ 2046 →
              err (fadd a b) ≤ err q
                ∧ (err (fadd a b) = err q → units q ≠ units (fadd a b) → fraction (fadd a b) % 2 = 0))
    ∧ ∀ a : Double, a.getLsbD 63 = false → 990 ≤ biasedExp a → biasedExp a ≤ 1032 →
        (fhalf a).getLsbD 63 = false ∧ biasedExp (fhalf a) = biasedExp a - 1 ∧ fraction (fhalf a) = fraction a
          ∧ 2 * units (fhalf a) = units a

/-- 40_freq_ptab.md R134: of two counts of one table the greater has the greater probability, and equal counts have
the same. -/
def Obligations.ProbabilitiesOrderAsCounts : Prop :=
  ∀ c d n : Nat, 1 ≤ c → c ≤ n → 1 ≤ d → d ≤ n → n < 2 ^ 32 →
    (units (fdiv d n) < units (fdiv c n) ↔ d < c) ∧ (units (fdiv c n) = units (fdiv d n) ↔ c = d)

/-- 40_freq_ptab.md R135: in the probability table every entry is at least the probability of a count of 1 in 2^32 - 1
and at most 1.0, it is 1.0 only in an alphabet of one symbol, the entries never rise, and their sum, exact or by fadd
in table order, differs from 1.0 by at most 2^-45. -/
def Obligations.ProbabilitiesSumToOne : Prop :=
  ∀ s : State, Inv s → s.pv = true →
    (∀ i, i < s.nsym.toNat →
        units (fdiv 1 (2 ^ 32 - 1)) ≤ units (s.prob.at i) ∧ units (s.prob.at i) ≤ unitsPerOne
          ∧ (units (s.prob.at i) = unitsPerOne → s.nsym = 1)
          ∧ ∀ j, i < j → j < s.nsym.toNat → units (s.prob.at j) ≤ units (s.prob.at i))
      ∧ (((List.range s.nsym.toNat).map fun i => units (s.prob.at i)).sum - unitsPerOne : Int).natAbs ≤ 2 ^ 1029
      ∧ (units (probSum s.prob (List.range s.nsym.toNat)) - unitsPerOne : Int).natAbs ≤ 2 ^ 1029

/-! ### TREE -/

/-- 41_tree.md R150, R162, R163, 10_state.md R44: with PV = 1 and 1 to 256 distinct symbols TREE ends normally,
whatever the probabilities are; exactly the listed symbols have a codeword; with two or more symbols the code is
prefix-free and complete and no codeword is longer than NSYM - 1 bits; the bits beyond a codeword are 0; nothing else
changes. -/
def Obligations.TreeBuildsACompletePrefixCode : Prop :=
  ∀ s : State, s.pv = true → 1 ≤ s.nsym.toNat → s.nsym.toNat ≤ 256 → (ranked s.psym s.nsym.toNat).Nodup →
    ∃ t, exec .tree s = .next t ∧ EndedNormally t .tree ∧ t.fv = s.fv ∧ t.pv = true ∧ t.cv = true
      ∧ (∀ b : Byte, 1 ≤ t.codes.len b ↔ b ∈ ranked s.psym s.nsym.toNat)
      ∧ (2 ≤ s.nsym.toNat →
          t.codes.prefixFree = true ∧ t.codes.kraft = 2 ^ 255 ∧ ∀ b : Byte, t.codes.len b ≤ s.nsym.toNat - 1)
      ∧ t.codes.padded
      ∧ t.freq = s.freq ∧ t.psym = s.psym ∧ t.prob = s.prob ∧ t.nsym = s.nsym ∧ t.total = s.total
      ∧ t.dstLen = s.dstLen ∧ t.bitLen = s.bitLen ∧ t.bsOff = s.bsOff ∧ t.mem = s.mem ∧ SameOperands s t

/-- 41_tree.md R151, R154: one symbol gets "0"; two symbols get "0" and "1" in table order, whatever their
probabilities are. -/
def Obligations.TreeOfOneOrTwoSymbols : Prop :=
  ∀ s : State, s.pv = true →
    (s.nsym = 1 → ∃ t, exec .tree s = .next t ∧ t.codes.code (s.psym.at 0) = [false])
      ∧ (s.nsym = 2 → s.psym.at 0 ≠ s.psym.at 1 →
          ∃ t, exec .tree s = .next t
            ∧ t.codes.code (s.psym.at 0) = [false] ∧ t.codes.code (s.psym.at 1) = [true])

/-- 41_tree.md R152 (lines B1, B2, B8 to B10), R159: the codeword of the element at position i is the bits of the
ranges it falls into, 0 left of the split point and 1 from it on. -/
def Obligations.TreeCodewordsFollowTheSplits : Prop :=
  ∀ s : State, s.pv = true → 2 ≤ s.nsym.toNat → s.nsym.toNat ≤ 256 → (ranked s.psym s.nsym.toNat).Nodup →
    ∃ t, exec .tree s = .next t
      ∧ ∀ i, i < s.nsym.toNat → t.codes.code (s.psym.at i) = codeIn s.prob s.nsym.toNat 0 (s.nsym.toNat - 1) i

/-- 41_tree.md R152 (lines B3 to B7), R156 to R158: in a range of three or more probabilities the split point leaves
both parts non-empty, and it is the end of the longest left part whose running sum is at most half, or one element
alone where that element is above half. -/
def Obligations.SplitPointIsAtHalf : Prop :=
  ∀ (prob : Table Double) (lo hi n : Nat), lo + 2 ≤ hi → hi < 256 → 1 ≤ n → n < 2 ^ 32 →
    (∀ i, lo ≤ i → i ≤ hi → ∃ c, 1 ≤ c ∧ c ≤ n ∧ prob.at i = fdiv c n) →
    let half := fhalf (probSum prob (indexes lo hi))
    let split := splitPoint prob lo hi
    lo + 1 ≤ split ∧ split ≤ hi
      ∧ (((∀ k, lo ≤ k → k < split → fle (probSum prob (indexes lo k)) half = true)
            ∧ fle (probSum prob (indexes lo split)) half = false)
          ∨ (split = lo + 1 ∧ fle (probSum prob (indexes lo lo)) half = false))

/-! ### EMIT and ENCODE -/

/-- 30_encoding.md R112: the length of the artifact header. 00_scope.md R16: the digits of the numbers in it. For a value x
of at most 1 the text of a probability is the integer r nearest to x * 10^6, the even one when two are equally near,
as one digit, a point and six digits; the text of a size is its decimal digits, the most significant first, with no
leading zero. -/
def Obligations.ArtifactHeaderLength : Prop :=
  (∀ s : State, 1 ≤ s.nsym.toNat → s.nsym.toNat ≤ 256 →
      (artifactHeader s).length =
        (if s.nsym.toNat ≤ 9 then 1 else if s.nsym.toNat ≤ 99 then 2 else 3) + 1
          + ((List.range s.nsym.toNat).map fun i => 12 + s.codes.len (s.psym.at i)).sum + 1)
    ∧ (∀ x : Double, 0 < units x → units x ≤ unitsPerOne →
        ∃ r : Nat, r ≤ 10 ^ 6
          ∧ 2 * ((units x * 10 ^ 6 : Nat) - (r * unitsPerOne : Nat) : Int).natAbs ≤ unitsPerOne
          ∧ (2 * ((units x * 10 ^ 6 : Nat) - (r * unitsPerOne : Nat) : Int).natAbs = unitsPerOne → r % 2 = 0)
          ∧ (probText x).map BitVec.toNat =
              [0x30 + r / 10 ^ 6, 0x2E, 0x30 + r / 10 ^ 5 % 10, 0x30 + r / 10 ^ 4 % 10, 0x30 + r / 10 ^ 3 % 10,
                0x30 + r / 10 ^ 2 % 10, 0x30 + r / 10 % 10, 0x30 + r % 10])
    ∧ ∀ n : Nat, 1 ≤ n →
        (dec n).foldl (fun v b => 10 * v + (b.toNat - 0x30)) 0 = n
          ∧ (∀ b ∈ dec n, 0x30 ≤ b.toNat ∧ b.toNat ≤ 0x39) ∧ (dec n).head? ≠ some 0x30

/-- 42_encoder.md R170, R171, R173, R177: with the tables ready, the regions accessible, every source byte known and
the artifact no longer than DST_CAP, EMIT ends normally and the destination region holds the header and the
codewords of the source bytes in order; an empty source gives the header alone. -/
def Obligations.EmitWritesTheArtifact : Prop :=
  ∀ s : State, admitted .emit s = true → quiet s → s.mem.wf = true → srcReadable s = true →
    (∀ b ∈ srcBytes s, s.codes.len b ≠ 0) →
    (artifactHeader s ++ bitstream s.codes (srcBytes s)).length ≤ s.dstCap.toNat →
    dstWritable s (artifactHeader s ++ bitstream s.codes (srcBytes s)).length = true →
    ∃ t, exec .emit s = .next t ∧ EndedNormally t .emit
      ∧ dstBytes t t.dstLen.toNat = artifactHeader s ++ bitstream s.codes (srcBytes s)
      ∧ t.bsOff.toNat = (artifactHeader s).length ∧ t.bitLen.toNat = (bitstream s.codes (srcBytes s)).length
      ∧ t.dstLen.toNat = t.bsOff.toNat + t.bitLen.toNat
      ∧ t.fv = s.fv ∧ t.pv = s.pv ∧ t.cv = s.cv ∧ t.nsym = s.nsym ∧ t.total = s.total
      ∧ t.freq = s.freq ∧ t.psym = s.psym ∧ t.prob = s.prob ∧ t.codes = s.codes
      ∧ srcBytes t = srcBytes s ∧ SameOperands s t

/-- 42_encoder.md R174, 60_exceptions.md R232: a source byte without a codeword at offset j, all bytes before it being
known and fitting, ends EMIT with UnknownSymbolError(j) in stage 4; what stands in memory is the header and the bits
of the bytes before it. -/
def Obligations.EmitStopsAtAnUnknownSymbol : Prop :=
  ∀ (s : State) (pre post : List Byte) (b : Byte), admitted .emit s = true → quiet s → s.mem.wf = true →
    srcReadable s = true →
    srcBytes s = pre ++ b :: post → (∀ c ∈ pre, s.codes.len c ≠ 0) → s.codes.len b = 0 →
    (artifactHeader s ++ bitstream s.codes pre).length ≤ s.dstCap.toNat →
    dstWritable s (artifactHeader s ++ bitstream s.codes pre).length = true →
    ∃ t, exec .emit s = .next t ∧ EndedWith t .unknownSymbol (BitVec.ofNat 32 pre.length) .emit ∧ t.errCode = 2
      ∧ dstBytes t (artifactHeader s ++ bitstream s.codes pre).length = artifactHeader s ++ bitstream s.codes pre
      ∧ (readsOf t.accesses).length = pre.length + 1

/-- 42_encoder.md R176, 60_exceptions.md R238: where the header and the codewords of the leading, known source bytes
`pre` are longer than DST_CAP (whatever comes after them), EMIT ends with DstOverflow in stage 4, and exactly the first
DST_CAP bytes of the artifact have been written; no byte after `pre` is read, and none at all where the header alone
does not fit. -/
def Obligations.EmitOverflowsAtCapacity : Prop :=
  ∀ (s : State) (pre post : List Byte), admitted .emit s = true → quiet s → s.mem.wf = true → srcReadable s = true →
    srcBytes s = pre ++ post → (∀ b ∈ pre, s.codes.len b ≠ 0) →
    s.dstCap.toNat < (artifactHeader s ++ bitstream s.codes pre).length →
    dstWritable s s.dstCap.toNat = true →
    ∃ t, exec .emit s = .next t ∧ EndedWith t .dstOverflow s.dstCap .emit ∧ t.errCode = 8
      ∧ dstBytes t s.dstCap.toNat = (artifactHeader s ++ bitstream s.codes pre).take s.dstCap.toNat
      ∧ (writesOf t.accesses).length = s.dstCap.toNat
      ∧ (readsOf t.accesses).length ≤ pre.length
      ∧ (s.dstCap.toNat < (artifactHeader s).length → readsOf t.accesses = [])

/-- 42_encoder.md R178, R179: ENCODE of a non-empty input that is readable and whose artifact fits ends normally, and
the destination region holds the artifact of that input. -/
def Obligations.EncodeWritesTheArtifactOfItsInput : Prop :=
  ∀ s : State, admitted .encode s = true → quiet s → s.mem.wf = true → srcReadable s = true → s.srcLen ≠ 0 →
    (artifactOf (srcBytes s)).length ≤ s.dstCap.toNat → dstWritable s (artifactOf (srcBytes s)).length = true →
    ∃ t, exec .encode s = .next t ∧ EndedNormally t .emit ∧ t.fv = true ∧ t.pv = true ∧ t.cv = true
      ∧ dstBytes t t.dstLen.toNat = artifactOf (srcBytes s)
      ∧ t.total = s.srcLen ∧ t.nsym.toNat = (srcBytes s).dedup.length
      ∧ t.dstLen.toNat = t.bsOff.toNat + t.bitLen.toNat ∧ srcBytes t = srcBytes s ∧ SameOperands s t

/-- 30_encoding.md R124, 42_encoder.md R178: ENCODE is FREQ; PTAB; TREE; EMIT inside one command: where the four
commands one after the other end normally, ENCODE ends in the state they leave (the log of its accesses being those
of all four). -/
def Obligations.EncodeIsItsFourStages : Prop :=
  ∀ s s1 s2 s3 s4 : State, quiet s → admitted .encode s = true →
    exec .freq s = .next s1 → s1.err = none → exec .ptab s1 = .next s2 → exec .tree s2 = .next s3 →
    exec .emit s3 = .next s4 → s4.err = none →
    exec .encode s = .next { s4 with accesses := s1.accesses ++ s4.accesses }

/-! ### PARSE, MATCH and DECODE -/

/-- 43_decoder.md R190 to R193: PARSE of a source region that begins with a well-formed header ends normally; the code
table is that of the rows, NSYM their number, BS_OFF the length of the header, BITLEN the bytes after it, which are
not read; FREQ, PSYM, PROB, DST_LEN and memory are unchanged. -/
def Obligations.ParseLoadsAWellFormedHeader : Prop :=
  ∀ (s : State) (rows : List Row) (rest : List Byte), admitted .parse s = true → quiet s → srcReadable s = true →
    rowsOk rows = true → srcBytes s = headerText rows ++ rest →
    ∃ t, exec .parse s = .next t ∧ EndedNormally t .parse ∧ t.fv = false ∧ t.pv = false ∧ t.cv = true
      ∧ (∀ b : Byte, t.codes.code b = rowCode rows b) ∧ t.codes.padded
      ∧ t.nsym.toNat = rows.length ∧ t.bsOff.toNat = (headerText rows).length ∧ t.bitLen.toNat = rest.length
      ∧ t.total = 0 ∧ t.dstLen = s.dstLen ∧ t.freq = s.freq ∧ t.psym = s.psym ∧ t.prob = s.prob ∧ t.mem = s.mem
      ∧ (readsOf t.accesses).length = (headerText rows).length ∧ SameOperands s t

/-- 30_encoding.md R113, 43_decoder.md R190 to R194, 60_exceptions.md R234: PARSE refuses with MalformedArtifactError,
in stage 5, every source region that does not begin with a well-formed header, and writes no memory. ERRINFO is SRC_LEN
where the whole region is read, its bytes begin a header and the header goes on; otherwise it is the offset of the
offending byte: the bytes before it begin a header, with it they do not, and it is the last byte read. -/
def Obligations.ParseRefusesEverythingElse : Prop :=
  ∀ s : State, admitted .parse s = true → quiet s → srcReadable s = true →
    (¬ ∃ rows rest, rowsOk rows = true ∧ srcBytes s = headerText rows ++ rest) →
    ∃ t, exec .parse s = .next t ∧ EndedWith t .malformedArtifact t.errInfo .parse ∧ t.errCode = 4
      ∧ ((t.errInfo = s.srcLen ∧ (readsOf t.accesses).length = s.srcLen.toNat ∧ headerBegins (srcBytes s))
          ∨ (t.errInfo.toNat < s.srcLen.toNat ∧ (readsOf t.accesses).length = t.errInfo.toNat + 1
              ∧ headerBegins ((srcBytes s).take t.errInfo.toNat)
              ∧ ¬ headerBegins ((srcBytes s).take (t.errInfo.toNat + 1))))
      ∧ t.mem = s.mem ∧ SameOperands s t

/-- 43_decoder.md R199: of the symbols whose codeword equals the accumulator the one of smallest value is found. -/
def Obligations.SmallestEqualCodewordWins : Prop :=
  ∀ (t : CodeTable) (acc : Codeword) (b : Byte),
    findSymbol t acc = some b ↔ t.code b = acc ∧ ∀ c : Byte, c.toNat < b.toNat → t.code c ≠ acc

/-- 43_decoder.md R197, R198, R200, R204: on a source region of bit characters, whatever the code table, MATCH writes the
symbols of the per-bit first match; with nothing left over it ends normally, DST_LEN being their number; with bits
left over it ends with UnmatchedBitsError and the offset of the first of them, the symbols standing in memory. -/
def Obligations.MatchCutsTheBitstream : Prop :=
  ∀ (s : State) (bits : List Bool), admitted .matchBits s = true → quiet s → s.mem.wf = true → srcReadable s = true →
    srcBytes s = bitsText bits → (cutBits s.codes [] bits).1.length ≤ s.dstCap.toNat →
    dstWritable s (cutBits s.codes [] bits).1.length = true →
    ∃ t, exec .matchBits s = .next t
      ∧ dstBytes t (cutBits s.codes [] bits).1.length = (cutBits s.codes [] bits).1
      ∧ ((cutBits s.codes [] bits).2 = [] →
          EndedNormally t .matchBits ∧ t.dstLen.toNat = (cutBits s.codes [] bits).1.length ∧ t.bitLen = s.srcLen
            ∧ t.fv = s.fv ∧ t.pv = s.pv ∧ t.cv = s.cv ∧ t.nsym = s.nsym ∧ t.total = s.total ∧ t.bsOff = s.bsOff
            ∧ t.freq = s.freq ∧ t.psym = s.psym ∧ t.prob = s.prob ∧ t.codes = s.codes)
      ∧ ((cutBits s.codes [] bits).2 ≠ [] →
          EndedWith t .unmatchedBits (BitVec.ofNat 32 (bits.length - (cutBits s.codes [] bits).2.length)) .matchBits
            ∧ t.errCode = 3)
      ∧ srcBytes t = srcBytes s ∧ SameOperands s t

/-- 43_decoder.md R198, R206: with a prefix-free table the cuts of the codewords of a list of symbols, end to end, are
that list, and nothing is left over. -/
def Obligations.PrefixFreeCodeCutsBack : Prop :=
  ∀ (t : CodeTable) (l : List Byte), t.prefixFree = true → (∀ b ∈ l, t.len b ≠ 0) →
    cutBits t [] (l.flatMap t.code) = (l, [])

/-- 43_decoder.md R201, R205, 60_exceptions.md R234, R239: the first bitstream byte that is neither '0' nor '1' ends MATCH
with MalformedArtifactError and its offset, also with a non-empty accumulator (R241); the symbols before it stand in
memory. In DECODE the bitstream follows the header, the offset counts from the start of the artifact, and the stage is
that of MATCH; `c` is any table with the codewords of the rows. -/
def Obligations.MatchRefusesANonBit : Prop :=
  ∀ (s : State) (bits : List Bool) (b : Byte) (post : List Byte), quiet s → s.mem.wf = true → srcReadable s = true →
    b ≠ 0x30 → b ≠ 0x31 →
    (admitted .matchBits s = true → srcBytes s = bitsText bits ++ b :: post →
        (cutBits s.codes [] bits).1.length ≤ s.dstCap.toNat →
        dstWritable s (cutBits s.codes [] bits).1.length = true →
        ∃ t, exec .matchBits s = .next t ∧ EndedWith t .malformedArtifact (BitVec.ofNat 32 bits.length) .matchBits
          ∧ t.errCode = 4
          ∧ dstBytes t (cutBits s.codes [] bits).1.length = (cutBits s.codes [] bits).1
          ∧ (readsOf t.accesses).length = bits.length + 1)
      ∧ ∀ (rows : List Row) (c : CodeTable), admitted .decode s = true → rowsOk rows = true →
        srcBytes s = headerText rows ++ bitsText bits ++ b :: post → (∀ x : Byte, c.code x = rowCode rows x) →
        (cutBits c [] bits).1.length ≤ s.dstCap.toNat → dstWritable s (cutBits c [] bits).1.length = true →
        ∃ t, exec .decode s = .next t
          ∧ EndedWith t .malformedArtifact (BitVec.ofNat 32 ((headerText rows).length + bits.length)) .matchBits
          ∧ t.errCode = 4
          ∧ dstBytes t (cutBits c [] bits).1.length = (cutBits c [] bits).1
          ∧ (readsOf t.accesses).length = (headerText rows).length + bits.length + 1

/-- 43_decoder.md R203, R205, 60_exceptions.md R238: where the leading bits hold more symbols than DST_CAP (whatever
bytes come after them), MATCH and DECODE end with DstOverflow in the stage of MATCH, exactly DST_CAP symbols written;
`c` is any table with the codewords of the rows. -/
def Obligations.MatchOverflowsAtCapacity : Prop :=
  ∀ (s : State) (bits : List Bool) (post : List Byte), quiet s → s.mem.wf = true → srcReadable s = true →
    dstWritable s s.dstCap.toNat = true →
    (admitted .matchBits s = true → srcBytes s = bitsText bits ++ post →
        s.dstCap.toNat < (cutBits s.codes [] bits).1.length →
        ∃ t, exec .matchBits s = .next t ∧ EndedWith t .dstOverflow s.dstCap .matchBits ∧ t.errCode = 8
          ∧ dstBytes t s.dstCap.toNat = (cutBits s.codes [] bits).1.take s.dstCap.toNat
          ∧ (writesOf t.accesses).length = s.dstCap.toNat)
      ∧ ∀ (rows : List Row) (c : CodeTable), admitted .decode s = true → rowsOk rows = true →
        srcBytes s = headerText rows ++ bitsText bits ++ post → (∀ x : Byte, c.code x = rowCode rows x) →
        s.dstCap.toNat < (cutBits c [] bits).1.length →
        ∃ t, exec .decode s = .next t ∧ EndedWith t .dstOverflow s.dstCap .matchBits ∧ t.errCode = 8
          ∧ dstBytes t s.dstCap.toNat = (cutBits c [] bits).1.take s.dstCap.toNat
          ∧ (writesOf t.accesses).length = s.dstCap.toNat

/-- 43_decoder.md R190, R197, R200, R205: DECODE of a source region that holds a well-formed header and bit characters
after it, `c` being any table with the codewords of the rows. With nothing left over it ends normally, the symbols of
the per-bit first match standing in the destination region; with bits left over it ends with UnmatchedBitsError in
stage 6 and the offset of the first of them. -/
def Obligations.DecodeReadsAnArtifact : Prop :=
  ∀ (s : State) (rows : List Row) (bits : List Bool) (c : CodeTable), admitted .decode s = true → quiet s →
    s.mem.wf = true → srcReadable s = true → rowsOk rows = true → srcBytes s = headerText rows ++ bitsText bits →
    (∀ b : Byte, c.code b = rowCode rows b) → (cutBits c [] bits).1.length ≤ s.dstCap.toNat →
    dstWritable s (cutBits c [] bits).1.length = true →
    ∃ t, exec .decode s = .next t
      ∧ dstBytes t (cutBits c [] bits).1.length = (cutBits c [] bits).1
      ∧ ((cutBits c [] bits).2 = [] →
          EndedNormally t .matchBits ∧ t.fv = false ∧ t.pv = false ∧ t.cv = true
            ∧ t.dstLen.toNat = (cutBits c [] bits).1.length ∧ t.nsym.toNat = rows.length ∧ t.total = 0
            ∧ t.bsOff.toNat = (headerText rows).length ∧ t.bitLen.toNat = bits.length
            ∧ (∀ b : Byte, t.codes.code b = rowCode rows b) ∧ t.codes.padded
            ∧ t.freq = s.freq ∧ t.psym = s.psym ∧ t.prob = s.prob)
      ∧ ((cutBits c [] bits).2 ≠ [] →
          EndedWith t .unmatchedBits (BitVec.ofNat 32 (s.srcLen.toNat - (cutBits c [] bits).2.length)) .matchBits
            ∧ t.errCode = 3)
      ∧ srcBytes t = srcBytes s ∧ SameOperands s t

/-- 43_decoder.md R205, 30_encoding.md R124: DECODE is PARSE; MATCH inside one command: where PARSE ends normally and
MATCH on the source region moved past the header ends normally, DECODE ends in the state they leave. -/
def Obligations.DecodeIsParseThenMatch : Prop :=
  ∀ s s1 s2 : State, quiet s → admitted .decode s = true → exec .parse s = .next s1 → s1.err = none →
    exec .matchBits { s1 with srcAddr := s.srcAddr + s1.bsOff, srcLen := s.srcLen - s1.bsOff } = .next s2 →
    s2.err = none →
    exec .decode s = .next { s2 with
      srcAddr := s.srcAddr, srcLen := s.srcLen, accesses := s1.accesses ++ s2.accesses }

/-- 43_decoder.md R206: the round trip. Where ENCODE of a non-empty input ends normally, DECODE of the bytes it wrote,
in any machine whose source region holds them and whose regions are accessible and large enough, ends normally and
gives the input back. -/
def Obligations.DecodeOfEncodeIsTheInput : Prop :=
  ∀ s t u : State, quiet s → s.mem.wf = true → exec .encode s = .next t → t.err = none →
    quiet u → u.mem.wf = true → u.srcLen = t.dstLen → srcBytes u = dstBytes t t.dstLen.toNat → admitted .decode u = true →
    srcReadable u = true → s.srcLen.toNat ≤ u.dstCap.toNat → dstWritable u s.srcLen.toNat = true →
    ∃ v, exec .decode u = .next v ∧ EndedNormally v .matchBits ∧ v.fv = false ∧ v.pv = false ∧ v.cv = true
      ∧ v.dstLen = s.srcLen ∧ dstBytes v s.srcLen.toNat = srcBytes s ∧ v.nsym = t.nsym ∧ v.bsOff = t.bsOff
      ∧ v.bitLen = t.bitLen ∧ v.total = 0 ∧ v.codes = t.codes

/-! ### The machine as a whole -/

/-- The invariant holds of the reset state (values of 10_state.md R52; the reset values of log 3 and log 4). -/
def Obligations.InvariantHoldsAtReset : Prop := Inv State.reset

/-- 10_state.md R31, R32, R35, R40, R44, R49, 40_freq_ptab.md R133: every step keeps the invariant, from every state that
has it. -/
def Obligations.EveryStepKeepsTheInvariant : Prop := ∀ s t : State, Inv s → step s = .next t → Inv t

/-- 10_state.md R40, R43, R46, 93_implementation_defined.md U2: what a table without a value holds can never be seen.
Two states that differ only there stay so after every step, the words the host reads being the same. -/
def Obligations.TablesWithoutValueCannotBeSeen : Prop :=
  ∀ s t : State, Inv s → Inv t → Indistinct s t → IndistinctOutcomes (step s) (step t)
end

