-- ==== Sys2Proof/Laws/Memory.lean ====
section
/-! SUPPORT. The laws of memory: a read after a write, the canonical form and that every operation keeps it, and that
memories in canonical form with equal bytes are equal. -/

namespace Sys2Proof.Machine

theorem Memory.read_write_same (m : Memory) (a : Nat) (b : Byte) (h : m.wf = true) : (m.write a b).read a = b := by
  induction m with
  | nil => by_cases hb : b = Memory.unlisted <;> simp [Memory.write, Memory.read, hb]
  | cons c m ih =>
    obtain ⟨k, c⟩ := c
    simp only [Memory.wf, Bool.and_eq_true, List.all_eq_true, decide_eq_true_eq] at h
    have above : ∀ m' : Memory, (∀ x ∈ m', a < x.1) → Memory.read m' a = Memory.unlisted := by
      intro m' hm
      induction m' with
      | nil => rfl
      | cons x m' ih' =>
        have h1 : x.1 ≠ a := Nat.ne_of_gt (hm x (by simp))
        simp only [Memory.read, h1, if_false]
        exact ih' fun y hy => hm y (by simp [hy])
    simp only [Memory.write]
    split
    · rename_i hlt
      split
      · rename_i hb
        rw [hb]
        refine above _ fun x hx => ?_
        rcases List.mem_cons.1 hx with rfl | hx
        · exact hlt
        · exact Nat.lt_trans hlt (h.1.2 x hx)
      · simp [Memory.read]
    · split
      · rename_i hak
        subst hak
        split
        · rename_i hb
          rw [hb]
          exact above m h.1.2
        · simp [Memory.read]
      · rename_i hne
        simp only [Memory.read, Ne.symm hne, if_false]
        exact ih h.2

theorem Memory.read_write_other (m : Memory) (a x : Nat) (b : Byte) (h : x ≠ a) : (m.write a b).read x = m.read x := by
  induction m with
  | nil => by_cases hb : b = Memory.unlisted <;> simp [Memory.write, Memory.read, hb, Ne.symm h]
  | cons c m ih =>
    obtain ⟨k, c⟩ := c
    simp only [Memory.write]
    split
    · split <;> simp [Memory.read, Ne.symm h]
    · split
      · rename_i hak
        subst hak
        split <;> simp [Memory.read, Ne.symm h]
      · simp only [Memory.read, ih]

/-- An entry of a memory after a write is the byte written or an entry of before. -/
theorem Memory.mem_write {m : Memory} {a : Nat} {b : Byte} {x : Host.Cell} (h : x ∈ m.write a b) :
    x = (a, b) ∨ x ∈ m := by
  induction m with
  | nil =>
    simp only [Memory.write] at h
    split at h <;> simp_all
  | cons c m ih =>
    obtain ⟨k, c⟩ := c
    simp only [Memory.write] at h
    split at h
    · split at h
      · exact .inr h
      · simpa using h
    · split at h
      · split at h
        · exact .inr (List.mem_cons_of_mem _ h)
        · rcases List.mem_cons.1 h with rfl | h
          · exact .inl rfl
          · exact .inr (List.mem_cons_of_mem _ h)
      · rcases List.mem_cons.1 h with rfl | h
        · exact .inr (by simp)
        · exact (ih h).imp id (List.mem_cons_of_mem _)

/-- Every write keeps the canonical form. -/
theorem Memory.wf_write (m : Memory) (a : Nat) (b : Byte) (h : m.wf = true) (ha : a < Config.memSize) :
    (m.write a b).wf = true := by
  induction m with
  | nil =>
    simp only [Memory.write]
    split <;> simp_all [Memory.wf]
  | cons c m ih =>
    obtain ⟨k, c⟩ := c
    have h' := h
    simp only [Memory.wf, Bool.and_eq_true, List.all_eq_true, decide_eq_true_eq, bne_iff_ne] at h'
    obtain ⟨⟨⟨hk, hc⟩, hall⟩, hm⟩ := h'
    simp only [Memory.write]
    split
    · rename_i hlt
      split
      · exact h
      · rename_i hb
        simp only [Memory.wf, Bool.and_eq_true, List.all_eq_true, decide_eq_true_eq, bne_iff_ne, List.mem_cons,
          forall_eq_or_imp]
        exact ⟨⟨⟨ha, hb⟩, hlt, fun x hx => Nat.lt_trans hlt (hall x hx)⟩, ⟨⟨hk, hc⟩, hall⟩, hm⟩
    · split
      · rename_i hak
        subst hak
        split
        · exact hm
        · rename_i hb
          simp only [Memory.wf, Bool.and_eq_true, List.all_eq_true, decide_eq_true_eq, bne_iff_ne]
          exact ⟨⟨⟨ha, hb⟩, hall⟩, hm⟩
      · rename_i hge hne
        simp only [Memory.wf, Bool.and_eq_true, List.all_eq_true, decide_eq_true_eq, bne_iff_ne]
        refine ⟨⟨⟨hk, hc⟩, fun x hx => ?_⟩, ih hm⟩
        rcases Memory.mem_write hx with rfl | hx
        · exact Nat.lt_of_le_of_ne (Nat.le_of_not_lt hge) (Ne.symm hne)
        · exact hall x hx

/-- Below the first entry of a memory in canonical form every byte is unlisted. -/
theorem Memory.read_below {m : Memory} {a : Nat} (h : ∀ x ∈ m, a < x.1) : m.read a = Memory.unlisted := by
  induction m with
  | nil => rfl
  | cons x m ih =>
    have h1 : x.1 ≠ a := Nat.ne_of_gt (h x (by simp))
    simp only [Memory.read, h1, if_false]
    exact ih fun y hy => h y (by simp [hy])

/-- Memories in canonical form that hold the same bytes are equal. -/
theorem Memory.eq_of_read (m n : Memory) (hm : m.wf = true) (hn : n.wf = true) (h : ∀ a, m.read a = n.read a) :
    m = n := by
  induction m generalizing n with
  | nil =>
    cases n with
    | nil => rfl
    | cons y n =>
      obtain ⟨k, c⟩ := y
      simp only [Memory.wf, Bool.and_eq_true, bne_iff_ne] at hn
      have := h k
      simp [Memory.read] at this
      exact absurd this.symm hn.1.1.2
  | cons x m ih =>
    obtain ⟨j, b⟩ := x
    have hm' := hm
    simp only [Memory.wf, Bool.and_eq_true, List.all_eq_true, decide_eq_true_eq, bne_iff_ne] at hm'
    cases n with
    | nil =>
      have := h j
      simp [Memory.read] at this
      exact absurd this hm'.1.1.2
    | cons y n =>
      obtain ⟨k, c⟩ := y
      have hn' := hn
      simp only [Memory.wf, Bool.and_eq_true, List.all_eq_true, decide_eq_true_eq, bne_iff_ne] at hn'
      have hjk : j = k := by
        rcases Nat.lt_trichotomy j k with hlt | heq | hlt
        · have h1 := h j
          rw [Memory.read_below (m := (k, c) :: n)] at h1
          · simp [Memory.read] at h1
            exact absurd h1 hm'.1.1.2
          · intro x hx
            rcases List.mem_cons.1 hx with rfl | hx
            · exact hlt
            · exact Nat.lt_trans hlt (hn'.1.2 x hx)
        · exact heq
        · have h1 := h k
          rw [Memory.read_below (m := (j, b) :: m)] at h1
          · simp [Memory.read] at h1
            exact absurd h1.symm hn'.1.1.2
          · intro x hx
            rcases List.mem_cons.1 hx with rfl | hx
            · exact hlt
            · exact Nat.lt_trans hlt (hm'.1.2 x hx)
      subst hjk
      have hbc : b = c := by simpa [Memory.read] using h j
      subst hbc
      congr 1
      refine ih n hm'.2 hn'.2 fun a => ?_
      by_cases ha : j = a
      · subst ha
        rw [Memory.read_below hm'.1.2, Memory.read_below hn'.1.2]
      · simpa [Memory.read, ha] using h a

theorem Memory.wf_nil : Memory.wf [] = true := rfl

/-- A list of writes keeps the canonical form. -/
theorem writeAll_wf (l : List (Word × Byte)) (m : Memory) (h : m.wf = true) : (writeAll l m).wf = true := by
  induction l generalizing m with
  | nil => exact h
  | cons x l ih => exact ih _ (Memory.wf_write _ _ _ h x.1.isLt)

/-- A list of writes leaves every byte alone that it does not name. -/
theorem writeAll_read_other (l : List (Word × Byte)) (m : Memory) (a : Nat) (h : ∀ x ∈ l, x.1.toNat ≠ a) :
    (writeAll l m).read a = m.read a := by
  induction l generalizing m with
  | nil => rfl
  | cons x l ih =>
    rw [writeAll, ih _ fun y hy => h y (by simp [hy])]
    exact Memory.read_write_other _ _ _ _ (Ne.symm (h x (by simp)))

theorem writeAll_append (l l' : List (Word × Byte)) (m : Memory) :
    writeAll (l ++ l') m = writeAll l' (writeAll l m) := by
  induction l generalizing m with
  | nil => rfl
  | cons x l ih => simp only [List.cons_append, writeAll, ih]

end Sys2Proof.Machine
end

