-- ==== Sys2Proof/Laws/State.lean ====
section
/-! SUPPORT. One lemma per field and update, true by rfl, so that no proof unfolds a record update. -/

namespace Sys2Proof.Machine

variable (s : State)

/-! ### Acceptance (30_encoding.md R116) -/

@[simp] theorem accept_ie (c : Word) : (accept c s).ie = s.ie := rfl
@[simp] theorem accept_done (c : Word) : (accept c s).done = false := rfl
@[simp] theorem accept_err (c : Word) : (accept c s).err = none := rfl
@[simp] theorem accept_fv (c : Word) : (accept c s).fv = s.fv := rfl
@[simp] theorem accept_pv (c : Word) : (accept c s).pv = s.pv := rfl
@[simp] theorem accept_cv (c : Word) : (accept c s).cv = s.cv := rfl
@[simp] theorem accept_stage (c : Word) : (accept c s).stage = .none := rfl
@[simp] theorem accept_srcAddr (c : Word) : (accept c s).srcAddr = s.srcAddr := rfl
@[simp] theorem accept_srcLen (c : Word) : (accept c s).srcLen = s.srcLen := rfl
@[simp] theorem accept_dstAddr (c : Word) : (accept c s).dstAddr = s.dstAddr := rfl
@[simp] theorem accept_dstCap (c : Word) : (accept c s).dstCap = s.dstCap := rfl
@[simp] theorem accept_dstLen (c : Word) : (accept c s).dstLen = s.dstLen := rfl
@[simp] theorem accept_nsym (c : Word) : (accept c s).nsym = s.nsym := rfl
@[simp] theorem accept_total (c : Word) : (accept c s).total = s.total := rfl
@[simp] theorem accept_bitLen (c : Word) : (accept c s).bitLen = s.bitLen := rfl
@[simp] theorem accept_bsOff (c : Word) : (accept c s).bsOff = s.bsOff := rfl
@[simp] theorem accept_errInfo (c : Word) : (accept c s).errInfo = 0 := rfl
@[simp] theorem accept_freq (c : Word) : (accept c s).freq = s.freq := rfl
@[simp] theorem accept_psym (c : Word) : (accept c s).psym = s.psym := rfl
@[simp] theorem accept_prob (c : Word) : (accept c s).prob = s.prob := rfl
@[simp] theorem accept_codes (c : Word) : (accept c s).codes = s.codes := rfl
@[simp] theorem accept_running (c : Word) : (accept c s).running = some c := rfl
@[simp] theorem accept_progress (c : Word) : (accept c s).progress = .start := rfl
@[simp] theorem accept_cursor (c : Word) : (accept c s).cursor = 0 := rfl
@[simp] theorem accept_rst (c : Word) : (accept c s).rst = s.rst := rfl
@[simp] theorem accept_mem (c : Word) : (accept c s).mem = s.mem := rfl
@[simp] theorem accept_accesses (c : Word) : (accept c s).accesses = [] := rfl
@[simp] theorem accept_raced (c : Word) : (accept c s).raced = s.raced := rfl
@[simp] theorem accept_platform (c : Word) : (accept c s).platform = s.platform := rfl
@[simp] theorem accept_inputs (c : Word) : (accept c s).inputs = s.inputs := rfl
@[simp] theorem accept_readData (c : Word) : (accept c s).readData = s.readData := rfl
@[simp] theorem accept_draws (c : Word) : (accept c s).draws = s.draws := rfl

/-! ### The end of the hidden state (10_state.md R49) -/

@[simp] theorem idle_ie : (s.idle).ie = s.ie := rfl
@[simp] theorem idle_done : (s.idle).done = s.done := rfl
@[simp] theorem idle_err : (s.idle).err = s.err := rfl
@[simp] theorem idle_fv : (s.idle).fv = s.fv := rfl
@[simp] theorem idle_pv : (s.idle).pv = s.pv := rfl
@[simp] theorem idle_cv : (s.idle).cv = s.cv := rfl
@[simp] theorem idle_stage : (s.idle).stage = s.stage := rfl
@[simp] theorem idle_srcAddr : (s.idle).srcAddr = s.srcAddr := rfl
@[simp] theorem idle_srcLen : (s.idle).srcLen = s.srcLen := rfl
@[simp] theorem idle_dstAddr : (s.idle).dstAddr = s.dstAddr := rfl
@[simp] theorem idle_dstCap : (s.idle).dstCap = s.dstCap := rfl
@[simp] theorem idle_dstLen : (s.idle).dstLen = s.dstLen := rfl
@[simp] theorem idle_nsym : (s.idle).nsym = s.nsym := rfl
@[simp] theorem idle_total : (s.idle).total = s.total := rfl
@[simp] theorem idle_bitLen : (s.idle).bitLen = s.bitLen := rfl
@[simp] theorem idle_bsOff : (s.idle).bsOff = s.bsOff := rfl
@[simp] theorem idle_errInfo : (s.idle).errInfo = s.errInfo := rfl
@[simp] theorem idle_freq : (s.idle).freq = s.freq := rfl
@[simp] theorem idle_psym : (s.idle).psym = s.psym := rfl
@[simp] theorem idle_prob : (s.idle).prob = s.prob := rfl
@[simp] theorem idle_codes : (s.idle).codes = s.codes := rfl
@[simp] theorem idle_running : (s.idle).running = none := rfl
@[simp] theorem idle_progress : (s.idle).progress = .start := rfl
@[simp] theorem idle_cursor : (s.idle).cursor = 0 := rfl
@[simp] theorem idle_rst : (s.idle).rst = s.rst := rfl
@[simp] theorem idle_mem : (s.idle).mem = s.mem := rfl
@[simp] theorem idle_accesses : (s.idle).accesses = s.accesses := rfl
@[simp] theorem idle_raced : (s.idle).raced = [] := rfl
@[simp] theorem idle_platform : (s.idle).platform = s.platform := rfl
@[simp] theorem idle_inputs : (s.idle).inputs = s.inputs := rfl
@[simp] theorem idle_readData : (s.idle).readData = s.readData := rfl
@[simp] theorem idle_draws : (s.idle).draws = s.draws := rfl

/-! ### The place taken up (70_reset_and_hazards.md R270) -/

@[simp] theorem resumed_ie : (s.resumed).ie = s.ie := rfl
@[simp] theorem resumed_done : (s.resumed).done = s.done := rfl
@[simp] theorem resumed_err : (s.resumed).err = s.err := rfl
@[simp] theorem resumed_fv : (s.resumed).fv = s.fv := rfl
@[simp] theorem resumed_pv : (s.resumed).pv = s.pv := rfl
@[simp] theorem resumed_cv : (s.resumed).cv = s.cv := rfl
@[simp] theorem resumed_stage : (s.resumed).stage = s.stage := rfl
@[simp] theorem resumed_srcAddr : (s.resumed).srcAddr = s.srcAddr := rfl
@[simp] theorem resumed_srcLen : (s.resumed).srcLen = s.srcLen := rfl
@[simp] theorem resumed_dstAddr : (s.resumed).dstAddr = s.dstAddr := rfl
@[simp] theorem resumed_dstCap : (s.resumed).dstCap = s.dstCap := rfl
@[simp] theorem resumed_dstLen : (s.resumed).dstLen = s.dstLen := rfl
@[simp] theorem resumed_nsym : (s.resumed).nsym = s.nsym := rfl
@[simp] theorem resumed_total : (s.resumed).total = s.total := rfl
@[simp] theorem resumed_bitLen : (s.resumed).bitLen = s.bitLen := rfl
@[simp] theorem resumed_bsOff : (s.resumed).bsOff = s.bsOff := rfl
@[simp] theorem resumed_errInfo : (s.resumed).errInfo = s.errInfo := rfl
@[simp] theorem resumed_freq : (s.resumed).freq = s.freq := rfl
@[simp] theorem resumed_psym : (s.resumed).psym = s.psym := rfl
@[simp] theorem resumed_prob : (s.resumed).prob = s.prob := rfl
@[simp] theorem resumed_codes : (s.resumed).codes = s.codes := rfl
@[simp] theorem resumed_running : (s.resumed).running = s.running := rfl
@[simp] theorem resumed_progress : (s.resumed).progress = .start := rfl
@[simp] theorem resumed_cursor : (s.resumed).cursor = s.cursor := rfl
@[simp] theorem resumed_rst : (s.resumed).rst = s.rst := rfl
@[simp] theorem resumed_mem : (s.resumed).mem = s.mem := rfl
@[simp] theorem resumed_accesses : (s.resumed).accesses = s.accesses := rfl
@[simp] theorem resumed_raced : (s.resumed).raced = s.raced := rfl
@[simp] theorem resumed_platform : (s.resumed).platform = s.platform := rfl
@[simp] theorem resumed_inputs : (s.resumed).inputs = s.inputs := rfl
@[simp] theorem resumed_readData : (s.resumed).readData = s.readData := rfl
@[simp] theorem resumed_draws : (s.resumed).draws = s.draws := rfl

/-! ### The valid flags (10_state.md R40) -/

@[simp] theorem setValid_ie (f p c : Bool) : (s.setValid f p c).ie = s.ie := rfl
@[simp] theorem setValid_done (f p c : Bool) : (s.setValid f p c).done = s.done := rfl
@[simp] theorem setValid_err (f p c : Bool) : (s.setValid f p c).err = s.err := rfl
@[simp] theorem setValid_fv (f p c : Bool) : (s.setValid f p c).fv = f := rfl
@[simp] theorem setValid_pv (f p c : Bool) : (s.setValid f p c).pv = p := rfl
@[simp] theorem setValid_cv (f p c : Bool) : (s.setValid f p c).cv = c := rfl
@[simp] theorem setValid_stage (f p c : Bool) : (s.setValid f p c).stage = s.stage := rfl
@[simp] theorem setValid_srcAddr (f p c : Bool) : (s.setValid f p c).srcAddr = s.srcAddr := rfl
@[simp] theorem setValid_srcLen (f p c : Bool) : (s.setValid f p c).srcLen = s.srcLen := rfl
@[simp] theorem setValid_dstAddr (f p c : Bool) : (s.setValid f p c).dstAddr = s.dstAddr := rfl
@[simp] theorem setValid_dstCap (f p c : Bool) : (s.setValid f p c).dstCap = s.dstCap := rfl
@[simp] theorem setValid_dstLen (f p c : Bool) : (s.setValid f p c).dstLen = s.dstLen := rfl
@[simp] theorem setValid_nsym (f p c : Bool) : (s.setValid f p c).nsym = s.nsym := rfl
@[simp] theorem setValid_total (f p c : Bool) : (s.setValid f p c).total = s.total := rfl
@[simp] theorem setValid_bitLen (f p c : Bool) : (s.setValid f p c).bitLen = s.bitLen := rfl
@[simp] theorem setValid_bsOff (f p c : Bool) : (s.setValid f p c).bsOff = s.bsOff := rfl
@[simp] theorem setValid_errInfo (f p c : Bool) : (s.setValid f p c).errInfo = s.errInfo := rfl
@[simp] theorem setValid_freq (f p c : Bool) : (s.setValid f p c).freq = s.freq := rfl
@[simp] theorem setValid_psym (f p c : Bool) : (s.setValid f p c).psym = s.psym := rfl
@[simp] theorem setValid_prob (f p c : Bool) : (s.setValid f p c).prob = s.prob := rfl
@[simp] theorem setValid_codes (f p c : Bool) : (s.setValid f p c).codes = s.codes := rfl
@[simp] theorem setValid_running (f p c : Bool) : (s.setValid f p c).running = s.running := rfl
@[simp] theorem setValid_progress (f p c : Bool) : (s.setValid f p c).progress = s.progress := rfl
@[simp] theorem setValid_cursor (f p c : Bool) : (s.setValid f p c).cursor = s.cursor := rfl
@[simp] theorem setValid_rst (f p c : Bool) : (s.setValid f p c).rst = s.rst := rfl
@[simp] theorem setValid_mem (f p c : Bool) : (s.setValid f p c).mem = s.mem := rfl
@[simp] theorem setValid_accesses (f p c : Bool) : (s.setValid f p c).accesses = s.accesses := rfl
@[simp] theorem setValid_raced (f p c : Bool) : (s.setValid f p c).raced = s.raced := rfl
@[simp] theorem setValid_platform (f p c : Bool) : (s.setValid f p c).platform = s.platform := rfl
@[simp] theorem setValid_inputs (f p c : Bool) : (s.setValid f p c).inputs = s.inputs := rfl
@[simp] theorem setValid_readData (f p c : Bool) : (s.setValid f p c).readData = s.readData := rfl
@[simp] theorem setValid_draws (f p c : Bool) : (s.setValid f p c).draws = s.draws := rfl

/-! ### Flags and result registers dropped (60_exceptions.md R243) -/

@[simp] theorem dropResults_ie : (s.dropResults).ie = s.ie := rfl
@[simp] theorem dropResults_done : (s.dropResults).done = s.done := rfl
@[simp] theorem dropResults_err : (s.dropResults).err = s.err := rfl
@[simp] theorem dropResults_fv : (s.dropResults).fv = false := rfl
@[simp] theorem dropResults_pv : (s.dropResults).pv = false := rfl
@[simp] theorem dropResults_cv : (s.dropResults).cv = false := rfl
@[simp] theorem dropResults_stage : (s.dropResults).stage = s.stage := rfl
@[simp] theorem dropResults_srcAddr : (s.dropResults).srcAddr = s.srcAddr := rfl
@[simp] theorem dropResults_srcLen : (s.dropResults).srcLen = s.srcLen := rfl
@[simp] theorem dropResults_dstAddr : (s.dropResults).dstAddr = s.dstAddr := rfl
@[simp] theorem dropResults_dstCap : (s.dropResults).dstCap = s.dstCap := rfl
@[simp] theorem dropResults_dstLen : (s.dropResults).dstLen = 0 := rfl
@[simp] theorem dropResults_nsym : (s.dropResults).nsym = 0 := rfl
@[simp] theorem dropResults_total : (s.dropResults).total = 0 := rfl
@[simp] theorem dropResults_bitLen : (s.dropResults).bitLen = 0 := rfl
@[simp] theorem dropResults_bsOff : (s.dropResults).bsOff = 0 := rfl
@[simp] theorem dropResults_errInfo : (s.dropResults).errInfo = s.errInfo := rfl
@[simp] theorem dropResults_freq : (s.dropResults).freq = s.freq := rfl
@[simp] theorem dropResults_psym : (s.dropResults).psym = s.psym := rfl
@[simp] theorem dropResults_prob : (s.dropResults).prob = s.prob := rfl
@[simp] theorem dropResults_codes : (s.dropResults).codes = s.codes := rfl
@[simp] theorem dropResults_running : (s.dropResults).running = s.running := rfl
@[simp] theorem dropResults_progress : (s.dropResults).progress = s.progress := rfl
@[simp] theorem dropResults_cursor : (s.dropResults).cursor = s.cursor := rfl
@[simp] theorem dropResults_rst : (s.dropResults).rst = s.rst := rfl
@[simp] theorem dropResults_mem : (s.dropResults).mem = s.mem := rfl
@[simp] theorem dropResults_accesses : (s.dropResults).accesses = s.accesses := rfl
@[simp] theorem dropResults_raced : (s.dropResults).raced = s.raced := rfl
@[simp] theorem dropResults_platform : (s.dropResults).platform = s.platform := rfl
@[simp] theorem dropResults_inputs : (s.dropResults).inputs = s.inputs := rfl
@[simp] theorem dropResults_readData : (s.dropResults).readData = s.readData := rfl
@[simp] theorem dropResults_draws : (s.dropResults).draws = s.draws := rfl

/-! ### Error termination (60_exceptions.md R243) -/

@[simp] theorem errorTerminate_ie (r : Raise) : (errorTerminate r s).ie = s.ie := rfl
@[simp] theorem errorTerminate_done (r : Raise) : (errorTerminate r s).done = true := rfl
@[simp] theorem errorTerminate_err (r : Raise) : (errorTerminate r s).err = some r.kind := rfl
@[simp] theorem errorTerminate_fv (r : Raise) : (errorTerminate r s).fv = false := rfl
@[simp] theorem errorTerminate_pv (r : Raise) : (errorTerminate r s).pv = false := rfl
@[simp] theorem errorTerminate_cv (r : Raise) : (errorTerminate r s).cv = false := rfl
@[simp] theorem errorTerminate_stage (r : Raise) : (errorTerminate r s).stage = s.stage := rfl
@[simp] theorem errorTerminate_srcAddr (r : Raise) : (errorTerminate r s).srcAddr = s.srcAddr := rfl
@[simp] theorem errorTerminate_srcLen (r : Raise) : (errorTerminate r s).srcLen = s.srcLen := rfl
@[simp] theorem errorTerminate_dstAddr (r : Raise) : (errorTerminate r s).dstAddr = s.dstAddr := rfl
@[simp] theorem errorTerminate_dstCap (r : Raise) : (errorTerminate r s).dstCap = s.dstCap := rfl
@[simp] theorem errorTerminate_dstLen (r : Raise) : (errorTerminate r s).dstLen = 0 := rfl
@[simp] theorem errorTerminate_nsym (r : Raise) : (errorTerminate r s).nsym = 0 := rfl
@[simp] theorem errorTerminate_total (r : Raise) : (errorTerminate r s).total = 0 := rfl
@[simp] theorem errorTerminate_bitLen (r : Raise) : (errorTerminate r s).bitLen = 0 := rfl
@[simp] theorem errorTerminate_bsOff (r : Raise) : (errorTerminate r s).bsOff = 0 := rfl
@[simp] theorem errorTerminate_errInfo (r : Raise) : (errorTerminate r s).errInfo = r.info := rfl
@[simp] theorem errorTerminate_freq (r : Raise) : (errorTerminate r s).freq = s.freq := rfl
@[simp] theorem errorTerminate_psym (r : Raise) : (errorTerminate r s).psym = s.psym := rfl
@[simp] theorem errorTerminate_prob (r : Raise) : (errorTerminate r s).prob = s.prob := rfl
@[simp] theorem errorTerminate_codes (r : Raise) : (errorTerminate r s).codes = s.codes := rfl
@[simp] theorem errorTerminate_running (r : Raise) : (errorTerminate r s).running = none := rfl
@[simp] theorem errorTerminate_progress (r : Raise) : (errorTerminate r s).progress = .start := rfl
@[simp] theorem errorTerminate_cursor (r : Raise) : (errorTerminate r s).cursor = 0 := rfl
@[simp] theorem errorTerminate_rst (r : Raise) : (errorTerminate r s).rst = s.rst := rfl
@[simp] theorem errorTerminate_mem (r : Raise) : (errorTerminate r s).mem = s.mem := rfl
@[simp] theorem errorTerminate_accesses (r : Raise) : (errorTerminate r s).accesses = s.accesses := rfl
@[simp] theorem errorTerminate_raced (r : Raise) : (errorTerminate r s).raced = [] := rfl
@[simp] theorem errorTerminate_platform (r : Raise) : (errorTerminate r s).platform = s.platform := rfl
@[simp] theorem errorTerminate_inputs (r : Raise) : (errorTerminate r s).inputs = s.inputs := rfl
@[simp] theorem errorTerminate_readData (r : Raise) : (errorTerminate r s).readData = s.readData := rfl
@[simp] theorem errorTerminate_draws (r : Raise) : (errorTerminate r s).draws = s.draws := rfl

/-! ### Normal termination (60_exceptions.md R244) -/

@[simp] theorem normalTerminate_ie : (normalTerminate s).ie = s.ie := rfl
@[simp] theorem normalTerminate_done : (normalTerminate s).done = true := rfl
@[simp] theorem normalTerminate_err : (normalTerminate s).err = s.err := rfl
@[simp] theorem normalTerminate_fv : (normalTerminate s).fv = s.fv := rfl
@[simp] theorem normalTerminate_pv : (normalTerminate s).pv = s.pv := rfl
@[simp] theorem normalTerminate_cv : (normalTerminate s).cv = s.cv := rfl
@[simp] theorem normalTerminate_stage : (normalTerminate s).stage = s.stage := rfl
@[simp] theorem normalTerminate_srcAddr : (normalTerminate s).srcAddr = s.srcAddr := rfl
@[simp] theorem normalTerminate_srcLen : (normalTerminate s).srcLen = s.srcLen := rfl
@[simp] theorem normalTerminate_dstAddr : (normalTerminate s).dstAddr = s.dstAddr := rfl
@[simp] theorem normalTerminate_dstCap : (normalTerminate s).dstCap = s.dstCap := rfl
@[simp] theorem normalTerminate_dstLen : (normalTerminate s).dstLen = s.dstLen := rfl
@[simp] theorem normalTerminate_nsym : (normalTerminate s).nsym = s.nsym := rfl
@[simp] theorem normalTerminate_total : (normalTerminate s).total = s.total := rfl
@[simp] theorem normalTerminate_bitLen : (normalTerminate s).bitLen = s.bitLen := rfl
@[simp] theorem normalTerminate_bsOff : (normalTerminate s).bsOff = s.bsOff := rfl
@[simp] theorem normalTerminate_errInfo : (normalTerminate s).errInfo = s.errInfo := rfl
@[simp] theorem normalTerminate_freq : (normalTerminate s).freq = s.freq := rfl
@[simp] theorem normalTerminate_psym : (normalTerminate s).psym = s.psym := rfl
@[simp] theorem normalTerminate_prob : (normalTerminate s).prob = s.prob := rfl
@[simp] theorem normalTerminate_codes : (normalTerminate s).codes = s.codes := rfl
@[simp] theorem normalTerminate_running : (normalTerminate s).running = none := rfl
@[simp] theorem normalTerminate_progress : (normalTerminate s).progress = .start := rfl
@[simp] theorem normalTerminate_cursor : (normalTerminate s).cursor = 0 := rfl
@[simp] theorem normalTerminate_rst : (normalTerminate s).rst = s.rst := rfl
@[simp] theorem normalTerminate_mem : (normalTerminate s).mem = s.mem := rfl
@[simp] theorem normalTerminate_accesses : (normalTerminate s).accesses = s.accesses := rfl
@[simp] theorem normalTerminate_raced : (normalTerminate s).raced = [] := rfl
@[simp] theorem normalTerminate_platform : (normalTerminate s).platform = s.platform := rfl
@[simp] theorem normalTerminate_inputs : (normalTerminate s).inputs = s.inputs := rfl
@[simp] theorem normalTerminate_readData : (normalTerminate s).readData = s.readData := rfl
@[simp] theorem normalTerminate_draws : (normalTerminate s).draws = s.draws := rfl

/-! ### What FREQ writes at its end (40_freq_ptab.md R130) -/

@[simp] theorem freqResults_ie : (freqResults s).ie = s.ie := rfl
@[simp] theorem freqResults_done : (freqResults s).done = s.done := rfl
@[simp] theorem freqResults_err : (freqResults s).err = s.err := rfl
@[simp] theorem freqResults_fv : (freqResults s).fv = true := rfl
@[simp] theorem freqResults_pv : (freqResults s).pv = false := rfl
@[simp] theorem freqResults_cv : (freqResults s).cv = false := rfl
@[simp] theorem freqResults_stage : (freqResults s).stage = s.stage := rfl
@[simp] theorem freqResults_srcAddr : (freqResults s).srcAddr = s.srcAddr := rfl
@[simp] theorem freqResults_srcLen : (freqResults s).srcLen = s.srcLen := rfl
@[simp] theorem freqResults_dstAddr : (freqResults s).dstAddr = s.dstAddr := rfl
@[simp] theorem freqResults_dstCap : (freqResults s).dstCap = s.dstCap := rfl
@[simp] theorem freqResults_dstLen : (freqResults s).dstLen = s.dstLen := rfl
@[simp] theorem freqResults_nsym : (freqResults s).nsym = BitVec.ofNat 32 (alphabetSize s.freq) := rfl
@[simp] theorem freqResults_total : (freqResults s).total = s.srcLen := rfl
@[simp] theorem freqResults_bitLen : (freqResults s).bitLen = s.bitLen := rfl
@[simp] theorem freqResults_bsOff : (freqResults s).bsOff = s.bsOff := rfl
@[simp] theorem freqResults_errInfo : (freqResults s).errInfo = s.errInfo := rfl
@[simp] theorem freqResults_freq : (freqResults s).freq = s.freq := rfl
@[simp] theorem freqResults_psym : (freqResults s).psym = s.psym := rfl
@[simp] theorem freqResults_prob : (freqResults s).prob = s.prob := rfl
@[simp] theorem freqResults_codes : (freqResults s).codes = s.codes := rfl
@[simp] theorem freqResults_running : (freqResults s).running = s.running := rfl
@[simp] theorem freqResults_progress : (freqResults s).progress = s.progress := rfl
@[simp] theorem freqResults_cursor : (freqResults s).cursor = s.cursor := rfl
@[simp] theorem freqResults_rst : (freqResults s).rst = s.rst := rfl
@[simp] theorem freqResults_mem : (freqResults s).mem = s.mem := rfl
@[simp] theorem freqResults_accesses : (freqResults s).accesses = s.accesses := rfl
@[simp] theorem freqResults_raced : (freqResults s).raced = s.raced := rfl
@[simp] theorem freqResults_platform : (freqResults s).platform = s.platform := rfl
@[simp] theorem freqResults_inputs : (freqResults s).inputs = s.inputs := rfl
@[simp] theorem freqResults_readData : (freqResults s).readData = s.readData := rfl
@[simp] theorem freqResults_draws : (freqResults s).draws = s.draws := rfl

/-! ### What TREE writes (41_tree.md R150) -/

@[simp] theorem treeResults_ie : (treeResults s).ie = s.ie := rfl
@[simp] theorem treeResults_done : (treeResults s).done = s.done := rfl
@[simp] theorem treeResults_err : (treeResults s).err = s.err := rfl
@[simp] theorem treeResults_fv : (treeResults s).fv = s.fv := rfl
@[simp] theorem treeResults_pv : (treeResults s).pv = s.pv := rfl
@[simp] theorem treeResults_cv : (treeResults s).cv = true := rfl
@[simp] theorem treeResults_stage : (treeResults s).stage = s.stage := rfl
@[simp] theorem treeResults_srcAddr : (treeResults s).srcAddr = s.srcAddr := rfl
@[simp] theorem treeResults_srcLen : (treeResults s).srcLen = s.srcLen := rfl
@[simp] theorem treeResults_dstAddr : (treeResults s).dstAddr = s.dstAddr := rfl
@[simp] theorem treeResults_dstCap : (treeResults s).dstCap = s.dstCap := rfl
@[simp] theorem treeResults_dstLen : (treeResults s).dstLen = s.dstLen := rfl
@[simp] theorem treeResults_nsym : (treeResults s).nsym = s.nsym := rfl
@[simp] theorem treeResults_total : (treeResults s).total = s.total := rfl
@[simp] theorem treeResults_bitLen : (treeResults s).bitLen = s.bitLen := rfl
@[simp] theorem treeResults_bsOff : (treeResults s).bsOff = s.bsOff := rfl
@[simp] theorem treeResults_errInfo : (treeResults s).errInfo = s.errInfo := rfl
@[simp] theorem treeResults_freq : (treeResults s).freq = s.freq := rfl
@[simp] theorem treeResults_psym : (treeResults s).psym = s.psym := rfl
@[simp] theorem treeResults_prob : (treeResults s).prob = s.prob := rfl
@[simp] theorem treeResults_codes : (treeResults s).codes = buildTree s.psym s.prob s.nsym.toNat := rfl
@[simp] theorem treeResults_running : (treeResults s).running = s.running := rfl
@[simp] theorem treeResults_progress : (treeResults s).progress = s.progress := rfl
@[simp] theorem treeResults_cursor : (treeResults s).cursor = s.cursor := rfl
@[simp] theorem treeResults_rst : (treeResults s).rst = s.rst := rfl
@[simp] theorem treeResults_mem : (treeResults s).mem = s.mem := rfl
@[simp] theorem treeResults_accesses : (treeResults s).accesses = s.accesses := rfl
@[simp] theorem treeResults_raced : (treeResults s).raced = s.raced := rfl
@[simp] theorem treeResults_platform : (treeResults s).platform = s.platform := rfl
@[simp] theorem treeResults_inputs : (treeResults s).inputs = s.inputs := rfl
@[simp] theorem treeResults_readData : (treeResults s).readData = s.readData := rfl
@[simp] theorem treeResults_draws : (treeResults s).draws = s.draws := rfl

/-! ### What EMIT writes at its end (42_encoder.md R170) -/

@[simp] theorem emitResults_ie (h : Nat) : (emitResults h s).ie = s.ie := rfl
@[simp] theorem emitResults_done (h : Nat) : (emitResults h s).done = s.done := rfl
@[simp] theorem emitResults_err (h : Nat) : (emitResults h s).err = s.err := rfl
@[simp] theorem emitResults_fv (h : Nat) : (emitResults h s).fv = s.fv := rfl
@[simp] theorem emitResults_pv (h : Nat) : (emitResults h s).pv = s.pv := rfl
@[simp] theorem emitResults_cv (h : Nat) : (emitResults h s).cv = s.cv := rfl
@[simp] theorem emitResults_stage (h : Nat) : (emitResults h s).stage = s.stage := rfl
@[simp] theorem emitResults_srcAddr (h : Nat) : (emitResults h s).srcAddr = s.srcAddr := rfl
@[simp] theorem emitResults_srcLen (h : Nat) : (emitResults h s).srcLen = s.srcLen := rfl
@[simp] theorem emitResults_dstAddr (h : Nat) : (emitResults h s).dstAddr = s.dstAddr := rfl
@[simp] theorem emitResults_dstCap (h : Nat) : (emitResults h s).dstCap = s.dstCap := rfl
@[simp] theorem emitResults_dstLen (h : Nat) : (emitResults h s).dstLen = BitVec.ofNat 32 s.cursor := rfl
@[simp] theorem emitResults_nsym (h : Nat) : (emitResults h s).nsym = s.nsym := rfl
@[simp] theorem emitResults_total (h : Nat) : (emitResults h s).total = s.total := rfl
@[simp] theorem emitResults_bitLen (h : Nat) : (emitResults h s).bitLen = BitVec.ofNat 32 (s.cursor - h) := rfl
@[simp] theorem emitResults_bsOff (h : Nat) : (emitResults h s).bsOff = BitVec.ofNat 32 h := rfl
@[simp] theorem emitResults_errInfo (h : Nat) : (emitResults h s).errInfo = s.errInfo := rfl
@[simp] theorem emitResults_freq (h : Nat) : (emitResults h s).freq = s.freq := rfl
@[simp] theorem emitResults_psym (h : Nat) : (emitResults h s).psym = s.psym := rfl
@[simp] theorem emitResults_prob (h : Nat) : (emitResults h s).prob = s.prob := rfl
@[simp] theorem emitResults_codes (h : Nat) : (emitResults h s).codes = s.codes := rfl
@[simp] theorem emitResults_running (h : Nat) : (emitResults h s).running = s.running := rfl
@[simp] theorem emitResults_progress (h : Nat) : (emitResults h s).progress = s.progress := rfl
@[simp] theorem emitResults_cursor (h : Nat) : (emitResults h s).cursor = s.cursor := rfl
@[simp] theorem emitResults_rst (h : Nat) : (emitResults h s).rst = s.rst := rfl
@[simp] theorem emitResults_mem (h : Nat) : (emitResults h s).mem = s.mem := rfl
@[simp] theorem emitResults_accesses (h : Nat) : (emitResults h s).accesses = s.accesses := rfl
@[simp] theorem emitResults_raced (h : Nat) : (emitResults h s).raced = s.raced := rfl
@[simp] theorem emitResults_platform (h : Nat) : (emitResults h s).platform = s.platform := rfl
@[simp] theorem emitResults_inputs (h : Nat) : (emitResults h s).inputs = s.inputs := rfl
@[simp] theorem emitResults_readData (h : Nat) : (emitResults h s).readData = s.readData := rfl
@[simp] theorem emitResults_draws (h : Nat) : (emitResults h s).draws = s.draws := rfl

/-! ### What PARSE writes at its end (43_decoder.md R190) -/

@[simp] theorem parseResults_ie (n pos : Nat) : (parseResults n pos s).ie = s.ie := rfl
@[simp] theorem parseResults_done (n pos : Nat) : (parseResults n pos s).done = s.done := rfl
@[simp] theorem parseResults_err (n pos : Nat) : (parseResults n pos s).err = s.err := rfl
@[simp] theorem parseResults_fv (n pos : Nat) : (parseResults n pos s).fv = false := rfl
@[simp] theorem parseResults_pv (n pos : Nat) : (parseResults n pos s).pv = false := rfl
@[simp] theorem parseResults_cv (n pos : Nat) : (parseResults n pos s).cv = true := rfl
@[simp] theorem parseResults_stage (n pos : Nat) : (parseResults n pos s).stage = s.stage := rfl
@[simp] theorem parseResults_srcAddr (n pos : Nat) : (parseResults n pos s).srcAddr = s.srcAddr := rfl
@[simp] theorem parseResults_srcLen (n pos : Nat) : (parseResults n pos s).srcLen = s.srcLen := rfl
@[simp] theorem parseResults_dstAddr (n pos : Nat) : (parseResults n pos s).dstAddr = s.dstAddr := rfl
@[simp] theorem parseResults_dstCap (n pos : Nat) : (parseResults n pos s).dstCap = s.dstCap := rfl
@[simp] theorem parseResults_dstLen (n pos : Nat) : (parseResults n pos s).dstLen = s.dstLen := rfl
@[simp] theorem parseResults_nsym (n pos : Nat) : (parseResults n pos s).nsym = BitVec.ofNat 32 n := rfl
@[simp] theorem parseResults_total (n pos : Nat) : (parseResults n pos s).total = 0 := rfl
@[simp] theorem parseResults_bitLen (n pos : Nat) : (parseResults n pos s).bitLen = BitVec.ofNat 32 (s.srcLen.toNat - pos) := rfl
@[simp] theorem parseResults_bsOff (n pos : Nat) : (parseResults n pos s).bsOff = BitVec.ofNat 32 pos := rfl
@[simp] theorem parseResults_errInfo (n pos : Nat) : (parseResults n pos s).errInfo = s.errInfo := rfl
@[simp] theorem parseResults_freq (n pos : Nat) : (parseResults n pos s).freq = s.freq := rfl
@[simp] theorem parseResults_psym (n pos : Nat) : (parseResults n pos s).psym = s.psym := rfl
@[simp] theorem parseResults_prob (n pos : Nat) : (parseResults n pos s).prob = s.prob := rfl
@[simp] theorem parseResults_codes (n pos : Nat) : (parseResults n pos s).codes = s.codes := rfl
@[simp] theorem parseResults_running (n pos : Nat) : (parseResults n pos s).running = s.running := rfl
@[simp] theorem parseResults_progress (n pos : Nat) : (parseResults n pos s).progress = s.progress := rfl
@[simp] theorem parseResults_cursor (n pos : Nat) : (parseResults n pos s).cursor = s.cursor := rfl
@[simp] theorem parseResults_rst (n pos : Nat) : (parseResults n pos s).rst = s.rst := rfl
@[simp] theorem parseResults_mem (n pos : Nat) : (parseResults n pos s).mem = s.mem := rfl
@[simp] theorem parseResults_accesses (n pos : Nat) : (parseResults n pos s).accesses = s.accesses := rfl
@[simp] theorem parseResults_raced (n pos : Nat) : (parseResults n pos s).raced = s.raced := rfl
@[simp] theorem parseResults_platform (n pos : Nat) : (parseResults n pos s).platform = s.platform := rfl
@[simp] theorem parseResults_inputs (n pos : Nat) : (parseResults n pos s).inputs = s.inputs := rfl
@[simp] theorem parseResults_readData (n pos : Nat) : (parseResults n pos s).readData = s.readData := rfl
@[simp] theorem parseResults_draws (n pos : Nat) : (parseResults n pos s).draws = s.draws := rfl

/-! ### What MATCH writes at its end (43_decoder.md R197) -/

@[simp] theorem matchResults_ie (base : Nat) : (matchResults base s).ie = s.ie := rfl
@[simp] theorem matchResults_done (base : Nat) : (matchResults base s).done = s.done := rfl
@[simp] theorem matchResults_err (base : Nat) : (matchResults base s).err = s.err := rfl
@[simp] theorem matchResults_fv (base : Nat) : (matchResults base s).fv = s.fv := rfl
@[simp] theorem matchResults_pv (base : Nat) : (matchResults base s).pv = s.pv := rfl
@[simp] theorem matchResults_cv (base : Nat) : (matchResults base s).cv = s.cv := rfl
@[simp] theorem matchResults_stage (base : Nat) : (matchResults base s).stage = s.stage := rfl
@[simp] theorem matchResults_srcAddr (base : Nat) : (matchResults base s).srcAddr = s.srcAddr := rfl
@[simp] theorem matchResults_srcLen (base : Nat) : (matchResults base s).srcLen = s.srcLen := rfl
@[simp] theorem matchResults_dstAddr (base : Nat) : (matchResults base s).dstAddr = s.dstAddr := rfl
@[simp] theorem matchResults_dstCap (base : Nat) : (matchResults base s).dstCap = s.dstCap := rfl
@[simp] theorem matchResults_dstLen (base : Nat) : (matchResults base s).dstLen = BitVec.ofNat 32 s.cursor := rfl
@[simp] theorem matchResults_nsym (base : Nat) : (matchResults base s).nsym = s.nsym := rfl
@[simp] theorem matchResults_total (base : Nat) : (matchResults base s).total = s.total := rfl
@[simp] theorem matchResults_bitLen (base : Nat) : (matchResults base s).bitLen = BitVec.ofNat 32 (s.srcLen.toNat - base) := rfl
@[simp] theorem matchResults_bsOff (base : Nat) : (matchResults base s).bsOff = s.bsOff := rfl
@[simp] theorem matchResults_errInfo (base : Nat) : (matchResults base s).errInfo = s.errInfo := rfl
@[simp] theorem matchResults_freq (base : Nat) : (matchResults base s).freq = s.freq := rfl
@[simp] theorem matchResults_psym (base : Nat) : (matchResults base s).psym = s.psym := rfl
@[simp] theorem matchResults_prob (base : Nat) : (matchResults base s).prob = s.prob := rfl
@[simp] theorem matchResults_codes (base : Nat) : (matchResults base s).codes = s.codes := rfl
@[simp] theorem matchResults_running (base : Nat) : (matchResults base s).running = s.running := rfl
@[simp] theorem matchResults_progress (base : Nat) : (matchResults base s).progress = s.progress := rfl
@[simp] theorem matchResults_cursor (base : Nat) : (matchResults base s).cursor = s.cursor := rfl
@[simp] theorem matchResults_rst (base : Nat) : (matchResults base s).rst = s.rst := rfl
@[simp] theorem matchResults_mem (base : Nat) : (matchResults base s).mem = s.mem := rfl
@[simp] theorem matchResults_accesses (base : Nat) : (matchResults base s).accesses = s.accesses := rfl
@[simp] theorem matchResults_raced (base : Nat) : (matchResults base s).raced = s.raced := rfl
@[simp] theorem matchResults_platform (base : Nat) : (matchResults base s).platform = s.platform := rfl
@[simp] theorem matchResults_inputs (base : Nat) : (matchResults base s).inputs = s.inputs := rfl
@[simp] theorem matchResults_readData (base : Nat) : (matchResults base s).readData = s.readData := rfl
@[simp] theorem matchResults_draws (base : Nat) : (matchResults base s).draws = s.draws := rfl

/-! ### Reset (10_state.md R52) -/

@[simp] theorem resetRegisters_ie : (resetRegisters s).ie = false := rfl
@[simp] theorem resetRegisters_done : (resetRegisters s).done = false := rfl
@[simp] theorem resetRegisters_err : (resetRegisters s).err = none := rfl
@[simp] theorem resetRegisters_fv : (resetRegisters s).fv = false := rfl
@[simp] theorem resetRegisters_pv : (resetRegisters s).pv = false := rfl
@[simp] theorem resetRegisters_cv : (resetRegisters s).cv = false := rfl
@[simp] theorem resetRegisters_stage : (resetRegisters s).stage = .none := rfl
@[simp] theorem resetRegisters_srcAddr : (resetRegisters s).srcAddr = 0 := rfl
@[simp] theorem resetRegisters_srcLen : (resetRegisters s).srcLen = 0 := rfl
@[simp] theorem resetRegisters_dstAddr : (resetRegisters s).dstAddr = 0 := rfl
@[simp] theorem resetRegisters_dstCap : (resetRegisters s).dstCap = 0 := rfl
@[simp] theorem resetRegisters_dstLen : (resetRegisters s).dstLen = 0 := rfl
@[simp] theorem resetRegisters_nsym : (resetRegisters s).nsym = 0 := rfl
@[simp] theorem resetRegisters_total : (resetRegisters s).total = 0 := rfl
@[simp] theorem resetRegisters_bitLen : (resetRegisters s).bitLen = 0 := rfl
@[simp] theorem resetRegisters_bsOff : (resetRegisters s).bsOff = 0 := rfl
@[simp] theorem resetRegisters_errInfo : (resetRegisters s).errInfo = 0 := rfl
@[simp] theorem resetRegisters_freq : (resetRegisters s).freq = s.freq := rfl
@[simp] theorem resetRegisters_psym : (resetRegisters s).psym = s.psym := rfl
@[simp] theorem resetRegisters_prob : (resetRegisters s).prob = s.prob := rfl
@[simp] theorem resetRegisters_codes : (resetRegisters s).codes = s.codes := rfl
@[simp] theorem resetRegisters_running : (resetRegisters s).running = none := rfl
@[simp] theorem resetRegisters_progress : (resetRegisters s).progress = .start := rfl
@[simp] theorem resetRegisters_cursor : (resetRegisters s).cursor = 0 := rfl
@[simp] theorem resetRegisters_rst : (resetRegisters s).rst = false := rfl
@[simp] theorem resetRegisters_mem : (resetRegisters s).mem = s.mem := rfl
@[simp] theorem resetRegisters_accesses : (resetRegisters s).accesses = [] := rfl
@[simp] theorem resetRegisters_raced : (resetRegisters s).raced = [] := rfl
@[simp] theorem resetRegisters_platform : (resetRegisters s).platform = s.platform := rfl
@[simp] theorem resetRegisters_inputs : (resetRegisters s).inputs = s.inputs := rfl
@[simp] theorem resetRegisters_readData : (resetRegisters s).readData = s.readData := rfl
@[simp] theorem resetRegisters_draws : (resetRegisters s).draws = s.draws := rfl

/-! ### Views -/

@[simp] theorem accept_busy (c : Word) : (accept c s).busy = true := rfl
@[simp] theorem idle_busy : s.idle.busy = false := rfl
@[simp] theorem errorTerminate_busy (r : Raise) : (errorTerminate r s).busy = false := rfl
@[simp] theorem normalTerminate_busy : (normalTerminate s).busy = false := rfl
@[simp] theorem resetRegisters_busy : (resetRegisters s).busy = false := rfl

end Sys2Proof.Machine
end

