-- ==== Sys2Proof/Laws/Engine.lean ====
section
/-! SUPPORT. What a piece of a stage can do: how pieces compose, and one lemma for each operation on the memory port
(00_scope.md R12) that says everything it does. -/

namespace Sys2Proof.Machine

variable {α β : Type}

/-! ### Composition -/

theorem run_pure (a : α) (s : State) : (pure a : Engine α).run s = .ok a s := rfl

theorem run_get (s : State) : (get : Engine State).run s = .ok s s := rfl

theorem run_set (t s : State) : (set t : Engine Unit).run s = .ok () t := rfl

theorem run_modify (f : State → State) (s : State) : (modify f : Engine Unit).run s = .ok () (f s) := rfl

theorem run_throw (r : Raise) (s : State) : (throw r : Engine α).run s = .error r s := rfl

theorem run_enter (st : Stage) (s : State) : (enter st).run s = .ok () { s with stage := st } := rfl

theorem run_bind (m : Engine α) (f : α → Engine β) (s : State) :
    (m >>= f).run s = match m.run s with
      | .ok a t => (f a).run t
      | .error r t => .error r t := by
  simp only [EStateM.run, bind, EStateM.bind]
  cases m s <;> rfl

/-- The state a piece of a stage ends in, whether it ran to its end or raised. -/
def endOf : EStateM.Result Raise State α → State
  | .ok _ t => t
  | .error _ t => t

/-- Every end of the piece is related to its beginning by `R`. -/
def Keeps (R : State → State → Prop) (m : Engine α) : Prop := ∀ s, R s (endOf (m.run s))

theorem keeps_pure {R : State → State → Prop} (refl : ∀ s, R s s) (a : α) : Keeps R (pure a : Engine α) :=
  fun s => refl s

theorem keeps_get {R : State → State → Prop} (refl : ∀ s, R s s) : Keeps R (get : Engine State) := fun s => refl s

theorem keeps_throw {R : State → State → Prop} (refl : ∀ s, R s s) (r : Raise) : Keeps R (throw r : Engine α) :=
  fun s => refl s

theorem keeps_modify {R : State → State → Prop} {f : State → State} (h : ∀ s, R s (f s)) :
    Keeps R (modify f : Engine Unit) := fun s => h s

theorem keeps_bind {R : State → State → Prop} (trans : ∀ s t u, R s t → R t u → R s u) {m : Engine α}
    {f : α → Engine β} (hm : Keeps R m) (hf : ∀ a, Keeps R (f a)) : Keeps R (m >>= f) := by
  intro s
  have h := hm s
  rw [run_bind]
  cases hr : m.run s with
  | ok a t =>
    rw [hr] at h
    exact trans _ _ _ h (hf a t)
  | error r t =>
    rw [hr] at h
    exact h

/-! ### The bus (20_memory.md R76, R80) -/

/-- A read touches no field but the counter of free values. -/
theorem busRead_state (a : Word) (s : State) : (busRead a s).2 = { s with draws := (busRead a s).2.draws } := by
  unfold busRead
  split <;> rfl

/-- Where the host wrote no such byte under the command, a read returns the byte in memory and draws nothing. -/
theorem busRead_quiet {a : Word} {s : State} (h : s.olderValues a = []) : busRead a s = (s.mem.read a.toNat, s) := by
  unfold busRead
  rw [h]

/-- A write touches no field but memory and the counter of free values. -/
theorem busWrite_state (a : Word) (b : Byte) (s : State) :
    busWrite a b s = { s with mem := (busWrite a b s).mem, draws := (busWrite a b s).draws } := by
  unfold busWrite
  split
  · rfl
  · split <;> rfl

/-- A write leaves memory as it was or writes its byte. -/
theorem busWrite_mem (a : Word) (b : Byte) (s : State) :
    (busWrite a b s).mem = s.mem ∨ (busWrite a b s).mem = s.mem.write a.toNat b := by
  unfold busWrite
  split
  · exact .inr rfl
  · split
    · exact .inl rfl
    · exact .inr rfl

theorem busWrite_quiet {a : Word} {b : Byte} {s : State} (h : s.olderValues a = []) :
    busWrite a b s = { s with mem := s.mem.write a.toNat b } := by
  unfold busWrite
  rw [h]

theorem olderValues_nil {s : State} (h : s.raced = []) (a : Word) : s.olderValues a = [] := by
  simp [State.olderValues, h]

/-- The older values of a byte are among those the host overwrote. -/
theorem mem_olderValues {s : State} {a : Word} {b : Byte} : b ∈ s.olderValues a ↔ (a.toNat, b) ∈ s.raced := by
  simp [State.olderValues]

/-! ### Memory accesses (00_scope.md R12) -/

/-- All that MemRead can do: BusError where the platform refuses, else a byte and one access in the log. -/
theorem memRead_run (a : Word) (s : State) :
    (memRead a).run s =
      if s.memOK a .read = true then
        .ok (busRead a s).1 { s with
          draws := (busRead a s).2.draws, accesses := s.accesses ++ [.read a (busRead a s).1] }
      else .error { kind := .bus, info := a } s := by
  simp only [EStateM.run, memRead]
  split
  · rw [busRead_state]
  · rfl

/-- All that MemWrite can do. -/
theorem memWrite_run (a : Word) (b : Byte) (s : State) :
    (memWrite a b).run s =
      if s.memOK a .write = true then
        .ok () { s with
          mem := (busWrite a b s).mem, draws := (busWrite a b s).draws, accesses := s.accesses ++ [.write a b] }
      else .error { kind := .bus, info := a } s := by
  simp only [EStateM.run, memWrite]
  split
  · rw [busWrite_state]
  · rfl

/-- All that Put can do: DstOverflow at the capacity, BusError where the platform refuses, else one byte written and
the cursor moved on (60_exceptions.md R241). -/
theorem put_run (b : Byte) (s : State) :
    (put b).run s =
      if s.cursor = s.dstCap.toNat then .error { kind := .dstOverflow, info := s.dstCap } s
      else if s.memOK (s.dstAt s.cursor) .write = true then
        .ok () { s with
          mem := (busWrite (s.dstAt s.cursor) b s).mem
          draws := (busWrite (s.dstAt s.cursor) b s).draws
          accesses := s.accesses ++ [.write (s.dstAt s.cursor) b]
          cursor := s.cursor + 1 }
      else .error { kind := .bus, info := s.dstAt s.cursor } s := by
  rw [put, run_bind, run_get]
  by_cases h : s.cursor = s.dstCap.toNat
  · simp only [h, if_true]
    rfl
  · simp only [h, if_false]
    rw [run_bind, memWrite_run]
    by_cases hw : s.memOK (s.dstAt s.cursor) .write = true
    · simp only [hw, if_true]
      rfl
    · simp only [hw]
      rfl

theorem srcByte_run (i : Nat) (s : State) : (srcByte i).run s = (memRead (s.srcAt i)).run s := by
  rw [srcByte, run_bind, run_get]

theorem putStr_nil (s : State) : (putStr []).run s = .ok () s := rfl

theorem putStr_cons (b : Byte) (l : List Byte) (s : State) :
    (putStr (b :: l)).run s = match (put b).run s with
      | .ok _ t => (putStr l).run t
      | .error r t => .error r t := by
  rw [putStr, run_bind]
  cases (put b).run s <;> rfl

/-- A string put before another is put first. -/
theorem putStr_append (l l' : List Byte) (s : State) :
    (putStr (l ++ l')).run s = match (putStr l).run s with
      | .ok _ t => (putStr l').run t
      | .error r t => .error r t := by
  induction l generalizing s with
  | nil => rfl
  | cons b l ih =>
    rw [List.cons_append, putStr_cons, putStr_cons]
    cases (put b).run s with
    | ok _ t => exact ih t
    | error r t => rfl

/-! ### What only the port moves -/

/-- The fields the memory port moves; every other field stays. -/
def SamePort (s t : State) : Prop :=
  t = { s with mem := t.mem, draws := t.draws, accesses := t.accesses, cursor := t.cursor }

theorem samePort_refl (s : State) : SamePort s s := rfl

theorem samePort_trans (s t u : State) (h : SamePort s t) (h' : SamePort t u) : SamePort s u := by
  unfold SamePort at *
  rw [h', h]

theorem memRead_samePort (a : Word) : Keeps SamePort (memRead a) := by
  intro s
  rw [memRead_run]
  split <;> rfl

theorem srcByte_samePort (i : Nat) : Keeps SamePort (srcByte i) := by
  intro s
  rw [srcByte_run]
  exact memRead_samePort _ s

theorem put_samePort (b : Byte) : Keeps SamePort (put b) := by
  intro s
  rw [put_run]
  split
  · rfl
  · split <;> rfl

theorem putStr_samePort (l : List Byte) : Keeps SamePort (putStr l) := by
  induction l with
  | nil => exact keeps_pure samePort_refl ()
  | cons b l ih => exact keeps_bind samePort_trans (put_samePort b) fun _ => ih

end Sys2Proof.Machine
end

