-- ==== Sys2Proof/Laws/Command.lean ====
section
/-! SUPPORT. How a command is accepted, runs and ends: acceptance made twice is made once, and the cases of
runCommand, from which every claim about all commands follows. -/

namespace Sys2Proof.Machine

/-! ### Acceptance -/

/-- Acceptance of the same word made twice is made once (log 2). -/
theorem accept_accept (c : Word) (s : State) : accept c (accept c s) = accept c s := rfl

/-- Acceptance changes nothing that an admission check looks at. -/
theorem admission_accept (i : Instr) (c : Word) (s : State) : admission i (accept c s) = admission i s := by
  cases i <;> rfl

theorem touchesDevice_accept (i : Instr) (c : Word) (s : State) : touchesDevice i (accept c s) = touchesDevice i s :=
  rfl

/-- A command run from the state in which its word has been accepted is the command run from the state before. -/
theorem runCommand_accept (i : Instr) (stages : Engine Unit) (s : State) :
    runCommand i stages (accept (encode i) s) = runCommand i stages s := rfl

/-! ### Admission (60_exceptions.md R240) -/

/-- All that the admission checks can answer, in their order. -/
theorem admission_cases (i : Instr) (s : State) :
    (tablesReady i s = false ∧ admission i s = some { kind := .sequence, info := encode i })
      ∨ (tablesReady i s = true ∧ rangeBad i s = true
          ∧ admission i s = some { kind := .range, info := encode i })
      ∨ (tablesReady i s = true ∧ rangeBad i s = false ∧ admission i s = none) := by
  unfold admission
  cases tablesReady i s <;> cases rangeBad i s <;> simp

theorem admitted_iff (i : Instr) (s : State) :
    admitted i s = true ↔ admission i s = none ∧ touchesDevice i s = false := by
  rcases admission_cases i s with ⟨h, ha⟩ | ⟨h, h', ha⟩ | ⟨h, h', ha⟩ <;> simp [admitted, *]

/-! ### Execution -/

/-- All that a command can do: it is refused admission, it is refused for device memory, or its stages run and one
termination follows. -/
theorem runCommand_cases (i : Instr) (stages : Engine Unit) (s : State) :
    (∃ r, admission i s = some r ∧ runCommand i stages s = .next (errorTerminate r (accept (encode i) s)))
      ∨ (admission i s = none ∧ touchesDevice i s = true ∧ runCommand i stages s = .refused .deviceMemory)
      ∨ (admitted i s = true
          ∧ runCommand i stages s = .next (terminate (stages.run (accept (encode i) s)))) := by
  unfold runCommand
  rw [admission_accept]
  cases ha : admission i s with
  | some r => exact .inl ⟨r, rfl, rfl⟩
  | none =>
    cases hd : touchesDevice i s with
    | true => exact .inr (.inl ⟨rfl, rfl, rfl⟩)
    | false => exact .inr (.inr ⟨(admitted_iff i s).2 ⟨ha, hd⟩, rfl⟩)

/-- An admitted command runs its stages from the state of its acceptance. -/
theorem runCommand_admitted {i : Instr} {s : State} (h : admitted i s = true) (stages : Engine Unit) :
    runCommand i stages s = .next (terminate (stages.run (accept (encode i) s))) := by
  rcases runCommand_cases i stages s with ⟨r, hr, _⟩ | ⟨_, hd, _⟩ | ⟨_, h'⟩
  · simp [((admitted_iff i s).1 h).1] at hr
  · simp [((admitted_iff i s).1 h).2] at hd
  · exact h'

/-- A command that answers a next state was refused admission, or ran its stages (the inversion of runCommand). -/
theorem runCommand_next {i : Instr} {stages : Engine Unit} {s t : State} (h : runCommand i stages s = .next t) :
    (∃ r, admission i s = some r ∧ t = errorTerminate r (accept (encode i) s))
      ∨ (admitted i s = true ∧ t = terminate (stages.run (accept (encode i) s))) := by
  rcases runCommand_cases i stages s with ⟨r, hr, h'⟩ | ⟨_, _, h'⟩ | ⟨ha, h'⟩
  · rw [h'] at h
    injection h with h
    exact .inl ⟨r, hr, h.symm⟩
  · rw [h'] at h
    cases h
  · rw [h'] at h
    injection h with h
    exact .inr ⟨ha, h.symm⟩

/-! ### Termination (60_exceptions.md R243, R244) -/

@[simp] theorem terminate_busy (r : EStateM.Result Raise State Unit) : (terminate r).busy = false := by
  cases r <;> rfl

@[simp] theorem terminate_done (r : EStateM.Result Raise State Unit) : (terminate r).done = true := by
  cases r <;> rfl

/-- A termination moves no memory, no table, no operand, and not the log of accesses. -/
theorem terminate_frame (r : EStateM.Result Raise State Unit) :
    (terminate r).ie = (endOf r).ie ∧ (terminate r).stage = (endOf r).stage
      ∧ (terminate r).srcAddr = (endOf r).srcAddr ∧ (terminate r).srcLen = (endOf r).srcLen
      ∧ (terminate r).dstAddr = (endOf r).dstAddr ∧ (terminate r).dstCap = (endOf r).dstCap
      ∧ (terminate r).freq = (endOf r).freq ∧ (terminate r).psym = (endOf r).psym
      ∧ (terminate r).prob = (endOf r).prob ∧ (terminate r).codes = (endOf r).codes
      ∧ (terminate r).mem = (endOf r).mem ∧ (terminate r).accesses = (endOf r).accesses
      ∧ (terminate r).platform = (endOf r).platform ∧ (terminate r).inputs = (endOf r).inputs
      ∧ (terminate r).readData = (endOf r).readData ∧ (terminate r).draws = (endOf r).draws := by
  cases r <;> exact ⟨rfl, rfl, rfl, rfl, rfl, rfl, rfl, rfl, rfl, rfl, rfl, rfl, rfl, rfl, rfl, rfl⟩

/-! ### The step -/

/-- All that a step can be: an event of the host, or the engine's turn when the list of inputs is empty. -/
theorem step_cases (s : State) :
    (s.inputs = [] ∧ step s = engineTurn s)
      ∨ ∃ e rest, s.inputs = e :: rest ∧ step s = event e { s with inputs := rest } := by
  unfold step turn
  cases h : s.inputs with
  | nil => exact .inl ⟨rfl, rfl⟩
  | cons e rest => exact .inr ⟨e, rest, rfl, rfl⟩

/-- All that the engine's turn can be: idling, an illegal word, a whole command, or what is left of one. -/
theorem engineTurn_cases (s : State) :
    (s.running = none ∧ engineTurn s = .next s)
      ∨ (∃ w e, s.running = some w ∧ decode w = .error e ∧ engineTurn s = runIllegal w s)
      ∨ (∃ w c, s.running = some w ∧ decode w = .ok c ∧ s.progress = .start ∧ engineTurn s = exec c s)
      ∨ ∃ w c, s.running = some w ∧ decode w = .ok c ∧ s.progress ≠ .start
          ∧ engineTurn s = .next (terminate ((finish c s.progress).run s.resumed)) := by
  unfold engineTurn
  cases h : s.running with
  | none => exact .inl ⟨rfl, rfl⟩
  | some w =>
    cases hd : decode w with
    | error e => exact .inr (.inl ⟨w, e, rfl, hd, by simp [hd]⟩)
    | ok c =>
      by_cases hp : s.progress = .start
      · exact .inr (.inr (.inl ⟨w, c, rfl, hd, hp, by simp [hd, hp]⟩))
      · exact .inr (.inr (.inr ⟨w, c, rfl, hd, hp, by simp [hd, hp]⟩))

/-- Every command is runCommand of its stages. -/
theorem exec_eq_runCommand (c : Instr) (s : State) : exec c s = runCommand c (stages c) s := by
  cases c <;> rfl

end Sys2Proof.Machine
end

