-- ==== Sys2Proof/Laws/Access.lean ====
section
/-! SUPPORT. The engine access by access and the engine command by command are one (70_reset_and_hazards.md R270): what
is left of a command from a place on is its next access and then what is left from the place after it. -/

namespace Sys2Proof.Machine

variable {α β γ : Type}

/-- What is left of the command `c` after the piece of it that ended so. -/
def continued (c : Instr) : EStateM.Result Raise State (Option Progress) → EStateM.Result Raise State Unit
  | .ok (some p) t => (finish c p).run t
  | .ok none t => .ok () t
  | .error r t => .error r t

theorem run_bind_assoc (m : Engine α) (f : α → Engine β) (g : β → Engine γ) (s : State) :
    ((m >>= f) >>= g).run s = (m >>= fun a => f a >>= g).run s := by
  simp only [run_bind]
  cases m.run s <;> rfl

/-- A read moves no field that a stage looks at. -/
theorem srcByte_ok {i : Nat} {s t : State} {b : Byte} (h : (srcByte i).run s = .ok b t) : SamePort s t := by
  have k := srcByte_samePort i s
  rwa [h] at k

theorem put_ok {b : Byte} {s t : State} (h : (put b).run s = .ok () t) : SamePort s t := by
  have k := put_samePort b s
  rwa [h] at k

theorem SamePort.srcLen {s t : State} (h : SamePort s t) : t.srcLen = s.srcLen := by rw [h]

theorem SamePort.running {s t : State} (h : SamePort s t) : t.running = s.running := by rw [h]

/-! ### One piece after the other -/

theorem afterFreq_finish (c : Instr) (s : State) :
    (restAfterFreq c).run s = continued c ((afterFreq c).run s) := by
  cases c <;> rfl

theorem afterParse_finish (c : Instr) (s : State) :
    (restAfterParse c).run s = continued c ((afterParse c).run s) := by
  cases c <;> rfl

theorem freq_finish (c : Instr) (i : Nat) (s : State) :
    (finish c (.freq i)).run s = continued c ((freqAccess c i).run s) := by
  simp only [finish, freqFrom, freqAccess, run_bind, run_get]
  by_cases h : i < s.srcLen.toNat
  · rw [if_pos h, show s.srcLen.toNat - i = s.srcLen.toNat - (i + 1) + 1 by omega, freqLoop, run_bind, run_bind]
    cases hb : (srcByte i).run s with
    | error r t => rfl
    | ok b t =>
      simp only [run_bind, run_modify, run_pure, continued, finish, freqFrom, run_get, (srcByte_ok hb).srcLen]
  · rw [if_neg h, show s.srcLen.toNat - i = 0 by omega, freqLoop, run_pure, run_bind, run_modify]
    exact afterFreq_finish c _

theorem header_finish (c : Instr) (rest : List Byte) (s : State) :
    (finish c (.header rest)).run s = continued c ((headerAccess rest).run s) := by
  cases rest with
  | nil => rfl
  | cons b rest =>
    simp only [finish, headerFrom, headerAccess, run_bind, putStr_cons]
    cases (put b).run s with
    | ok _ t => simp only [run_pure, continued, finish, headerFrom, run_bind]
    | error r t => rfl

theorem bits_finish (c : Instr) (hdr j : Nat) (rest : List Byte) (s : State) :
    (finish c (.bits hdr j rest)).run s = continued c ((bitsAccess hdr j rest).run s) := by
  cases rest with
  | cons b rest =>
    simp only [finish, bitsAccess, run_bind, putStr_cons]
    cases (put b).run s with
    | ok _ t => simp only [run_pure, continued, finish, run_bind]
    | error r t => rfl
  | nil =>
    simp only [finish, bitsFrom, bitsAccess, run_bind, run_get, putStr_nil]
    by_cases h : j < s.srcLen.toNat
    · rw [if_pos h, show s.srcLen.toNat - j = s.srcLen.toNat - (j + 1) + 1 by omega, emitLoop, run_bind, run_bind]
      cases hb : (srcByte j).run s with
      | error r t => rfl
      | ok b t =>
        simp only [run_bind, run_get]
        by_cases hk : t.codes.len b = 0
        · simp only [hk, if_true]
          rfl
        · simp only [hk, if_false, run_bind, run_pure, continued, finish, bitsFrom]
          cases hp : (putStr (bitsText (t.codes.code b))).run t with
          | error r u => rfl
          | ok _ u =>
            have k := putStr_samePort (bitsText (t.codes.code b)) t
            rw [hp] at k
            simp only [run_get, (show SamePort t u from k).srcLen, (srcByte_ok hb).srcLen]
    · rw [if_neg h, show s.srcLen.toNat - j = 0 by omega, emitLoop]
      rfl

theorem parse_finish (c : Instr) (pos : Nat) (p : Parser) (s : State) :
    (finish c (.parse pos p)).run s = continued c ((parseAccess c pos p).run s) := by
  simp only [finish, parseFrom, parseAccess, run_bind, run_get]
  by_cases h : pos < s.srcLen.toNat
  · rw [if_pos h, show s.srcLen.toNat - pos = s.srcLen.toNat - (pos + 1) + 1 by omega, parseLoop, run_bind, run_bind]
    cases hb : (srcByte pos).run s with
    | error r t => rfl
    | ok b t =>
      simp only [run_bind, run_get]
      cases parseByte p t.codes b with
      | bad => rfl
      | more p' codes =>
        simp only [run_bind, run_set, run_pure, continued, finish, parseFrom, run_get, (srcByte_ok hb).srcLen]
      | done =>
        simp only [run_bind, run_set]
        exact afterParse_finish c _
  · rw [if_neg h, show s.srcLen.toNat - pos = 0 by omega, parseLoop]
    rfl

theorem match_finish (c : Instr) (base j : Nat) (acc : Codeword) (start : Nat) (s : State) :
    (finish c (.matching base j acc start)).run s = continued c ((matchAccess base j acc start).run s) := by
  simp only [finish, matchFrom, matchAccess, run_bind, run_get]
  by_cases h : j < s.srcLen.toNat
  · rw [if_pos h, show s.srcLen.toNat - j = s.srcLen.toNat - (j + 1) + 1 by omega, matchLoop, run_bind, run_bind]
    cases hb : (srcByte j).run s with
    | error r t => rfl
    | ok b t =>
      simp only
      by_cases hk : isBitChar b
      · simp only [hk, Bool.not_true, Bool.false_eq_true, if_false, run_bind, run_get]
        cases hf : findSymbol t.codes (acc ++ [charBit b]) with
        | some x =>
          simp only [run_bind, run_pure, continued, finish, matchFrom]
          cases hp : (put x).run t with
          | error r u => rfl
          | ok _ u => simp only [run_get, (put_ok hp).srcLen, (srcByte_ok hb).srcLen]
        | none => simp only [run_bind, run_pure, continued, finish, matchFrom, run_get, (srcByte_ok hb).srcLen]
      · simp only [hk]
        rfl
  · rw [if_neg h, show s.srcLen.toNat - j = 0 by omega, matchLoop]
    by_cases ha : acc = []
    · simp only [ha, if_true]
      rfl
    · simp only [ha, if_false]
      rfl

theorem start_finish (c : Instr) (s : State) : (finish c .start).run s = continued c ((begin c).run s) := by
  cases c with
  | freq =>
    simp only [finish, stages, begin, freqStage, run_bind, run_pure]
    cases freqBegin.run s with
    | ok _ t =>
      simp only [continued, finish, restAfterFreq, run_bind, run_pure]
      cases (freqFrom 0).run t <;> rfl
    | error r t => rfl
  | encode =>
    simp only [finish, stages, begin, encodeStages, freqStage, run_bind, run_pure]
    cases freqBegin.run s with
    | ok _ t => simp only [continued, finish, restAfterFreq, run_bind]
    | error r t => rfl
  | parse =>
    simp only [finish, stages, begin, parseStage, run_bind, run_pure]
    cases parseBegin.run s with
    | ok _ t =>
      simp only [continued, finish, restAfterParse, run_bind, run_pure]
      cases (parseFrom 0 Parser.start).run t <;> rfl
    | error r t => rfl
  | decode =>
    simp only [finish, stages, begin, decodeStages, parseStage, run_bind, run_pure]
    cases parseBegin.run s with
    | ok _ t => simp only [continued, finish, restAfterParse, run_bind]
    | error r t => rfl
  | nop | clear | ptab | tree | emit | matchBits => rfl

/-- What is left of a command is its next access and then what is left after it. -/
theorem finish_eq_advance (c : Instr) (p : Progress) (s : State) :
    (finish c p).run s = continued c ((advance c p).run s) := by
  cases p with
  | start => exact start_finish c s
  | freq i => exact freq_finish c i s
  | header rest => exact header_finish c rest s
  | bits hdr j rest => exact bits_finish c hdr j rest s
  | parse pos p => exact parse_finish c pos p s
  | matching base j acc start => exact match_finish c base j acc start s
  | found base j b start =>
    simp only [finish, advance, run_bind]
    cases (put b).run s <;> rfl

/-! ### What a piece of a command leaves alone -/

/-- The command in work, and the place taken up. -/
def SameTask (s t : State) : Prop := t.running = s.running ∧ t.progress = s.progress

theorem sameTask_refl (s : State) : SameTask s s := ⟨rfl, rfl⟩

theorem sameTask_trans (s t u : State) (h : SameTask s t) (h' : SameTask t u) : SameTask s u :=
  ⟨h'.1.trans h.1, h'.2.trans h.2⟩

theorem SamePort.sameTask {s t : State} (h : SamePort s t) : SameTask s t := by
  rw [h]
  exact ⟨rfl, rfl⟩

theorem storeEntries_sameTask (l : List Entry) (i : Nat) (s : State) : SameTask s (storeEntries i l s) := by
  induction l generalizing i s with
  | nil => exact sameTask_refl s
  | cons x l ih => exact sameTask_trans _ _ _ ⟨rfl, rfl⟩ (ih _ _)

theorem keeps_enter (st : Stage) : Keeps SameTask (enter st) := fun _ => ⟨rfl, rfl⟩

theorem srcByte_sameTask (i : Nat) : Keeps SameTask (srcByte i) := fun s => (srcByte_samePort i s).sameTask

theorem put_sameTask (b : Byte) : Keeps SameTask (put b) := fun s => (put_samePort b s).sameTask

/-- A piece of a command keeps the command and the place taken up, and a place it stops at is not the start. -/
def Piece (m : Engine (Option Progress)) : Prop :=
  Keeps SameTask m ∧ ∀ s q t, m.run s = .ok (some q) t → q ≠ .start

theorem piece_none : Piece (pure none) := ⟨keeps_pure sameTask_refl none, fun s q t h => by cases h⟩

theorem piece_some {q : Progress} (h : q ≠ .start) : Piece (pure (some q)) :=
  ⟨keeps_pure sameTask_refl _, fun s q' t h' => by
    cases h'
    exact h⟩

theorem piece_throw (r : Raise) : Piece (throw r) := ⟨keeps_throw sameTask_refl r, fun s q t h => by cases h⟩

theorem piece_bind {m : Engine α} {f : α → Engine (Option Progress)} (hm : Keeps SameTask m)
    (hf : ∀ a, Piece (f a)) : Piece (m >>= f) := by
  refine ⟨keeps_bind sameTask_trans hm fun a => (hf a).1, fun s q t h => ?_⟩
  rw [run_bind] at h
  cases hr : m.run s with
  | ok a u =>
    rw [hr] at h
    exact (hf a).2 u q t h
  | error r u =>
    rw [hr] at h
    cases h

theorem piece_ite {p : Prop} [Decidable p] {m n : Engine (Option Progress)} (hm : Piece m) (hn : Piece n) :
    Piece (if p then m else n) := by
  split
  · exact hm
  · exact hn

theorem getTask : Keeps SameTask (get : Engine State) := keeps_get sameTask_refl

theorem freqBegin_sameTask : Keeps SameTask freqBegin := by
  intro s
  simp only [freqBegin, run_bind, run_enter, run_get]
  split <;> exact ⟨rfl, rfl⟩

theorem ptabStage_sameTask : Keeps SameTask ptabStage := fun s =>
  sameTask_trans s { s with stage := .ptab } _ ⟨rfl, rfl⟩ (storeEntries_sameTask _ 0 _)

theorem treeStage_sameTask : Keeps SameTask treeStage := fun _ => ⟨rfl, rfl⟩

theorem parseBegin_sameTask : Keeps SameTask parseBegin := fun _ => ⟨rfl, rfl⟩

theorem modify_sameTask {f : State → State} (h : ∀ s, SameTask s (f s)) : Keeps SameTask (modify f : Engine Unit) :=
  keeps_modify h

theorem emitBegin_piece : Piece emitBegin :=
  piece_bind (keeps_enter .emit) fun _ => piece_bind getTask fun _ => piece_some Progress.noConfusion

theorem matchBegin_piece (base : Nat) : Piece (matchBegin base) :=
  piece_bind (keeps_enter .matchBits) fun _ => piece_some Progress.noConfusion

theorem begin_piece (c : Instr) : Piece (begin c) := by
  cases c with
  | nop => exact piece_none
  | clear => exact piece_bind (modify_sameTask fun _ => ⟨rfl, rfl⟩) fun _ => piece_none
  | freq | encode => exact piece_bind freqBegin_sameTask fun _ => piece_some Progress.noConfusion
  | ptab => exact piece_bind ptabStage_sameTask fun _ => piece_none
  | tree => exact piece_bind treeStage_sameTask fun _ => piece_none
  | emit => exact emitBegin_piece
  | parse | decode => exact piece_bind parseBegin_sameTask fun _ => piece_some Progress.noConfusion
  | matchBits => exact matchBegin_piece 0

theorem afterFreq_piece (c : Instr) : Piece (afterFreq c) := by
  cases c with
  | encode => exact piece_bind ptabStage_sameTask fun _ => piece_bind treeStage_sameTask fun _ => emitBegin_piece
  | nop | clear | freq | ptab | tree | emit | parse | matchBits | decode => exact piece_none

theorem afterParse_piece (c : Instr) : Piece (afterParse c) := by
  cases c with
  | decode => exact piece_bind getTask fun _ => matchBegin_piece _
  | nop | clear | freq | ptab | tree | emit | encode | parse | matchBits => exact piece_none

theorem freqAccess_piece (c : Instr) (i : Nat) : Piece (freqAccess c i) :=
  piece_bind getTask fun _ => piece_ite
    (piece_bind (srcByte_sameTask i) fun _ => piece_bind (modify_sameTask fun _ => ⟨rfl, rfl⟩) fun _ =>
      piece_some Progress.noConfusion)
    (piece_bind (modify_sameTask fun _ => ⟨rfl, rfl⟩) fun _ => afterFreq_piece c)

theorem headerAccess_piece (rest : List Byte) : Piece (headerAccess rest) := by
  cases rest with
  | nil => exact piece_bind getTask fun _ => piece_some Progress.noConfusion
  | cons b rest => exact piece_bind (put_sameTask b) fun _ => piece_some Progress.noConfusion

theorem bitsAccess_piece (hdr j : Nat) (rest : List Byte) : Piece (bitsAccess hdr j rest) := by
  cases rest with
  | nil =>
    exact piece_bind getTask fun _ => piece_ite
      (piece_bind (srcByte_sameTask j) fun _ => piece_bind getTask fun _ =>
        piece_ite (piece_throw _) (piece_some Progress.noConfusion))
      (piece_bind (modify_sameTask fun _ => ⟨rfl, rfl⟩) fun _ => piece_none)
  | cons b rest => exact piece_bind (put_sameTask b) fun _ => piece_some Progress.noConfusion

/-- What PARSE does with the byte just read, in the state after the read. -/
theorem parseAccess_piece (c : Instr) (pos : Nat) (p : Parser) : Piece (parseAccess c pos p) := by
  have key : ∀ b, Piece (get >>= fun t : State => match parseByte p t.codes b with
      | .bad => throw { kind := .malformedArtifact, info := BitVec.ofNat 32 pos }
      | .more p' codes => do
        set { t with codes := codes }
        pure (some (.parse (pos + 1) p'))
      | .done => do
        set (parseResults p.n (pos + 1) t)
        afterParse c) := by
    intro b
    refine ⟨fun s => ?_, fun s q u h => ?_⟩
    · rw [run_bind, run_get]
      dsimp only
      split
      · exact ⟨rfl, rfl⟩
      · exact ⟨rfl, rfl⟩
      · rw [run_bind, run_set]
        exact sameTask_trans s (parseResults p.n (pos + 1) s) _ ⟨rfl, rfl⟩ ((afterParse_piece c).1 _)
    · rw [run_bind, run_get] at h
      dsimp only at h
      split at h
      · cases h
      · cases h
        exact Progress.noConfusion
      · exact (afterParse_piece c).2 _ q u h
  exact piece_bind getTask fun _ => piece_ite (piece_bind (srcByte_sameTask pos) key) (piece_throw _)

theorem matchAccess_piece (base j : Nat) (acc : Codeword) (start : Nat) : Piece (matchAccess base j acc start) := by
  refine piece_bind getTask fun _ => piece_ite (piece_bind (srcByte_sameTask j) fun b => piece_ite (piece_throw _)
    (piece_bind getTask fun t => ?_))
    (piece_ite (piece_bind (modify_sameTask fun _ => ⟨rfl, rfl⟩) fun _ => piece_none) (piece_throw _))
  dsimp only
  split <;> exact piece_some Progress.noConfusion

/-- The next access of a command keeps the command and the place taken up, and stops at no start. -/
theorem advance_piece (c : Instr) (p : Progress) : Piece (advance c p) := by
  cases p with
  | start => exact begin_piece c
  | freq i => exact freqAccess_piece c i
  | header rest => exact headerAccess_piece rest
  | bits hdr j rest => exact bitsAccess_piece hdr j rest
  | parse pos p => exact parseAccess_piece c pos p
  | matching base j acc start => exact matchAccess_piece base j acc start
  | found base j b start => exact piece_bind (put_sameTask b) fun _ => piece_some Progress.noConfusion

/-! ### Command by command is access by access -/

/-- A word is its two fields (30_encoding.md R100). -/
theorem word_fields (w : Word) : w = zeroField w ++ opcField w := by
  apply BitVec.eq_of_getLsbD_eq
  intro i hi
  simp only [zeroField, opcField, BitVec.getLsbD_append, BitVec.getLsbD_extractLsb']
  by_cases h : i < 8
  · simp [h]
  · have : i - 8 < 24 := by omega
    simp [h, this, show 8 + (i - 8) = i by omega]

/-- A word that decodes is the word of the command it decodes to. -/
theorem encode_of_decode {w : Word} {c : Instr} (h : decode w = .ok c) : w = encode c := by
  rw [word_fields w]
  unfold decode at h
  split at h
  · rename_i hz
    rw [hz]
    generalize opcField w = b at h
    unfold decodeOpcode at h
    repeat' split at h
    all_goals cases h
    all_goals
      subst b
      rfl
  · cases h

/-- The engine's turn inside a command is the rest of it. -/
theorem engineTurn_resumed {w : Word} {c : Instr} {s : State} (hw : s.running = some w) (hd : decode w = .ok c)
    (hp : s.progress ≠ .start) : engineTurn s = .next (terminate ((finish c s.progress).run s.resumed)) := by
  simp only [engineTurn, hw, hd, if_neg hp]

/-- A piece of the running command, and then the rest of it: the rest is the engine's turn, or there is none. -/
theorem pause_turn {w : Word} {c : Instr} (hd : decode w = .ok c) (p : Progress) {s : State}
    (hw : s.running = some w) (hp : s.progress = .start) :
    (pause ((advance c p).run s)).busy = true
          ∧ engineTurn (pause ((advance c p).run s)) = .next (terminate ((finish c p).run s))
      ∨ (pause ((advance c p).run s)).busy = false
          ∧ pause ((advance c p).run s) = terminate ((finish c p).run s) := by
  have hk := advance_piece c p
  rw [finish_eq_advance]
  cases hr : (advance c p).run s with
  | error r t => exact .inr ⟨rfl, rfl⟩
  | ok o t =>
    cases o with
    | none => exact .inr ⟨rfl, rfl⟩
    | some q =>
      left
      have ht := hk.1 s
      have hq := hk.2 s q t hr
      rw [hr] at ht
      have hrun : t.running = some w := ht.1.trans hw
      have hres : t.resumed = t := by
        have : t.progress = .start := ht.2.trans hp
        cases t
        subst this
        rfl
      refine ⟨by simp [pause, State.busy, hrun], ?_⟩
      refine (engineTurn_resumed (s := { t with progress := q }) hrun hd hq).trans ?_
      rw [show State.resumed { t with progress := q } = t.resumed from rfl, hres, continued]

/-- The engine's turn is one access, and then the engine's turn again, which is nothing where the command has ended
(70_reset_and_hazards.md R270). -/
theorem engineTurn_eq_access (s : State) :
    engineTurn s = match accessTurn s with
      | .next t => engineTurn t
      | .fault f => .fault f
      | .refused r => .refused r := by
  have ended : ∀ {x : EStateM.Result Raise State (Option Progress)} {r : EStateM.Result Raise State Unit} {q : Prop},
      (q ∧ engineTurn (pause x) = .next (terminate r)) ∨ ((pause x).busy = false ∧ pause x = terminate r) →
        .next (terminate r) = engineTurn (pause x) := by
    rintro x r q (⟨_, h⟩ | ⟨_, h⟩)
    · exact h.symm
    · rw [h]
      cases r <;> rfl
  unfold accessTurn
  cases hw : s.running with
  | none => rfl
  | some w =>
    cases hd : decode w with
    | error e =>
      simp only [engineTurn, hw, hd]
      rfl
    | ok c =>
      obtain rfl := encode_of_decode hd
      by_cases hp : s.progress = .start
      · rw [show engineTurn s = exec c s by simp only [engineTurn, hw, hd, if_pos hp], exec_eq_runCommand, runCommand]
        simp only [if_pos hp, hd]
        cases ha : admission c (accept (encode c) s) with
        | some r => rfl
        | none =>
          cases hv : touchesDevice c s with
          | true => rfl
          | false => exact ended (pause_turn hd .start rfl rfl)
      · simp only [if_neg hp]
        rw [engineTurn_resumed hw hd hp]
        simp only [hd]
        exact ended (pause_turn hd s.progress hw rfl)

/-- After `n` accesses the engine's turn ends where it would have ended before them. -/
theorem engineTurn_accessTurns {n : Nat} {s t : State} (h : accessTurns n s = .next t) : engineTurn s = engineTurn t := by
  induction n generalizing s with
  | zero =>
    cases h
    rfl
  | succ n ih =>
    rw [engineTurn_eq_access]
    rw [accessTurns] at h
    cases ha : accessTurn s with
    | next u =>
      rw [ha] at h
      exact ih h
    | fault f =>
      rw [ha] at h
      cases h
    | refused r =>
      rw [ha] at h
      cases h

theorem accessTurns_add (m n : Nat) (s : State) :
    accessTurns (m + n) s = match accessTurns m s with
      | .next t => accessTurns n t
      | .fault f => .fault f
      | .refused r => .refused r := by
  induction m generalizing s with
  | zero => rw [Nat.zero_add, accessTurns]
  | succ m ih =>
    rw [Nat.succ_add, accessTurns, accessTurns]
    cases accessTurn s with
    | next t => exact ih t
    | fault f => rfl
    | refused r => rfl

/-! ### What a piece of a command does on the memory port (20_memory.md R78) -/

/-- No access is made. -/
def Still (s t : State) : Prop := t.accesses = s.accesses ∧ t.mem = s.mem ∧ t.raced = s.raced

/-- One access at most is made; with no race, memory is changed by it alone. -/
def OneAccess (s t : State) : Prop :=
  t.raced = s.raced ∧ ∃ l, l.length ≤ 1 ∧ t.accesses = s.accesses ++ l ∧ (quiet s → t.mem = writeAll (writesOf l) s.mem)

theorem still_refl (s : State) : Still s s := ⟨rfl, rfl, rfl⟩

theorem still_trans (s t u : State) (h : Still s t) (h' : Still t u) : Still s u :=
  ⟨h'.1.trans h.1, h'.2.1.trans h.2.1, h'.2.2.trans h.2.2⟩

theorem Still.oneAccess {s t : State} (h : Still s t) : OneAccess s t :=
  ⟨h.2.2, [], Nat.zero_le _, by rw [h.1, List.append_nil], fun _ => h.2.1⟩

/-- Nothing before an access. -/
theorem still_then {m : Engine α} {f : α → Engine β} (hm : Keeps Still m) (hf : ∀ a, Keeps OneAccess (f a)) :
    Keeps OneAccess (m >>= f) := by
  intro s
  have h := hm s
  rw [run_bind]
  cases hr : m.run s with
  | ok a t =>
    rw [hr] at h
    have e : Still s t := h
    obtain ⟨k, l, hl, ha, hq⟩ := hf a t
    exact ⟨k.trans e.2.2, l, hl, ha.trans (by rw [e.1]), fun q => (hq (e.2.2.trans q)).trans (by rw [e.2.1])⟩
  | error r t =>
    rw [hr] at h
    exact Still.oneAccess h

/-- Nothing after an access. -/
theorem then_still {m : Engine α} {f : α → Engine β} (hm : Keeps OneAccess m) (hf : ∀ a, Keeps Still (f a)) :
    Keeps OneAccess (m >>= f) := by
  intro s
  have h := hm s
  rw [run_bind]
  cases hr : m.run s with
  | ok a t =>
    rw [hr] at h
    obtain ⟨k, l, hl, ha, hq⟩ := h
    have g := hf a t
    exact ⟨g.2.2.trans k, l, hl, g.1.trans ha, fun q => g.2.1.trans (hq q)⟩
  | error r t =>
    rw [hr] at h
    exact h

theorem still_bind {m : Engine α} {f : α → Engine β} (hm : Keeps Still m) (hf : ∀ a, Keeps Still (f a)) :
    Keeps Still (m >>= f) := keeps_bind still_trans hm hf

theorem still_pure (a : α) : Keeps Still (pure a : Engine α) := keeps_pure still_refl a

theorem still_get : Keeps Still (get : Engine State) := keeps_get still_refl

theorem still_throw (r : Raise) : Keeps Still (throw r : Engine α) := keeps_throw still_refl r

theorem still_modify {f : State → State} (h : ∀ s, Still s (f s)) : Keeps Still (modify f : Engine Unit) := keeps_modify h

theorem still_ite {p : Prop} [Decidable p] {m n : Engine α} (hm : Keeps Still m) (hn : Keeps Still n) :
    Keeps Still (if p then m else n) := by
  split
  · exact hm
  · exact hn

theorem oneAccess_of_still {m : Engine α} (h : Keeps Still m) : Keeps OneAccess m := fun s => (h s).oneAccess

theorem oneAccess_ite {p : Prop} [Decidable p] {m n : Engine α} (hm : Keeps OneAccess m) (hn : Keeps OneAccess n) :
    Keeps OneAccess (if p then m else n) := by
  split
  · exact hm
  · exact hn

theorem srcByte_oneAccess (i : Nat) : Keeps OneAccess (srcByte i) := by
  intro s
  rw [srcByte_run, memRead_run]
  split
  · exact ⟨rfl, [_], Nat.le_refl 1, rfl, fun _ => rfl⟩
  · exact (still_refl s).oneAccess

theorem put_oneAccess (b : Byte) : Keeps OneAccess (put b) := by
  intro s
  rw [put_run]
  split
  · exact (still_refl s).oneAccess
  · split
    · refine ⟨rfl, [_], Nat.le_refl 1, rfl, fun q => ?_⟩
      rw [busWrite_quiet (olderValues_nil q _)]
      rfl
    · exact (still_refl s).oneAccess

theorem enter_still (st : Stage) : Keeps Still (enter st) := fun _ => ⟨rfl, rfl, rfl⟩

theorem storeEntries_still (l : List Entry) (i : Nat) (s : State) : Still s (storeEntries i l s) := by
  induction l generalizing i s with
  | nil => exact still_refl s
  | cons x l ih => exact still_trans _ _ _ ⟨rfl, rfl, rfl⟩ (ih _ _)

theorem ptabStage_still : Keeps Still ptabStage := fun s =>
  still_trans s { s with stage := .ptab } _ ⟨rfl, rfl, rfl⟩ (storeEntries_still _ 0 _)

theorem treeStage_still : Keeps Still treeStage := fun _ => ⟨rfl, rfl, rfl⟩

theorem freqBegin_still : Keeps Still freqBegin := by
  intro s
  simp only [freqBegin, run_bind, run_enter, run_get]
  split <;> exact ⟨rfl, rfl, rfl⟩

theorem emitBegin_still : Keeps Still emitBegin :=
  still_bind (enter_still .emit) fun _ => still_bind still_get fun _ => still_pure _

theorem matchBegin_still (base : Nat) : Keeps Still (matchBegin base) :=
  still_bind (enter_still .matchBits) fun _ => still_pure _

theorem begin_still (c : Instr) : Keeps Still (begin c) := by
  cases c with
  | nop => exact still_pure _
  | clear => exact still_bind (still_modify fun _ => ⟨rfl, rfl, rfl⟩) fun _ => still_pure _
  | freq | encode => exact still_bind freqBegin_still fun _ => still_pure _
  | ptab => exact still_bind ptabStage_still fun _ => still_pure _
  | tree => exact still_bind treeStage_still fun _ => still_pure _
  | emit => exact emitBegin_still
  | parse | decode => exact fun _ => ⟨rfl, rfl, rfl⟩
  | matchBits => exact matchBegin_still 0

theorem afterFreq_still (c : Instr) : Keeps Still (afterFreq c) := by
  cases c with
  | encode => exact still_bind ptabStage_still fun _ => still_bind treeStage_still fun _ => emitBegin_still
  | nop | clear | freq | ptab | tree | emit | parse | matchBits | decode => exact still_pure _

theorem afterParse_still (c : Instr) : Keeps Still (afterParse c) := by
  cases c with
  | decode => exact still_bind still_get fun _ => matchBegin_still _
  | nop | clear | freq | ptab | tree | emit | encode | parse | matchBits => exact still_pure _

/-- A piece of a command makes one access at most. -/
theorem advance_oneAccess (c : Instr) (p : Progress) : Keeps OneAccess (advance c p) := by
  have modify_pure : ∀ {f : State → State} {m : Engine (Option Progress)}, (∀ s, Still s (f s)) → Keeps Still m →
      Keeps Still (do
        modify f
        m) := fun hf hm => still_bind (still_modify hf) fun _ => hm
  cases p with
  | start => exact oneAccess_of_still (begin_still c)
  | freq i =>
    exact still_then still_get fun _ => oneAccess_ite
      (then_still (srcByte_oneAccess i) fun _ => modify_pure (fun _ => ⟨rfl, rfl, rfl⟩) (still_pure _))
      (oneAccess_of_still (modify_pure (fun _ => ⟨rfl, rfl, rfl⟩) (afterFreq_still c)))
  | header rest =>
    cases rest with
    | nil => exact oneAccess_of_still (still_bind still_get fun _ => still_pure _)
    | cons b rest => exact then_still (put_oneAccess b) fun _ => still_pure _
  | bits hdr j rest =>
    cases rest with
    | nil =>
      exact still_then still_get fun _ => oneAccess_ite
        (then_still (srcByte_oneAccess j) fun _ => still_bind still_get fun _ => still_ite (still_throw _) (still_pure _))
        (oneAccess_of_still (modify_pure (fun _ => ⟨rfl, rfl, rfl⟩) (still_pure _)))
    | cons b rest => exact then_still (put_oneAccess b) fun _ => still_pure _
  | parse pos p =>
    refine still_then still_get fun _ => oneAccess_ite (then_still (srcByte_oneAccess pos) fun b s => ?_)
      (oneAccess_of_still (still_throw _))
    rw [run_bind, run_get]
    dsimp only
    split
    · exact still_refl s
    · exact ⟨rfl, rfl, rfl⟩
    · rw [run_bind, run_set]
      exact still_trans s (parseResults p.n (pos + 1) s) _ ⟨rfl, rfl, rfl⟩ (afterParse_still c _)
  | matching base j acc start =>
    refine still_then still_get fun _ => oneAccess_ite (then_still (srcByte_oneAccess j) fun b =>
      still_ite (still_throw _) (still_bind still_get fun t => ?_))
      (oneAccess_ite (oneAccess_of_still (modify_pure (fun _ => ⟨rfl, rfl, rfl⟩) (still_pure _)))
        (oneAccess_of_still (still_throw _)))
    dsimp only
    split <;> exact still_pure _
  | found base j b start => exact then_still (put_oneAccess b) fun _ => still_pure _

end Sys2Proof.Machine
end

