-- ==== Sys2Proof/Laws/HostPort.lean ====
section
/-! SUPPORT. What a host access can do: the register map window by window, host-port reads and writes by BUSY, reset. -/

namespace Sys2Proof.Machine

/-! ### The register map (10_state.md R21) -/

theorem index_toNat {k : Nat} (h : k < 4096) : (BitVec.ofNat 12 k).toNat = k := by
  rw [BitVec.toNat_ofNat]
  exact Nat.mod_eq_of_lt h

theorem entry_ofNat (b : Byte) (k : Nat) (h : k = b.toNat) : BitVec.ofNat 8 k = b := by
  rw [h, BitVec.ofNat_toNat, BitVec.setWidth_eq]

/-- The FREQ window. -/
theorem regAt_freq (b : Byte) : regAt (BitVec.ofNat 12 ((0x0400 + 4 * b.toNat) / 4)) = .freq b := by
  have hb := b.isLt
  unfold regAt
  rw [index_toNat (by omega)]
  simp only
  rw [if_neg (by omega), if_pos (by omega), entry_ofNat b _ (by omega)]

/-- The PSYM window. -/
theorem regAt_psym (b : Byte) : regAt (BitVec.ofNat 12 ((0x0800 + 4 * b.toNat) / 4)) = .psym b := by
  have hb := b.isLt
  unfold regAt
  rw [index_toNat (by omega)]
  simp only
  rw [if_neg (by omega), if_neg (by omega), if_pos (by omega), entry_ofNat b _ (by omega)]

/-- The CLEN window. -/
theorem regAt_clen (b : Byte) : regAt (BitVec.ofNat 12 ((0x0C00 + 4 * b.toNat) / 4)) = .clen b := by
  have hb := b.isLt
  unfold regAt
  rw [index_toNat (by omega)]
  simp only
  rw [if_neg (by omega), if_neg (by omega), if_neg (by omega), if_pos (by omega), entry_ofNat b _ (by omega)]

/-- The PROB window, low words. -/
theorem regAt_probLo (b : Byte) : regAt (BitVec.ofNat 12 ((0x1000 + 8 * b.toNat) / 4)) = .probLo b := by
  have hb := b.isLt
  unfold regAt
  rw [index_toNat (by omega)]
  simp only
  rw [if_neg (by omega), if_neg (by omega), if_neg (by omega), if_neg (by omega), if_pos (by omega), if_pos (by omega),
    entry_ofNat b _ (by omega)]

/-- The PROB window, high words. -/
theorem regAt_probHi (b : Byte) : regAt (BitVec.ofNat 12 ((0x1004 + 8 * b.toNat) / 4)) = .probHi b := by
  have hb := b.isLt
  unfold regAt
  rw [index_toNat (by omega)]
  simp only
  rw [if_neg (by omega), if_neg (by omega), if_neg (by omega), if_neg (by omega), if_pos (by omega), if_neg (by omega),
    entry_ofNat b _ (by omega)]

/-- The CBITS window. -/
theorem regAt_cbits (b : Byte) (w : Nat) (hw : w < 8) :
    regAt (BitVec.ofNat 12 ((0x2000 + 32 * b.toNat + 4 * w) / 4)) = .cbits b w := by
  have hb := b.isLt
  unfold regAt
  rw [index_toNat (by omega)]
  simp only
  rw [if_neg (by omega), if_neg (by omega), if_neg (by omega), if_neg (by omega), if_neg (by omega), if_neg (by omega),
    entry_ofNat b _ (by omega)]
  congr 1
  omega

/-! ### Host-port accesses by BUSY (70_reset_and_hazards.md R264) -/

/-- While BUSY = 1 a write changes nothing. -/
theorem portWrite_busy {s : State} (h : s.busy = true) (idx : BitVec 12) (v : Word) : portWrite idx v s = s := by
  simp [portWrite, h]

/-- While `rst` is asserted a write changes nothing. -/
theorem portWrite_held {s : State} (h : s.rst = true) (idx : BitVec 12) (v : Word) : portWrite idx v s = s := by
  simp [portWrite, h]

/-- While BUSY = 0 and `rst` is released a write has the effect of its register. -/
theorem portWrite_idle {s : State} (h : s.busy = false) (hr : s.rst = false) (idx : BitVec 12) (v : Word) :
    portWrite idx v s = writeIdle v s (regAt idx) := by
  simp [portWrite, h, hr]

/-- What a read returns while BUSY = 1. -/
theorem portValue_busy {s : State} (h : s.busy = true) (idx : BitVec 12) :
    portValue s idx = (readBusy s (Config.freeWord s.draws) (regAt idx)).getD (Config.freeWord s.draws) := by
  simp [portValue, h]

/-- What a read returns while BUSY = 0. -/
theorem portValue_idle {s : State} (h : s.busy = false) (idx : BitVec 12) :
    portValue s idx = (readIdle s (regAt idx)).getD (Config.freeWord s.draws) := by
  simp [portValue, h]

/-- A write with BUSY = 0 changes CTRL, STATUS, ERRINFO or an operand register, or accepts a command. -/
theorem writeIdle_cases (v : Word) (s : State) (r : Reg) :
    writeIdle v s r = s ∨ writeIdle v s r = { s with ie := v.getLsbD 0 } ∨ writeIdle v s r = s.writeStatus v
      ∨ writeIdle v s r = accept v s ∨ writeIdle v s r = { s with srcAddr := v } ∨ writeIdle v s r = { s with srcLen := v }
      ∨ writeIdle v s r = { s with dstAddr := v } ∨ writeIdle v s r = { s with dstCap := v } := by
  cases r <;> simp [writeIdle]

/-- A write to STATUS, field by field (10_state.md R24). -/
theorem writeStatus_eq (s : State) (v : Word) :
    s.writeStatus v = { s with
      done := s.done && !v.getLsbD 1
      err := if v.getLsbD 2 then none else s.err
      errInfo := if v.getLsbD 2 then 0 else s.errInfo } := by
  unfold State.writeStatus
  cases v.getLsbD 1 <;> cases v.getLsbD 2 <;> simp

/-! ### Memory accesses of the host (20_memory.md R79, R80) and reset (70_reset_and_hazards.md R260, R261) -/

/-- A host write moves memory, and under a running command the list of older values. -/
theorem hostWrite_eq (a : Word) (b : Byte) (s : State) :
    hostWrite a b s = { s with mem := s.mem.write a.toNat b, raced := (hostWrite a b s).raced } := rfl

/-- On an idle engine a host write races nothing. -/
theorem hostWrite_idle {s : State} (h : s.busy = false) (a : Word) (b : Byte) : (hostWrite a b s).raced = s.raced := by
  simp [hostWrite, h]

/-- A host read changes nothing but the word read. -/
theorem hostRead_eq (a : Word) (s : State) :
    hostRead a s = .next { s with readData := (s.mem.read a.toNat).setWidth 32 } := rfl

/-- A reset, with a command running or not, is the registers at their reset values. -/
theorem hostReset_eq (s : State) : hostReset s = .next (resetRegisters s) := rfl

/-- Asserting `rst` is the reset, `rst` being then held. -/
theorem driveReset_assert (s : State) : driveReset true s = { resetRegisters s with rst := true } := rfl

/-- Releasing `rst` leaves the reset state, once more. -/
theorem driveReset_release {s : State} (h : s.rst = true) : driveReset false s = resetRegisters s := by
  simp [driveReset, h]

/-- Releasing `rst` where it is not asserted changes nothing. -/
theorem driveReset_released {s : State} (h : s.rst = false) : driveReset false s = s := by
  simp [driveReset, h]

/-- Resetting twice is resetting once. -/
theorem resetRegisters_twice (s : State) : resetRegisters (resetRegisters s) = resetRegisters s := rfl

end Sys2Proof.Machine
end

