-- ==== Sys2Proof/Laws/PerInstr.lean ====
section
/-! SUPPORT. Statements about every command as syntax, one lemma per constructor. -/

namespace Sys2Proof.Laws.OpcodeField

/-- 30_encoding.md R100, R101: the word of the command has ZERO = 0 and its opcode in OPC, is legal, and decodes to the
command, also as a row of the opcode table. -/
def Statement (i : Instr) : Prop :=
  zeroField (encode i) = 0 ∧ opcField (encode i) = i.opcode ∧ legalWord (encode i) = true ∧ i.wellFormed = true
    ∧ decodeTableWord 32 (encode i).toNat = some i

theorem nop : Statement .nop := by unfold Statement; decide
theorem clear : Statement .clear := by unfold Statement; decide
theorem freq : Statement .freq := by unfold Statement; decide
theorem ptab : Statement .ptab := by unfold Statement; decide
theorem tree : Statement .tree := by unfold Statement; decide
theorem emit : Statement .emit := by unfold Statement; decide
theorem encode : Statement .encode := by unfold Statement; decide
theorem parse : Statement .parse := by unfold Statement; decide
theorem matchBits : Statement .matchBits := by unfold Statement; decide
theorem decode : Statement .decode := by unfold Statement; decide

end Sys2Proof.Laws.OpcodeField
end

