-- ==== Sys2Proof/Laws/Tables.lean ====
section
/-! SUPPORT. The laws of tables and code tables: a read after a write, and what appending a bit to a codeword does. -/

namespace Sys2Proof.Machine

variable {α : Type}

theorem Table.at_put (t : Table α) (i j : Nat) (v : α) :
    (t.put i v).at j = if i % 256 = j % 256 then v else t.at j := by
  simp only [Table.at, Table.put]
  exact Vector.getElem_set ..

theorem Table.at_put_symbol (t : Table α) (b c : Byte) (v : α) :
    (t.put b.toNat v).at c.toNat = if b = c then v else t.at c.toNat := by
  rw [Table.at_put, Nat.mod_eq_of_lt b.isLt, Nat.mod_eq_of_lt c.isLt]
  simp [BitVec.toNat_inj]

theorem Table.at_put_rank (t : Table α) {i j : Nat} (hi : i < 256) (hj : j < 256) (v : α) :
    (t.put i v).at j = if i = j then v else t.at j := by
  rw [Table.at_put, Nat.mod_eq_of_lt hi, Nat.mod_eq_of_lt hj]

/-- Two tables with the same entry for every symbol are equal. -/
theorem Table.eq_of_at (t u : Table α) (h : ∀ b : Byte, t.at b.toNat = u.at b.toNat) : t = u := by
  apply Vector.ext
  intro i hi
  have := h (BitVec.ofNat 8 i)
  simpa [Table.at, Nat.mod_eq_of_lt hi] using this

theorem Table.at_replicate (v : α) (i : Nat) : Table.at (Vector.replicate 256 v) i = v := by
  simp [Table.at]

@[simp] theorem CodeTable.len_empty (b : Byte) : CodeTable.empty.len b = 0 := by
  simp [CodeTable.empty, CodeTable.len, Table.at_replicate]

@[simp] theorem CodeTable.code_empty (b : Byte) : CodeTable.empty.code b = [] := by
  simp [CodeTable.code]

theorem CodeTable.code_length (t : CodeTable) (b : Byte) : (t.code b).length = t.len b := by
  simp [CodeTable.code]

theorem setBit_getLsbD (v : BitVec 256) (k j : Nat) (b : Bool) (hk : k < 256) :
    (setBit v k b).getLsbD j = if j = k then b else v.getLsbD j := by
  unfold setBit
  by_cases hj : j = k
  · subst hj
    cases b <;> simp [hk]
  · have : (1#256 <<< k).getLsbD j = false := by
      simp only [BitVec.getLsbD_shiftLeft, BitVec.getLsbD_one]
      by_cases hlt : j < k
      · simp [hlt]
      · have : ¬ j - k = 0 := by omega
        simp [this]
    cases b
    · by_cases h256 : j < 256
      · simp only [hj, if_false, Bool.false_eq_true, BitVec.getLsbD_and, BitVec.getLsbD_not, this, h256, decide_true,
          Bool.not_false, Bool.and_true]
      · simp [hj, BitVec.getLsbD_of_ge _ _ (Nat.le_of_not_lt h256)]
    · simp [hj, this]

/-- Appending lengthens the codeword of its symbol by one, while it is not full, and no other. -/
theorem CodeTable.len_append (t : CodeTable) (b c : Byte) (x : Bool) (h : t.len b < 255) :
    (t.append b x).len c = if b = c then t.len b + 1 else t.len c := by
  simp only [CodeTable.append, CodeTable.len, Table.at_put_symbol]
  split
  · rw [BitVec.toNat_add]
    have h' : (t.clen.at b.toNat).toNat < 255 := h
    change ((t.clen.at b.toNat).toNat + 1) % 256 = (t.clen.at b.toNat).toNat + 1
    omega
  · rfl

/-- `code(s) ++ b` (00_scope.md R14). -/
theorem CodeTable.code_append (t : CodeTable) (b c : Byte) (x : Bool) (h : t.len b < 255) :
    (t.append b x).code c = if b = c then t.code b ++ [x] else t.code c := by
  unfold CodeTable.code
  rw [CodeTable.len_append t b c x h]
  by_cases hbc : b = c
  · subst hbc
    simp only [if_true, List.range_succ, List.map_append, List.map_cons, List.map_nil]
    congr 1
    · apply List.map_congr_left
      intro k hk
      have hk' : k < t.len b := List.mem_range.1 hk
      simp only [CodeTable.append, Table.at_put_symbol, if_true]
      rw [setBit_getLsbD _ _ _ _ (by omega), if_neg (by omega)]
    · simp only [CodeTable.append, Table.at_put_symbol, if_true]
      rw [setBit_getLsbD _ _ _ _ (by omega), if_pos rfl]
  · simp only [hbc, if_false]
    apply List.map_congr_left
    intro k _
    simp only [CodeTable.append, Table.at_put_symbol, hbc, if_false]

/-- Appending keeps the bits beyond every codeword 0 (10_state.md R44). -/
theorem CodeTable.padded_append (t : CodeTable) (b : Byte) (x : Bool) (h : t.len b < 255) (hp : t.padded) :
    (t.append b x).padded := by
  intro c k hk
  rw [CodeTable.len_append t b c x h] at hk
  simp only [CodeTable.append, Table.at_put_symbol]
  by_cases hbc : b = c
  · subst hbc
    simp only [if_true] at hk ⊢
    rw [setBit_getLsbD _ _ _ _ (by omega), if_neg (by omega)]
    exact hp b k (by omega)
  · simp only [hbc, if_false] at hk ⊢
    exact hp c k hk

theorem CodeTable.padded_empty : CodeTable.empty.padded := by
  intro b k _
  simp [CodeTable.empty, Table.at_replicate]

/-- Code tables without stray bits are equal when they give every symbol the same codeword. -/
theorem CodeTable.eq_of_code (t u : CodeTable) (ht : t.padded) (hu : u.padded) (h : ∀ b, t.code b = u.code b) :
    t = u := by
  have hlen : ∀ b, t.len b = u.len b := fun b => by
    rw [← CodeTable.code_length, ← CodeTable.code_length, h]
  have hclen : t.clen = u.clen := Table.eq_of_at _ _ fun b => BitVec.eq_of_toNat_eq (hlen b)
  have hcbits : t.cbits = u.cbits := by
    refine Table.eq_of_at _ _ fun b => BitVec.eq_of_getLsbD_eq fun k _ => ?_
    by_cases hk : k < t.len b
    · have := congrArg (fun l : Codeword => l[k]?) (h b)
      simpa [CodeTable.code, hk, hlen b ▸ hk] using this
    · rw [ht b k (by omega), hu b k (by rw [← hlen b]; omega)]
  cases t
  cases u
  simp_all

end Sys2Proof.Machine
end

