-- ==== Sys2Proof/Laws/Ranking.lean ====
section
/-! SUPPORT. The laws of the order of the probability table (40_freq_ptab.md R133): it is a strict order, total on
distinct symbols, and sorting keeps the entries and puts them in it. -/

namespace Sys2Proof.Machine

/-- R133 on the values: the greater probability first, among equal ones the smaller symbol. -/
theorem before_iff (x y : Entry) :
    before x y = true ↔
      units y.prob < units x.prob ∨ (units x.prob = units y.prob ∧ x.symbol.toNat < y.symbol.toNat) := by
  simp only [before, fle, Bool.or_eq_true, Bool.not_eq_true', decide_eq_false_iff_not, Bool.and_eq_true,
    decide_eq_true_eq, BitVec.lt_def, not_le]
  omega

theorem before_trans {x y z : Entry} (h : before x y = true) (h' : before y z = true) : before x z = true := by
  rw [before_iff] at *
  omega

theorem before_irrefl (x : Entry) : before x x = false := by
  rw [← Bool.not_eq_true, before_iff]
  omega

/-- Of two entries with distinct symbols one stands before the other. -/
theorem before_total {x y : Entry} (h : x.symbol ≠ y.symbol) : before x y = true ∨ before y x = true := by
  have : x.symbol.toNat ≠ y.symbol.toNat := fun e => h (BitVec.eq_of_toNat_eq e)
  rw [before_iff, before_iff]
  omega

theorem insertEntry_perm (x : Entry) (l : List Entry) : (insertEntry x l).Perm (x :: l) := by
  induction l with
  | nil => exact .refl _
  | cons y l ih =>
    rw [insertEntry]
    split
    · exact .refl _
    · exact (ih.cons y).trans (.swap x y l)

/-- Sorting keeps the entries. -/
theorem sortEntries_perm (l : List Entry) : (sortEntries l).Perm l := by
  induction l with
  | nil => exact .refl _
  | cons x l ih => exact (insertEntry_perm x _).trans (ih.cons x)

theorem insertEntry_sorted (x : Entry) (l : List Entry) (hx : ∀ y ∈ l, x.symbol ≠ y.symbol)
    (hl : l.Pairwise fun a b => before a b = true) : (insertEntry x l).Pairwise fun a b => before a b = true := by
  induction l with
  | nil => exact List.pairwise_singleton _ _
  | cons y l ih =>
    rw [List.pairwise_cons] at hl
    rw [insertEntry]
    split
    · rename_i hxy
      refine List.pairwise_cons.2 ⟨fun z hz => ?_, List.pairwise_cons.2 hl⟩
      rcases List.mem_cons.1 hz with rfl | hz
      · exact hxy
      · exact before_trans hxy (hl.1 z hz)
    · rename_i hxy
      refine List.pairwise_cons.2 ⟨fun z hz => ?_, ih (fun z hz => hx z (by simp [hz])) hl.2⟩
      rcases List.mem_cons.1 ((insertEntry_perm x l).mem_iff.1 hz) with rfl | hz
      · exact (before_total (hx y (by simp))).resolve_left hxy
      · exact hl.1 z hz

/-- Sorting entries of distinct symbols puts them in the order of R133. -/
theorem sortEntries_sorted (l : List Entry) (h : (l.map Entry.symbol).Nodup) :
    (sortEntries l).Pairwise fun a b => before a b = true := by
  induction l with
  | nil => exact .nil
  | cons x l ih =>
    rw [List.map_cons, List.nodup_cons] at h
    refine insertEntry_sorted x _ (fun y hy he => h.1 ?_) (ih h.2)
    exact he ▸ List.mem_map_of_mem ((sortEntries_perm l).mem_iff.1 hy)

/-- The counted symbols, each once (40_freq_ptab.md R130). -/
theorem mem_alphabet (t : Table Word) (b : Byte) : b ∈ alphabet t ↔ 1 ≤ (t.at b.toNat).toNat := by
  unfold alphabet
  simp only [List.mem_map, List.mem_filter, List.mem_range, decide_eq_true_eq]
  constructor
  · rintro ⟨i, ⟨hi, hc⟩, rfl⟩
    simpa [Nat.mod_eq_of_lt hi] using hc
  · intro h
    exact ⟨b.toNat, ⟨b.isLt, h⟩, by simp⟩

theorem nodup_alphabet (t : Table Word) : (alphabet t).Nodup := by
  unfold alphabet
  refine List.Nodup.map_on ?_ (List.nodup_range.filter _)
  intro x hx y hy h
  have hx' := List.mem_range.1 (List.mem_filter.1 hx).1
  have hy' := List.mem_range.1 (List.mem_filter.1 hy).1
  have := congrArg BitVec.toNat h
  simpa [Nat.mod_eq_of_lt hx', Nat.mod_eq_of_lt hy'] using this

/-- NSYM is at most 256 (10_state.md R31). -/
theorem alphabetSize_le (t : Table Word) : alphabetSize t ≤ 256 := by
  unfold alphabetSize alphabet
  rw [List.length_map]
  exact (List.length_filter_le _ _).trans (by simp)

theorem entries_symbols (freq : Table Word) (total : Nat) : (entries freq total).map Entry.symbol = alphabet freq := by
  simp [entries, Function.comp_def]

/-- What PTAB stores stands in its place, and the entries before it are left alone (40_freq_ptab.md R132). -/
theorem storeEntries_at (l : List Entry) (i : Nat) (s : State) (h : i + l.length ≤ 256) (j : Nat) (hj : j < 256) :
    (storeEntries i l s).psym.at j = (if hk : i ≤ j ∧ j < i + l.length then (l[j - i]'(by omega)).symbol else s.psym.at j)
      ∧ (storeEntries i l s).prob.at j
          = (if hk : i ≤ j ∧ j < i + l.length then (l[j - i]'(by omega)).prob else s.prob.at j) := by
  induction l generalizing i s with
  | nil =>
    have : ¬ (i ≤ j ∧ j < i + ([] : List Entry).length) := by simp
    simp only [storeEntries, this, dif_neg, not_false_eq_true, and_self]
  | cons x l ih =>
    simp only [List.length_cons] at h
    rw [storeEntries]
    obtain ⟨h1, h2⟩ := ih (i + 1) { s with psym := s.psym.put i x.symbol, prob := s.prob.put i x.prob } (by omega)
    rw [h1, h2]
    by_cases hij : i = j
    · subst hij
      have c1 : ¬ (i + 1 ≤ i ∧ i < i + 1 + l.length) := by omega
      have c2 : i ≤ i ∧ i < i + (x :: l).length := by simp
      simp only [c1, c2, dif_neg, dif_pos, not_false_eq_true, and_self]
      simp [Table.at_put_rank _ hj hj]
    · by_cases hk : i + 1 ≤ j ∧ j < i + 1 + l.length
      · have c2 : i ≤ j ∧ j < i + (x :: l).length := by simp only [List.length_cons]; omega
        simp only [hk, c2, dif_pos, and_self]
        have : j - i = (j - (i + 1)) + 1 := by omega
        simp [this]
      · have c2 : ¬ (i ≤ j ∧ j < i + (x :: l).length) := by simp only [List.length_cons]; omega
        simp only [hk, c2, dif_neg, not_false_eq_true]
        have hi : i < 256 := by omega
        simp [Table.at_put_rank _ hi hj, hij]

end Sys2Proof.Machine
end

