-- ==== Sys2Proof/Laws/Rounding.lean ====
section
/-! SUPPORT. The laws of the arithmetic of 00_scope.md R15: rounding to the nearest integer, the exponent, the
significand, and the value of a rounded quotient in units of 2^-1074. -/

namespace Sys2Proof.Machine

/-- The rounded quotient is within half of the exact one. -/
theorem rne_near (num den : Nat) (h : 0 < den) :
    2 * (rne num den * den) ≤ 2 * num + den ∧ 2 * num ≤ 2 * (rne num den * den) + den := by
  have hd : num = den * (num / den) + num % den := (Nat.div_add_mod num den).symm
  have hm : num % den < den := Nat.mod_lt _ h
  have e1 : num / den * den = den * (num / den) := Nat.mul_comm _ _
  have e2 : (num / den + 1) * den = den * (num / den) + den := by rw [Nat.add_mul, Nat.one_mul, e1]
  unfold rne
  simp only
  split
  · omega
  · split
    · omega
    · split <;> omega

/-- A tie is rounded to the even integer. -/
theorem rne_tie (num den : Nat) (h : 2 * (num % den) = den) : rne num den % 2 = 0 := by
  unfold rne
  simp only
  rw [if_neg (by omega), if_neg (by omega)]
  split <;> omega

/-- A quotient that is an integer is not changed. -/
theorem rne_exact (q den : Nat) (h : 0 < den) : rne (q * den) den = q := by
  unfold rne
  simp [h]

/-- `rne` is monotone in the numerator. -/
theorem rne_mono {a b den : Nat} (h : 0 < den) (hab : a ≤ b) : rne a den ≤ rne b den := by
  have hq : a / den ≤ b / den := Nat.div_le_div_right hab
  have ha := Nat.div_add_mod a den
  have hb := Nat.div_add_mod b den
  have hm := Nat.mod_lt a h
  have hm' := Nat.mod_lt b h
  rcases Nat.lt_or_eq_of_le hq with hlt | heq
  · have h1 : rne a den ≤ a / den + 1 := by
      unfold rne
      simp only
      repeat' split
      all_goals omega
    have h2 : b / den ≤ rne b den := by
      unfold rne
      simp only
      repeat' split
      all_goals omega
    omega
  · have hr : a % den ≤ b % den := by
      rw [← heq] at hb
      omega
    unfold rne
    simp only [heq]
    repeat' split
    all_goals omega

/-- `2^(x-y) <= num / den`, cross-multiplied. -/
theorem powLe_iff (x y num den : Nat) : powLe ((x : Int) - y) num den = true ↔ 2 ^ x * den ≤ num * 2 ^ y := by
  unfold powLe
  rcases Nat.le_total y x with h | h
  · rw [if_pos (by omega), decide_eq_true_eq]
    have e1 : ((x : Int) - y).toNat = x - y := by omega
    have e2 : 2 ^ x = 2 ^ (x - y) * 2 ^ y := by rw [← Nat.pow_add]; congr 1; omega
    rw [e1, e2, Nat.mul_right_comm]
    exact ⟨fun h => Nat.mul_le_mul_right _ h, fun h => Nat.le_of_mul_le_mul_right h (by positivity)⟩
  · rcases Nat.eq_or_lt_of_le h with rfl | hlt
    · rw [if_pos (by omega), decide_eq_true_eq]
      have e1 : ((x : Int) - x).toNat = 0 := by omega
      rw [e1, Nat.pow_zero, Nat.one_mul, Nat.mul_comm (2 ^ x)]
      exact ⟨fun h => Nat.mul_le_mul_right _ h, fun h => Nat.le_of_mul_le_mul_right h (by positivity)⟩
    · rw [if_neg (by omega), decide_eq_true_eq]
      have e1 : (-((x : Int) - y)).toNat = y - x := by omega
      have e2 : 2 ^ y = 2 ^ (y - x) * 2 ^ x := by rw [← Nat.pow_add]; congr 1; omega
      rw [e1, e2, ← Nat.mul_assoc, Nat.mul_comm (2 ^ x)]
      exact ⟨fun h => Nat.mul_le_mul_right _ h, fun h => Nat.le_of_mul_le_mul_right h (by positivity)⟩

/-- The exponent of R15: `2^e <= num / den < 2^(e+1)`. -/
theorem floorLog2_spec (num den : Nat) (hn : num ≠ 0) (hd : den ≠ 0) :
    powLe (floorLog2 num den) num den = true ∧ powLe (floorLog2 num den + 1) num den = false := by
  have n1 : 2 ^ num.log2 ≤ num := Nat.log2_self_le hn
  have n2 : num < 2 ^ (num.log2 + 1) := Nat.lt_log2_self
  have d1 : 2 ^ den.log2 ≤ den := Nat.log2_self_le hd
  have d2 : den < 2 ^ (den.log2 + 1) := Nat.lt_log2_self
  have upper : powLe ((num.log2 : Int) - den.log2 + 1) num den = false := by
    have e : (num.log2 : Int) - den.log2 + 1 = ((num.log2 + 1 : Nat) : Int) - (den.log2 : Nat) := by push_cast; ring
    rw [e, ← Bool.not_eq_true, powLe_iff, Nat.not_le]
    calc num * 2 ^ den.log2 < 2 ^ (num.log2 + 1) * 2 ^ den.log2 := Nat.mul_lt_mul_of_pos_right n2 (by positivity)
      _ ≤ 2 ^ (num.log2 + 1) * den := Nat.mul_le_mul_left _ d1
  have lower : powLe ((num.log2 : Int) - den.log2 - 1) num den = true := by
    have e : (num.log2 : Int) - den.log2 - 1 = ((num.log2 : Nat) : Int) - ((den.log2 + 1 : Nat) : Int) := by
      push_cast; ring
    rw [e, powLe_iff]
    calc 2 ^ num.log2 * den ≤ 2 ^ num.log2 * 2 ^ (den.log2 + 1) := Nat.mul_le_mul_left _ (Nat.le_of_lt d2)
      _ ≤ num * 2 ^ (den.log2 + 1) := Nat.mul_le_mul_right _ n1
  unfold floorLog2
  simp only
  split
  · rename_i h
    exact ⟨h, upper⟩
  · rename_i h
    exact ⟨lower, by simpa using h⟩

/-- The significand of a quotient lies in `[2^52, 2^53]` (R15). -/
theorem significand_bounds (num den : Nat) (hn : num ≠ 0) (hd : den ≠ 0) :
    2 ^ 52 ≤ significand (floorLog2 num den) num den ∧ significand (floorLog2 num den) num den ≤ 2 ^ 53 := by
  obtain ⟨h1, h2⟩ := floorLog2_spec num den hn hd
  generalize floorLog2 num den = e at *
  have key : ∀ a d : Nat, 0 < d → 2 ^ 52 * d ≤ a → a < 2 ^ 53 * d → 2 ^ 52 ≤ rne a d ∧ rne a d ≤ 2 ^ 53 := by
    intro a d hd ha hb
    have m1 := rne_mono hd ha
    have m2 := rne_mono hd (Nat.le_of_lt hb)
    rw [rne_exact _ _ hd] at m1 m2
    exact ⟨m1, m2⟩
  unfold significand
  rcases Int.le_total e 52 with he | he
  · rw [if_pos he]
    obtain ⟨k, hk⟩ : ∃ k : Nat, e = 52 - (k : Int) := ⟨(52 - e).toNat, by omega⟩
    subst hk
    have e1 : (52 - (52 - (k : Int))).toNat = k := by omega
    rw [e1]
    have h1' := (powLe_iff 52 k num den).1 (by simpa using h1)
    have h2' : num * 2 ^ k < 2 ^ 53 * den := by
      have e2 : (52 : Int) - k + 1 = ((53 : Nat) : Int) - (k : Nat) := by push_cast; ring
      rw [e2, ← Bool.not_eq_true, powLe_iff] at h2
      omega
    exact key _ _ (Nat.pos_of_ne_zero hd) h1' h2'
  · obtain ⟨k, hk⟩ : ∃ k : Nat, e = 52 + (k : Int) := ⟨(e - 52).toNat, by omega⟩
    subst hk
    have h1' := (powLe_iff (52 + k) 0 num den).1 (by simpa using h1)
    have h2' : num * 2 ^ 0 < 2 ^ (53 + k) * den := by
      have e2 : (52 : Int) + k + 1 = ((53 + k : Nat) : Int) - (0 : Nat) := by push_cast; ring
      rw [e2, ← Bool.not_eq_true, powLe_iff] at h2
      omega
    rw [Nat.pow_zero, Nat.mul_one] at h1' h2'
    rw [Nat.pow_add, Nat.mul_assoc, Nat.mul_comm (2 ^ k)] at h1' h2'
    split
    · rename_i hk0
      obtain rfl : k = 0 := by omega
      simp only [Nat.pow_zero, Nat.mul_one] at h1' h2'
      simpa using key num den (Nat.pos_of_ne_zero hd) h1' h2'
    · have e1 : (52 + (k : Int) - 52).toNat = k := by omega
      rw [e1]
      exact key _ _ (Nat.mul_pos (Nat.pos_of_ne_zero hd) (by positivity)) h1' h2'

/-- The value of a rounded quotient in the range of R15: its significand times the unit of its exponent. -/
theorem units_rn64 (num den : Nat) (hn : num ≠ 0) (hd : den ≠ 0) (k : Nat) (hk : floorLog2 num den + 1022 = k)
    (hr : k ≤ 2044) : units (rn64 num den) = significand (floorLog2 num den) num den * 2 ^ k := by
  obtain ⟨b1, b2⟩ := significand_bounds num den hn hd
  unfold rn64
  rw [if_neg hn]
  simp only [hk, Int.toNat_natCast]
  generalize significand (floorLog2 num den) num den = m at *
  have hlt : k * 2 ^ 52 + m < 2 ^ 64 := by omega
  have ht : (BitVec.ofNat 64 (k * 2 ^ 52 + m)).toNat = k * 2 ^ 52 + m := by
    rw [BitVec.toNat_ofNat, Nat.mod_eq_of_lt hlt]
  unfold units biasedExp fraction
  rw [ht]
  rcases Nat.lt_or_eq_of_le b2 with hlt' | heq
  · have q : (k * 2 ^ 52 + m) / 2 ^ 52 % 2 ^ 11 = k + 1 := by omega
    have f : (k * 2 ^ 52 + m) % 2 ^ 52 = m - 2 ^ 52 := by omega
    have g : 2 ^ 52 + (m - 2 ^ 52) = m := by omega
    have z : k + 1 ≠ 0 := by omega
    rw [q, f, if_neg z, g, show k + 1 - 1 = k from rfl]
  · have q : (k * 2 ^ 52 + m) / 2 ^ 52 % 2 ^ 11 = k + 2 := by omega
    have f : (k * 2 ^ 52 + m) % 2 ^ 52 = 0 := by omega
    have z : k + 2 ≠ 0 := by omega
    have p : (2 : Nat) ^ 53 = 2 ^ 52 * 2 := by norm_num
    rw [q, f, if_neg z, heq, p, show k + 2 - 1 = k + 1 from rfl, pow_succ 2 k, Nat.mul_assoc, Nat.mul_comm 2]
    rfl

end Sys2Proof.Machine
end

