-- ==== Sys2Proof/Laws/Tree.lean ====
section
/-! SUPPORT. The laws of the bisection (41_tree.md): where the split point lies, that the bound on the calls never
shows (R161), and what appending a row of bits does. -/

namespace Sys2Proof.Machine

theorem mem_indexes {lo hi i : Nat} : i ∈ indexes lo hi ↔ lo ≤ i ∧ i ≤ hi := by
  unfold indexes
  rw [List.mem_range'_1]
  omega

theorem firstAbove_mem {prob : Table Double} {half p : Double} {is : List Nat} {i : Nat}
    (h : firstAbove prob half p is = some i) : i ∈ is := by
  induction is generalizing p with
  | nil => cases h
  | cons j is ih =>
    simp only [firstAbove] at h
    split at h
    · exact List.mem_cons_of_mem _ (ih h)
    · injection h with h
      exact h ▸ List.mem_cons_self

/-- R158: `lo + 1 <= split <= hi`, so both parts are non-empty. -/
theorem splitPoint_bounds (prob : Table Double) {lo hi : Nat} (h : lo + 1 ≤ hi) :
    lo + 1 ≤ splitPoint prob lo hi ∧ splitPoint prob lo hi ≤ hi := by
  unfold splitPoint
  split
  · omega
  · rename_i i hi'
    have := mem_indexes.1 (firstAbove_mem hi')
    split <;> omega

/-- R161: a range of `m` elements needs no more than `m` nested calls; more calls allowed change nothing. -/
theorem bisect_calls (psym : Table Byte) (prob : Table Double) (m n lo hi : Nat) (t : CodeTable) (h : lo ≤ hi)
    (hm : hi - lo < m) (hn : hi - lo < n) : bisect psym prob m lo hi t = bisect psym prob n lo hi t := by
  induction m generalizing n lo hi t with
  | zero => omega
  | succ m ih =>
    cases n with
    | zero => omega
    | succ n =>
      simp only [bisect]
      split
      · rfl
      · split
        · rfl
        · have := splitPoint_bounds prob (lo := lo) (hi := hi) (by omega)
          rw [ih n lo _ _ (by omega) (by omega) (by omega), ih n _ hi _ (by omega) (by omega) (by omega)]

/-- The codeword of an element whose symbol is none of the row's is left alone by line B8. -/
theorem appendBits_code_other (psym : Table Byte) (split : Nat) (is : List Nat) (t : CodeTable) (b : Byte)
    (h : ∀ i ∈ is, psym.at i ≠ b) (hl : ∀ i ∈ is, t.len (psym.at i) < 255) (hd : (is.map psym.at).Nodup) :
    (appendBits psym split is t).code b = t.code b := by
  induction is generalizing t with
  | nil => rfl
  | cons i is ih =>
    rw [List.map_cons, List.nodup_cons] at hd
    have hi := hl i (by simp)
    rw [appendBits, ih _ (fun j hj => h j (by simp [hj])) _ hd.2]
    · rw [CodeTable.code_append _ _ _ _ hi, if_neg (h i (by simp))]
    · intro j hj
      rw [CodeTable.len_append _ _ _ _ hi, if_neg]
      · exact hl j (by simp [hj])
      · intro heq
        exact hd.1 (heq ▸ List.mem_map_of_mem hj)

/-- R159: an element of the row gets exactly one bit, 0 below the split point and 1 otherwise. -/
theorem appendBits_code (psym : Table Byte) (split : Nat) (is : List Nat) (t : CodeTable) (i : Nat) (hi : i ∈ is)
    (hl : ∀ j ∈ is, t.len (psym.at j) < 255) (hd : (is.map psym.at).Nodup) :
    (appendBits psym split is t).code (psym.at i) = t.code (psym.at i) ++ [decide (split ≤ i)] := by
  induction is generalizing t with
  | nil => cases hi
  | cons j is ih =>
    have hd' := hd
    rw [List.map_cons, List.nodup_cons] at hd
    have hj := hl j (by simp)
    have hl' : ∀ k ∈ is, (t.append (psym.at j) (decide (split ≤ j))).len (psym.at k) < 255 := by
      intro k hk
      rw [CodeTable.len_append _ _ _ _ hj, if_neg]
      · exact hl k (by simp [hk])
      · intro heq
        exact hd.1 (heq ▸ List.mem_map_of_mem hk)
    by_cases hij : i ∈ is
    · have hne : psym.at j ≠ psym.at i := fun heq => hd.1 (heq ▸ List.mem_map_of_mem hij)
      rw [appendBits, ih _ hij hl' hd.2, CodeTable.code_append _ _ _ _ hj, if_neg hne]
    · have : i = j := by
        rcases List.mem_cons.1 hi with h | h
        · exact h
        · exact absurd h hij
      subst this
      rw [appendBits, appendBits_code_other psym split is _ _ _ hl' hd.2, CodeTable.code_append _ _ _ _ hj, if_pos rfl]
      intro k hk heq
      exact hd.1 (heq ▸ List.mem_map_of_mem hk)

end Sys2Proof.Machine
end

