-- ==== Sys2Proof/Tests/Slice0.lean ====
section
/-! SUPPORT. Tests: command words written out from 30_encoding.md R101, single steps against the examples of the rules
and the vectors of 95_test_vectors.md, and one witness for the hypotheses of every obligation that has some. -/

set_option Elab.async false

namespace Sys2Proof.Tests

open Sys2Proof.Machine

/-! ### Helpers -/

/-- Bytes put in memory from an address on. -/
def place : Nat → List Byte → Memory → Memory
  | _, [], m => m
  | a, b :: l, m => place (a + 1) l (m.write a b)

/-- A machine with the source bytes at 0x1000 and the destination region at 0x2000. -/
def machine (source : List Byte) (capacity : Nat) : State :=
  { State.reset with
    mem := place 0x1000 source []
    srcAddr := 0x1000
    srcLen := BitVec.ofNat 32 source.length
    dstAddr := 0x2000
    dstCap := BitVec.ofNat 32 capacity }

/-- The outcome is a next state. -/
def answers : Host.Outcome State Fault Refusal → Bool
  | .next _ => true
  | .fault _ => false
  | .refused _ => false

/-- The next state of an outcome. -/
def after : Host.Outcome State Fault Refusal → State
  | .next t => t
  | .fault _ => State.reset
  | .refused _ => State.reset

theorem next_after {o : Host.Outcome State Fault Refusal} (h : answers o = true) : o = .next (after o) := by
  cases o <;> first | rfl | cases h

/-- The outcome is a next state that passes the test. -/
def ends (p : State → Bool) : Host.Outcome State Fault Refusal → Bool
  | .next t => p t
  | .fault _ => false
  | .refused _ => false

/-- The outcome is a next state with the property. -/
theorem next_with {o : Host.Outcome State Fault Refusal} {p : State → Prop} [DecidablePred p]
    (h : ends (fun t => decide (p t)) o = true) : ∃ t, o = .next t ∧ p t := by
  cases o with
  | next t => exact ⟨t, rfl, of_decide_eq_true h⟩
  | fault f => cases h
  | refused r => cases h

/-- The machine with one host event, or the engine's turn, to come. -/
def facing (s : State) (e : Event) : State := { s with inputs := [e] }

/-- STATUS as the host reads it (10_state.md R24). -/
def status (s : State) : Word := s.statusWord

/-! ### Texts -/

/-- `ab` -/
def textAb : List Byte :=
  [0x61, 0x62]

/-- `aab` -/
def textAab : List Byte :=
  [0x61, 0x61, 0x62]

/-- `zzzz` -/
def textZzzz : List Byte :=
  [0x7A, 0x7A, 0x7A, 0x7A]

/-- `aaaaabc` -/
def textClamp : List Byte :=
  [0x61, 0x61, 0x61, 0x61, 0x61, 0x62, 0x63]

/-- `aaaabbbc` -/
def textScenario : List Byte :=
  [0x61, 0x61, 0x61, 0x61, 0x62, 0x62, 0x62, 0x63]

/-- `2\na\t0.666667\t0\nb\t0.333333\t1\n\n` -/
def textHeaderAab : List Byte :=
  [0x32, 0x0A, 0x61, 0x09, 0x30, 0x2E, 0x36, 0x36, 0x36, 0x36, 0x36, 0x37, 0x09, 0x30, 0x0A, 0x62,
   0x09, 0x30, 0x2E, 0x33, 0x33, 0x33, 0x33, 0x33, 0x33, 0x09, 0x31, 0x0A, 0x0A]

/-- `1\nz\t1.000000\t0\n\n0000` -/
def textArtifactZzzz : List Byte :=
  [0x31, 0x0A, 0x7A, 0x09, 0x31, 0x2E, 0x30, 0x30, 0x30, 0x30, 0x30, 0x30, 0x09, 0x30, 0x0A, 0x0A,
   0x30, 0x30, 0x30, 0x30]

/-- `3\na\t0.500000\t0\nb\t0.375000\t10\nc\t0.125000\t11\n\n` -/
def textHeaderScenario : List Byte :=
  [0x33, 0x0A, 0x61, 0x09, 0x30, 0x2E, 0x35, 0x30, 0x30, 0x30, 0x30, 0x30, 0x09, 0x30, 0x0A, 0x62,
   0x09, 0x30, 0x2E, 0x33, 0x37, 0x35, 0x30, 0x30, 0x30, 0x09, 0x31, 0x30, 0x0A, 0x63, 0x09, 0x30,
   0x2E, 0x31, 0x32, 0x35, 0x30, 0x30, 0x30, 0x09, 0x31, 0x31, 0x0A, 0x0A]

/-- `000010101011` -/
def textBitsScenario : List Byte :=
  [0x30, 0x30, 0x30, 0x30, 0x31, 0x30, 0x31, 0x30, 0x31, 0x30, 0x31, 0x31]

/-- `1\na\t1\t0\n\n00` -/
def textShort : List Byte :=
  [0x31, 0x0A, 0x61, 0x09, 0x31, 0x09, 0x30, 0x0A, 0x0A, 0x30, 0x30]

/-- `1\na\t0.5\t0\n\n\t0.5\t1\n\n01` -/
def textOneRow : List Byte :=
  [0x31, 0x0A, 0x61, 0x09, 0x30, 0x2E, 0x35, 0x09, 0x30, 0x0A, 0x0A, 0x09, 0x30, 0x2E, 0x35, 0x09,
   0x31, 0x0A, 0x0A, 0x30, 0x31]

/-- `1\na\t0.5\t0\nb\t0.5\t1\n\n01` -/
def textTooManyRows : List Byte :=
  [0x31, 0x0A, 0x61, 0x09, 0x30, 0x2E, 0x35, 0x09, 0x30, 0x0A, 0x62, 0x09, 0x30, 0x2E, 0x35, 0x09,
   0x31, 0x0A, 0x0A, 0x30, 0x31]

/-! ### Machines -/

/-- The tables FREQ, PTAB and TREE leave for `aab` (95_test_vectors.md T39), written out, in a machine with the source
bytes `l`. -/
def readyAab (l : List Byte) (capacity : Nat) : State :=
  { machine l capacity with
    fv := true
    pv := true
    cv := true
    nsym := 2
    total := 3
    freq := (Table.zeros.put 0x61 2).put 0x62 1
    psym := State.reset.psym.put 0 0x61 |>.put 1 0x62
    prob := State.reset.prob.put 0 0x3FE5555555555555 |>.put 1 0x3FD5555555555555
    codes := (CodeTable.empty.append 0x61 false).append 0x62 true }

/-- The code table of 95_test_vectors.md S1, written out: a = "0", b = "10", c = "11". -/
def codesScenario : CodeTable :=
  ((((CodeTable.empty.append 0x61 false).append 0x62 true).append 0x62 false).append 0x63 true).append 0x63 true

/-- A machine with that code table and the source bytes `l`. -/
def readyScenario (l : List Byte) (capacity : Nat) : State :=
  { machine l capacity with cv := true, nsym := 3, codes := codesScenario }

/-- The word `c` accepted. -/
def accepted (c : Word) (s : State) : State := accept c s

/-- A platform that refuses every access to `n` bytes from `a` on. -/
def refusing (a n : Nat) (s : State) : State := { s with platform := [{ base := a, size := n, kind := .noAccess }] }

/-- A platform with device memory at `n` bytes from `a` on. -/
def withDevice (a n : Nat) (s : State) : State := { s with platform := [{ base := a, size := n, kind := .device }] }

/-! ### Command words (30_encoding.md R100 to R102) -/

theorem test_word_nop : decode 0b00000000000000000000000000000000#32 = .ok .nop := by decide
theorem test_word_clear : decode 0b00000000000000000000000000000001#32 = .ok .clear := by decide
theorem test_word_freq : decode 0b00000000000000000000000000010000#32 = .ok .freq := by decide
theorem test_word_ptab : decode 0b00000000000000000000000000010001#32 = .ok .ptab := by decide
theorem test_word_tree : decode 0b00000000000000000000000000010010#32 = .ok .tree := by decide
theorem test_word_emit : decode 0b00000000000000000000000000100000#32 = .ok .emit := by decide
theorem test_word_encode : decode 0b00000000000000000000000000101111#32 = .ok .encode := by decide
theorem test_word_parse : decode 0b00000000000000000000000000110000#32 = .ok .parse := by decide
theorem test_word_match : decode 0b00000000000000000000000000110001#32 = .ok .matchBits := by decide
theorem test_word_decode : decode 0b00000000000000000000000000111111#32 = .ok .decode := by decide

/-- T96: an opcode outside the ten is rejected by name. -/
theorem test_word_unknown_opcode :
    decode 0x02 = .error .unknownOpcode ∧ decode 0x0F = .error .unknownOpcode ∧ decode 0x13 = .error .unknownOpcode
      ∧ decode 0x21 = .error .unknownOpcode ∧ decode 0x32 = .error .unknownOpcode
      ∧ decode 0xFF = .error .unknownOpcode := by decide

/-- T96: a word with a nonzero ZERO field is rejected by name. -/
theorem test_word_nonzero_zero_field :
    decode 0x100 = .error .nonzeroZeroField ∧ decode 0x12F = .error .nonzeroZeroField
      ∧ decode 0x80000000 = .error .nonzeroZeroField ∧ decode 0xFFFFFFFF = .error .nonzeroZeroField := by decide

/-- WellFormed smoke: each of the two checks of R101 refuses a word that fails it alone. -/
theorem test_ill_formed_words_are_refused :
    legalWord 0x0000012F#32 = false ∧ zeroField 0x0000012F#32 ≠ 0 ∧ opcField 0x0000012F#32 = 0x2F
      ∧ legalWord 0x00000013#32 = false ∧ zeroField 0x00000013#32 = 0
      ∧ decodeTableWord 32 0x12F = none ∧ decodeTableWord 32 (2 ^ 32) = none := by decide

/-! ### NOP and CLEAR -/

/-- T97: NOP leaves the flags and the result registers. -/
theorem test_nop : status (after (exec .nop { readyAab [] 0 with dstLen := 56 })) = 0x00000702
    ∧ (after (exec .nop { readyAab [] 0 with dstLen := 56 })).dstLen = 56 := by decide +kernel

/-- T99: acceptance clears the error of the command before. -/
theorem test_nop_clears_error :
    status (after (exec .nop { State.reset with err := some .illegalCommand, errInfo := 2, done := true })) = 0x00000002
      ∧ (after (exec .nop { State.reset with err := some .illegalCommand, errInfo := 2 })).errInfo = 0 := by decide +kernel

/-- T98: CLEAR drops the flags and the results, and no table. -/
theorem test_clear : status (after (exec .clear (readyAab [] 0))) = 0x00000002
    ∧ (after (exec .clear (readyAab [] 0))).nsym = 0 ∧ (after (exec .clear (readyAab [] 0))).total = 0
    ∧ (after (exec .clear (readyAab [] 0))).freq.at 0x61 = 2 := by decide +kernel

/-! ### FREQ and PTAB -/

/-- T6: the counts of the bytes 0x00, 0x00, 0xFF. -/
theorem test_freq :
    let t := after (exec .freq (machine [0x00, 0x00, 0xFF] 0))
    status t = 0x00001102 ∧ t.freq.at 0 = 2 ∧ t.freq.at 0xFF = 1 ∧ t.freq.at 1 = 0 ∧ t.nsym = 2 ∧ t.total = 3 := by
  decide +kernel

/-- T12: FREQ of an empty source region. -/
theorem test_freq_empty :
    let t := after (exec .freq (machine [] 0))
    status t = 0x00001016 ∧ t.errInfo = 0 ∧ t.accesses = [] := by decide +kernel

/-- T5: a tie puts the smaller symbol first. -/
theorem test_ptab_tie :
    let t := after (exec .ptab { machine [] 0 with
      fv := true, nsym := 2, total := 2, freq := (Table.zeros.put 0x62 1).put 0x61 1 })
    status t = 0x00002302 ∧ t.psym.at 0 = 0x61 ∧ t.psym.at 1 = 0x62 ∧ t.prob.at 0 = 0x3FE0000000000000
      ∧ t.prob.at 1 = 0x3FE0000000000000 := by decide +kernel

/-- T1: rounding to nearest, and a tie of probtext to the even digit. -/
theorem test_arithmetic :
    fdiv 5 7 = 0x3FE6DB6DB6DB6DB7 ∧ fdiv 4 11 = 0x3FD745D1745D1746 ∧ fdiv 1 10 = 0x3FB999999999999A
      ∧ fdiv 1 (2 ^ 32 - 1) = 0x3DF0000000100000 ∧ fdiv (2 ^ 32 - 2) (2 ^ 32 - 1) = 0x3FEFFFFFFFE00000
      ∧ probText (fdiv 1 128) = [0x30, 0x2E, 0x30, 0x30, 0x37, 0x38, 0x31, 0x32]
      ∧ probText (fdiv 1 1) = [0x31, 0x2E, 0x30, 0x30, 0x30, 0x30, 0x30, 0x30] := by decide +kernel

/-- T2: the running sums of 1/2, 1/3, 1/6. -/
theorem test_sums :
    fadd (fdiv 1 2) (fdiv 1 3) = 0x3FEAAAAAAAAAAAAA
      ∧ fadd (fadd (fdiv 1 2) (fdiv 1 3)) (fdiv 1 6) = 0x3FEFFFFFFFFFFFFF
      ∧ fhalf 0x3FEFFFFFFFFFFFFF = 0x3FDFFFFFFFFFFFFF := by decide +kernel

/-! ### TREE -/

/-- T18: the first element is above half by rounding alone and stands alone on the left. -/
theorem test_tree_clamp :
    let t := after (exec .tree { machine [] 0 with
      fv := true, pv := true, nsym := 3, total := 6
      psym := ((State.reset.psym.put 0 0x61).put 1 0x62).put 2 0x63
      prob := ((State.reset.prob.put 0 (fdiv 3 6)).put 1 (fdiv 2 6)).put 2 (fdiv 1 6) })
    status t = 0x00003702 ∧ t.codes.code 0x61 = [false] ∧ t.codes.code 0x62 = [true, false]
      ∧ t.codes.code 0x63 = [true, true] ∧ t.codes.word 0x63 0 = 3 := by decide +kernel

/-- T20: a running sum equal to half stays on the left. -/
theorem test_tree_half :
    let t := after (exec .tree { machine [] 0 with
      fv := true, pv := true, nsym := 4, total := 8
      psym := (((State.reset.psym.put 0 0x61).put 1 0x62).put 2 0x63).put 3 0x64
      prob := (((State.reset.prob.put 0 (fdiv 2 8)).put 1 (fdiv 2 8)).put 2 (fdiv 2 8)).put 3 (fdiv 2 8) })
    t.codes.code 0x61 = [false, false] ∧ t.codes.code 0x62 = [false, true] ∧ t.codes.code 0x63 = [true, false]
      ∧ t.codes.code 0x64 = [true, true] ∧ t.codes.word 0x62 0 = 2 := by decide +kernel

/-! ### EMIT and ENCODE -/

/-- T39: EMIT with the tables of `aab` on `bbba`. -/
theorem test_emit :
    let t := after (exec .emit (readyAab [0x62, 0x62, 0x62, 0x61] 0x100))
    status t = 0x00004702 ∧ t.bsOff = 29 ∧ t.bitLen = 4 ∧ t.dstLen = 33 ∧ t.nsym = 2 ∧ t.total = 3
      ∧ dstBytes t 33 = textHeaderAab ++ [0x31, 0x31, 0x31, 0x30] := by decide +kernel

/-- R174: EMIT of a byte without a codeword, found before any byte of the bitstream is written. -/
theorem test_emit_unknown :
    let t := after (exec .emit (readyAab [0x63] 0x100))
    status t = 0x00004026 ∧ t.errInfo = 0 ∧ t.dstLen = 0 ∧ t.nsym = 0 ∧ (writesOf t.accesses).length = 29 := by
  decide +kernel

/-- 42_encoder.md R178: the example `zzzz`. -/
theorem test_encode :
    let t := after (exec .encode (machine textZzzz 0x40))
    status t = 0x00004702 ∧ t.bsOff = 16 ∧ t.bitLen = 4 ∧ t.dstLen = 20 ∧ t.nsym = 1 ∧ t.total = 4
      ∧ dstBytes t 20 = textArtifactZzzz := by decide +kernel

/-- S4: ENCODE of an empty input; the component that failed is FREQ. -/
theorem test_encode_empty :
    let t := after (exec .encode (machine [] 0x40))
    status t = 0x00001016 ∧ t.errInfo = 0 ∧ t.accesses = [] ∧ t.dstLen = 0 := by decide +kernel

/-! ### PARSE, MATCH and DECODE -/

/-- T52: the PARSE stage passes and ends at offset 11, which it does not read. -/
theorem test_parse :
    let t := after (exec .parse (machine textOneRow 0))
    status t = 0x00005402 ∧ t.nsym = 1 ∧ t.bsOff = 11 ∧ t.bitLen = 10 ∧ t.codes.code 0x61 = [false]
      ∧ t.codes.len 0x0A = 0 ∧ (readsOf t.accesses).length = 11 := by decide +kernel

/-- T42: more rows than the size line says. -/
theorem test_parse_rows :
    let t := after (exec .parse (machine textTooManyRows 0))
    status t = 0x00005046 ∧ t.errInfo = 10 := by decide +kernel

/-- S1's codes: "01011" is a, b, c. -/
theorem test_match :
    let t := after (exec .matchBits (readyScenario [0x30, 0x31, 0x30, 0x31, 0x31] 3))
    status t = 0x00006402 ∧ t.dstLen = 3 ∧ t.bitLen = 5 ∧ dstBytes t 3 = [0x61, 0x62, 0x63] := by decide +kernel

/-- R200: a truncated bitstream; the offset is where the unfinished codeword begins. -/
theorem test_match_truncated :
    let t := after (exec .matchBits (readyScenario [0x30, 0x31] 3))
    status t = 0x00006036 ∧ t.errInfo = 1 ∧ t.dstLen = 0 ∧ dstBytes t 1 = [0x61] := by decide +kernel

/-- R190, R197, R205: DECODE of a row for `a` with the codeword "0" and the bits "00". -/
theorem test_decode :
    let t := after (exec .decode (machine textShort 0x10))
    status t = 0x00006402 ∧ t.dstLen = 2 ∧ t.nsym = 1 ∧ t.total = 0 ∧ t.bsOff = 9 ∧ t.bitLen = 2
      ∧ dstBytes t 2 = [0x61, 0x61] := by decide +kernel

/-- T53: DECODE of an empty artifact. -/
theorem test_decode_empty :
    let t := after (exec .decode (machine [] 0x10))
    status t = 0x00005046 ∧ t.errInfo = 0 ∧ t.accesses = [] := by decide +kernel

/-! ### Errors and the host port -/

/-- T85: MATCH after reset. -/
theorem test_sequence :
    status (after (exec .matchBits State.reset)) = 0x00000066 ∧ (after (exec .matchBits State.reset)).errInfo = 0x31 := by
  decide +kernel

/-- T90: a source region that wraps. -/
theorem test_range :
    status (after (exec .freq { State.reset with srcAddr := 0xFFFFFFFC, srcLen := 8 })) = 0x00000076 := by decide +kernel

/-- T105: a refused read names its address. -/
theorem test_bus :
    let t := after (exec .freq (refusing 0x1002 1 (machine textZzzz 0)))
    status t = 0x00001096 ∧ t.errInfo = 0x1002 ∧ (readsOf t.accesses).length = 2 := by decide +kernel

/-- T99, T101: the word 2 is accepted and ends with IllegalCommand; the host then clears ERR. -/
theorem test_illegal :
    let t := after (step (accept 2 State.reset))
    status t = 0x00000056 ∧ t.errInfo = 2 ∧ status (portWrite 2 4 t) = 0x00000002
      ∧ (portWrite 2 4 t).errInfo = 0 := by decide +kernel

/-- T103: writes to read-only registers are ignored. -/
theorem test_port_write :
    portWrite 0 0xFFFFFFFF State.reset = State.reset ∧ portWrite 9 5 State.reset = State.reset
      ∧ portWrite 0x100 7 State.reset = State.reset ∧ portWrite 0xE 1 State.reset = State.reset :=
  ⟨rfl, rfl, rfl, rfl⟩

/-- T103: ID and a reserved word read as fixed. -/
theorem test_port_read : portValue State.reset 0 = 0x53460007 ∧ portValue State.reset 0xE = 0 := by decide +kernel

/-- P1: window words of the tables of `aab` and of S1. -/
theorem test_windows :
    portValue (readyAab [] 0) (BitVec.ofNat 12 (0x584 / 4)) = 2 ∧ portValue (readyAab [] 0) (BitVec.ofNat 12 (0x804 / 4)) = 0x62
      ∧ portValue (readyAab [] 0) (BitVec.ofNat 12 (0x1000 / 4)) = 0x55555555 ∧ portValue (readyAab [] 0) (BitVec.ofNat 12 (0x1004 / 4)) = 0x3FE55555
      ∧ portValue (readyScenario [] 0) (BitVec.ofNat 12 (0xD88 / 4)) = 2 ∧ portValue (readyScenario [] 0) (BitVec.ofNat 12 (0x2C40 / 4)) = 1
      ∧ portValue (readyScenario [] 0) (BitVec.ofNat 12 (0x2C60 / 4)) = 3 ∧ portValue (readyScenario [] 0) (BitVec.ofNat 12 (0x2C64 / 4)) = 0 := by
  decide +kernel

/-! ### Between two accesses -/

/-- MATCH of S1's codes with the bit "0" just read: its symbol is still to be written (20_memory.md R78). -/
def foundA : State :=
  { accept 0x31 (readyScenario [0x30, 0x31] 3) with stage := .matchBits, progress := .found 0 1 0x61 0, inputs := [.access] }

/-- R78: the write comes right after the read that completed the codeword; the command goes on. -/
theorem test_access_write :
    let t := after (step foundA)
    t.mem.read 0x2000 = 0x61 ∧ t.cursor = 1 ∧ t.busy = true ∧ t.accesses = [.write 0x2000 0x61] := by decide +kernel

/-- R261: a reset between two accesses leaves the byte unwritten, with no termination. -/
theorem test_reset_between_accesses :
    let t := after (step { foundA with inputs := [.reset] })
    t.mem.read 0x2000 = 0 ∧ t.busy = false ∧ t.done = false := by decide +kernel

/-- R80, R265: a host read of the destination byte sees its old content. -/
theorem test_host_read_between_accesses :
    (after (step { foundA with inputs := [.memRead 0x2000] })).readData = 0
      ∧ (after (step { after (step foundA) with inputs := [.memRead 0x2000] })).readData = 0x61 := by decide +kernel

/-- R260: while `rst` is asserted a write to CMD accepts no command; after its release the same write does. -/
theorem test_rst_held :
    let held := driveReset true (machine textZzzz 0x40)
    (after (step { held with inputs := [.portWrite 3 0x10] })).busy = false
      ∧ (after (step { driveReset false held with inputs := [.portWrite 3 0x10] })).busy = true := by decide +kernel

/-! ### Witnesses: concrete states and operands that meet the hypotheses of each obligation together -/

/-- A command word accepted on the machine of `zzzz`, with one host event to come. -/
def busyFacing (c : Word) (e : Event) : State := facing (accept c (machine textZzzz 0x40)) e

/-- FREQ inside its run on `zzzz`: two of the four bytes are counted. -/
def countingZzzz : State :=
  { accept 0x10 (machine textZzzz 0x40) with stage := .freq, progress := .freq 2, freq := Table.zeros.put 0x7A 2 }

theorem witness_DecodeGivesBackEveryCommand : (Instr.matchBits).wellFormed = true := by decide

theorem witness_EngineTurnRunsTheAcceptedCommand :
    (accept 0x10 State.reset).running = some 0x10 ∧ decode 0x10 = .ok .freq ∧ (accept 0x10 State.reset).inputs = []
      ∧ (accept 0x10 State.reset).progress = .start
      ∧ (facing (accept 0x10 State.reset) .engine).running = some 0x10
      ∧ (facing (accept 0x10 State.reset) .engine).progress = .start
      ∧ (facing (accept 0x10 State.reset) .engine).inputs = .engine :: []
      ∧ countingZzzz.running = some 0x10 ∧ countingZzzz.progress ≠ .start ∧ countingZzzz.inputs = []
      ∧ (facing countingZzzz .engine).progress ≠ .start ∧ (facing countingZzzz .engine).inputs = .engine :: []
      ∧ (facing countingZzzz .access).inputs = .access :: []
      ∧ ∃ t, engineTurn { facing countingZzzz .access with inputs := [] } = .next t :=
  ⟨rfl, by decide, rfl, rfl, rfl, rfl, rfl, rfl, Progress.noConfusion, rfl, Progress.noConfusion, rfl, rfl, _,
    next_after (by decide +kernel)⟩

theorem witness_CmdWriteAcceptsTheCommand :
    (facing (machine textZzzz 0x40) (.portWrite 3 0x2F)).inputs = .portWrite 3 0x2F :: []
      ∧ (facing (machine textZzzz 0x40) (.portWrite 3 0x2F)).busy = false
      ∧ (facing (machine textZzzz 0x40) (.portWrite 3 0x2F)).rst = false
      ∧ (∀ i, touchesDevice i (accept 0x2F (machine textZzzz 0x40)) = false)
      ∧ (busyFacing 0x2F (.portWrite 3 0x10)).inputs = .portWrite 3 0x10 :: []
      ∧ (busyFacing 0x2F (.portWrite 3 0x10)).busy = true :=
  ⟨rfl, rfl, rfl, fun i => by cases i <;> rfl, rfl, rfl⟩

theorem witness_IllegalWordEndsWithIllegalCommand :
    (accept 0x13 State.reset).inputs = [] ∧ (accept 0x13 State.reset).running = some 0x13
      ∧ ∀ i, (0x13 : Word) ≠ encode i := ⟨rfl, rfl, fun i => by cases i <;> decide⟩

/-- A machine with bytes in memory whose `rst` is asserted, with one host event to come. -/
def heldFacing (e : Event) : State := facing (driveReset true (machine textZzzz 0x40)) e

theorem inv_heldFacing (e : Event) : Inv (heldFacing e) where
  memory := show (machine textZzzz 0x40).mem.wf = true by decide +kernel
  triples := rfl
  nsymZero := ⟨fun _ => ⟨rfl, rfl, rfl⟩, fun _ => rfl⟩
  nsymMax := Nat.zero_le _
  counts := fun h => by cases h
  alphabetIs := fun h => by cases h
  ranking := fun h => by cases h
  padding := fun h => by rcases h with h | h <;> cases h
  someCode := fun h => by cases h
  capacity := Nat.le_refl _
  hidden := fun _ => ⟨rfl, rfl, rfl⟩
  running := fun h => by cases h
  placed := fun w h => by cases h
  held := fun _ => rfl
  info := fun _ => rfl
  dropped := fun h => absurd rfl h

theorem witness_ResetLeavesEveryRegisterZero :
    (facing (readyAab textAab 0x40) .reset).inputs = .reset :: []
      ∧ (facing (hostWrite 0x1000 0x61 countingZzzz) (.rst true)).inputs = .rst true :: []
      ∧ (facing (hostWrite 0x1000 0x61 countingZzzz) (.rst true)).busy = true
      ∧ ¬ quiet (facing (hostWrite 0x1000 0x61 countingZzzz) (.rst true))
      ∧ (heldFacing (.rst false)).rst = true ∧ (heldFacing (.rst false)).inputs = .rst false :: []
      ∧ Inv (heldFacing (.rst false))
      ∧ (heldFacing (.portWrite 3 0x10)).rst = true ∧ (heldFacing (.portWrite 3 0x10)).inputs = .portWrite 3 0x10 :: []
      ∧ (facing State.reset (.rst false)).rst = false ∧ (facing State.reset (.rst false)).inputs = .rst false :: [] :=
  ⟨rfl, rfl, rfl, List.cons_ne_nil _ _, rfl, rfl, inv_heldFacing _, rfl, rfl, rfl, rfl⟩

/-- MATCH accepted on the one bit "0". -/
def matching : State := accept 0x31 (readyScenario [0x30] 1)

/-- After two accesses at most (the read of the bit) memory is as it was; after three the one write is made. -/
theorem witness_ResetAbandonsTheRunningCommand :
    matching.busy = true ∧ matching.progress = .start ∧ quiet matching
      ∧ (∃ t, engineTurn matching = .next t ∧ 0 ≤ (writesOf t.accesses).length ∧ 1 ≤ (writesOf t.accesses).length)
      ∧ (∃ m, accessTurns 2 matching = .next m ∧ m.mem.read 0x2000 = 0)
      ∧ ∃ m, accessTurns 3 matching = .next m ∧ m.busy = true ∧ m.mem.read 0x2000 = 0x61 :=
  ⟨rfl, rfl, rfl, next_with (by decide +kernel), next_with (by decide +kernel), next_with (by decide +kernel)⟩

/-- The invariant of a machine on which a command has been accepted and no table holds a value. -/
theorem inv_busyFacing (c : Word) (e : Event) : Inv (busyFacing c e) where
  memory := show (machine textZzzz 0x40).mem.wf = true by decide +kernel
  triples := rfl
  nsymZero := ⟨fun _ => ⟨rfl, rfl, rfl⟩, fun _ => rfl⟩
  nsymMax := Nat.zero_le _
  counts := fun h => by cases h
  alphabetIs := fun h => by cases h
  ranking := fun h => by cases h
  padding := fun h => by rcases h with h | h <;> cases h
  someCode := fun h => by cases h
  capacity := Nat.zero_le _
  hidden := fun h => by cases h
  running := fun _ => ⟨rfl, rfl⟩
  placed := fun w _ => by
    split
    · rfl
    · exact ⟨rfl, rfl⟩
  held := fun h => by cases h
  info := fun _ => rfl
  dropped := fun h => absurd rfl h

/-- The invariant inside a command: the place of FREQ among the four bytes. -/
theorem inv_countingZzzz (e : Event) : Inv (facing countingZzzz e) where
  memory := show (machine textZzzz 0x40).mem.wf = true by decide +kernel
  triples := rfl
  nsymZero := ⟨fun _ => ⟨rfl, rfl, rfl⟩, fun _ => rfl⟩
  nsymMax := Nat.zero_le _
  counts := fun h => by cases h
  alphabetIs := fun h => by cases h
  ranking := fun h => by cases h
  padding := fun h => by rcases h with h | h <;> cases h
  someCode := fun h => by cases h
  capacity := Nat.zero_le _
  hidden := fun h => by cases h
  running := fun _ => ⟨rfl, rfl⟩
  placed := fun w h => by
    cases h
    rw [show decode 0x10 = .ok .freq by decide]
    exact ⟨by decide, rfl, show 2 ≤ (machine textZzzz 0x40).srcLen.toNat by decide,
      show 1 ≤ (machine textZzzz 0x40).srcLen.toNat by decide, show freqSum (Table.zeros.put 0x7A 2) = 2 by decide +kernel⟩
  held := fun h => by cases h
  info := fun _ => rfl
  dropped := fun h => absurd rfl h

/-- Every offset is met, those at which the clauses meet among them: 0, 1, 2, 3, 4, 7, 8, 13, 14, 255, 256, 1535, 1536,
2047, 2048, 4095. -/
theorem witness_PortAccessesWhileBusy :
    ∀ (idx : BitVec 12) (v : Word),
      (Inv (busyFacing 0x2F (.portRead idx)) ∧ (busyFacing 0x2F (.portRead idx)).busy = true
          ∧ (busyFacing 0x2F (.portRead idx)).inputs = .portRead idx :: [])
        ∧ Inv (busyFacing 0x2F (.portWrite idx v)) ∧ (busyFacing 0x2F (.portWrite idx v)).busy = true
          ∧ (busyFacing 0x2F (.portWrite idx v)).inputs = .portWrite idx v :: [] :=
  fun _ _ => ⟨⟨inv_busyFacing _ _, rfl, rfl⟩, inv_busyFacing _ _, rfl, rfl⟩

/-- The clauses of PortAccessesWhileBusy about reads: where they meet, each offset falls under exactly one of them. -/
theorem clauses_PortAccessesWhileBusy :
    ([0, 1, 2, 3, 4, 7, 8, 13, 14, 255, 256, 1535, 1536, 2047, 2048, 4095].all fun k =>
      [decide (k = 0), decide (k = 1), decide (k = 2), decide (k = 4), decide (k = 5), decide (k = 6), decide (k = 7),
        decide (k = 3 ∨ (14 ≤ k ∧ k < 256) ∨ (1536 ≤ k ∧ k < 2048)),
        decide ((8 ≤ k ∧ k < 14) ∨ (256 ≤ k ∧ k < 1536) ∨ 2048 ≤ k)].count true == 1) = true := by decide +kernel

theorem witness_WindowsShowValidTables :
    (∀ idx, (facing (readyAab [] 0) (.portRead idx)).busy = false
        ∧ (facing (readyAab [] 0) (.portRead idx)).inputs = .portRead idx :: [])
      ∧ 7 < 8 ∧ (readyAab [] 0).fv = true ∧ (readyAab [] 0).pv = true
      ∧ (1 : Byte).toNat < (readyAab [] 0).nsym.toNat ∧ (readyAab [] 0).cv = true
      ∧ 14 ≤ (14 : BitVec 12).toNat ∧ (255 : BitVec 12).toNat < 256
      ∧ 1536 ≤ (1536 : BitVec 12).toNat ∧ (2047 : BitVec 12).toNat < 2048 :=
  ⟨fun _ => ⟨rfl, rfl⟩, by decide⟩

theorem witness_InvalidWindowsReadFreeValues :
    State.reset.busy = false ∧ 7 < 8 ∧ State.reset.fv = false ∧ State.reset.pv = false ∧ State.reset.cv = false
      ∧ (readyAab [] 0).busy = false ∧ (readyAab [] 0).pv = true
      ∧ (readyAab [] 0).nsym.toNat ≤ (2 : Byte).toNat := by decide

theorem witness_IdlePortWrites :
    ∀ (idx : BitVec 12) (v : Word), ((facing (readyAab [] 0) (.portWrite idx v)).busy = false
        ∧ (facing (readyAab [] 0) (.portWrite idx v)).inputs = .portWrite idx v :: []
        ∧ (facing (readyAab [] 0) (.portWrite idx v)).rst = false)
      ∧ (heldFacing (.portWrite idx v)).busy = false ∧ (heldFacing (.portWrite idx v)).inputs = .portWrite idx v :: []
      ∧ (heldFacing (.portWrite idx v)).rst = true := fun _ _ => ⟨⟨rfl, rfl, rfl⟩, rfl, rfl, rfl⟩

theorem witness_IrqRisesAtTerminationAndFalls :
    (∃ t, exec .nop { State.reset with ie := true } = .next t)
      ∧ ((accept 2 State.reset).busy = true ∧ ∃ t, engineTurn (accept 2 State.reset) = .next t)
      ∧ (∃ t, accessTurn (accept 2 State.reset) = .next t ∧ t.busy = false)
      ∧ State.reset.busy = false ∧ State.reset.rst = false ∧ (heldFacing .reset).rst = true ∧ Inv (heldFacing .reset)
      ∧ (6 : Word).getLsbD 1 = true ∧ (4 : Word).getLsbD 1 = false
      ∧ (0xFFFFFFFE : Word).getLsbD 0 = false
      ∧ ∃ t, hostReset { readyAab [] 0 with ie := true, done := true } = .next t :=
  ⟨⟨_, rfl⟩, ⟨rfl, _, next_after (by decide +kernel)⟩, next_with (by decide +kernel), rfl, rfl, rfl, inv_heldFacing _,
    by decide, by decide, by decide, _, rfl⟩

theorem witness_RacedReadIsOldOrNew :
    (∃ b t, memRead 0x1000 (machine textZzzz 0) = .ok b t)
      ∧ (∀ c ∈ (machine textZzzz 0).raced, c.1 ≠ (0x1000 : Word).toNat)
      ∧ (∃ b t, memRead 0x1000 (hostWrite 0x1000 0x61 (busyFacing 0x2F .engine)) = .ok b t)
      ∧ (facing countingZzzz (.memWrite 0x1000 0x61)).inputs = .memWrite 0x1000 0x61 :: []
      ∧ (facing countingZzzz (.memWrite 0x1000 0x61)).mem.wf = true
      ∧ (facing countingZzzz (.memWrite 0x1000 0x61)).busy = true ∧ quiet (facing countingZzzz (.memWrite 0x1000 0x61))
      ∧ (∃ b u, memRead 0x1000 (hostWrite 0x1000 0x61 countingZzzz) = .ok b u)
      ∧ (∃ b u, memRead 0x1001 (hostWrite 0x1000 0x61 countingZzzz) = .ok b u)
      ∧ (facing (machine textZzzz 0) (.memWrite 0x1000 0x61)).busy = false
      ∧ (facing (machine textZzzz 0) (.memWrite 0x1000 0x61)).mem.wf = true :=
  ⟨⟨_, _, rfl⟩, fun _ h => absurd h List.not_mem_nil, ⟨_, _, rfl⟩, rfl, by decide +kernel, rfl, rfl, ⟨_, _, rfl⟩,
    ⟨_, _, rfl⟩, rfl, by decide +kernel⟩

theorem witness_HostReadSeesOldOrFinalByte :
    matching.busy = true ∧ matching.progress = .start ∧ quiet matching ∧ (∃ t, engineTurn matching = .next t)
      ∧ (∃ m, accessTurns 2 matching = .next m ∧ m.busy = true)
      ∧ ∃ m, accessTurns 4 matching = .next m ∧ m.busy = false :=
  ⟨rfl, rfl, rfl, ⟨_, next_after (by decide +kernel)⟩, next_with (by decide +kernel), next_with (by decide +kernel)⟩

theorem witness_EveryCommandTerminates :
    touchesDevice .freq (machine textZzzz 0) = false
      ∧ touchesDevice .ptab (withDevice 0x1003 1 (machine textZzzz 0)) = false
      ∧ tablesReady .tree State.reset = false
      ∧ rangeBad .freq { State.reset with srcAddr := 1, srcLen := 0xFFFFFFFF } = false
      ∧ rangeBad .freq { State.reset with srcAddr := 2, srcLen := 0xFFFFFFFF } = true
      ∧ (touchesDevice .freq (withDevice 0x1003 1 (machine textZzzz 0)) = true
          ∧ tablesReady .freq (withDevice 0x1003 1 (machine textZzzz 0)) = true
          ∧ rangeBad .freq (withDevice 0x1003 1 (machine textZzzz 0)) = false) := by decide +kernel

theorem witness_NoCommandChangesOperands : ∃ t, exec .freq (machine textZzzz 0) = .next t :=
  ⟨_, next_after (by decide +kernel)⟩

theorem witness_TablesWrittenOnlyByTheirStages :
    ((∃ t, exec .nop (readyAab [] 0) = .next t) ∧ Instr.nop ≠ .freq ∧ Instr.nop ≠ .encode ∧ Instr.nop ≠ .ptab
        ∧ Instr.nop ≠ .tree ∧ Instr.nop ≠ .parse ∧ Instr.nop ≠ .decode)
      ∧ ((∃ t, exec .clear (readyAab [] 0) = .next t) ∧ Instr.clear ≠ .freq ∧ Instr.clear ≠ .encode ∧ Instr.clear ≠ .ptab
        ∧ Instr.clear ≠ .tree ∧ Instr.clear ≠ .parse ∧ Instr.clear ≠ .decode)
      ∧ (∃ t, exec .emit (readyAab [0x63] 0x40) = .next t ∧ t.err = some .unknownSymbol) ∧ Instr.emit ≠ .freq
      ∧ Instr.emit ≠ .encode ∧ Instr.emit ≠ .ptab ∧ Instr.emit ≠ .tree ∧ Instr.emit ≠ .parse ∧ Instr.emit ≠ .decode :=
  ⟨⟨⟨_, rfl⟩, by decide⟩, ⟨⟨_, rfl⟩, by decide⟩, next_with (by decide +kernel), by decide⟩

theorem witness_ResultRegistersLeftAlone :
    (∃ t, exec .nop (readyAab [] 0) = .next t ∧ t.err = none)
      ∧ Instr.nop ∉ [Instr.emit, .encode, .parse, .matchBits, .decode, .clear, .freq] := ⟨⟨_, rfl, rfl⟩, by decide⟩

theorem witness_ValidFlagsAndStageMoveByTheTables :
    (∃ t, exec .freq (machine textZzzz 0) = .next t ∧ t.err = none)
      ∧ ∃ t, exec .freq (machine [] 0) = .next t ∧ t.err ≠ none :=
  ⟨next_with (by decide +kernel), next_with (by decide +kernel)⟩

theorem witness_NonStoringCommandsLeaveMemory :
    Instr.freq ∈ [Instr.nop, .clear, .freq, .ptab, .tree, .parse] ∧ (∃ t, exec .freq (machine textZzzz 0) = .next t)
      ∧ Instr.ptab ∈ [Instr.nop, .clear, .ptab, .tree] ∧ ∃ t, exec .ptab (readyAab [] 0) = .next t :=
  ⟨by decide, ⟨_, next_after (by decide +kernel)⟩, by decide, _, next_after (by decide +kernel)⟩

theorem witness_StoringCommandsWriteTheDestination :
    Instr.emit ∈ [Instr.emit, .encode, .matchBits, .decode]
      ∧ (∃ t, exec .emit (readyAab [0x61] 0x40) = .next t ∧ t.err = none) ∧ quiet (readyAab [0x61] 0x40)
      ∧ (readyAab [0x61] 0x40).mem.wf = true :=
  ⟨by decide, next_with (by decide +kernel), rfl, by decide +kernel⟩

theorem witness_ReadsAscendThroughTheSource :
    (Instr.freq ≠ .encode ∧ ∃ t, exec .freq (machine textZzzz 0) = .next t ∧ t.err = none)
      ∧ (Instr.parse ≠ .encode ∧ ∃ t, exec .parse (machine textShort 0) = .next t ∧ t.err = none)
      ∧ (∃ t, exec .encode (machine textZzzz 0) = .next t ∧ 0 < (readsOf t.accesses).length)
      ∧ ∃ t, exec .encode (machine textZzzz 20) = .next t ∧ t.err = none :=
  ⟨⟨by decide, next_with (by decide +kernel)⟩, ⟨by decide, next_with (by decide +kernel)⟩, next_with (by decide +kernel),
    next_with (by decide +kernel)⟩

theorem witness_ErrorTerminationDropsResults :
    (∃ t, exec .freq (machine [] 0) = .next t ∧ t.err = some .emptyInput) ∧ quiet (machine [] 0) :=
  ⟨next_with (by decide +kernel), rfl⟩

theorem witness_SequenceErrorWithoutTable :
    (Instr.ptab = .ptab ∧ State.reset.fv = false) ∧ (Instr.tree = .tree ∧ State.reset.pv = false)
      ∧ (Instr.emit = .emit ∧ State.reset.pv = false) ∧ (Instr.emit = .emit ∧ { readyAab [] 0 with cv := false }.cv = false)
      ∧ (Instr.matchBits = .matchBits ∧ State.reset.cv = false) := by decide

theorem witness_RangeErrorOnBadRegion :
    tablesReady .freq { State.reset with srcAddr := 2, srcLen := 0xFFFFFFFF } = true
      ∧ 2 ^ 32 < (2 : Word).toNat + (0xFFFFFFFF : Word).toNat
      ∧ tablesReady .encode { State.reset with dstAddr := 2, dstCap := 0xFFFFFFFF } = true
      ∧ tablesReady .encode { machine textZzzz 1 with dstAddr := 0x1003 } = true
      ∧ regionsOverlap { machine textZzzz 1 with dstAddr := 0x1003 } = true
      ∧ regionsOverlap { machine textZzzz 1 with dstAddr := 0x1004 } = false
      ∧ (∃ t, exec .freq { State.reset with srcAddr := 2, srcLen := 0xFFFFFFFF } = .next t ∧ t.err = some .range)
      ∧ ∃ t, exec .freq { State.reset with srcAddr := 1, srcLen := 0 } = .next t ∧ t.err ≠ some .range :=
  ⟨rfl, by decide, rfl, rfl, by decide +kernel, by decide +kernel, next_with (by decide +kernel),
    next_with (by decide +kernel)⟩

theorem witness_EmptyInputErrorOnEmptySource :
    Instr.encode ∈ [Instr.freq, .encode] ∧ admitted .encode (machine [] 0x40) = true ∧ (machine [] 0x40).srcLen = 0 := by
  decide +kernel

/-- The row of the artifact `1\na\t1\t0\n\n00`. -/
def rowA : Row := { symbol := 0x61, field := [0x31], code := [false] }

theorem witness_BusErrorNamesARefusedAddress :
    ∃ t, exec .freq (refusing 0x1003 1 (machine textZzzz 0)) = .next t ∧ t.err = some .bus :=
  next_with (by decide +kernel)

/-- A refused read and a refused write, FREQ at the first and at the last byte, and EMIT at the last byte of its
header. -/
theorem witness_BusErrorNamesARefusedAddress_accesses :
    (refusing 0x1003 1 State.reset).memOK 0x1003 .read = false
      ∧ (refusing 0x1003 1 State.reset).memOK 0x1003 .write = false
      ∧ (Instr.freq ∈ [Instr.freq, .encode] ∧ admitted .freq (refusing 0x1003 1 (machine textZzzz 0)) = true
        ∧ 3 < (refusing 0x1003 1 (machine textZzzz 0)).srcLen.toNat
        ∧ (∀ k, k < 3 → (refusing 0x1003 1 (machine textZzzz 0)).memOK
            ((refusing 0x1003 1 (machine textZzzz 0)).srcAt k) .read = true)
        ∧ (refusing 0x1003 1 (machine textZzzz 0)).memOK
            ((refusing 0x1003 1 (machine textZzzz 0)).srcAt 3) .read = false)
      ∧ (Instr.encode ∈ [Instr.freq, .encode] ∧ admitted .encode (refusing 0x1000 1 (machine textZzzz 0x40)) = true
        ∧ 0 < (refusing 0x1000 1 (machine textZzzz 0x40)).srcLen.toNat
        ∧ (refusing 0x1000 1 (machine textZzzz 0x40)).memOK
            ((refusing 0x1000 1 (machine textZzzz 0x40)).srcAt 0) .read = false)
      ∧ (admitted .emit (refusing 0x201C 1 (readyAab [] 29)) = true
        ∧ 28 < (artifactHeader (refusing 0x201C 1 (readyAab [] 29))).length
        ∧ 28 < (refusing 0x201C 1 (readyAab [] 29)).dstCap.toNat
        ∧ dstWritable (refusing 0x201C 1 (readyAab [] 29)) 28 = true
        ∧ (refusing 0x201C 1 (readyAab [] 29)).memOK
            ((refusing 0x201C 1 (readyAab [] 29)).dstAt 28) .write = false) := by
  refine ⟨by decide +kernel, by decide +kernel, ⟨by decide, by decide +kernel, by decide +kernel, ?_, by decide +kernel⟩,
    by decide +kernel, by decide +kernel⟩
  decide +kernel

/-- The artifact `1\na\t1\t0\n\n00` with its third byte unreadable, and a bitstream with an unreadable second byte and
with no writable byte. -/
theorem witness_BusErrorNamesARefusedAddress_stages :
    (admitted .parse (refusing 0x1002 1 (machine textShort 0)) = true ∧ quiet (refusing 0x1002 1 (machine textShort 0))
        ∧ 2 < (refusing 0x1002 1 (machine textShort 0)).srcLen.toNat
        ∧ (∀ k, k < 2 → (refusing 0x1002 1 (machine textShort 0)).memOK
            ((refusing 0x1002 1 (machine textShort 0)).srcAt k) .read = true)
        ∧ (refusing 0x1002 1 (machine textShort 0)).memOK
            ((refusing 0x1002 1 (machine textShort 0)).srcAt 2) .read = false
        ∧ headerBegins ((srcBytes (refusing 0x1002 1 (machine textShort 0))).take 2))
      ∧ (admitted .matchBits (refusing 0x1001 1 (readyScenario [0x30, 0x58] 1)) = true
        ∧ quiet (refusing 0x1001 1 (readyScenario [0x30, 0x58] 1))
        ∧ srcBytes (refusing 0x1001 1 (readyScenario [0x30, 0x58] 1)) = bitsText [false] ++ 0x58 :: []
        ∧ (∀ k, k < [false].length → (refusing 0x1001 1 (readyScenario [0x30, 0x58] 1)).memOK
            ((refusing 0x1001 1 (readyScenario [0x30, 0x58] 1)).srcAt k) .read = true)
        ∧ (refusing 0x1001 1 (readyScenario [0x30, 0x58] 1)).memOK
            ((refusing 0x1001 1 (readyScenario [0x30, 0x58] 1)).srcAt [false].length) .read = false
        ∧ (cutBits codesScenario [] [false]).1.length ≤ (refusing 0x1001 1 (readyScenario [0x30, 0x58] 1)).dstCap.toNat
        ∧ dstWritable (refusing 0x1001 1 (readyScenario [0x30, 0x58] 1)) (cutBits codesScenario [] [false]).1.length = true)
      ∧ (admitted .matchBits (refusing 0x2000 1 (readyScenario [0x30] 1)) = true
        ∧ quiet (refusing 0x2000 1 (readyScenario [0x30] 1)) ∧ srcReadable (refusing 0x2000 1 (readyScenario [0x30] 1)) = true
        ∧ srcBytes (refusing 0x2000 1 (readyScenario [0x30] 1)) = bitsText [false] ++ []
        ∧ 0 < (cutBits codesScenario [] [false]).1.length ∧ 0 < (refusing 0x2000 1 (readyScenario [0x30] 1)).dstCap.toNat
        ∧ dstWritable (refusing 0x2000 1 (readyScenario [0x30] 1)) 0 = true
        ∧ (refusing 0x2000 1 (readyScenario [0x30] 1)).memOK
            ((refusing 0x2000 1 (readyScenario [0x30] 1)).dstAt 0) .write = false) := by
  refine ⟨⟨by decide +kernel, rfl, by decide +kernel, by decide +kernel, by decide +kernel, .inl ⟨[rowA],
      [0x61, 0x09, 0x31, 0x09, 0x30, 0x0A, 0x0A], by decide +kernel⟩⟩, ⟨by decide +kernel, rfl, by decide +kernel⟩,
    by decide +kernel, rfl, by decide +kernel⟩

/-- One run for each error a command can end with. -/
theorem witness_ErrorsComeFromTheirCommands :
    (∃ t, exec .freq (machine [] 0) = .next t ∧ t.err = some .emptyInput)
      ∧ (∃ t, exec .emit (readyAab [0x63] 0x40) = .next t ∧ t.err = some .unknownSymbol)
      ∧ (∃ t, exec .matchBits (readyScenario [0x31] 1) = .next t ∧ t.err = some .unmatchedBits)
      ∧ (∃ t, exec .parse (machine [] 0) = .next t ∧ t.err = some .malformedArtifact)
      ∧ (∃ t, exec .matchBits (readyScenario [0x32] 1) = .next t ∧ t.err = some .malformedArtifact)
      ∧ (∃ t, exec .ptab State.reset = .next t ∧ t.err = some .sequence)
      ∧ (∃ t, exec .parse { State.reset with srcAddr := 0xFFFFFFFF, srcLen := 2 } = .next t ∧ t.err = some .range)
      ∧ (∃ t, exec .emit (readyAab [] 0) = .next t ∧ t.err = some .dstOverflow)
      ∧ (∃ t, exec .matchBits (readyScenario [0x30] 0) = .next t ∧ t.err = some .dstOverflow) := by
  refine ⟨?_, ?_, ?_, ?_, ?_, ?_, ?_, ?_, ?_⟩ <;> exact next_with (by decide +kernel)

/-- A BusError in each of the stages that make accesses. -/
theorem witness_ErrorsComeFromTheirCommands_bus :
    (∃ t, exec .freq (refusing 0x1000 1 (machine textZzzz 0)) = .next t ∧ t.err = some .bus)
      ∧ (∃ t, exec .emit (refusing 0x2000 1 (readyAab [] 0x40)) = .next t ∧ t.err = some .bus)
      ∧ (∃ t, exec .encode (refusing 0x2000 1 (machine textZzzz 0x40)) = .next t ∧ t.err = some .bus)
      ∧ (∃ t, exec .parse (refusing 0x1000 1 (machine textShort 0)) = .next t ∧ t.err = some .bus)
      ∧ (∃ t, exec .matchBits (refusing 0x2000 1 (readyScenario [0x30] 1)) = .next t ∧ t.err = some .bus)
      ∧ ∃ t, exec .decode (refusing 0x2000 1 (machine textShort 2)) = .next t ∧ t.err = some .bus := by
  refine ⟨?_, ?_, ?_, ?_, ?_, ?_⟩ <;> exact next_with (by decide +kernel)

theorem witness_FreqCountsTheSource :
    admitted .freq (machine textZzzz 0) = true ∧ quiet (machine textZzzz 0) ∧ srcReadable (machine textZzzz 0) = true
      ∧ (machine textZzzz 0).srcLen ≠ 0 := ⟨by decide, rfl, by decide +kernel, by decide⟩

theorem witness_PtabRanksTheSymbols : (readyAab [] 0).fv = true := rfl

theorem witness_DivisionRoundsToNearestEven :
    1 ≤ 1 ∧ 1 ≤ 2 ^ 32 - 1 ∧ 2 ^ 32 - 1 < 2 ^ 32 ∧ biasedExp (fdiv 1 2) ≤ 2046
      ∧ (0x3DE0000000000000 : Double).getLsbD 63 = false ∧ 990 ≤ biasedExp 0x3DE0000000000000
      ∧ (0x408FFFFFFFFFFFFF : Double).getLsbD 63 = false ∧ biasedExp 0x408FFFFFFFFFFFFF ≤ 1032 := by decide +kernel

theorem witness_ProbabilitiesOrderAsCounts :
    1 ≤ 2 ^ 32 - 2 ∧ 2 ^ 32 - 2 ≤ 2 ^ 32 - 1 ∧ 1 ≤ 2 ^ 32 - 1 ∧ 2 ^ 32 - 1 ≤ 2 ^ 32 - 1 ∧ 2 ^ 32 - 1 < 2 ^ 32 := by decide

/-- The machine after FREQ and PTAB of `aab`, written out. -/
def rankedAab : State := { readyAab textAab 0x40 with cv := false }

/-- The invariant of a machine with a probability table. -/
theorem inv_rankedAab : Inv rankedAab where
  memory := by decide +kernel
  triples := rfl
  nsymZero := by decide +kernel
  nsymMax := by decide +kernel
  counts := fun _ _ => by decide +kernel
  alphabetIs := fun _ _ => by decide +kernel
  ranking := fun _ => ⟨rankedAab.freq, fun _ => rfl, by decide +kernel⟩
  padding := fun h => by rcases h with h | h <;> cases h
  someCode := fun h => by cases h
  capacity := Nat.zero_le _
  hidden := fun _ => ⟨rfl, rfl, rfl⟩
  running := fun h => by cases h
  placed := fun w h => by cases h
  held := fun h => by cases h
  info := fun _ => rfl
  dropped := fun h => absurd rfl h

theorem witness_ProbabilitiesSumToOne : Inv rankedAab ∧ rankedAab.pv = true := ⟨inv_rankedAab, rfl⟩

theorem witness_TreeBuildsACompletePrefixCode :
    rankedAab.pv = true ∧ 1 ≤ rankedAab.nsym.toNat ∧ rankedAab.nsym.toNat ≤ 256
      ∧ (ranked rankedAab.psym rankedAab.nsym.toNat).Nodup := by decide +kernel

theorem witness_TreeOfOneOrTwoSymbols :
    rankedAab.pv = true ∧ rankedAab.nsym = 2 ∧ rankedAab.psym.at 0 ≠ rankedAab.psym.at 1
      ∧ { rankedAab with nsym := 1 }.nsym = 1 := by decide +kernel

theorem witness_TreeCodewordsFollowTheSplits :
    rankedAab.pv = true ∧ 2 ≤ rankedAab.nsym.toNat ∧ rankedAab.nsym.toNat ≤ 256
      ∧ (ranked rankedAab.psym rankedAab.nsym.toNat).Nodup ∧ 1 < rankedAab.nsym.toNat := by decide +kernel

/-- Three equal probabilities. -/
def thirds : Table Double := Vector.replicate 256 (fdiv 1 3)

theorem witness_SplitPointIsAtHalf :
    0 + 2 ≤ 2 ∧ 2 < 256 ∧ 1 ≤ 3 ∧ 3 < 2 ^ 32
      ∧ ∀ i, 0 ≤ i → i ≤ 2 → ∃ c, 1 ≤ c ∧ c ≤ 3 ∧ thirds.at i = fdiv c 3 := by
  refine ⟨by decide, by decide, by decide, by decide, fun i _ h => ⟨1, by decide, by decide, ?_⟩⟩
  simp [Table.at, thirds]

theorem witness_ArtifactHeaderLength :
    1 ≤ (readyAab [] 0).nsym.toNat ∧ (readyAab [] 0).nsym.toNat ≤ 256 ∧ 0 < units (fdiv 1 1)
      ∧ units (fdiv 1 1) ≤ unitsPerOne ∧ 0 < units (fdiv 1 (2 ^ 32 - 1)) := by decide +kernel

theorem witness_EmitWritesTheArtifact :
    admitted .emit (readyAab [0x61] 30) = true ∧ quiet (readyAab [0x61] 30) ∧ (readyAab [0x61] 30).mem.wf = true
      ∧ srcReadable (readyAab [0x61] 30) = true
      ∧ (∀ b ∈ srcBytes (readyAab [0x61] 30), (readyAab [0x61] 30).codes.len b ≠ 0)
      ∧ (artifactHeader (readyAab [0x61] 30) ++ bitstream (readyAab [0x61] 30).codes (srcBytes (readyAab [0x61] 30))).length
          ≤ (readyAab [0x61] 30).dstCap.toNat
      ∧ dstWritable (readyAab [0x61] 30)
          (artifactHeader (readyAab [0x61] 30)
            ++ bitstream (readyAab [0x61] 30).codes (srcBytes (readyAab [0x61] 30))).length = true := by
  refine ⟨by decide +kernel, rfl, by decide +kernel, by decide +kernel, ?_, by decide +kernel, by decide +kernel⟩
  have h : srcBytes (readyAab [0x61] 30) = [0x61] := by decide +kernel
  rw [h]
  simp only [List.mem_singleton, forall_eq]
  decide +kernel

theorem witness_EmitStopsAtAnUnknownSymbol :
    admitted .emit (readyAab [0x61, 0x63] 30) = true ∧ quiet (readyAab [0x61, 0x63] 30)
      ∧ (readyAab [0x61, 0x63] 30).mem.wf = true ∧ srcReadable (readyAab [0x61, 0x63] 30) = true
      ∧ srcBytes (readyAab [0x61, 0x63] 30) = [0x61] ++ 0x63 :: []
      ∧ (∀ c ∈ [(0x61 : Byte)], (readyAab [0x61, 0x63] 30).codes.len c ≠ 0)
      ∧ (readyAab [0x61, 0x63] 30).codes.len 0x63 = 0
      ∧ (artifactHeader (readyAab [0x61, 0x63] 30) ++ bitstream (readyAab [0x61, 0x63] 30).codes [0x61]).length
          ≤ (readyAab [0x61, 0x63] 30).dstCap.toNat
      ∧ dstWritable (readyAab [0x61, 0x63] 30)
          (artifactHeader (readyAab [0x61, 0x63] 30) ++ bitstream (readyAab [0x61, 0x63] 30).codes [0x61]).length
            = true := by
  refine ⟨by decide +kernel, rfl, by decide +kernel, by decide +kernel, by decide +kernel, ?_, by decide +kernel,
    by decide +kernel, by decide +kernel⟩
  simp only [List.mem_singleton, forall_eq]
  decide +kernel

theorem witness_EmitOverflowsAtCapacity :
    (admitted .emit (readyAab [0x63] 28) = true ∧ quiet (readyAab [0x63] 28) ∧ (readyAab [0x63] 28).mem.wf = true
        ∧ srcReadable (readyAab [0x63] 28) = true ∧ srcBytes (readyAab [0x63] 28) = [] ++ [0x63]
        ∧ (∀ b ∈ ([] : List Byte), (readyAab [0x63] 28).codes.len b ≠ 0)
        ∧ (readyAab [0x63] 28).dstCap.toNat
            < (artifactHeader (readyAab [0x63] 28) ++ bitstream (readyAab [0x63] 28).codes []).length
        ∧ dstWritable (readyAab [0x63] 28) (readyAab [0x63] 28).dstCap.toNat = true
        ∧ (readyAab [0x63] 28).dstCap.toNat < (artifactHeader (readyAab [0x63] 28)).length)
      ∧ (admitted .emit (readyAab [0x61, 0x63] 29) = true ∧ (readyAab [0x61, 0x63] 29).mem.wf = true
        ∧ srcReadable (readyAab [0x61, 0x63] 29) = true ∧ srcBytes (readyAab [0x61, 0x63] 29) = [0x61] ++ [0x63]
        ∧ (readyAab [0x61, 0x63] 29).codes.len 0x61 ≠ 0
        ∧ (readyAab [0x61, 0x63] 29).dstCap.toNat
            < (artifactHeader (readyAab [0x61, 0x63] 29) ++ bitstream (readyAab [0x61, 0x63] 29).codes [0x61]).length
        ∧ dstWritable (readyAab [0x61, 0x63] 29) (readyAab [0x61, 0x63] 29).dstCap.toNat = true
        ∧ (artifactHeader (readyAab [0x61, 0x63] 29)).length ≤ (readyAab [0x61, 0x63] 29).dstCap.toNat) :=
  ⟨⟨by decide +kernel, rfl, by decide +kernel, by decide +kernel, by decide +kernel, fun _ h => absurd h List.not_mem_nil,
    by decide +kernel⟩, by decide +kernel⟩

theorem witness_EncodeWritesTheArtifactOfItsInput :
    quiet (machine textZzzz 20) ∧ (machine textZzzz 20).mem.wf = true ∧ admitted .encode (machine textZzzz 20) = true
      ∧ srcReadable (machine textZzzz 20) = true ∧ (machine textZzzz 20).srcLen ≠ 0
      ∧ (artifactOf (srcBytes (machine textZzzz 20))).length ≤ (machine textZzzz 20).dstCap.toNat
      ∧ dstWritable (machine textZzzz 20) (artifactOf (srcBytes (machine textZzzz 20))).length = true :=
  ⟨rfl, by decide +kernel⟩

/-- The four stages of ENCODE of `zzzz`, one command after the other. -/
def stage1 : State := after (exec .freq (machine textZzzz 20))
def stage2 : State := after (exec .ptab stage1)
def stage3 : State := after (exec .tree stage2)
def stage4 : State := after (exec .emit stage3)

theorem stages_end :
    answers (exec .freq (machine textZzzz 20)) = true ∧ stage1.err = none ∧ answers (exec .ptab stage1) = true
      ∧ answers (exec .tree stage2) = true ∧ answers (exec .emit stage3) = true ∧ stage4.err = none := by decide +kernel

theorem witness_EncodeIsItsFourStages :
    quiet (machine textZzzz 20) ∧ admitted .encode (machine textZzzz 20) = true
      ∧ exec .freq (machine textZzzz 20) = .next stage1 ∧ stage1.err = none ∧ exec .ptab stage1 = .next stage2
      ∧ exec .tree stage2 = .next stage3 ∧ exec .emit stage3 = .next stage4 ∧ stage4.err = none :=
  have ⟨h1, e1, h2, h3, h4, e4⟩ := stages_end
  ⟨rfl, by decide, next_after h1, e1, next_after h2, next_after h3, next_after h4, e4⟩

theorem witness_ParseLoadsAWellFormedHeader :
    admitted .parse (machine textShort 0) = true ∧ quiet (machine textShort 0) ∧ srcReadable (machine textShort 0) = true
      ∧ rowsOk [rowA] = true ∧ srcBytes (machine textShort 0) = headerText [rowA] ++ [0x30, 0x30] :=
  ⟨by decide +kernel, rfl, by decide +kernel, by decide +kernel, by decide +kernel⟩

theorem witness_ParseRefusesEverythingElse :
    (admitted .parse (machine [] 0) = true ∧ quiet (machine [] 0) ∧ srcReadable (machine [] 0) = true
        ∧ ¬ ∃ rows rest, rowsOk rows = true ∧ srcBytes (machine [] 0) = headerText rows ++ rest)
      ∧ (admitted .parse (machine [0x30] 0) = true ∧ quiet (machine [0x30] 0) ∧ srcReadable (machine [0x30] 0) = true
        ∧ ¬ ∃ rows rest, rowsOk rows = true ∧ srcBytes (machine [0x30] 0) = headerText rows ++ rest) := by
  refine ⟨⟨by decide +kernel, rfl, by decide +kernel, ?_⟩, by decide +kernel, rfl, by decide +kernel, ?_⟩
  · rintro ⟨rows, rest, _, h⟩
    have hl := congrArg List.length h
    simp [headerText, srcBytes, machine] at hl
  · rintro ⟨rows, rest, _, h⟩
    have hl := congrArg List.length h
    simp only [headerText, srcBytes, List.length_append, List.length_map, List.length_range, List.length_cons] at hl
    have h1 : (machine [0x30] 0).srcLen.toNat = 1 := by decide
    omega

theorem witness_MatchCutsTheBitstream :
    (admitted .matchBits (readyScenario [0x30, 0x31] 1) = true ∧ quiet (readyScenario [0x30, 0x31] 1)
        ∧ (readyScenario [0x30, 0x31] 1).mem.wf = true ∧ srcReadable (readyScenario [0x30, 0x31] 1) = true
        ∧ srcBytes (readyScenario [0x30, 0x31] 1) = bitsText [false, true]
        ∧ (cutBits codesScenario [] [false, true]).1.length ≤ (readyScenario [0x30, 0x31] 1).dstCap.toNat
        ∧ dstWritable (readyScenario [0x30, 0x31] 1) (cutBits codesScenario [] [false, true]).1.length = true
        ∧ (cutBits codesScenario [] [false, true]).2 ≠ [])
      ∧ (admitted .matchBits (readyScenario [0x30] 1) = true ∧ quiet (readyScenario [0x30] 1)
        ∧ (readyScenario [0x30] 1).mem.wf = true ∧ srcReadable (readyScenario [0x30] 1) = true
        ∧ srcBytes (readyScenario [0x30] 1) = bitsText [false]
        ∧ (cutBits codesScenario [] [false]).1.length ≤ (readyScenario [0x30] 1).dstCap.toNat
        ∧ dstWritable (readyScenario [0x30] 1) (cutBits codesScenario [] [false]).1.length = true
        ∧ (cutBits codesScenario [] [false]).2 = []) :=
  ⟨⟨by decide, rfl, by decide +kernel⟩, by decide, rfl, by decide +kernel⟩

theorem witness_PrefixFreeCodeCutsBack :
    (readyAab [] 0).codes.prefixFree = true ∧ (readyAab [] 0).codes.len 0x61 ≠ 0 ∧ (readyAab [] 0).codes.len 0x62 ≠ 0 := by
  decide +kernel

/-- The code table of the one row. -/
def codesRowA : CodeTable := CodeTable.empty.append 0x61 false

theorem code_rowA (b : Byte) : codesRowA.code b = rowCode [rowA] b := by
  revert b
  decide +kernel


/-- `1\na\t1\t0\n\n0X` -/
def textNonBit : List Byte := [0x31, 0x0A, 0x61, 0x09, 0x31, 0x09, 0x30, 0x0A, 0x0A, 0x30, 0x58]

theorem witness_MatchRefusesANonBit :
    (quiet (readyScenario [0x31, 0x32] 1) ∧ (readyScenario [0x31, 0x32] 1).mem.wf = true
        ∧ srcReadable (readyScenario [0x31, 0x32] 1) = true ∧ (0x32 : Byte) ≠ 0x30 ∧ (0x32 : Byte) ≠ 0x31
        ∧ admitted .matchBits (readyScenario [0x31, 0x32] 1) = true
        ∧ srcBytes (readyScenario [0x31, 0x32] 1) = bitsText [true] ++ 0x32 :: []
        ∧ (cutBits codesScenario [] [true]).1.length ≤ (readyScenario [0x31, 0x32] 1).dstCap.toNat
        ∧ dstWritable (readyScenario [0x31, 0x32] 1) (cutBits codesScenario [] [true]).1.length = true)
      ∧ (quiet (machine textNonBit 1) ∧ (machine textNonBit 1).mem.wf = true ∧ srcReadable (machine textNonBit 1) = true
        ∧ (0x58 : Byte) ≠ 0x30 ∧ (0x58 : Byte) ≠ 0x31
        ∧ admitted .decode (machine textNonBit 1) = true ∧ rowsOk [rowA] = true
        ∧ srcBytes (machine textNonBit 1) = headerText [rowA] ++ bitsText [false] ++ 0x58 :: []
        ∧ (∀ x : Byte, codesRowA.code x = rowCode [rowA] x)
        ∧ (cutBits codesRowA [] [false]).1.length ≤ (machine textNonBit 1).dstCap.toNat
        ∧ dstWritable (machine textNonBit 1) (cutBits codesRowA [] [false]).1.length = true) :=
  ⟨⟨rfl, by decide +kernel⟩, rfl, by decide +kernel, by decide +kernel, by decide, by decide, by decide +kernel,
    by decide +kernel, by decide +kernel, code_rowA, by decide +kernel, by decide +kernel⟩

theorem witness_MatchOverflowsAtCapacity :
    (quiet (readyScenario [0x30, 0x58] 0) ∧ (readyScenario [0x30, 0x58] 0).mem.wf = true
        ∧ srcReadable (readyScenario [0x30, 0x58] 0) = true
        ∧ dstWritable (readyScenario [0x30, 0x58] 0) (readyScenario [0x30, 0x58] 0).dstCap.toNat = true
        ∧ admitted .matchBits (readyScenario [0x30, 0x58] 0) = true
        ∧ srcBytes (readyScenario [0x30, 0x58] 0) = bitsText [false] ++ [0x58]
        ∧ (readyScenario [0x30, 0x58] 0).dstCap.toNat < (cutBits codesScenario [] [false]).1.length)
      ∧ (quiet (machine textShort 1) ∧ (machine textShort 1).mem.wf = true ∧ srcReadable (machine textShort 1) = true
        ∧ dstWritable (machine textShort 1) (machine textShort 1).dstCap.toNat = true
        ∧ admitted .decode (machine textShort 1) = true ∧ rowsOk [rowA] = true
        ∧ srcBytes (machine textShort 1) = headerText [rowA] ++ bitsText [false, false] ++ []
        ∧ (∀ x : Byte, codesRowA.code x = rowCode [rowA] x)
        ∧ (machine textShort 1).dstCap.toNat < (cutBits codesRowA [] [false, false]).1.length) :=
  ⟨⟨rfl, by decide +kernel⟩, rfl, by decide +kernel, by decide +kernel, by decide +kernel, by decide +kernel,
    by decide +kernel, by decide +kernel, code_rowA, by decide +kernel⟩

theorem witness_DecodeReadsAnArtifact :
    admitted .decode (machine textShort 2) = true ∧ quiet (machine textShort 2) ∧ (machine textShort 2).mem.wf = true
      ∧ srcReadable (machine textShort 2) = true ∧ rowsOk [rowA] = true ∧ srcBytes (machine textShort 2) = headerText [rowA] ++ bitsText [false, false]
      ∧ (∀ b : Byte, codesRowA.code b = rowCode [rowA] b)
      ∧ (cutBits codesRowA [] [false, false]).1.length ≤ (machine textShort 2).dstCap.toNat
      ∧ dstWritable (machine textShort 2) (cutBits codesRowA [] [false, false]).1.length = true
      ∧ (cutBits codesRowA [] [false, false]).2 = [] ∧ (cutBits codesRowA [] [false, true]).2 ≠ [] :=
  ⟨by decide +kernel, rfl, by decide +kernel, by decide +kernel, by decide +kernel, by decide +kernel, code_rowA, by decide +kernel,
    by decide +kernel, by decide +kernel, by decide +kernel⟩

/-- PARSE of the short artifact, then MATCH of what follows the header. -/
def parsed : State := after (exec .parse (machine textShort 2))
def moved : State :=
  { parsed with
    srcAddr := (machine textShort 2).srcAddr + parsed.bsOff, srcLen := (machine textShort 2).srcLen - parsed.bsOff }
def matched : State := after (exec .matchBits moved)

theorem witness_DecodeIsParseThenMatch :
    quiet (machine textShort 2) ∧ admitted .decode (machine textShort 2) = true
      ∧ exec .parse (machine textShort 2) = .next parsed ∧ parsed.err = none
      ∧ exec .matchBits moved = .next matched ∧ matched.err = none :=
  ⟨rfl, by decide +kernel, next_after (by decide +kernel), by decide +kernel, next_after (by decide +kernel),
    by decide +kernel⟩

/-- ENCODE of `zzzz`, and a machine whose source region holds what it wrote. -/
def encoded : State := after (exec .encode (machine textZzzz 20))
def reader : State := machine textArtifactZzzz 4

theorem encode_ends :
    answers (exec .encode (machine textZzzz 20)) = true ∧ encoded.err = none ∧ reader.srcLen = encoded.dstLen
      ∧ srcBytes reader = dstBytes encoded encoded.dstLen.toNat := by decide +kernel

theorem witness_DecodeOfEncodeIsTheInput :
    quiet (machine textZzzz 20) ∧ (machine textZzzz 20).mem.wf = true
      ∧ exec .encode (machine textZzzz 20) = .next encoded ∧ encoded.err = none
      ∧ quiet reader ∧ reader.mem.wf = true ∧ reader.srcLen = encoded.dstLen
      ∧ srcBytes reader = dstBytes encoded encoded.dstLen.toNat ∧ admitted .decode reader = true
      ∧ srcReadable reader = true ∧ (machine textZzzz 20).srcLen.toNat ≤ reader.dstCap.toNat
      ∧ dstWritable reader (machine textZzzz 20).srcLen.toNat = true :=
  have ⟨h, e, l, b⟩ := encode_ends
  ⟨rfl, by decide +kernel, next_after h, e, rfl, by decide +kernel, l, b, by decide +kernel, by decide +kernel, by decide +kernel, by decide +kernel⟩

theorem witness_EveryStepKeepsTheInvariant :
    (Inv (busyFacing 0x10 .engine) ∧ ∃ t, step (busyFacing 0x10 .engine) = .next t ∧ t.total = 4)
      ∧ Inv (facing countingZzzz .access) ∧ ∃ t, step (facing countingZzzz .access) = .next t ∧ t.freq.at 0x7A = 3 :=
  ⟨⟨inv_busyFacing _ _, next_with (by decide +kernel)⟩, inv_countingZzzz _, next_with (by decide +kernel)⟩

/-- A code table without a value may hold anything. -/
theorem inv_codes {s : State} (h : Inv s) (hc : s.cv = false) (hr : s.busy = false)
    (hh : s.rst = false) (c : CodeTable) :
    Inv { s with codes := c } where
  memory := h.memory
  triples := h.triples
  nsymZero := h.nsymZero
  nsymMax := h.nsymMax
  counts := h.counts
  alphabetIs := h.alphabetIs
  ranking := h.ranking
  padding := fun h' => by
    rcases h' with h' | h'
    · exact absurd (hc.symm.trans h') (by decide)
    · have hp : s.progress = .start := (h.hidden hr).1
      rw [show ({ s with codes := c } : State).progress = s.progress from rfl, hp] at h'
      cases h'
  someCode := fun h' => absurd (hc.symm.trans h') (by decide)
  capacity := h.capacity
  hidden := h.hidden
  running := h.running
  placed := fun w hw => by
    have : s.busy = true := by rw [State.busy, show s.running = some w from hw]; rfl
    rw [hr] at this
    cases this
  held := fun h' => absurd (hh.symm.trans h') (by decide)
  info := h.info
  dropped := h.dropped

theorem witness_TablesWithoutValueCannotBeSeen :
    Inv rankedAab ∧ Inv { rankedAab with codes := codesScenario }
      ∧ Indistinct rankedAab { rankedAab with codes := codesScenario }
      ∧ rankedAab.codes.len 0x63 ≠ codesScenario.len 0x63 :=
  ⟨inv_rankedAab, inv_codes inv_rankedAab rfl rfl rfl _,
    { rest := rfl, freq := fun _ => rfl, ranks := fun _ _ _ => ⟨rfl, rfl⟩, codes := fun h => by rcases h with h | h <;> exact absurd h (by decide) },
    by decide +kernel⟩

end Sys2Proof.Tests
end

section
/-! PROOFS. Rounding to nearest even (00_scope.md R15): what a rounded quotient is, as a pattern and as a value, and
that no other binary64 value is nearer to the exact one. -/

namespace Sys2Proof.Machine

/-! ### The nearest integer -/

/-- The rounded quotient as a distance: at most half a unit from the exact one. -/
theorem two_mul_dist_rne_le (num den : Nat) (h : 0 < den) :
    2 * ((num : Int) - (rne num den * den : Nat)).natAbs ≤ den := by
  obtain ⟨h1, h2⟩ := rne_near num den h
  omega

/-- A quotient half a unit from its rounding is a tie, and its rounding is even. -/
theorem rne_even_of_half (num den : Nat) (h : 0 < den)
    (half : 2 * ((num : Int) - (rne num den * den : Nat)).natAbs = den) : rne num den % 2 = 0 := by
  have remainder : ∀ q, q * den ≤ num → num < q * den + den → num % den = num - q * den := fun q h1 h2 =>
    ((Nat.div_mod_unique h).2 ⟨by rw [Nat.mul_comm den]; omega, by omega⟩ : num / den = q ∧ _).2
  apply rne_tie
  rcases Nat.le_total (rne num den * den) num with hle | hle
  · have := remainder _ hle (by omega)
    omega
  · obtain ⟨m, hm⟩ : ∃ m, rne num den = m + 1 := by
      refine Nat.exists_eq_succ_of_ne_zero fun h0 => ?_
      rw [h0] at half hle
      omega
    rw [hm, Nat.succ_mul m den] at half hle
    have := remainder m (by omega) (by omega)
    omega

/-- Two different multiples of `den` are at least `den` apart, so no `x` is near both. -/
theorem le_dist_add_dist {i j : Nat} (x den : Nat) (h : i ≠ j) :
    den ≤ ((x : Int) - (i * den : Nat)).natAbs + ((x : Int) - (j * den : Nat)).natAbs := by
  rcases Nat.lt_or_gt_of_ne h with h | h <;>
  · have apart := Nat.mul_le_mul_right den h
    rw [Nat.succ_mul] at apart
    omega

/-- No integer is nearer than the rounded quotient, and it is even where another is as near. -/
theorem rne_nearest (num den j : Nat) (h : 0 < den) :
    ((num : Int) - (rne num den * den : Nat)).natAbs ≤ ((num : Int) - (j * den : Nat)).natAbs
      ∧ (((num : Int) - (rne num den * den : Nat)).natAbs = ((num : Int) - (j * den : Nat)).natAbs →
          j ≠ rne num den → rne num den % 2 = 0) := by
  have near := two_mul_dist_rne_le num den h
  rcases eq_or_ne j (rne num den) with rfl | hj
  · exact ⟨le_rfl, fun _ h => absurd rfl h⟩
  · have apart := le_dist_add_dist num den hj.symm
    exact ⟨by omega, fun he _ => rne_even_of_half num den h (by omega)⟩

/-! ### The exponent -/

/-- The exponent of R15, cross-multiplied: `x - y <= floor(log2 (num / den))`. -/
theorem le_floorLog2_iff {num den : Nat} (hn : num ≠ 0) (hd : den ≠ 0) (x y : Nat) :
    (x : Int) - y ≤ floorLog2 num den ↔ 2 ^ x * den ≤ num * 2 ^ y := by
  obtain ⟨lower, upper⟩ := floorLog2_spec num den hn hd
  obtain ⟨a, b, he⟩ : ∃ a b : Nat, floorLog2 num den = (a : Int) - b :=
    ⟨(floorLog2 num den).toNat, (-floorLog2 num den).toNat, by omega⟩
  rw [he, powLe_iff] at lower
  rw [he, show (a : Int) - b + 1 = ((a + 1 : Nat) : Int) - b by push_cast; ring, ← Bool.not_eq_true, powLe_iff,
    Nat.not_le] at upper
  rw [he]
  constructor
  · intro h
    refine Nat.le_of_mul_le_mul_right ?_ (Nat.two_pow_pos b)
    calc 2 ^ x * den * 2 ^ b = 2 ^ (x + b) * den := by rw [Nat.pow_add]; ring
      _ ≤ 2 ^ (a + y) * den := Nat.mul_le_mul_right _ (Nat.pow_le_pow_right two_pos (by omega))
      _ = 2 ^ a * den * 2 ^ y := by rw [Nat.pow_add]; ring
      _ ≤ num * 2 ^ b * 2 ^ y := Nat.mul_le_mul_right _ lower
      _ = num * 2 ^ y * 2 ^ b := by ring
  · contrapose!
    intro h
    refine Nat.lt_of_mul_lt_mul_right (a := 2 ^ b) ?_
    calc num * 2 ^ y * 2 ^ b = num * 2 ^ b * 2 ^ y := by ring
      _ < 2 ^ (a + 1) * den * 2 ^ y := Nat.mul_lt_mul_of_pos_right upper (Nat.two_pow_pos y)
      _ = 2 ^ (a + 1 + y) * den := by rw [Nat.pow_add 2 (a + 1)]; ring
      _ ≤ 2 ^ (x + b) * den := Nat.mul_le_mul_right _ (Nat.pow_le_pow_right two_pos (by omega))
      _ = 2 ^ x * den * 2 ^ b := by rw [Nat.pow_add]; ring

/-! ### The value of a pattern -/

theorem biasedExp_le_iff (p : Double) (e : Nat) : biasedExp p ≤ e ↔ units p < 2 ^ (52 + e) := by
  have hf : fraction p < 2 ^ 52 := Nat.mod_lt _ (Nat.two_pow_pos 52)
  unfold units
  split
  next h0 =>
    have : (2 : Nat) ^ 52 ≤ 2 ^ (52 + e) := Nat.pow_le_pow_right two_pos (by omega)
    omega
  next h0 =>
    obtain ⟨k, hk⟩ := Nat.exists_eq_succ_of_ne_zero h0
    rw [hk, Nat.succ_sub_one]
    constructor
    · intro h
      calc (2 ^ 52 + fraction p) * 2 ^ k < 2 ^ 53 * 2 ^ k :=
            Nat.mul_lt_mul_of_pos_right (by omega) (Nat.two_pow_pos k)
        _ = 2 ^ (53 + k) := (Nat.pow_add 2 53 k).symm
        _ ≤ 2 ^ (52 + e) := Nat.pow_le_pow_right two_pos (by omega)
    · contrapose!
      intro h
      calc 2 ^ (52 + e) ≤ 2 ^ (52 + k) := Nat.pow_le_pow_right two_pos (by omega)
        _ = 2 ^ 52 * 2 ^ k := Nat.pow_add 2 52 k
        _ ≤ (2 ^ 52 + fraction p) * 2 ^ k := Nat.mul_le_mul_right _ (Nat.le_add_right _ _)

theorem le_biasedExp_iff (p : Double) (e : Nat) : e + 1 ≤ biasedExp p ↔ 2 ^ (52 + e) ≤ units p := by
  rw [← Nat.not_lt (a := units p), ← biasedExp_le_iff, Nat.not_le, Nat.succ_le_iff]

/-- From `2^52 * 2^k` on the binary64 values are multiples of `2^k` units. -/
theorem two_pow_dvd_units (p : Double) (k : Nat) (h : 2 ^ (52 + k) ≤ units p) : 2 ^ k ∣ units p := by
  have hk := (le_biasedExp_iff p k).2 h
  unfold units
  rw [if_neg (by omega)]
  exact Dvd.dvd.mul_left (pow_dvd_pow 2 (by omega)) _

theorem unitsPerOne_pos : 0 < unitsPerOne := pow_pos two_pos _

theorem unitsPerOne_lt : unitsPerOne < 2 ^ (52 + 1023) := by
  rw [unitsPerOne, Nat.pow_lt_pow_iff_right one_lt_two]
  omega

theorem unitsPerOne_eq {k : Nat} (hr : k ≤ 1074) : unitsPerOne = 2 ^ (1074 - k) * 2 ^ k := by
  rw [unitsPerOne, ← Nat.pow_add, Nat.sub_add_cancel hr]

/-! ### The rounded quotient

The exponent `floorLog2 num den + 1022` is called `k`; it is at most 1074 in all that SFE forms, so the unit of the
quotient, `2^k` units of 2^-1074, is at most 1. -/

section Quotient
variable {num den k : Nat}

theorem significand_eq_rne (hk : floorLog2 num den + 1022 = k) (hr : k ≤ 1074) :
    significand (floorLog2 num den) num den = rne (num * 2 ^ (1074 - k)) den := by
  unfold significand
  rw [if_pos (by omega)]
  congr 3
  omega

variable (hn : num ≠ 0) (hd : den ≠ 0) (hk : floorLog2 num den + 1022 = k) (hr : k ≤ 1074)
include hn hd hk hr

theorem rn64_toNat : (rn64 num den).toNat = k * 2 ^ 52 + rne (num * 2 ^ (1074 - k)) den := by
  have hs := significand_eq_rne hk hr
  obtain ⟨-, hm⟩ := significand_bounds num den hn hd
  unfold rn64
  simp only [if_neg hn, hk, Int.toNat_natCast, BitVec.toNat_ofNat, hs]
  exact Nat.mod_eq_of_lt (by omega)

theorem rn64_sign : (rn64 num den).getLsbD 63 = false := by
  have ht := rn64_toNat hn hd hk hr
  obtain ⟨-, hm⟩ := significand_bounds num den hn hd
  rw [significand_eq_rne hk hr] at hm
  rw [BitVec.getLsbD, ht]
  exact Nat.testBit_lt_two_pow (by omega)

theorem fraction_rn64_mod_two : fraction (rn64 num den) % 2 = rne (num * 2 ^ (1074 - k)) den % 2 := by
  unfold fraction
  rw [rn64_toNat hn hd hk hr]
  omega

theorem units_rn64_eq : units (rn64 num den) = rne (num * 2 ^ (1074 - k)) den * 2 ^ k := by
  rw [units_rn64 num den hn hd k hk (by omega), significand_eq_rne hk hr]

/-- A multiple `b` of the unit `2^k` that bounds the exact quotient bounds the rounded one. -/
theorem units_rn64_le {b : Nat} (hb : 2 ^ k ∣ b) (h : num * unitsPerOne ≤ b * den) : units (rn64 num den) ≤ b := by
  have hd' := Nat.pos_of_ne_zero hd
  obtain ⟨j, rfl⟩ := hb
  have hj : num * 2 ^ (1074 - k) ≤ j * den := by
    refine Nat.le_of_mul_le_mul_right ?_ (Nat.two_pow_pos k)
    calc num * 2 ^ (1074 - k) * 2 ^ k = num * unitsPerOne := by rw [unitsPerOne_eq hr, Nat.mul_assoc]
      _ ≤ 2 ^ k * j * den := h
      _ = j * den * 2 ^ k := by ring
  rw [units_rn64_eq hn hd hk hr, Nat.mul_comm (2 ^ k)]
  refine Nat.mul_le_mul_right _ ?_
  calc rne (num * 2 ^ (1074 - k)) den ≤ rne (j * den) den := rne_mono hd' hj
    _ = j := rne_exact j den hd'

theorem lt_biasedExp_rn64 : k + 1 ≤ biasedExp (rn64 num den) := by
  obtain ⟨hm, -⟩ := significand_bounds num den hn hd
  rw [le_biasedExp_iff, units_rn64 num den hn hd k hk (by omega), Nat.pow_add]
  exact Nat.mul_le_mul_right _ hm

end Quotient

/-- How far the value of `p` is from `num / den`, times `den`, in units of 2^-1074. -/
def roundingError (num den : Nat) (p : Double) : Nat := ((units p * den : Nat) - (num * unitsPerOne : Nat) : Int).natAbs

/-- With the denominator 1.0 the error is the distance from `num`, in units, times the units of 1.0. -/
theorem roundingError_unitsPerOne (num : Nat) (p : Double) :
    roundingError num unitsPerOne p = ((units p : Int) - num).natAbs * unitsPerOne := by
  rw [roundingError, ← Int.natAbs_natCast unitsPerOne, ← Int.natAbs_mul, Int.natAbs_natCast]
  push_cast
  rw [Int.sub_mul]

/-- `p` is nearest by the distance `err`, and has an even significand where another value is as near (R15). -/
def NearestEven (err : Double → Nat) (p : Double) : Prop :=
  ∀ q : Double, biasedExp q ≤ 2046 → err p ≤ err q ∧ (err p = err q → units q ≠ units p → fraction p % 2 = 0)

/-- The error of a multiple of the unit `2^k`, in that unit. -/
theorem roundingError_of_units {num den k j : Nat} {p : Double} (hr : k ≤ 1074) (h : units p = j * 2 ^ k) :
    roundingError num den p = ((num * 2 ^ (1074 - k) : Nat) - (j * den : Nat) : Int).natAbs * 2 ^ k := by
  have e : ((units p * den : Nat) - (num * unitsPerOne : Nat) : Int)
      = -(((num * 2 ^ (1074 - k) : Nat) - (j * den : Nat)) * (2 ^ k : Nat)) := by
    rw [h, unitsPerOne_eq hr]
    push_cast
    ring
  rw [roundingError, e, Int.natAbs_neg, Int.natAbs_mul, Int.natAbs_natCast]

/-- A value below the binade of the exact quotient is farther from it than the least value of the binade. -/
theorem roundingError_of_lt_binade {num den k : Nat} {q : Double} (hd : den ≠ 0) (hr : k ≤ 1074)
    (low : 2 ^ 52 * den ≤ num * 2 ^ (1074 - k)) (h : units q < 2 ^ 52 * 2 ^ k) :
    ((num * 2 ^ (1074 - k) : Nat) - (2 ^ 52 * den : Nat) : Int).natAbs * 2 ^ k < roundingError num den q := by
  have h1 : units q * den < 2 ^ 52 * den * 2 ^ k := by
    calc units q * den < 2 ^ 52 * 2 ^ k * den := Nat.mul_lt_mul_of_pos_right h (Nat.pos_of_ne_zero hd)
      _ = 2 ^ 52 * den * 2 ^ k := by ring
  have h2 : 2 ^ 52 * den * 2 ^ k ≤ num * 2 ^ (1074 - k) * 2 ^ k := Nat.mul_le_mul_right _ low
  have h3 : ((num * 2 ^ (1074 - k) : Nat) - (2 ^ 52 * den : Nat) : Int).natAbs * 2 ^ k
      = num * 2 ^ (1074 - k) * 2 ^ k - 2 ^ 52 * den * 2 ^ k := by
    rw [← Nat.sub_mul]
    congr 1
    omega
  rw [h3, roundingError, unitsPerOne_eq hr, ← Nat.mul_assoc]
  omega

/-- R15: the rounded quotient is the binary64 value nearest to the exact one, ties to even. -/
theorem rn64_nearestEven {num den k : Nat} (hn : num ≠ 0) (hd : den ≠ 0) (hk : floorLog2 num den + 1022 = k)
    (hr : k ≤ 1074) : NearestEven (roundingError num den) (rn64 num den) := by
  intro q _
  have hp : 0 < 2 ^ k := Nat.two_pow_pos k
  have nearest := fun j => rne_nearest (num * 2 ^ (1074 - k)) den j (Nat.pos_of_ne_zero hd)
  have units_eq := units_rn64_eq hn hd hk hr
  rw [roundingError_of_units hr units_eq, fraction_rn64_mod_two hn hd hk hr]
  rcases Nat.lt_or_ge (units q) (2 ^ 52 * 2 ^ k) with hlt | hge
  · have low : 2 ^ 52 * den ≤ num * 2 ^ (1074 - k) := (le_floorLog2_iff hn hd 52 (1074 - k)).1 (by omega)
    have far := roundingError_of_lt_binade hd hr low hlt
    have := Nat.mul_le_mul_right (2 ^ k) (nearest (2 ^ 52)).1
    exact ⟨by omega, fun he _ => by omega⟩
  · rw [← Nat.pow_add] at hge
    obtain ⟨j, hj⟩ := two_pow_dvd_units q k hge
    rw [Nat.mul_comm] at hj
    rw [roundingError_of_units hr hj, hj, units_eq]
    obtain ⟨le, tie⟩ := nearest j
    exact ⟨Nat.mul_le_mul_right _ le,
      fun he hne => tie (Nat.eq_of_mul_eq_mul_right hp he) fun h => hne (by rw [h])⟩

/-- A distance and its multiples have the same nearest values. -/
theorem NearestEven.of_mul {err err' : Double → Nat} {p : Double} {c : Nat} (hc : 0 < c)
    (h : ∀ q, err q = err' q * c) (hp : NearestEven err p) : NearestEven err' p := by
  intro q hq
  obtain ⟨le, tie⟩ := hp q hq
  rw [h p, h q] at le tie
  exact ⟨Nat.le_of_mul_le_mul_right le hc, fun he => tie (by rw [he])⟩

/-! ### Division -/

/-- The exponent of a quotient of counts of 32 bits. -/
theorem exponent_of_counts {c n : Nat} (hc : 1 ≤ c) (hcn : c ≤ n) (hn : n < 2 ^ 32) :
    ∃ k : Nat, floorLog2 c n + 1022 = k ∧ 990 ≤ k ∧ k ≤ 1022 := by
  have lower := (le_floorLog2_iff (num := c) (den := n) (by omega) (by omega) 0 32).2 (by omega)
  have upper := mt (le_floorLog2_iff (num := c) (den := n) (by omega) (by omega) 1 0).1 (by omega)
  exact ⟨(floorLog2 c n + 1022).toNat, by omega, by omega, by omega⟩

theorem units_fdiv_le_one {c n : Nat} (hc : 1 ≤ c) (hcn : c ≤ n) (hn : n < 2 ^ 32) :
    units (fdiv c n) ≤ unitsPerOne := by
  obtain ⟨k, hk, -, hr⟩ := exponent_of_counts hc hcn hn
  refine units_rn64_le (by omega) (by omega) hk (by omega) ?_ ?_
  · exact ⟨_, (unitsPerOne_eq (k := k) (by omega)).trans (Nat.mul_comm _ _)⟩
  · rw [Nat.mul_comm unitsPerOne]
    exact Nat.mul_le_mul_right _ hcn

/-- R15 of `fdiv`: a pattern of the range of probabilities, nearest to the exact quotient. -/
theorem fdiv_rounds {c n : Nat} (hc : 1 ≤ c) (hcn : c ≤ n) (hn : n < 2 ^ 32) :
    (fdiv c n).getLsbD 63 = false ∧ 1 ≤ biasedExp (fdiv c n) ∧ biasedExp (fdiv c n) ≤ 1023
      ∧ NearestEven (roundingError c n) (fdiv c n) := by
  obtain ⟨k, hk, -, hr⟩ := exponent_of_counts hc hcn hn
  have c0 : c ≠ 0 := by omega
  have n0 : n ≠ 0 := by omega
  have above : k + 1 ≤ biasedExp (fdiv c n) := lt_biasedExp_rn64 c0 n0 hk (by omega)
  refine ⟨rn64_sign c0 n0 hk (by omega), by omega, ?_, rn64_nearestEven c0 n0 hk (by omega)⟩
  rw [biasedExp_le_iff]
  exact (units_fdiv_le_one hc hcn hn).trans_lt unitsPerOne_lt

/-! ### Addition -/

theorem units_le_of_biasedExp_le {p : Double} {e : Nat} (h : biasedExp p ≤ e + 1) :
    units p ≤ (2 ^ 53 - 1) * 2 ^ e := by
  have hf : fraction p < 2 ^ 52 := Nat.mod_lt _ (Nat.two_pow_pos 52)
  have hp : 0 < 2 ^ e := Nat.two_pow_pos e
  unfold units
  split
  · exact le_trans (by omega) (Nat.le_mul_of_pos_right (2 ^ 53 - 1) hp)
  · exact Nat.mul_le_mul (by omega) (Nat.pow_le_pow_right two_pos (by omega))

/-- The exponent of an exact value of `x` units. -/
theorem exponent_of_units {x l h : Nat} (hl : 2 ^ (52 + l) ≤ x) (hu : x < 2 ^ (53 + h)) :
    x ≠ 0 ∧ ∃ k : Nat, floorLog2 x unitsPerOne + 1022 = k ∧ l ≤ k ∧ k ≤ h := by
  have x0 : x ≠ 0 := by
    have := Nat.two_pow_pos (52 + l)
    omega
  have lower := (le_floorLog2_iff x0 unitsPerOne_pos.ne' (52 + l) 1074).2 (Nat.mul_le_mul_right _ hl)
  have upper := mt (le_floorLog2_iff x0 unitsPerOne_pos.ne' (53 + h) 1074).1
    (Nat.not_le.2 (Nat.mul_lt_mul_of_pos_right hu unitsPerOne_pos))
  exact ⟨x0, (floorLog2 x unitsPerOne + 1022).toNat, by omega, by omega, by omega⟩

/-- R15 of `fadd`: the sum is nearest to the exact one, and at most one binade above its operands. -/
theorem fadd_rounds {a b : Double} {l h : Nat} (al : l + 1 ≤ biasedExp a) (au : biasedExp a ≤ h + 1)
    (bu : biasedExp b ≤ h + 1) (hh : h + 1 ≤ 1074) :
    (fadd a b).getLsbD 63 = false ∧ l + 1 ≤ biasedExp (fadd a b) ∧ biasedExp (fadd a b) ≤ h + 2
      ∧ NearestEven (fun p => ((units p : Int) - (units a + units b : Nat)).natAbs) (fadd a b) := by
  have a0 : a ≠ 0 := by
    rintro rfl
    exact absurd al (Nat.not_succ_le_zero l)
  have hal := (le_biasedExp_iff a l).1 al
  have hau := units_le_of_biasedExp_le au
  have hbu := units_le_of_biasedExp_le bu
  have hp : 0 < 2 ^ (h + 1) := Nat.two_pow_pos (h + 1)
  have hu : units a + units b ≤ (2 ^ 53 - 1) * 2 ^ (h + 1) := by
    rw [Nat.pow_succ]
    omega
  obtain ⟨x0, k, hk, hkl, hku⟩ := exponent_of_units (x := units a + units b) (l := l) (h := h + 1) (by omega)
    (by rw [Nat.pow_add]; omega)
  have o0 : unitsPerOne ≠ 0 := unitsPerOne_pos.ne'
  have hr : k ≤ 1074 := hku.trans hh
  rw [show fadd a b = rn64 (units a + units b) unitsPerOne from if_neg a0]
  have above := lt_biasedExp_rn64 x0 o0 hk hr
  have below := units_rn64_le x0 o0 hk hr (Dvd.dvd.mul_left (pow_dvd_pow 2 hku) (2 ^ 53 - 1))
    (Nat.mul_le_mul_right _ hu)
  refine ⟨rn64_sign x0 o0 hk hr, by omega, ?_, ?_⟩
  · rw [biasedExp_le_iff, show 52 + (h + 2) = 53 + (h + 1) by omega, Nat.pow_add]
    omega
  · exact NearestEven.of_mul unitsPerOne_pos (roundingError_unitsPerOne _) (rn64_nearestEven x0 o0 hk hr)

/-! ### Halving -/

/-- Half of a value with the significand `m` in `[2^52, 2^53)` has that significand and the next lower exponent. -/
theorem exponent_of_half {x m k : Nat} (hl : 2 ^ 52 ≤ m) (hu : m < 2 ^ 53)
    (hx : x * 2 ^ (1074 - k) = m * (2 * unitsPerOne)) (hr : k ≤ 1074) :
    x ≠ 0 ∧ floorLog2 x (2 * unitsPerOne) + 1022 = k := by
  have hd : 0 < 2 * unitsPerOne := Nat.mul_pos two_pos unitsPerOne_pos
  have x0 : x ≠ 0 := by
    rintro rfl
    rw [Nat.zero_mul] at hx
    exact (Nat.mul_pos (Nat.lt_of_lt_of_le (Nat.two_pow_pos 52) hl) hd).ne hx
  have lower := (le_floorLog2_iff x0 hd.ne' 52 (1074 - k)).2 (by rw [hx]; exact Nat.mul_le_mul_right _ hl)
  have upper := mt (le_floorLog2_iff x0 hd.ne' 53 (1074 - k)).1
    (by rw [hx, Nat.not_le]; exact Nat.mul_lt_mul_of_pos_right hu hd)
  exact ⟨x0, by omega⟩

/-- R15 of `fhalf`: it lowers the exponent by one and is exact. -/
theorem fhalf_exact {a : Double} (hl : 2 ≤ biasedExp a) (hu : biasedExp a ≤ 1076) :
    (fhalf a).getLsbD 63 = false ∧ biasedExp (fhalf a) = biasedExp a - 1 ∧ fraction (fhalf a) = fraction a
      ∧ 2 * units (fhalf a) = units a := by
  obtain ⟨k, hk⟩ := Nat.exists_eq_add_of_le hl
  have hf : fraction a < 2 ^ 52 := Nat.mod_lt _ (Nat.two_pow_pos 52)
  have hr : k ≤ 1074 := by omega
  have ua : units a = (2 ^ 52 + fraction a) * 2 ^ k * 2 := by
    rw [units, if_neg (by omega), hk, Nat.mul_assoc, ← Nat.pow_succ]
    congr 2
    omega
  have scaled : units a * 2 ^ (1074 - k) = (2 ^ 52 + fraction a) * (2 * unitsPerOne) := by
    rw [ua, unitsPerOne_eq hr]
    ring
  have d0 : 2 * unitsPerOne ≠ 0 := Nat.mul_ne_zero two_ne_zero unitsPerOne_pos.ne'
  obtain ⟨x0, he⟩ := exponent_of_half (by omega) (by omega) scaled hr
  have significand_half : rne (units a * 2 ^ (1074 - k)) (2 * unitsPerOne) = 2 ^ 52 + fraction a := by
    rw [scaled, rne_exact _ _ (Nat.pos_of_ne_zero d0)]
  have pattern : (fhalf a).toNat = k * 2 ^ 52 + (2 ^ 52 + fraction a) := significand_half ▸ rn64_toNat x0 d0 he hr
  have value : units (fhalf a) = (2 ^ 52 + fraction a) * 2 ^ k := significand_half ▸ units_rn64_eq x0 d0 he hr
  refine ⟨rn64_sign x0 d0 he hr, ?_, ?_, by rw [value, ua, Nat.mul_comm]⟩
  · rw [biasedExp, pattern]
    omega
  · rw [fraction, pattern]
    omega

/-- Settles O35: `fdiv` and `fadd` round once to nearest, ties to even; `fhalf` is exact. -/
theorem divisionRoundsToNearestEven : Obligations.DivisionRoundsToNearestEven :=
  ⟨fun _ _ hc hcn hn => fdiv_rounds hc hcn hn, fun _ => if_pos rfl,
    fun _ _ _ al au _ _ bu => fadd_rounds (l := 989) (h := 1031) al au bu (by omega),
    fun _ _ hl hu => fhalf_exact (by omega) (by omega)⟩

end Sys2Proof.Machine
end

section
/-! PROOFS. The digits of the numbers of an artifact (00_scope.md R16) and the length of its header (30_encoding.md
R112). -/

namespace Sys2Proof.Machine

/-! ### Digits -/

theorem digitChar_toNat {d : Nat} (h : d < 10) : (digitChar d).toNat = 0x30 + d := by
  rw [digitChar, BitVec.toNat_ofNat, Nat.mod_eq_of_lt (by omega)]

/-- The digits of a positive number are Mathlib's, the most significant first. -/
theorem decInto_eq_digits (fuel n : Nat) (acc : List Byte) (hn : n ≠ 0) (h : n < fuel) :
    decInto fuel n acc = ((Nat.digits 10 n).map digitChar).reverse ++ acc := by
  induction fuel generalizing n acc with
  | zero => omega
  | succ fuel ih =>
    rw [Nat.digits_eq_cons_digits_div (by omega) hn, decInto]
    split
    next last => simp [last]
    next more => simp [ih (n / 10) _ more (by omega)]

theorem dec_eq_digits {n : Nat} (hn : n ≠ 0) : dec n = ((Nat.digits 10 n).map digitChar).reverse := by
  rw [dec, decInto_eq_digits _ _ _ hn (Nat.lt_succ_self n), List.append_nil]

/-- The value of digits written out, the most significant first. -/
theorem foldl_digitChars (l : List Nat) (h : ∀ d ∈ l, d < 10) :
    (l.map digitChar).reverse.foldl (fun v b => 10 * v + (b.toNat - 0x30)) 0 = Nat.ofDigits 10 l := by
  rw [List.foldl_reverse]
  induction l with
  | nil => rfl
  | cons d l ih =>
    obtain ⟨hd, hl⟩ := List.forall_mem_cons.1 h
    rw [List.map_cons, List.foldr_cons, ih hl, digitChar_toNat hd, Nat.ofDigits_cons, Nat.add_sub_cancel_left,
      Nat.add_comm]

theorem dec_value {n : Nat} (hn : n ≠ 0) : (dec n).foldl (fun v b => 10 * v + (b.toNat - 0x30)) 0 = n := by
  rw [dec_eq_digits hn, foldl_digitChars _ fun _ h => Nat.digits_lt_base (by omega) h, Nat.ofDigits_digits]

theorem dec_mem {n : Nat} {b : Byte} (hn : n ≠ 0) (hb : b ∈ dec n) : 0x30 ≤ b.toNat ∧ b.toNat ≤ 0x39 := by
  rw [dec_eq_digits hn, List.mem_reverse, List.mem_map] at hb
  obtain ⟨d, hd, rfl⟩ := hb
  have := Nat.digits_lt_base (by omega) hd
  rw [digitChar_toNat this]
  omega

theorem dec_head {n : Nat} (hn : n ≠ 0) : (dec n).head? ≠ some 0x30 := by
  have nonempty := Nat.digits_ne_nil_iff_ne_zero (b := 10).2 hn
  have nonzero := Nat.getLast_digit_ne_zero 10 hn
  have small : (Nat.digits 10 n).getLast nonempty < 10 := Nat.digits_lt_base (by omega) (List.getLast_mem nonempty)
  rw [dec_eq_digits hn, List.head?_reverse, List.getLast?_map, List.getLast?_eq_getLast_of_ne_nil nonempty]
  intro h
  have value := congrArg BitVec.toNat (Option.some.inj h)
  rw [digitChar_toNat small] at value
  exact nonzero (Nat.add_eq_left.1 value)

theorem dec_length {n : Nat} (hn : n ≠ 0) (h : n ≤ 999) :
    (dec n).length = if n ≤ 9 then 1 else if n ≤ 99 then 2 else 3 := by
  rw [dec_eq_digits hn, List.length_reverse, List.length_map, Nat.length_digits 10 n (by omega) hn]
  split
  · rw [Nat.log_eq_of_pow_le_of_lt_pow (m := 0) (by omega) (by omega)]
  · split
    · rw [Nat.log_eq_of_pow_le_of_lt_pow (m := 1) (by omega) (by omega)]
    · rw [Nat.log_eq_of_pow_le_of_lt_pow (m := 2) (by omega) (by omega)]

/-! ### The header -/

theorem fixedDigits_length (k n : Nat) : (fixedDigits k n).length = k := by
  induction k generalizing n with
  | zero => rfl
  | succ k ih => simp [fixedDigits, ih]

theorem probText_length (x : Double) : (probText x).length = 8 := by
  simp [probText, fixedDigits_length, probDigits]

theorem bitsText_length (c : Codeword) : (bitsText c).length = c.length := List.length_map _

theorem artifactRow_length (s : State) (i : Nat) : (artifactRow s i).length = 12 + s.codes.len (s.psym.at i) := by
  simp only [artifactRow, List.length_append, List.length_cons, List.length_nil, probText_length, bitsText_length,
    CodeTable.code_length]
  omega

/-- R112, for every number of rows of at most three digits. -/
theorem artifactHeader_length {s : State} (h : s.nsym.toNat ≠ 0) (h' : s.nsym.toNat ≤ 999) :
    (artifactHeader s).length =
      (if s.nsym.toNat ≤ 9 then 1 else if s.nsym.toNat ≤ 99 then 2 else 3) + 1
        + ((List.range s.nsym.toNat).map fun i => 12 + s.codes.len (s.psym.at i)).sum + 1 := by
  simp only [artifactHeader, List.length_append, List.length_singleton, List.length_flatMap, artifactRow_length,
    dec_length h h']

/-! ### The text of a probability -/

/-- The text of a scaled probability of at most 1, digit by digit. -/
theorem probText_toNat {x : Double} (h : probScaled x ≤ 10 ^ 6) :
    (probText x).map BitVec.toNat =
      [0x30 + probScaled x / 10 ^ 6, 0x2E, 0x30 + probScaled x / 10 ^ 5 % 10, 0x30 + probScaled x / 10 ^ 4 % 10,
        0x30 + probScaled x / 10 ^ 3 % 10, 0x30 + probScaled x / 10 ^ 2 % 10, 0x30 + probScaled x / 10 % 10,
        0x30 + probScaled x % 10] := by
  rw [probText]
  generalize probScaled x = r at h
  have digit : ∀ n : Nat, (digitChar (n % 10)).toNat = 0x30 + n % 10 := fun n =>
    digitChar_toNat (Nat.mod_lt n (by omega))
  have first : (digitChar (r / 10 ^ 6)).toNat = 0x30 + r / 10 ^ 6 := digitChar_toNat (by omega)
  have point : POINT.toNat = 0x2E := rfl
  simp only [fixedDigits, probDigits, List.map_cons, List.map_nil, List.nil_append, List.cons_append, digit, first,
    point, List.cons.injEq, and_true, true_and]
  omega

theorem probScaled_le {x : Double} (h : units x ≤ unitsPerOne) : probScaled x ≤ 10 ^ 6 := by
  have := rne_mono unitsPerOne_pos (Nat.mul_le_mul_right (10 ^ probDigits) h)
  rwa [Nat.mul_comm unitsPerOne, rne_exact _ _ unitsPerOne_pos] at this

/-- Settles O42: the length of the header, the rounding and digits of a probability, the digits of a size. -/
theorem artifactHeaderLength : Obligations.ArtifactHeaderLength := by
  refine ⟨fun s h h' => artifactHeader_length (by omega) (by omega), fun x _ hx => ?_, fun n hn => ?_⟩
  · exact ⟨probScaled x, probScaled_le hx, two_mul_dist_rne_le _ _ unitsPerOne_pos,
      rne_even_of_half _ _ unitsPerOne_pos, probText_toNat (probScaled_le hx)⟩
  · exact ⟨dec_value (by omega), fun b => dec_mem (by omega), dec_head (by omega)⟩

end Sys2Proof.Machine
end

section
/-! PROOFS. What the bisection builds (41_tree.md R150 to R163): the bits it appends to the codewords of a range, that
they are a complete code of the range, none of whose codewords begins another, and the code table of TREE. -/

namespace Sys2Proof.Machine

/-! ### Ranges and their halves -/

@[simp] theorem indexes_self (lo : Nat) : indexes lo lo = [lo] := by
  simp [indexes]

/-- A range is its two parts, one after the other. -/
theorem indexes_split {lo hi k : Nat} (h : lo + 1 ≤ k) (h' : k ≤ hi) :
    indexes lo hi = indexes lo (k - 1) ++ indexes k hi := by
  obtain ⟨m, rfl⟩ : ∃ m, k = lo + m := ⟨k - lo, by omega⟩
  simp only [indexes]
  rw [show lo + m - 1 + 1 - lo = m by omega, List.range'_append_1]
  congr 1
  omega

/-- The indexes of a table of `n` entries. -/
theorem indexes_zero {n : Nat} (h : 1 ≤ n) : indexes 0 (n - 1) = List.range n := by
  rw [indexes, List.range_eq_range', show n - 1 + 1 - 0 = n by omega]

theorem splitPoint_pair (prob : Table Double) {lo hi : Nat} (h : hi - lo = 1) : splitPoint prob lo hi = hi := by
  have := splitPoint_bounds prob (lo := lo) (hi := hi) (by omega)
  omega

@[simp] theorem codeIn_self (prob : Table Double) (fuel lo i : Nat) : codeIn prob fuel lo lo i = [] := by
  cases fuel <;> simp [codeIn]

@[simp] theorem bisect_self (psym : Table Byte) (prob : Table Double) (fuel lo : Nat) (t : CodeTable) :
    bisect psym prob fuel lo lo t = t := by
  cases fuel <;> simp [bisect]

/-- The first bit of an element says which part of the range it is in; the others are those of that part. A range of two
(line B2) is no exception. -/
theorem codeIn_succ (prob : Table Double) (fuel : Nat) {lo hi i : Nat} (h : lo < hi) (hi' : i ≤ hi) :
    codeIn prob (fuel + 1) lo hi i =
      if i < splitPoint prob lo hi then false :: codeIn prob fuel lo (splitPoint prob lo hi - 1) i
      else true :: codeIn prob fuel (splitPoint prob lo hi) hi i := by
  rw [codeIn, if_neg (by omega)]
  split
  · rename_i hp
    rw [splitPoint_pair prob hp, show hi - 1 = lo by omega]
    by_cases hl : i < hi
    · simp [hl, Nat.ne_of_lt hl]
    · simp [show i = hi by omega]
  · rfl

/-- Bisect is line B8 and the two parts, one after the other; a range of two (line B2) is no exception. -/
theorem bisect_succ (psym : Table Byte) (prob : Table Double) (fuel : Nat) {lo hi : Nat} (t : CodeTable)
    (h : lo < hi) :
    bisect psym prob (fuel + 1) lo hi t =
      bisect psym prob fuel (splitPoint prob lo hi) hi
        (bisect psym prob fuel lo (splitPoint prob lo hi - 1)
          (appendBits psym (splitPoint prob lo hi) (indexes lo hi) t)) := by
  rw [bisect, if_neg (by omega)]
  split
  · rename_i hp
    have hl : ¬ hi ≤ lo := by omega
    rw [splitPoint_pair prob hp, show hi - 1 = lo by omega, indexes_split (k := hi) (by omega) (Nat.le_refl hi),
      show hi - 1 = lo by omega]
    simp [appendBits, hl]
  · rfl

/-! ### The code of a range (41_tree.md R162, R163) -/

/-- R163: no element gets more bits than the range has other elements. -/
theorem codeIn_length_le (prob : Table Double) (fuel : Nat) {lo hi i : Nat} (h : lo ≤ i) (h' : i ≤ hi) :
    (codeIn prob fuel lo hi i).length ≤ hi - lo := by
  induction fuel generalizing lo hi with
  | zero => simp [codeIn]
  | succ fuel ih =>
    rcases Nat.eq_or_lt_of_le (h.trans h') with rfl | hlt
    · simp
    · have hs := splitPoint_bounds prob (lo := lo) (hi := hi) hlt
      rw [codeIn_succ prob fuel hlt h']
      split
      · have := ih (lo := lo) (hi := splitPoint prob lo hi - 1) h (by omega)
        rw [List.length_cons]
        omega
      · have := ih (lo := splitPoint prob lo hi) (hi := hi) (by omega) h'
        rw [List.length_cons]
        omega

/-- R162: of two elements neither has a codeword that begins the other's. -/
theorem codeIn_not_prefix (prob : Table Double) {fuel lo hi i j : Nat} (hf : hi - lo < fuel) (hi' : lo ≤ i ∧ i ≤ hi)
    (hj : lo ≤ j ∧ j ≤ hi) (hij : i ≠ j) : ¬ codeIn prob fuel lo hi i <+: codeIn prob fuel lo hi j := by
  induction fuel generalizing lo hi with
  | zero => omega
  | succ fuel ih =>
    have hlt : lo < hi := by omega
    have hs := splitPoint_bounds prob (lo := lo) (hi := hi) hlt
    rw [codeIn_succ prob fuel hlt hi'.2, codeIn_succ prob fuel hlt hj.2]
    by_cases h1 : i < splitPoint prob lo hi <;> by_cases h2 : j < splitPoint prob lo hi
    · simpa [h1, h2, List.cons_prefix_cons] using ih (by omega) (by omega) (by omega)
    · simp [h1, h2, List.cons_prefix_cons]
    · simp [h1, h2, List.cons_prefix_cons]
    · simpa [h1, h2, List.cons_prefix_cons] using ih (by omega) (by omega) (by omega)

/-- R162: the code of a range is complete: its codewords, each weighing `2^(k - length)`, weigh `2^k` together. -/
theorem codeIn_kraft (prob : Table Double) {fuel lo hi k : Nat} (hf : hi - lo < fuel) (h : lo ≤ hi) (hk : hi - lo ≤ k) :
    ((indexes lo hi).map fun i => 2 ^ (k - (codeIn prob fuel lo hi i).length)).sum = 2 ^ k := by
  induction fuel generalizing lo hi k with
  | zero => omega
  | succ fuel ih =>
    rcases Nat.eq_or_lt_of_le h with rfl | hlt
    · simp
    · have hs := splitPoint_bounds prob (lo := lo) (hi := hi) hlt
      obtain ⟨k, rfl⟩ : ∃ m, k = m + 1 := ⟨k - 1, by omega⟩
      have left : ∀ i ∈ indexes lo (splitPoint prob lo hi - 1),
          2 ^ (k + 1 - (codeIn prob (fuel + 1) lo hi i).length)
            = 2 ^ (k - (codeIn prob fuel lo (splitPoint prob lo hi - 1) i).length) := by
        intro i hi'
        rw [mem_indexes] at hi'
        rw [codeIn_succ prob fuel hlt (by omega), if_pos (by omega), List.length_cons, Nat.add_sub_add_right]
      have right : ∀ i ∈ indexes (splitPoint prob lo hi) hi,
          2 ^ (k + 1 - (codeIn prob (fuel + 1) lo hi i).length)
            = 2 ^ (k - (codeIn prob fuel (splitPoint prob lo hi) hi i).length) := by
        intro i hi'
        rw [mem_indexes] at hi'
        rw [codeIn_succ prob fuel hlt hi'.2, if_neg (by omega), List.length_cons, Nat.add_sub_add_right]
      rw [indexes_split hs.1 hs.2, List.map_append, List.sum_append, List.map_congr_left left,
        List.map_congr_left right, ih (by omega) (by omega) (by omega), ih (by omega) (by omega) (by omega),
        pow_succ, Nat.mul_two]

/-! ### What Bisect does to a code table (41_tree.md R152) -/

/-- The symbols at the positions are distinct. -/
def DistinctOn (psym : Table Byte) (is : List Nat) : Prop := (is.map psym.at).Nodup

theorem DistinctOn.of_append {psym : Table Byte} {is js : List Nat} (h : DistinctOn psym (is ++ js)) :
    DistinctOn psym is ∧ DistinctOn psym js ∧ ∀ i ∈ is, ∀ j ∈ js, psym.at i ≠ psym.at j := by
  unfold DistinctOn at *
  rw [List.map_append, List.nodup_append] at h
  obtain ⟨h1, h2, h3⟩ := h
  exact ⟨h1, h2, fun i hi j hj => h3 _ (List.mem_map_of_mem hi) _ (List.mem_map_of_mem hj)⟩

/-- A row of bits keeps the bits beyond every codeword 0. -/
theorem appendBits_padded {psym : Table Byte} {split : Nat} {is : List Nat} {t : CodeTable} (hd : DistinctOn psym is)
    (hl : ∀ i ∈ is, t.len (psym.at i) < 255) (hp : t.padded) : (appendBits psym split is t).padded := by
  induction is generalizing t with
  | nil => exact hp
  | cons i is ih =>
    obtain ⟨-, hd', hne⟩ := DistinctOn.of_append (is := [i]) hd
    have hi := hl i (by simp)
    refine ih hd' (fun j hj => ?_) (CodeTable.padded_append t _ _ hi hp)
    rw [CodeTable.len_append _ _ _ _ hi, if_neg (hne i (by simp) j hj)]
    exact hl j (by simp [hj])

/-- `u` comes from `t` by appending to the codeword of every listed element its bits, and nothing else. -/
structure Appends (psym : Table Byte) (is : List Nat) (bits : Nat → Codeword) (t u : CodeTable) : Prop where
  code : ∀ i ∈ is, u.code (psym.at i) = t.code (psym.at i) ++ bits i
  other : ∀ b, (∀ i ∈ is, psym.at i ≠ b) → u.code b = t.code b
  padded : t.padded → u.padded

theorem Appends.len {psym : Table Byte} {is : List Nat} {bits : Nat → Codeword} {t u : CodeTable}
    (h : Appends psym is bits t u) {i : Nat} (hi : i ∈ is) :
    u.len (psym.at i) = t.len (psym.at i) + (bits i).length := by
  rw [← CodeTable.code_length, h.code i hi, List.length_append, CodeTable.code_length]

/-- Line B8 appends one bit to every element of the range. -/
theorem appendBits_appends {psym : Table Byte} {is : List Nat} {t : CodeTable} (split : Nat) (hd : DistinctOn psym is)
    (hl : ∀ i ∈ is, t.len (psym.at i) < 255) :
    Appends psym is (fun i => [decide (split ≤ i)]) t (appendBits psym split is t) where
  code i hi := appendBits_code psym split is t i hi hl hd
  other b hb := appendBits_code_other psym split is t b hb hl hd
  padded := appendBits_padded hd hl

/-- Bits appended to a range and then to its two parts are the bits of the parts behind those of the range. -/
theorem Appends.parts {psym : Table Byte} {ks is js : List Nat} {f g h bits : Nat → Codeword} {t u v w : CodeTable}
    (parts : ks = is ++ js) (hd : DistinctOn psym (is ++ js)) (htu : Appends psym ks f t u)
    (huv : Appends psym is g u v) (hvw : Appends psym js h v w) (hl : ∀ i ∈ is, bits i = f i ++ g i)
    (hr : ∀ j ∈ js, bits j = f j ++ h j) : Appends psym ks bits t w where
  code i hi := by
    obtain ⟨-, -, hne⟩ := hd.of_append
    rcases List.mem_append.1 (parts ▸ hi) with h' | h'
    · rw [hvw.other _ fun j hj => (hne i h' j hj).symm, huv.code i h', htu.code i hi, hl i h', List.append_assoc]
    · rw [hvw.code i h', huv.other _ fun j hj => hne j hj i h', htu.code i hi, hr i h', List.append_assoc]
  other b hb := by
    subst parts
    rw [hvw.other b fun j hj => hb j (List.mem_append_right _ hj),
      huv.other b fun i hi => hb i (List.mem_append_left _ hi), htu.other b hb]
  padded hp := hvw.padded (huv.padded (htu.padded hp))

/-- R152: Bisect appends to every element of its range the bits of the ranges it falls into, and touches no other
codeword. -/
theorem bisect_appends (psym : Table Byte) (prob : Table Double) {fuel lo hi : Nat} {t : CodeTable}
    (hf : hi - lo < fuel) (h : lo ≤ hi) (hd : DistinctOn psym (indexes lo hi))
    (hl : ∀ i ∈ indexes lo hi, t.len (psym.at i) + (hi - lo) ≤ 255) :
    Appends psym (indexes lo hi) (codeIn prob fuel lo hi) t (bisect psym prob fuel lo hi t) := by
  induction fuel generalizing lo hi t with
  | zero => omega
  | succ fuel ih =>
    rcases Nat.eq_or_lt_of_le h with rfl | hlt
    · exact ⟨by simp, by simp, by simp⟩
    have hs := splitPoint_bounds prob (lo := lo) (hi := hi) hlt
    have row := appendBits_appends (splitPoint prob lo hi) hd (t := t) fun i hi' => by have := hl i hi'; omega
    rw [bisect_succ psym prob fuel t hlt]
    have parts := indexes_split hs.1 hs.2
    obtain ⟨hdl, hdr, hne⟩ := DistinctOn.of_append (parts ▸ hd)
    have left := ih (lo := lo) (hi := splitPoint prob lo hi - 1) (by omega) (by omega) hdl fun i hi' => by
      have hi'' : i ∈ indexes lo hi := parts ▸ List.mem_append_left _ hi'
      rw [row.len hi'', List.length_singleton]
      have := hl i hi''
      omega
    have right := ih (lo := splitPoint prob lo hi) (hi := hi) (by omega) (by omega) hdr fun i hi' => by
      have hi'' : i ∈ indexes lo hi := parts ▸ List.mem_append_right _ hi'
      rw [← CodeTable.code_length, left.other _ fun j hj => hne j hj i hi', CodeTable.code_length, row.len hi'',
        List.length_singleton]
      have := hl i hi''
      omega
    refine Appends.parts parts (parts ▸ hd) row left right (fun i hi' => ?_) fun i hi' => ?_
    · rw [mem_indexes] at hi'
      rw [codeIn_succ prob fuel hlt (by omega), if_pos (by omega), decide_eq_false (by omega)]
      rfl
    · rw [mem_indexes] at hi'
      rw [codeIn_succ prob fuel hlt hi'.2, if_neg (by omega), decide_eq_true hi'.1]
      rfl

/-! ### The code table of TREE (41_tree.md R150, R151) -/

/-- The symbols with an entry are those with a codeword (10_state.md R44). -/
theorem mem_symbols {t : CodeTable} {b : Byte} : b ∈ t.symbols ↔ t.len b ≠ 0 := by
  simp only [CodeTable.symbols, List.mem_filter, List.mem_map, List.mem_range, decide_eq_true_eq, and_iff_right_iff_imp]
  exact fun _ => ⟨b.toNat, b.isLt, by simp⟩

theorem nodup_symbols (t : CodeTable) : t.symbols.Nodup := by
  refine List.Nodup.filter _ (List.Nodup.map_on (fun x hx y hy hxy => ?_) List.nodup_range)
  rw [List.mem_range] at hx hy
  simpa [Nat.mod_eq_of_lt hx, Nat.mod_eq_of_lt hy] using congrArg BitVec.toNat hxy

/-- The codeword of the element `i` of `n`. -/
def treeCode (prob : Table Double) (n i : Nat) : Codeword := if n = 1 then [false] else codeIn prob n 0 (n - 1) i

theorem treeCode_ne_nil (prob : Table Double) {n i : Nat} (hi : i < n) : treeCode prob n i ≠ [] := by
  unfold treeCode
  split
  · simp
  · obtain ⟨m, rfl⟩ : ∃ m, n = m + 1 := ⟨n - 1, by omega⟩
    rw [codeIn_succ prob m (by omega) (by omega)]
    split <;> simp

theorem mem_ranked {psym : Table Byte} {n : Nat} {b : Byte} : b ∈ ranked psym n ↔ ∃ i, i < n ∧ psym.at i = b := by
  simp [ranked]

section
variable {psym : Table Byte} {n : Nat} (prob : Table Double) (h : 1 ≤ n) (h' : n ≤ 256) (hd : (ranked psym n).Nodup)
include h h' hd

theorem buildTree_appends :
    Appends psym (List.range n) (treeCode prob n) CodeTable.empty (buildTree psym prob n) := by
  unfold buildTree
  split
  · rename_i h1
    subst h1
    have hl : ∀ b, CodeTable.empty.len b < 255 := fun b => by simp
    refine ⟨fun i hi => ?_, fun b hb => ?_, CodeTable.padded_append _ _ _ (hl _)⟩
    · obtain rfl : i = 0 := by simpa using hi
      rw [CodeTable.code_append _ _ _ _ (hl _), if_pos rfl]
      rfl
    · rw [CodeTable.code_append _ _ _ _ (hl _), if_neg (hb 0 (by simp))]
  · rename_i h1
    have e : treeCode prob n = codeIn prob n 0 (n - 1) := funext fun i => if_neg h1
    rw [e, ← indexes_zero h]
    refine bisect_appends psym prob (by omega) (by omega) ?_ fun i _ => ?_
    · rw [indexes_zero h]
      exact hd
    · rw [CodeTable.len_empty]
      omega

theorem buildTree_code {i : Nat} (hi : i < n) : (buildTree psym prob n).code (psym.at i) = treeCode prob n i := by
  rw [(buildTree_appends prob h h' hd).code i (List.mem_range.2 hi), CodeTable.code_empty, List.nil_append]

theorem buildTree_len {i : Nat} (hi : i < n) :
    (buildTree psym prob n).len (psym.at i) = (treeCode prob n i).length := by
  rw [← CodeTable.code_length, buildTree_code prob h h' hd hi]

theorem buildTree_padded : (buildTree psym prob n).padded :=
  (buildTree_appends prob h h' hd).padded CodeTable.padded_empty

/-- R150: exactly the listed symbols have a codeword. -/
theorem buildTree_len_ne_zero (b : Byte) : (buildTree psym prob n).len b ≠ 0 ↔ b ∈ ranked psym n := by
  constructor
  · contrapose!
    intro hb
    rw [← CodeTable.code_length, (buildTree_appends prob h h' hd).other b, CodeTable.code_empty]
    · rfl
    · intro i hi hib
      exact hb (mem_ranked.2 ⟨i, List.mem_range.1 hi, hib⟩)
  · intro hb
    obtain ⟨i, hi, rfl⟩ := mem_ranked.1 hb
    rw [buildTree_len prob h h' hd hi, Ne, List.length_eq_zero_iff]
    exact treeCode_ne_nil prob hi

theorem mem_buildTree_symbols (b : Byte) : b ∈ (buildTree psym prob n).symbols ↔ b ∈ ranked psym n :=
  mem_symbols.trans (buildTree_len_ne_zero prob h h' hd b)

theorem buildTree_symbols_ne_nil : (buildTree psym prob n).symbols ≠ [] :=
  List.ne_nil_of_mem ((mem_buildTree_symbols prob h h' hd _).2 (mem_ranked.2 ⟨0, h, rfl⟩))

end

section
variable {psym : Table Byte} {n : Nat} (prob : Table Double) (h : 2 ≤ n) (h' : n ≤ 256) (hd : (ranked psym n).Nodup)
include h h' hd

theorem buildTree_prefixFree : (buildTree psym prob n).prefixFree = true := by
  have h1 : 1 ≤ n := by omega
  simp only [CodeTable.prefixFree, List.all_eq_true, mem_buildTree_symbols prob h1 h' hd, Bool.or_eq_true, beq_iff_eq,
    Bool.not_eq_true']
  intro a ha b hb
  obtain ⟨i, hi, rfl⟩ := mem_ranked.1 ha
  obtain ⟨j, hj, rfl⟩ := mem_ranked.1 hb
  by_cases hij : i = j
  · exact .inl (congrArg _ hij)
  · right
    rw [← Bool.not_eq_true, List.isPrefixOf_iff_prefix, buildTree_code prob h1 h' hd hi,
      buildTree_code prob h1 h' hd hj, treeCode, treeCode, if_neg (by omega), if_neg (by omega)]
    exact codeIn_not_prefix prob (by omega) (by omega) (by omega) hij

theorem buildTree_kraft : (buildTree psym prob n).kraft = 2 ^ 255 := by
  have h1 : 1 ≤ n := by omega
  have perm : (buildTree psym prob n).symbols.Perm (ranked psym n) :=
    (List.perm_ext_iff_of_nodup (nodup_symbols _) hd).2 (mem_buildTree_symbols prob h1 h' hd)
  rw [CodeTable.kraft, (perm.map _).sum_eq, ranked, List.map_map,
    ← codeIn_kraft prob (fuel := n) (lo := 0) (hi := n - 1) (by omega) (by omega) (by omega), indexes_zero h1]
  refine congrArg _ (List.map_congr_left fun i hi => ?_)
  rw [Function.comp_apply, buildTree_len prob h1 h' hd (List.mem_range.1 hi), treeCode, if_neg (by omega)]

/-- R163: no codeword is longer than NSYM - 1 bits. -/
theorem buildTree_len_le (b : Byte) : (buildTree psym prob n).len b ≤ n - 1 := by
  have h1 : 1 ≤ n := by omega
  by_cases hb : b ∈ ranked psym n
  · obtain ⟨i, hi, rfl⟩ := mem_ranked.1 hb
    rw [buildTree_len prob h1 h' hd hi, treeCode, if_neg (by omega)]
    exact codeIn_length_le prob n (Nat.zero_le i) (by omega)
  · rw [← buildTree_len_ne_zero prob h1 h' hd, not_not] at hb
    omega

end

/-- With PV = 1 TREE is admitted, makes no access and ends normally. -/
theorem exec_tree {s : State} (h : s.pv = true) :
    exec .tree s = .next (normalTerminate (treeResults { accept (encode .tree) s with stage := .tree })) := by
  have ha : admitted .tree s = true := by
    simp [admitted, tablesReady, h, rangeBad, touchesDevice, usesSource, usesDest]
  rw [exec_eq_runCommand, runCommand_admitted ha]
  rfl

/-- Settles O38: the codewords TREE builds are those of the bisection: a complete code, none of whose codewords
begins another. -/
theorem treeBuildsACompletePrefixCode : Obligations.TreeBuildsACompletePrefixCode := by
  intro s hpv h h' hd
  refine ⟨_, exec_tree hpv, ⟨rfl, rfl, rfl, rfl, rfl⟩, rfl, hpv, rfl, fun b => ?_, fun h2 => ?_,
    buildTree_padded s.prob h h' hd, rfl, rfl, rfl, rfl, rfl, rfl, rfl, rfl, rfl,
    ⟨rfl, rfl, rfl, rfl, rfl, rfl, rfl, rfl, rfl⟩⟩
  · exact Nat.one_le_iff_ne_zero.trans (buildTree_len_ne_zero s.prob h h' hd b)
  · exact ⟨buildTree_prefixFree s.prob h2 h' hd, buildTree_kraft s.prob h2 h' hd, buildTree_len_le s.prob h2 h' hd⟩

end Sys2Proof.Machine
end

section
/-! PROOFS. Counts, ranks and header bytes: what the steps of FREQ, PTAB and PARSE do to the facts the invariant states
of the tables. -/

namespace Sys2Proof.Machine

/-! ### Counts (10_state.md R31, R32; 40_freq_ptab.md R130) -/

theorem freqSum_eq_sum (t : Table Word) : freqSum t = ∑ i ∈ Finset.range 256, (t.at i).toNat := rfl

theorem freqSum_zeros : freqSum Table.zeros = 0 := by
  simp [freqSum_eq_sum, Table.zeros, Table.at_replicate]

theorem at_le_freqSum (t : Table Word) (b : Byte) : (t.at b.toNat).toNat ≤ freqSum t := by
  rw [freqSum_eq_sum]
  exact Finset.single_le_sum (f := fun i => (t.at i).toNat) (fun _ _ => Nat.zero_le _) (Finset.mem_range.2 b.isLt)

/-- Counting a byte raises the sum of the counts by one, while there is room in its count. -/
theorem freqSum_countByte {t : Table Word} (b : Byte) (h : freqSum t + 1 < 2 ^ 32) :
    freqSum (countByte b t) = freqSum t + 1 := by
  have hb := at_le_freqSum t b
  have step : ∀ i ∈ Finset.range 256,
      ((countByte b t).at i).toNat = (t.at i).toNat + if b.toNat = i then 1 else 0 := by
    intro i hi
    rw [countByte, Table.at_put_rank _ b.isLt (Finset.mem_range.1 hi)]
    split
    · rename_i hbi
      rw [← hbi, BitVec.toNat_add]
      exact Nat.mod_eq_of_lt (by change _ + 1 < _; omega)
    · rfl
  rw [freqSum_eq_sum, Finset.sum_congr rfl step, Finset.sum_add_distrib, Finset.sum_ite_eq,
    if_pos (Finset.mem_range.2 b.isLt), freqSum_eq_sum]

/-- Where something is counted, some symbol is. -/
theorem alphabetSize_pos {t : Table Word} (h : 1 ≤ freqSum t) : 1 ≤ alphabetSize t := by
  rw [freqSum_eq_sum] at h
  obtain ⟨i, hi, hc⟩ := Finset.exists_ne_zero_of_sum_ne_zero (Nat.one_le_iff_ne_zero.1 h)
  refine List.length_pos_of_mem ((mem_alphabet t (BitVec.ofNat 8 i)).2 ?_)
  rw [BitVec.toNat_ofNat, Nat.mod_eq_of_lt (Finset.mem_range.1 hi)]
  omega

/-! ### Ranks (40_freq_ptab.md R132, R133) -/

/-- Storing entries moves PSYM and PROB alone. -/
theorem storeEntries_eq (i : Nat) (l : List Entry) (s : State) :
    storeEntries i l s =
      { s with psym := (storeEntries i l s).psym, prob := (storeEntries i l s).prob } := by
  induction l generalizing i s with
  | nil => rfl
  | cons x l ih =>
    rw [storeEntries, ih]

/-- What PTAB writes is PSYM, PROB, PV and CV. -/
theorem ptabResults_eq (s : State) :
    ptabResults s =
      { s with psym := (ptabResults s).psym, prob := (ptabResults s).prob, pv := true, cv := false } := by
  unfold ptabResults
  rw [storeEntries_eq]
  rfl

theorem sortEntries_length (freq : Table Word) (total : Nat) :
    (sortEntries (entries freq total)).length = alphabetSize freq := by
  rw [(sortEntries_perm _).length_eq, entries, List.length_map, alphabetSize]

/-- Entry by entry, what PTAB leaves at a rank of the alphabet. -/
theorem ptabResults_at (s : State) {i : Nat} (h : i < (sortEntries (entries s.freq s.total.toNat)).length) :
    (ptabResults s).psym.at i = (sortEntries (entries s.freq s.total.toNat))[i].symbol
      ∧ (ptabResults s).prob.at i = (sortEntries (entries s.freq s.total.toNat))[i].prob := by
  have hl := sortEntries_length s.freq s.total.toNat
  have hs := alphabetSize_le s.freq
  obtain ⟨h1, h2⟩ := storeEntries_at (sortEntries (entries s.freq s.total.toNat)) 0 s (by omega) i (by omega)
  rw [dif_pos ⟨Nat.zero_le i, by omega⟩] at h1 h2
  exact ⟨h1, h2⟩

/-- The probability table PTAB leaves is the ranking of the counted symbols. -/
theorem rankedEntries_ptabResults (s : State) :
    rankedEntries (ptabResults s) (alphabetSize s.freq) = sortEntries (entries s.freq s.total.toNat) := by
  refine List.ext_getElem ?_ fun i h h' => ?_
  · rw [sortEntries_length, rankedEntries, List.length_map, List.length_range]
  · obtain ⟨h1, h2⟩ := ptabResults_at s h'
    simp only [rankedEntries, List.getElem_map, List.getElem_range, h1, h2]

theorem ranked_eq_map_rankedEntries (s : State) (n : Nat) : ranked s.psym n = (rankedEntries s n).map Entry.symbol := by
  simp [ranked, rankedEntries, Function.comp_def]

/-- A ranking of counted symbols names each once. -/
theorem nodup_ranked_of_perm {s : State} {n total : Nat} {f : Table Word}
    (h : (rankedEntries s n).Perm (entries f total)) : (ranked s.psym n).Nodup := by
  rw [ranked_eq_map_rankedEntries, (h.map Entry.symbol).nodup_iff, entries_symbols]
  exact nodup_alphabet f

/-! ### Header bytes (43_decoder.md R190 to R193) -/

theorem Parser.start_ok (t : CodeTable) : Parser.start.ok t := rfl

/-- The size line: its value is 0 only before its first digit, and it is at most 256 where the line ends. -/
theorem parseSize_ok {p p' : Parser} {t t' : CodeTable} {b : Byte} (hk : if p.k = 0 then p.n = 0 else 1 ≤ p.n)
    (hp : p.phase = .size) (h : parseSize p t b = .more p' t') : p'.ok t' ∧ t' = t := by
  unfold parseSize at h
  split at h
  · split at h
    · cases h
    · rename_i hk0
      rw [if_neg hk0] at hk
      split at h
      · cases h
      · rename_i hn
        injection h with h ht
        subst h ht
        rw [if_neg (by omega)]
        exact ⟨⟨hk, Nat.le_refl _, Nat.le_of_not_lt hn⟩, rfl⟩
  · split at h
    · cases h
    · rename_i hdigit
      split at h
      · cases h
      · split at h
        · cases h
        · rename_i h0
          injection h with h ht
          subst h ht
          refine ⟨?_, rfl⟩
          simp only [Parser.ok, hp, Nat.add_eq_zero_iff, Nat.one_ne_zero, and_false, if_false]
          simp only [isDigit, Bool.not_eq_true', Bool.and_eq_false_imp, not_forall, decide_eq_true_eq] at hdigit
          obtain ⟨hlo, -⟩ := hdigit
          rw [BitVec.le_def] at hlo
          change 0x30 ≤ b.toNat at hlo
          by_cases hk0 : p.k = 0
          · have : b.toNat ≠ 0x30 := fun e => h0 ⟨hk0, BitVec.eq_of_toNat_eq e⟩
            omega
          · rw [if_neg hk0] at hk
            omega

/-- A byte of a codeword: a bit is appended to a codeword that is not full, and where the row ends the table has its
symbol. -/
theorem parseCode_ok {p p' : Parser} {t t' : CodeTable} {b : Byte}
    (hr : 1 ≤ p.rows ∧ p.rows ≤ p.n ∧ p.n ≤ Config.nsymMax) (hp : p.phase = .code) (hpad : t.padded)
    (h : parseCode p t b = .more p' t') : p'.ok t' ∧ t'.padded := by
  obtain ⟨h1, h2, h3⟩ := hr
  unfold parseCode at h
  split at h
  · split at h
    · cases h
    · rename_i hlen
      injection h with h ht
      subst h ht
      refine ⟨?_, hpad⟩
      by_cases hrow : p.rows = 1
      · rw [if_pos hrow]
        exact ⟨h1.trans h2, h3, List.ne_nil_of_mem (mem_symbols.2 hlen)⟩
      · rw [if_neg hrow]
        exact ⟨by simp only; omega, by simp only; omega, h3⟩
  · split at h
    · cases h
    · split at h
      · cases h
      · rename_i hfull
        injection h with h ht
        subst h ht
        have hlt : t.len p.sym < 255 := by
          have := (t.clen.at p.sym.toNat).isLt
          simp only [CodeTable.len, Config.cwMax] at *
          omega
        refine ⟨?_, CodeTable.padded_append t _ _ hlt hpad⟩
        simp only [Parser.ok, hp]
        exact ⟨h1, h2, h3⟩

/-- A header byte that is accepted keeps what the variables of R190 satisfy, and no bit stands beyond a codeword. -/
theorem parseByte_more {p p' : Parser} {t t' : CodeTable} {b : Byte} (hp : p.ok t) (hpad : t.padded)
    (h : parseByte p t b = .more p' t') : p'.ok t' ∧ t'.padded := by
  unfold Parser.ok at hp
  unfold parseByte at h
  cases hph : p.phase with
  | size =>
    simp only [hph] at hp h
    obtain ⟨h', rfl⟩ := parseSize_ok hp hph h
    exact ⟨h', hpad⟩
  | symbol =>
    simp only [hph, parseSymbol] at hp h
    split at h
    · cases h
    · injection h with h ht
      subst h ht
      exact ⟨hp, hpad⟩
  | tab =>
    simp only [hph, parseTab] at hp h
    split at h
    · cases h
    · injection h with h ht
      subst h ht
      exact ⟨hp, hpad⟩
  | prob =>
    simp only [hph, parseProb] at hp h
    split at h
    · split at h
      · cases h
      · injection h with h ht
        subst h ht
        exact ⟨hp, hpad⟩
    · split at h
      · cases h
      · injection h with h ht
        subst h ht
        refine ⟨?_, hpad⟩
        simp only [Parser.ok]
        exact hp
  | code =>
    simp only [hph] at hp h
    exact parseCode_ok hp hph hpad h
  | blank =>
    simp only [hph, parseBlank] at h
    split at h <;> cases h

/-- The byte that ends the header stands on the blank line. -/
theorem parseByte_done {p : Parser} {t : CodeTable} {b : Byte} (hp : p.ok t) (h : parseByte p t b = .done) :
    1 ≤ p.n ∧ p.n ≤ Config.nsymMax ∧ t.symbols ≠ [] := by
  unfold Parser.ok at hp
  unfold parseByte at h
  cases hph : p.phase with
  | blank =>
    simp only [hph] at hp
    exact hp
  | size | symbol | tab | prob | code =>
    simp only [hph, parseSize, parseSymbol, parseTab, parseProb, parseCode] at h
    repeat' split at h
    all_goals cases h

end Sys2Proof.Machine
end

section
/-! PROOFS. The invariant inside a command (10_state.md R49): what holds of the machine while a command is at one of its
places, and what the stages do to it between two accesses. A record `{ h with }` states the facts `h` again for a state
that differs only in fields of which they say nothing. -/

namespace Sys2Proof.Machine

/-! ### One access -/

/-- All that SrcByte can do. -/
theorem srcByte_cases (i : Nat) (s : State) :
    (∃ b d l, (srcByte i).run s = .ok b { s with draws := d, accesses := l })
      ∨ ∃ r, (srcByte i).run s = .error r s := by
  rw [srcByte_run, memRead_run]
  split
  · exact .inl ⟨_, _, _, rfl⟩
  · exact .inr ⟨_, rfl⟩

/-- All that Put can do: with room for it the byte is written, memory keeping its canonical form. -/
theorem put_cases (b : Byte) (s : State) :
    (∃ m d l, s.cursor ≠ s.dstCap.toNat ∧ (s.mem.wf = true → Memory.wf m = true)
        ∧ (put b).run s = .ok () { s with mem := m, draws := d, accesses := l, cursor := s.cursor + 1 })
      ∨ ∃ r, (put b).run s = .error r s := by
  rw [put_run]
  split
  · exact .inr ⟨_, rfl⟩
  · rename_i hcap
    split
    · refine .inl ⟨_, _, _, hcap, fun hm => ?_, rfl⟩
      rcases busWrite_mem (s.dstAt s.cursor) b s with e | e <;> rw [e]
      · exact hm
      · exact Memory.wf_write _ _ _ hm (s.dstAt s.cursor).isLt
    · exact .inr ⟨_, rfl⟩

/-! ### The invariant, the command being at a place -/

/-- What Inv states of memory, the flags and the tables while the command is at the place `p`. -/
structure TablesOk (p : Progress) (s : State) : Prop where
  memory : s.mem.wf = true
  triples : s.validLegal = true
  nsymZero : s.nsym = 0 ↔ s.fv = false ∧ s.pv = false ∧ s.cv = false
  nsymMax : s.nsym.toNat ≤ Config.nsymMax
  counts : s.fv = true → p.counting = false → freqSum s.freq = s.total.toNat ∧ 1 ≤ s.total.toNat
  alphabetIs : s.fv = true → p.counting = false → s.nsym.toNat = alphabetSize s.freq
  ranking : s.pv = true → ∃ f : Table Word, (p.counting = false → f = s.freq)
    ∧ freqSum f = s.total.toNat ∧ 1 ≤ s.total.toNat ∧ s.nsym.toNat = alphabetSize f
    ∧ (rankedEntries s s.nsym.toNat).Perm (entries f s.total.toNat)
    ∧ (rankedEntries s s.nsym.toNat).Pairwise fun x y => before x y = true
  padding : s.cv = true ∨ p.parsing = true → s.codes.padded
  someCode : s.cv = true → p.parsing = false → s.codes.symbols ≠ []

/-- What Inv states of the other fields while the command `c` runs. -/
structure Control (c : Instr) (s : State) : Prop where
  capacity : s.cursor ≤ s.dstCap.toNat
  word : s.running = some (encode c)
  released : s.rst = false
  notDone : s.done = false
  noErr : s.err = none
  noInfo : s.errInfo = 0

/-- The command `c`, admitted, is at the place `p`. -/
structure Working (c : Instr) (p : Progress) (s : State) : Prop where
  tables : TablesOk p s
  control : Control c s
  place : p.fits c s
  ready : p = .start → tablesReady c s = true

/-- The stages of the command `c` have run to their end. -/
structure Finished (c : Instr) (s : State) : Prop where
  tables : TablesOk .start s
  control : Control c s

/-- How much is left of a command at a place of it: the stages to come, the source bytes to be read in the stage in
work, and the bytes to be written before the next of them. -/
def Progress.toGo (len : Nat) : Progress → ℕ ×ₗ ℕ ×ₗ ℕ
  | .start => toLex (5, toLex (0, 0))
  | .freq i => toLex (4, toLex (len - i, 0))
  | .header rest => toLex (3, toLex (0, rest.length))
  | .bits _ j rest => toLex (2, toLex (len - j, rest.length))
  | .parse pos _ => toLex (1, toLex (len - pos, 0))
  | .matching _ j _ _ => toLex (0, toLex (len - j, 0))
  | .found _ j _ _ => toLex (0, toLex (len - j, 1))

theorem toLex_lt {a b k a' b' k' : ℕ} (h : a < a' ∨ a = a' ∧ (b < b' ∨ b = b' ∧ k < k')) :
    toLex (a, toLex (b, k)) < toLex (a', toLex (b', k')) := by
  simpa [Prod.Lex.toLex_lt_toLex] using h

/-- A read leaves one byte less to be read. -/
theorem toLex_read {a len j k k' : ℕ} (h : j < len) :
    toLex (a, toLex (len - (j + 1), k)) < toLex (a, toLex (len - j, k')) :=
  toLex_lt (.inr ⟨rfl, .inl (by omega)⟩)

/-- How a piece of the command `c` ends that keeps the invariant, `g` being what was left before it. -/
def Lands (c : Instr) (g : ℕ ×ₗ ℕ ×ₗ ℕ) : EStateM.Result Raise State (Option Progress) → Prop
  | .ok (some q) t => Working c q t ∧ q.toGo t.srcLen.toNat < g
  | .ok none t => Finished c t
  | .error _ t => t.mem.wf = true ∧ t.rst = false

/-- How the command `c` ends when the invariant has been kept. -/
def EndsWell (c : Instr) : EStateM.Result Raise State Unit → Prop
  | .ok _ t => Finished c t
  | .error _ t => t.mem.wf = true ∧ t.rst = false

theorem Working.raises {c : Instr} {p : Progress} {s : State} (h : Working c p s) : s.mem.wf = true ∧ s.rst = false :=
  ⟨h.tables.memory, h.control.released⟩

/-! ### The flags and the tables -/

/-- With PV = 1 the listed symbols are distinct, at least one and at most 256. -/
theorem TablesOk.ranked {p : Progress} {s : State} (h : TablesOk p s) (hp : s.pv = true) :
    1 ≤ s.nsym.toNat ∧ s.nsym.toNat ≤ 256 ∧ (Machine.ranked s.psym s.nsym.toNat).Nodup := by
  obtain ⟨f, -, hf, ht, hn, hperm, -⟩ := h.ranking hp
  refine ⟨hn ▸ alphabetSize_pos (by omega), h.nsymMax, nodup_ranked_of_perm hperm⟩

/-- PV = 1 only with FV = 1 (10_state.md R40). -/
theorem fv_of_pv {s : State} (h : s.validLegal = true) (hp : s.pv = true) : s.fv = true := by
  unfold State.validLegal at h
  rw [hp] at h
  cases hf : s.fv
  · rw [hf] at h
    cases hc : s.cv <;> rw [hc] at h <;> cases h
  · rfl

theorem TablesOk.dropResults {p : Progress} {s : State} (h : TablesOk p s) : TablesOk .start s.dropResults where
  memory := h.memory
  triples := rfl
  nsymZero := ⟨fun _ => ⟨rfl, rfl, rfl⟩, fun _ => rfl⟩
  nsymMax := Nat.zero_le _
  counts h := by cases h
  alphabetIs h := by cases h
  ranking h := by cases h
  padding h := by rcases h with h | h <;> cases h
  someCode h := by cases h

/-- FREQ, when all bytes are counted (40_freq_ptab.md R130). -/
theorem TablesOk.freqResults {p : Progress} {s : State} (h : TablesOk p s) (hs : freqSum s.freq = s.srcLen.toNat)
    (hl : 1 ≤ s.srcLen.toNat) : TablesOk .start (freqResults s) := by
  have hpos := alphabetSize_pos (hs ▸ hl)
  have hmax := alphabetSize_le s.freq
  have hn : (BitVec.ofNat 32 (alphabetSize s.freq)).toNat = alphabetSize s.freq := by
    rw [BitVec.toNat_ofNat]
    exact Nat.mod_eq_of_lt (by omega)
  exact {
    memory := h.memory
    triples := rfl
    nsymZero := by
      refine ⟨fun h0 => ?_, fun h0 => by cases h0.1⟩
      have : (BitVec.ofNat 32 (alphabetSize s.freq)).toNat = 0 := congrArg BitVec.toNat h0
      omega
    nsymMax := hn.trans_le hmax
    counts := fun _ _ => ⟨hs, hl⟩
    alphabetIs := fun _ _ => hn
    ranking := fun h => by cases h
    padding := fun h => by rcases h with h | h <;> cases h
    someCode := fun h => by cases h }

/-- PTAB (40_freq_ptab.md R132). -/
theorem TablesOk.ptabResults {s : State} (h : TablesOk .start s) (hf : s.fv = true) :
    TablesOk .start (ptabResults s) := by
  obtain ⟨hsum, htot⟩ := h.counts hf rfl
  have hn := h.alphabetIs hf rfl
  have hsort := rankedEntries_ptabResults s
  have hnodup : ((entries s.freq s.total.toNat).map Entry.symbol).Nodup := by
    rw [entries_symbols]
    exact nodup_alphabet _
  rw [← hn] at hsort
  have hne : ¬ s.nsym = 0 := fun h0 => by
    have := (h.nsymZero.1 h0).1
    rw [hf] at this
    cases this
  rw [ptabResults_eq] at hsort ⊢
  exact {
    memory := h.memory
    triples := by simp [State.validLegal, hf]
    nsymZero := ⟨fun h0 => absurd h0 hne, fun h0 => by cases h0.2.1⟩
    nsymMax := h.nsymMax
    counts := h.counts
    alphabetIs := h.alphabetIs
    ranking := fun _ => ⟨s.freq, fun _ => rfl, hsum, htot, hn, hsort ▸ sortEntries_perm _,
      hsort ▸ sortEntries_sorted _ hnodup⟩
    padding := fun h => by rcases h with h | h <;> cases h
    someCode := fun h => by cases h }

/-- TREE (41_tree.md R150). -/
theorem TablesOk.treeResults {s : State} (h : TablesOk .start s) (hp : s.pv = true) :
    TablesOk .start (treeResults s) := by
  obtain ⟨h1, h256, hd⟩ := h.ranked hp
  have hne : ¬ s.nsym = 0 := fun h0 => by
    rw [h0] at h1
    cases h1
  exact { h with
    triples := by simp [State.validLegal, hp, fv_of_pv h.triples hp]
    nsymZero := ⟨fun h0 => absurd h0 hne, fun h0 => by cases h0.2.2⟩
    padding := fun _ => buildTree_padded s.prob h1 h256 hd
    someCode := fun _ _ => buildTree_symbols_ne_nil s.prob h1 h256 hd }

/-- PARSE, when the header has been read (43_decoder.md R190). -/
theorem TablesOk.parseResults {pos' : Nat} {p' : Parser} {s : State} (h : TablesOk (.parse pos' p') s) {n : Nat}
    (h1 : 1 ≤ n) (h256 : n ≤ Config.nsymMax) (hs : s.codes.symbols ≠ []) (pos : Nat) :
    TablesOk .start (parseResults n pos s) := by
  have hn : (BitVec.ofNat 32 n).toNat = n := by
    rw [BitVec.toNat_ofNat]
    exact Nat.mod_eq_of_lt (by unfold Config.nsymMax at h256; omega)
  exact {
    memory := h.memory
    triples := rfl
    nsymZero := by
      refine ⟨fun h0 => ?_, fun h0 => by cases h0.2.2⟩
      have : (BitVec.ofNat 32 n).toNat = 0 := congrArg BitVec.toNat h0
      omega
    nsymMax := hn.trans_le h256
    counts := fun h => by cases h
    alphabetIs := fun h => by cases h
    ranking := fun h => by cases h
    padding := fun _ => h.padding (.inr rfl)
    someCode := fun _ _ => hs }

/-! ### The stages between two accesses -/

theorem ptabStage_run (s : State) : ptabStage.run s = .ok () (ptabResults { s with stage := .ptab }) := rfl

theorem treeStage_run (s : State) : treeStage.run s = .ok () (treeResults { s with stage := .tree }) := rfl

theorem emitBegin_run (s : State) :
    emitBegin.run s = .ok (some (.header (artifactHeader s))) { s with stage := .emit } := rfl

theorem Control.ptab {c : Instr} {s : State} (h : Control c s) :
    Control c (Machine.ptabResults { s with stage := .ptab }) := by
  rw [ptabResults_eq]
  exact { h with }

theorem Finished.ptab {c : Instr} {s : State} (h : Finished c s) (hf : s.fv = true) :
    Finished c (ptabResults { s with stage := .ptab }) :=
  ⟨TablesOk.ptabResults { h.tables with } hf, h.control.ptab⟩

theorem Finished.tree {c : Instr} {s : State} (h : Finished c s) (hp : s.pv = true) :
    Finished c (treeResults { s with stage := .tree }) :=
  ⟨TablesOk.treeResults { h.tables with } hp, { h.control with }⟩

/-- EMIT begins with the header (42_encoder.md R170). -/
theorem lands_emitBegin {c : Instr} {s : State} {g : ℕ ×ₗ ℕ ×ₗ ℕ} (h : Finished c s) (hc : c ∈ [.emit, .encode])
    (hp : s.pv = true) (hv : s.cv = true) (hg : ∀ n, toLex (3, toLex (0, n)) < g) : Lands c g (emitBegin.run s) :=
  ⟨⟨{ h.tables with }, { h.control with }, ⟨hc, rfl, hp, hv⟩, Progress.noConfusion⟩, hg _⟩

/-- MATCH begins at the offset `base` (43_decoder.md R197, R205). -/
theorem lands_matchBegin {c : Instr} {s : State} {base : Nat} {g : ℕ ×ₗ ℕ ×ₗ ℕ} (h : Finished c s)
    (hc : c ∈ [.matchBits, .decode]) (hv : s.cv = true) (hb : base ≤ s.srcLen.toNat)
    (hg : ∀ n, toLex (0, toLex (n, 0)) < g) : Lands c g ((matchBegin base).run s) :=
  ⟨⟨{ h.tables with }, { h.control with }, ⟨hc, rfl, hv, Nat.le_refl _, hb⟩, Progress.noConfusion⟩, hg _⟩

end Sys2Proof.Machine
end

section
/-! PROOFS. Every access keeps the invariant and brings the command nearer to its end, and so does every ending
(20_memory.md R78; 70_reset_and_hazards.md R268, R270; 60_exceptions.md R243, R244). -/

namespace Sys2Proof.Machine

/-! ### What an access is made of -/

/-- What follows a read keeps the invariant if it does for every byte read. -/
theorem lands_read {c : Instr} {p : Progress} {i : Nat} {s : State} {g : ℕ ×ₗ ℕ ×ₗ ℕ}
    {f : Byte → Engine (Option Progress)} (h : Working c p s)
    (hf : ∀ b d l, Lands c g ((f b).run { s with draws := d, accesses := l })) :
    Lands c g ((srcByte i >>= f).run s) := by
  rw [run_bind]
  rcases srcByte_cases i s with ⟨b, d, l, hr⟩ | ⟨r, hr⟩ <;> rw [hr]
  · exact hf b d l
  · exact h.raises

/-- A byte is put and the command goes on at the place `q`, of which nothing is asked that the port could have moved but
the cursor. -/
theorem lands_put {c : Instr} {p q : Progress} {s : State} {b : Byte} (h : Working c p s)
    (tables : ∀ t, TablesOk p t → TablesOk q t)
    (place : ∀ m d l, q.fits c { s with mem := m, draws := d, accesses := l, cursor := s.cursor + 1 })
    (hq : q ≠ .start) (hg : q.toGo s.srcLen.toNat < p.toGo s.srcLen.toNat) :
    Lands c (p.toGo s.srcLen.toNat) ((do put b; pure (some q) : Engine (Option Progress)).run s) := by
  rw [run_bind]
  rcases put_cases b s with ⟨m, d, l, hcap, hm, hr⟩ | ⟨r, hr⟩ <;> rw [hr]
  · refine ⟨⟨tables _ { h.tables with memory := hm h.tables.memory }, { h.control with capacity := ?_ },
      place m d l, fun e => absurd e hq⟩, hg⟩
    exact Nat.lt_of_le_of_ne h.control.capacity hcap
  · exact h.raises

/-! ### The accesses, place by place -/

theorem freqBegin_run (s : State) :
    freqBegin.run s = if s.srcLen = 0 then .error { kind := .emptyInput, info := 0 } { s with stage := .freq }
      else .ok () { s with stage := .freq, freq := Table.zeros } := by
  simp only [freqBegin, run_bind, run_enter, run_get]
  split <;> rfl

/-- While FREQ is rebuilt its contents are free, and a ranking is that of the counts PTAB found. -/
theorem TablesOk.counting {p : Progress} {s : State} (h : TablesOk p s) (hp : p.parsing = false) (st : Stage)
    (f : Table Word) (i : Nat) : TablesOk (.freq i) { s with stage := st, freq := f } :=
  { h with
    counts := fun _ hcount => by cases hcount
    alphabetIs := fun _ hcount => by cases hcount
    ranking := fun hpv => by
      obtain ⟨f, -, hf⟩ := h.ranking hpv
      exact ⟨f, fun hcount => (by cases hcount), hf⟩
    padding := fun hc => h.padding (hc.imp_right fun hparse => by cases hparse)
    someCode := fun hc _ => h.someCode hc hp }

/-- FREQ begins with every count 0 (40_freq_ptab.md R130). -/
theorem lands_freqBegin {c : Instr} {s : State} (h : Working c .start s) (hc : c ∈ [.freq, .encode]) :
    Lands c (Progress.start.toGo s.srcLen.toNat)
      ((do freqBegin; pure (some (.freq 0)) : Engine (Option Progress)).run s) := by
  rw [run_bind, freqBegin_run]
  by_cases hl : s.srcLen = 0
  · rw [if_pos hl]
    exact h.raises
  · rw [if_neg hl]
    have hl' : 1 ≤ s.srcLen.toNat := Nat.one_le_iff_ne_zero.2 fun e => hl (BitVec.eq_of_toNat_eq e)
    exact ⟨⟨h.tables.counting rfl .freq Table.zeros 0, { h.control with }, ⟨hc, rfl, Nat.zero_le _, hl', freqSum_zeros⟩,
      Progress.noConfusion⟩, toLex_lt (by omega)⟩

/-- PARSE begins with no codeword (43_decoder.md R190). -/
theorem lands_parseBegin {c : Instr} {s : State} (h : Working c .start s) (hc : c ∈ [.parse, .decode]) :
    Lands c (Progress.start.toGo s.srcLen.toNat)
      ((do parseBegin; pure (some (.parse 0 Parser.start)) : Engine (Option Progress)).run s) := by
  refine ⟨⟨{ h.tables with padding := fun _ => CodeTable.padded_empty, someCode := ?_ }, { h.control with },
    ⟨hc, rfl, Nat.zero_le _, Parser.start_ok _⟩, Progress.noConfusion⟩, toLex_lt (by omega)⟩
  exact fun _ hparse => by cases hparse

theorem lands_begin {c : Instr} {s : State} (h : Working c .start s) :
    Lands c (Progress.start.toGo s.srcLen.toNat) ((begin c).run s) := by
  have hready := h.ready rfl
  have hf : Finished c s := ⟨h.tables, h.control⟩
  cases c with
  | nop => exact hf
  | clear => exact ⟨h.tables.dropResults, { h.control with }⟩
  | freq | encode => exact lands_freqBegin h (by decide)
  | ptab => exact hf.ptab hready
  | tree => exact hf.tree hready
  | emit =>
    obtain ⟨hp, hv⟩ := Bool.and_eq_true_iff.1 hready
    exact lands_emitBegin hf (by decide) hp hv fun n => toLex_lt (by omega)
  | parse | decode => exact lands_parseBegin h (by decide)
  | matchBits =>
    exact lands_matchBegin hf (by decide) hready (Nat.zero_le _) fun n => toLex_lt (by omega)

/-- After FREQ the command ends, or goes on with PTAB, TREE and EMIT (30_encoding.md R124). -/
theorem lands_afterFreq {c : Instr} {s : State} {g : ℕ ×ₗ ℕ ×ₗ ℕ} (h : Finished c s) (hc : c ∈ [.freq, .encode])
    (hf : s.fv = true) (hg : ∀ n, toLex (3, toLex (0, n)) < g) : Lands c g ((afterFreq c).run s) := by
  cases c with
  | encode =>
    have hp := h.ptab hf
    have hpv : (ptabResults { s with stage := .ptab }).pv = true := by rw [ptabResults_eq]
    rw [afterFreq, run_bind, ptabStage_run]
    exact lands_emitBegin (hp.tree hpv) (by decide) hpv rfl hg
  | nop | clear | freq | ptab | tree | emit | parse | matchBits | decode => exact h

theorem lands_freq {c : Instr} {i : Nat} {s : State} (h : Working c (.freq i) s) :
    Lands c ((Progress.freq i).toGo s.srcLen.toNat) ((freqAccess c i).run s) := by
  obtain ⟨hc, hst, hi, hl, hsum⟩ := h.place
  rw [freqAccess, run_bind, run_get]
  dsimp only
  by_cases hlt : i < s.srcLen.toNat
  · rw [if_pos hlt]
    refine lands_read h fun b d l => ?_
    have hcount : freqSum (countByte b s.freq) = i + 1 := by
      rw [freqSum_countByte b (by have := s.srcLen.isLt; omega), hsum]
    exact ⟨⟨{ h.tables.counting rfl s.stage (countByte b s.freq) (i + 1) with }, { h.control with },
      ⟨hc, hst, hlt, hl, hcount⟩, Progress.noConfusion⟩, toLex_read hlt⟩
  · rw [if_neg hlt, run_bind, run_modify]
    have hall : freqSum s.freq = s.srcLen.toNat := by omega
    exact lands_afterFreq ⟨h.tables.freqResults hall hl, { h.control with }⟩ hc rfl fun n => toLex_lt (by omega)

theorem lands_header {c : Instr} {rest : List Byte} {s : State} (h : Working c (.header rest) s) :
    Lands c ((Progress.header rest).toGo s.srcLen.toNat) ((headerAccess rest).run s) := by
  obtain ⟨hc, hst, hp, hv⟩ := h.place
  cases rest with
  | nil =>
    exact ⟨⟨{ h.tables with }, h.control, ⟨hc, hst, hp, hv, Nat.zero_le _, Nat.le_refl _⟩, Progress.noConfusion⟩,
      toLex_lt (by omega)⟩
  | cons b rest =>
    exact lands_put h (fun t ht => { ht with }) (fun _ _ _ => ⟨hc, hst, hp, hv⟩) Progress.noConfusion
      (toLex_lt (by simp))

theorem lands_bits {c : Instr} {hdr j : Nat} {rest : List Byte} {s : State} (h : Working c (.bits hdr j rest) s) :
    Lands c ((Progress.bits hdr j rest).toGo s.srcLen.toNat) ((bitsAccess hdr j rest).run s) := by
  obtain ⟨hc, hst, hp, hv, hj, hhdr⟩ := h.place
  cases rest with
  | nil =>
    rw [bitsAccess, run_bind, run_get]
    dsimp only
    by_cases hlt : j < s.srcLen.toNat
    · rw [if_pos hlt]
      refine lands_read h fun b d l => ?_
      rw [run_bind, run_get]
      dsimp only
      by_cases hk : s.codes.len b = 0
      · rw [if_pos hk]
        exact h.raises
      · rw [if_neg hk]
        exact ⟨⟨{ h.tables with }, { h.control with }, ⟨hc, hst, hp, hv, hlt, hhdr⟩, Progress.noConfusion⟩,
          toLex_read hlt⟩
    · rw [if_neg hlt]
      exact ⟨{ h.tables with }, { h.control with }⟩
  | cons b rest =>
    exact lands_put h (fun t ht => { ht with }) (fun _ _ _ => ⟨hc, hst, hp, hv, hj, Nat.le_succ_of_le hhdr⟩)
      Progress.noConfusion (toLex_lt (by simp))

/-- After PARSE the command ends, or goes on with MATCH (43_decoder.md R205). -/
theorem lands_afterParse {c : Instr} {s : State} {g : ℕ ×ₗ ℕ ×ₗ ℕ} (h : Finished c s) (hc : c ∈ [.parse, .decode])
    (hv : s.cv = true) (hb : s.bsOff.toNat ≤ s.srcLen.toNat) (hg : ∀ n, toLex (0, toLex (n, 0)) < g) :
    Lands c g ((afterParse c).run s) := by
  cases c with
  | decode => exact lands_matchBegin h (by decide) hv hb hg
  | nop | clear | freq | ptab | tree | emit | encode | parse | matchBits => exact h

theorem lands_parse {c : Instr} {pos : Nat} {p : Parser} {s : State} (h : Working c (.parse pos p) s) :
    Lands c ((Progress.parse pos p).toGo s.srcLen.toNat) ((parseAccess c pos p).run s) := by
  obtain ⟨hc, hst, hpos, hok⟩ := h.place
  have hpad := h.tables.padding (.inr rfl)
  rw [parseAccess, run_bind, run_get]
  dsimp only
  by_cases hlt : pos < s.srcLen.toNat
  · rw [if_pos hlt]
    refine lands_read h fun b d l => ?_
    rw [run_bind, run_get]
    dsimp only
    cases hb : parseByte p s.codes b with
    | bad => exact h.raises
    | more p' t =>
      obtain ⟨hok', hpad'⟩ := parseByte_more hok hpad hb
      refine ⟨⟨{ h.tables with padding := fun _ => hpad', someCode := ?_ }, { h.control with },
        ⟨hc, hst, hlt, hok'⟩, Progress.noConfusion⟩, toLex_read hlt⟩
      exact fun _ hparse => by cases hparse
    | done =>
      obtain ⟨h1, h256, hsym⟩ := parseByte_done hok hb
      have tables : TablesOk (.parse pos p) { s with draws := d, accesses := l } := { h.tables with }
      refine lands_afterParse ⟨tables.parseResults h1 h256 hsym (pos + 1), { h.control with }⟩ hc rfl ?_
        fun n => toLex_lt (by omega)
      rw [parseResults_bsOff, BitVec.toNat_ofNat]
      exact (Nat.mod_le _ _).trans hlt
  · rw [if_neg hlt]
    exact h.raises

theorem lands_match {c : Instr} {base j start : Nat} {acc : Codeword} {s : State}
    (h : Working c (.matching base j acc start) s) :
    Lands c ((Progress.matching base j acc start).toGo s.srcLen.toNat) ((matchAccess base j acc start).run s) := by
  obtain ⟨hc, hst, hv, hb, hj⟩ := h.place
  rw [matchAccess, run_bind, run_get]
  dsimp only
  by_cases hlt : j < s.srcLen.toNat
  · rw [if_pos hlt]
    refine lands_read h fun b d l => ?_
    by_cases hbit : (!isBitChar b) = true
    · rw [if_pos hbit]
      exact h.raises
    · rw [if_neg hbit, run_bind, run_get]
      dsimp only
      cases findSymbol s.codes (acc ++ [charBit b]) with
      | some x =>
        exact ⟨⟨{ h.tables with }, { h.control with }, ⟨hc, hst, hv, Nat.le_succ_of_le hb, hlt⟩, Progress.noConfusion⟩,
          toLex_read hlt⟩
      | none =>
        exact ⟨⟨{ h.tables with }, { h.control with }, ⟨hc, hst, hv, Nat.le_succ_of_le hb, hlt⟩, Progress.noConfusion⟩,
          toLex_read hlt⟩
  · rw [if_neg hlt]
    by_cases ha : acc = []
    · rw [if_pos ha]
      exact ⟨{ h.tables with }, { h.control with }⟩
    · rw [if_neg ha]
      exact h.raises

/-- Every access of a command keeps the invariant, and brings the command nearer to its end. -/
theorem lands_advance {c : Instr} {p : Progress} {s : State} (h : Working c p s) :
    Lands c (p.toGo s.srcLen.toNat) ((advance c p).run s) := by
  cases p with
  | start => exact lands_begin h
  | freq i => exact lands_freq h
  | header rest => exact lands_header h
  | bits hdr j rest => exact lands_bits h
  | parse pos p => exact lands_parse h
  | matching base j acc start => exact lands_match h
  | found base j b start =>
    obtain ⟨hc, hst, hv, hb, hj⟩ := h.place
    exact lands_put h (fun t ht => { ht with }) (fun _ _ _ => ⟨hc, hst, hv, hb, hj⟩) Progress.noConfusion
      (toLex_lt (by omega))

/-- What holds at a place of a command if it holds at the place after the next access, if there is one, holds at every
place: every command comes to its end (70_reset_and_hazards.md R268). -/
theorem Working.induction {c : Instr} {motive : Progress → State → Prop}
    (access : ∀ p s, Working c p s → (∀ q t, (advance c p).run s = .ok (some q) t → motive q t) → motive p s)
    {p : Progress} {s : State} (h : Working c p s) : motive p s := by
  induction hg : p.toGo s.srcLen.toNat using WellFoundedLT.induction generalizing p s with
  | ind g ih =>
    subst hg
    refine access p s h fun q t hr => ?_
    have hl := lands_advance h
    rw [hr] at hl
    exact ih _ hl.2 hl.1 rfl

/-- A command that has begun with the invariant comes to its end with it. -/
theorem finish_endsWell {c : Instr} {p : Progress} {s : State} (h : Working c p s) :
    EndsWell c ((finish c p).run s) := by
  refine Working.induction (motive := fun p s => EndsWell c ((finish c p).run s)) (fun p s h ih => ?_) h
  have hl := lands_advance h
  rw [finish_eq_advance]
  cases hr : (advance c p).run s with
  | error r t =>
    rw [hr] at hl
    exact hl
  | ok o t =>
    cases o with
    | none =>
      rw [hr] at hl
      exact hl
    | some q => exact ih q t hr

/-! ### Between commands -/

/-- The word of a command decodes to it (30_encoding.md R101). -/
theorem decode_encode (c : Instr) : decode (encode c) = .ok c := by
  cases c <;> decide

/-- A command that is at a place, as the state that stands between two accesses has it. -/
theorem Working.inv {c : Instr} {p : Progress} {s : State} (h : Working c p s) : Inv { s with progress := p } where
  memory := h.tables.memory
  triples := h.tables.triples
  nsymZero := h.tables.nsymZero
  nsymMax := h.tables.nsymMax
  counts := h.tables.counts
  alphabetIs := h.tables.alphabetIs
  ranking := h.tables.ranking
  padding := h.tables.padding
  someCode := h.tables.someCode
  capacity := h.control.capacity
  hidden hb := by
    simp [State.busy, h.control.word] at hb
  running _ := ⟨h.control.notDone, h.control.noErr⟩
  placed w hw := by
    obtain rfl : encode c = w := Option.some.inj (h.control.word.symm.trans hw)
    rw [decode_encode c]
    have := h.place
    cases p <;> exact this
  held hr := by
    cases h.control.released.symm.trans hr
  info _ := h.control.noInfo
  dropped he := absurd h.control.noErr he

/-- The tables, as the state between two accesses or between two commands has them. -/
theorem Inv.tables {s : State} (h : Inv s) : TablesOk s.progress s := { h with }

/-- Normal termination keeps the invariant (60_exceptions.md R244). -/
theorem Finished.inv {c : Instr} {s : State} (h : Finished c s) : Inv (normalTerminate s) :=
  { h.tables with
    capacity := Nat.zero_le _
    hidden := fun _ => ⟨rfl, rfl, rfl⟩
    running := fun hb => by cases hb
    placed := fun w hw => by cases hw
    held := fun hr => by cases h.control.released.symm.trans hr
    info := fun _ => h.control.noInfo
    dropped := fun he => absurd h.control.noErr he }

/-- Every error termination has the invariant (60_exceptions.md R243). -/
theorem inv_errorTerminate (r : Raise) {s : State} (hm : s.mem.wf = true) (hr : s.rst = false) :
    Inv (errorTerminate r s) where
  memory := hm
  triples := rfl
  nsymZero := ⟨fun _ => ⟨rfl, rfl, rfl⟩, fun _ => rfl⟩
  nsymMax := Nat.zero_le _
  counts h := by cases h
  alphabetIs h := by cases h
  ranking h := by cases h
  padding h := by rcases h with h | h <;> cases h
  someCode h := by cases h
  capacity := Nat.zero_le _
  hidden _ := ⟨rfl, rfl, rfl⟩
  running h := by cases h
  placed w h := by cases h
  held h := by cases hr.symm.trans h
  info h := by cases h
  dropped _ := ⟨rfl, rfl, rfl, rfl, rfl, rfl, rfl, rfl⟩

theorem inv_terminate {c : Instr} {r : EStateM.Result Raise State Unit} (h : EndsWell c r) : Inv (terminate r) := by
  cases r with
  | ok _ t => exact Finished.inv h
  | error r t => exact inv_errorTerminate r h.1 h.2

theorem inv_pause {c : Instr} {g : ℕ ×ₗ ℕ ×ₗ ℕ} {r : EStateM.Result Raise State (Option Progress)} (h : Lands c g r) :
    Inv (pause r) := by
  rcases r with ⟨_ | q, t⟩ | ⟨r, t⟩
  · exact Finished.inv h
  · exact h.1.inv
  · exact inv_errorTerminate r h.1 h.2

end Sys2Proof.Machine
end

section
/-! PROOFS. The invariant at reset and over every step (10_state.md R52; 70_reset_and_hazards.md R260, R270). -/
namespace Sys2Proof.Machine

/-! ### The engine's turns -/

/-- The invariant and the engine: while a command runs `rst` is released. -/
theorem Inv.released {s : State} {w : Word} (h : Inv s) (hw : s.running = some w) : s.rst = false := by
  rw [← Bool.not_eq_true]
  intro hr
  have hrun : s.running = none := congrArg State.running (h.held hr)
  rw [hw] at hrun
  cases hrun

theorem Inv.control {s : State} {c : Instr} (h : Inv s) (hw : s.running = some (encode c)) : Control c s := by
  obtain ⟨hdone, herr⟩ := h.running (by rw [State.busy, hw]; rfl)
  exact ⟨h.capacity, hw, h.released hw, hdone, herr, h.info herr⟩

/-- A command of which no access has been made, admitted, is at its start. -/
theorem Inv.working_accept {s : State} {c : Instr} (h : Inv s) (hw : s.running = some (encode c))
    (hp : s.progress = .start) (ha : tablesReady c s = true) : Working c .start (accept (encode c) s) where
  tables := by
    have := h.tables
    rw [hp] at this
    exact { this with }
  control := ⟨Nat.zero_le _, rfl, h.released hw, rfl, rfl, rfl⟩
  place := rfl
  ready _ := by
    cases c <;> exact ha

/-- A command some accesses of which have been made is at its place. -/
theorem Inv.working_resumed {s : State} {c : Instr} (h : Inv s) (hw : s.running = some (encode c))
    (hp : s.progress ≠ .start) : Working c s.progress s.resumed where
  tables := { h.tables with }
  control := { h.control hw with }
  place := by
    have := h.placed _ hw
    rw [decode_encode c] at this
    change s.progress.fits c s at this
    cases hq : s.progress <;> rw [hq] at this <;> exact this
  ready e := absurd e hp

theorem tablesReady_of_admitted {c : Instr} {s : State} (h : admitted c s = true) : tablesReady c s = true := by
  simp only [admitted, Bool.and_eq_true] at h
  exact h.1.1

/-- The end of an illegal word keeps the invariant (60_exceptions.md R235). -/
theorem Inv.runIllegal {s t : State} {w : Word} (h : Inv s) (hw : s.running = some w)
    (ht : Machine.runIllegal w s = .next t) : Inv t := by
  injection ht with ht
  subst ht
  exact inv_errorTerminate _ h.memory (h.released hw)

/-- The engine's turn keeps the invariant. -/
theorem Inv.engineTurn {s t : State} (h : Inv s) (ht : engineTurn s = .next t) : Inv t := by
  rcases engineTurn_cases s with ⟨-, e⟩ | ⟨w, r, hw, -, e⟩ | ⟨w, c, hw, hd, hp, e⟩ | ⟨w, c, hw, hd, hp, e⟩
  all_goals rw [e] at ht
  · injection ht with ht
    exact ht ▸ h
  · exact h.runIllegal hw ht
  · obtain rfl := encode_of_decode hd
    rw [exec_eq_runCommand] at ht
    rcases runCommand_next ht with ⟨r, -, rfl⟩ | ⟨ha, rfl⟩
    · exact inv_errorTerminate r h.memory (h.released hw)
    · exact inv_terminate (finish_endsWell (h.working_accept hw hp (tablesReady_of_admitted ha)))
  · obtain rfl := encode_of_decode hd
    injection ht with ht
    exact ht ▸ inv_terminate (finish_endsWell (h.working_resumed hw hp))

/-- All that a turn of one access can answer: idling, an illegal word, a command refused admission, its first piece, or
its next one. -/
theorem accessTurn_next {s t : State} (h : accessTurn s = .next t) :
    (s.running = none ∧ t = s)
      ∨ (∃ w, s.running = some w ∧ runIllegal w s = .next t)
      ∨ ∃ c, s.running = some (encode c)
          ∧ ((∃ r, t = errorTerminate r (accept (encode c) s))
            ∨ (s.progress = .start ∧ admitted c s = true ∧ t = pause ((advance c .start).run (accept (encode c) s)))
            ∨ (s.progress ≠ .start ∧ t = pause ((advance c s.progress).run s.resumed))) := by
  unfold accessTurn at h
  cases hw : s.running with
  | none =>
    simp only [hw] at h
    injection h with h
    exact .inl ⟨rfl, h.symm⟩
  | some w =>
    cases hd : decode w with
    | error e =>
      simp only [hw, hd] at h
      exact .inr (.inl ⟨w, rfl, h⟩)
    | ok c =>
      obtain rfl := encode_of_decode hd
      refine .inr (.inr ⟨c, rfl, ?_⟩)
      simp only [hw, hd] at h
      split at h
      · rename_i hp
        rw [admission_accept] at h
        cases ha : admission c s with
        | some r =>
          simp only [ha] at h
          injection h with h
          exact .inl ⟨r, h.symm⟩
        | none =>
          simp only [ha] at h
          split at h
          · cases h
          · rename_i hdev
            injection h with h
            exact .inr (.inl ⟨hp, (admitted_iff c s).2 ⟨ha, by simpa using hdev⟩, h.symm⟩)
      · rename_i hp
        injection h with h
        exact .inr (.inr ⟨hp, h.symm⟩)

/-- One access of the engine keeps the invariant. -/
theorem Inv.accessTurn {s t : State} (h : Inv s) (ht : accessTurn s = .next t) : Inv t := by
  rcases accessTurn_next ht with ⟨-, rfl⟩ | ⟨w, hw, hi⟩ | ⟨c, hw, ⟨r, rfl⟩ | ⟨hp, ha, rfl⟩ | ⟨hp, rfl⟩⟩
  · exact h
  · exact h.runIllegal hw hi
  · exact inv_errorTerminate r h.memory (h.released hw)
  · exact inv_pause (lands_advance (h.working_accept hw hp (tablesReady_of_admitted ha)))
  · exact inv_pause (lands_advance (h.working_resumed hw hp))

/-! ### The host's events -/

/-- A state in which nothing is valid and no command runs. -/
theorem inv_resetRegisters {s : State} (hm : s.mem.wf = true) (r : Bool) : Inv { resetRegisters s with rst := r } where
  memory := hm
  triples := rfl
  nsymZero := ⟨fun _ => ⟨rfl, rfl, rfl⟩, fun _ => rfl⟩
  nsymMax := Nat.zero_le _
  counts h := by cases h
  alphabetIs h := by cases h
  ranking h := by cases h
  padding h := by rcases h with h | h <;> cases h
  someCode h := by cases h
  capacity := Nat.zero_le _
  hidden _ := ⟨rfl, rfl, rfl⟩
  running h := by cases h
  placed w h := by cases h
  held h := by
    cases h
    rfl
  info _ := rfl
  dropped h := absurd rfl h

/-- What the host does to memory, to the word read and to the list of inputs keeps the invariant, if it races no idle
engine. -/
theorem Inv.host {s : State} (h : Inv s) {m : Memory} (hm : m.wf = true) {l : List Host.Cell}
    (hl : s.busy = false → l = []) (es : List Event) (v : Word) (n : Nat) :
    Inv { s with mem := m, raced := l, inputs := es, readData := v, draws := n } :=
  { h with
    memory := hm
    hidden := fun hb => ⟨(h.hidden hb).1, (h.hidden hb).2.1, hl hb⟩
    placed := fun w hw => by
      have := h.placed w hw
      cases hd : decode w with
      | error e =>
        rw [hd] at this
        exact this
      | ok c =>
        rw [hd] at this
        change s.progress.fits c s at this
        change s.progress.fits c _
        cases hp : s.progress <;> rw [hp] at this <;> exact this
    held := fun hr => by
      have e := h.held hr
      rw [hl (congrArg State.busy e)]
      calc ({ s with mem := m, raced := [], inputs := es, readData := v, draws := n } : State)
          = { ({ resetRegisters s with rst := true } : State) with
              mem := m, raced := [], inputs := es, readData := v, draws := n } := by rw [← e]
        _ = _ := rfl }

/-- The invariant of an idle engine whose `rst` is released. -/
theorem inv_idle {s : State} (tables : TablesOk .start s) (hb : s.busy = false) (hr : s.rst = false)
    (hidden : s.progress = .start ∧ s.cursor = 0 ∧ s.raced = []) (info : s.err = none → s.errInfo = 0)
    (dropped : s.err ≠ none → NoResults s) : Inv s := by
  obtain ⟨hp, hc, hq⟩ := hidden
  have hrun : s.running = none := by
    rw [State.busy] at hb
    simpa using hb
  rw [← hp] at tables
  exact { tables with
    capacity := hc ▸ Nat.zero_le _
    hidden := fun _ => ⟨hp, hc, hq⟩
    running := fun h => by cases hb.symm.trans h
    placed := fun w h => by cases hrun.symm.trans h
    held := fun h => by cases hr.symm.trans h
    info := info
    dropped := dropped }

/-- Acceptance on an idle engine (30_encoding.md R116). -/
theorem Inv.accept {s : State} (h : Inv s) (hb : s.busy = false) (hr : s.rst = false) (w : Word) :
    Inv (accept w s) := by
  obtain ⟨hp, -, -⟩ := h.hidden hb
  have tables := h.tables
  rw [hp] at tables
  exact { tables with
    capacity := Nat.zero_le _
    hidden := fun h => by cases h
    running := fun _ => ⟨rfl, rfl⟩
    placed := fun w' hw => by
      cases decode w' with
      | ok c => exact rfl
      | error e => exact ⟨rfl, rfl⟩
    held := fun h => by cases hr.symm.trans h
    info := fun _ => rfl
    dropped := fun h => absurd rfl h }

/-- A host write keeps the invariant, whatever the register (20_memory.md R71). -/
theorem Inv.portWrite {s : State} (h : Inv s) (idx : BitVec 12) (v : Word) : Inv (portWrite idx v s) := by
  by_cases hbusy : s.busy = true
  · rwa [portWrite_busy hbusy]
  by_cases hrst : s.rst = true
  · rwa [portWrite_held hrst]
  have hb : s.busy = false := by simpa using hbusy
  have hr : s.rst = false := by simpa using hrst
  have tables := h.tables
  rw [(h.hidden hb).1] at tables
  rw [portWrite_idle hb hr]
  cases regAt idx with
  | cmd => exact h.accept hb hr v
  | ctrl | srcAddr | srcLen | dstAddr | dstCap =>
    exact inv_idle { tables with } hb hr (h.hidden hb) h.info h.dropped
  | status =>
    rw [writeIdle, writeStatus_eq]
    refine inv_idle { tables with } hb hr (h.hidden hb) (fun he => ?_) (fun he => h.dropped fun e => he ?_)
    · cases hv : v.getLsbD 2
      · simp only [hv, Bool.false_eq_true, if_false] at he ⊢
        exact h.info he
      · rfl
    · simp [e]
  | id | dstLen | nsym | total | bitLen | bsOff | errInfo | reserved => exact h
  | freq _ | psym _ | clen _ | probLo _ | probHi _ | cbits _ _ => exact h

/-- Driving `rst` keeps the invariant (70_reset_and_hazards.md R260). -/
theorem Inv.driveReset {s : State} (h : Inv s) (b : Bool) : Inv (driveReset b s) := by
  unfold Machine.driveReset
  split
  · exact inv_resetRegisters h.memory true
  · split
    · exact inv_resetRegisters h.memory false
    · exact h

/-- Every event keeps the invariant. -/
theorem Inv.event {s t : State} (h : Inv s) {e : Event} (ht : event e s = .next t) : Inv t := by
  cases e with
  | engine => exact h.engineTurn ht
  | access => exact h.accessTurn ht
  | portWrite idx v =>
    injection ht with ht
    exact ht ▸ h.portWrite idx v
  | portRead idx =>
    injection ht with ht
    exact ht ▸ h.host h.memory (fun hb => (h.hidden hb).2.2) _ _ _
  | memWrite a b =>
    injection ht with ht
    refine ht ▸ h.host (Memory.wf_write _ _ _ h.memory a.isLt) (fun hb => ?_) _ _ _
    rw [hb]
    exact (h.hidden hb).2.2
  | memRead a =>
    injection ht with ht
    exact ht ▸ h.host h.memory (fun hb => (h.hidden hb).2.2) _ _ _
  | reset =>
    injection ht with ht
    exact ht ▸ inv_resetRegisters h.memory false
  | rst b =>
    injection ht with ht
    exact ht ▸ h.driveReset b

/-- Settles O59: whoever has the turn, the invariant is kept. -/
theorem everyStepKeepsTheInvariant : Obligations.EveryStepKeepsTheInvariant := by
  intro s t h ht
  rcases step_cases s with ⟨-, e⟩ | ⟨e, rest, -, e'⟩
  · exact h.engineTurn (e ▸ ht)
  · exact (h.host h.memory (fun hb => (h.hidden hb).2.2) rest s.readData s.draws).event (e' ▸ ht)

/-- Settles O58: at reset nothing is valid and no command runs. -/
theorem invariantHoldsAtReset : Obligations.InvariantHoldsAtReset :=
  inv_resetRegisters (s := State.reset) Memory.wf_nil false

end Sys2Proof.Machine
end

section
/-! PROOFS. What a table without a value holds is never seen (10_state.md R43, R46; U2): two machines that differ only
there make the same accesses, end alike, and show the host the same words. -/

namespace Sys2Proof.Machine

variable {α : Type}

/-! ### Machines that differ in their tables -/

/-- The tables of 10_state.md R42 to R44. -/
structure Tables where
  freq : Table Word
  psym : Table Byte
  prob : Table Double
  codes : CodeTable

/-- The state with other tables. -/
def State.withTables (s : State) (T : Tables) : State :=
  { s with freq := T.freq, psym := T.psym, prob := T.prob, codes := T.codes }

/-- The tables `T` differ from those of the state only where these hold no value, the command being at the place `p`. -/
structure Unseen (p : Progress) (s : State) (T : Tables) : Prop where
  freq : s.fv = true ∨ p.counting = true → T.freq = s.freq
  ranks : s.pv = true → ∀ i, i < s.nsym.toNat → T.psym.at i = s.psym.at i ∧ T.prob.at i = s.prob.at i
  codes : s.cv = true ∨ p.parsing = true → T.codes = s.codes

theorem indistinct_withTables {s : State} {T : Tables} (h : Unseen s.progress s T) : Indistinct s (s.withTables T) :=
  ⟨rfl, h.freq, h.ranks, h.codes⟩

theorem Indistinct.exists_tables {s t : State} (h : Indistinct s t) :
    ∃ T, t = s.withTables T ∧ Unseen s.progress s T :=
  ⟨⟨t.freq, t.psym, t.prob, t.codes⟩, h.rest, h.freq, h.ranks, h.codes⟩

/-- Where no flag is 1 and no table is being rebuilt, no table holds a value. -/
theorem unseen_of_noFlags {p : Progress} {s : State} (hf : s.fv = false) (hp : s.pv = false) (hc : s.cv = false)
    (hcount : p.counting = false) (hparse : p.parsing = false) (T : Tables) : Unseen p s T where
  freq h := by simp [hf, hcount] at h
  ranks h := by simp [hp] at h
  codes h := by simp [hc, hparse] at h

/-- Two results of a piece of a command: the same, but for tables that are as `Q` says where it ran to its end. -/
def Twins (Q : α → State → Tables → Prop) : EStateM.Result Raise State α → EStateM.Result Raise State α → Prop
  | .ok a s, y => ∃ T, y = .ok a (s.withTables T) ∧ Q a s T
  | .error r s, y => ∃ T, y = .error r (s.withTables T)

/-- Pieces that are alike, one after the other. -/
theorem twins_bind {β : Type} {m : Engine α} {f : α → Engine β} {s : State} {T : Tables}
    {P : α → State → Tables → Prop} {Q : β → State → Tables → Prop}
    (hm : Twins P (m.run s) (m.run (s.withTables T)))
    (hf : ∀ a t U, m.run s = .ok a t → P a t U → Twins Q ((f a).run t) ((f a).run (t.withTables U))) :
    Twins Q ((m >>= f).run s) ((m >>= f).run (s.withTables T)) := by
  rw [run_bind, run_bind]
  cases hr : m.run s with
  | error r t =>
    rw [hr] at hm
    obtain ⟨U, e⟩ := hm
    rw [e]
    exact ⟨U, rfl⟩
  | ok a t =>
    rw [hr] at hm
    obtain ⟨U, e, hP⟩ := hm
    rw [e]
    exact hf a t U hr hP

/-- A choice is alike if it is made alike. -/
theorem ite_twins {p q : Prop} [Decidable p] [Decidable q] {m n m' n' : Engine α} {s t : State}
    {Q : α → State → Tables → Prop} (hpq : p ↔ q) (hm : p → Twins Q (m.run s) (m'.run t))
    (hn : ¬ p → Twins Q (n.run s) (n'.run t)) :
    Twins Q ((if p then m else n).run s) ((if q then m' else n').run t) := by
  by_cases h : p
  · rw [if_pos h, if_pos (hpq.1 h)]
    exact hm h
  · rw [if_neg h, if_neg (mt hpq.2 h)]
    exact hn h

/-- What a piece of a command leaves unseen: at the place it stops at, or with the stages at their end. -/
def UnseenAfter (o : Option Progress) (s : State) (T : Tables) : Prop := Unseen (o.getD .start) s T

/-! ### The memory port does not look at the tables -/

@[simp] theorem memOK_withTables (s : State) (T : Tables) (a : Word) (k : AccessKind) :
    (s.withTables T).memOK a k = s.memOK a k := rfl

@[simp] theorem srcAt_withTables (s : State) (T : Tables) (i : Nat) : (s.withTables T).srcAt i = s.srcAt i := rfl

@[simp] theorem dstAt_withTables (s : State) (T : Tables) (i : Nat) : (s.withTables T).dstAt i = s.dstAt i := rfl

@[simp] theorem olderValues_withTables (s : State) (T : Tables) (a : Word) :
    (s.withTables T).olderValues a = s.olderValues a := rfl

theorem busRead_withTables (a : Word) (s : State) (T : Tables) :
    busRead a (s.withTables T) = ((busRead a s).1, (busRead a s).2.withTables T) := by
  unfold busRead
  rw [olderValues_withTables]
  split <;> rfl

theorem busWrite_withTables (a : Word) (b : Byte) (s : State) (T : Tables) :
    busWrite a b (s.withTables T) = (busWrite a b s).withTables T := by
  unfold busWrite
  rw [olderValues_withTables, show (s.withTables T).draws = s.draws from rfl]
  split
  · rfl
  · split <;> rfl

/-- A result with other tables in its state. -/
def retable (T : Tables) : EStateM.Result Raise State α → EStateM.Result Raise State α
  | .ok a s => .ok a (s.withTables T)
  | .error r s => .error r (s.withTables T)

theorem srcByte_withTables (i : Nat) (s : State) (T : Tables) :
    (srcByte i).run (s.withTables T) = retable T ((srcByte i).run s) := by
  rw [srcByte_run, srcByte_run, srcAt_withTables, memRead_run, memRead_run, memOK_withTables, busRead_withTables]
  split <;> rfl

theorem put_withTables (b : Byte) (s : State) (T : Tables) :
    (put b).run (s.withTables T) = retable T ((put b).run s) := by
  rw [put_run, put_run, dstAt_withTables, memOK_withTables, busWrite_withTables,
    show (s.withTables T).cursor = s.cursor from rfl, show (s.withTables T).dstCap = s.dstCap from rfl]
  split
  · rfl
  · split <;> rfl

/-- What follows a read is alike if it is alike for every byte read. -/
theorem read_twins {i : Nat} {s : State} {T : Tables} {Q : α → State → Tables → Prop} {f : Byte → Engine α}
    (h : ∀ b d l, Twins Q ((f b).run { s with draws := d, accesses := l })
      ((f b).run (State.withTables { s with draws := d, accesses := l } T))) :
    Twins Q ((srcByte i >>= f).run s) ((srcByte i >>= f).run (s.withTables T)) := by
  rw [run_bind, run_bind, srcByte_withTables]
  rcases srcByte_cases i s with ⟨b, d, l, hr⟩ | ⟨r, hr⟩ <;> rw [hr]
  · exact h b d l
  · exact ⟨T, rfl⟩

/-- A byte is put alike. -/
theorem put_twins {p q : Progress} {b : Byte} {s : State} {T : Tables} (u : Unseen p s T)
    (hq : ∀ t, Unseen p t T → Unseen q t T) :
    Twins UnseenAfter ((do put b; pure (some q) : Engine (Option Progress)).run s)
      ((do put b; pure (some q) : Engine (Option Progress)).run (s.withTables T)) := by
  rw [run_bind, run_bind, put_withTables]
  rcases put_cases b s with ⟨m, d, l, -, -, hr⟩ | ⟨r, hr⟩ <;> rw [hr]
  · exact ⟨T, rfl, hq _ { u with }⟩
  · exact ⟨T, rfl⟩

/-! ### The stages between two accesses -/

/-- PTAB fills its tables from the counts and TOTAL, and writes PV and CV. -/
theorem ptabResults_cases (s : State) :
    ∃ P R, ptabResults s = { s with psym := P, prob := R, pv := true, cv := false }
      ∧ ∀ (i : Nat) (h : i < (sortEntries (entries s.freq s.total.toNat)).length),
          P.at i = (sortEntries (entries s.freq s.total.toNat))[i].symbol
            ∧ R.at i = (sortEntries (entries s.freq s.total.toNat))[i].prob :=
  ⟨_, _, ptabResults_eq s, fun _ h => ptabResults_at s h⟩

theorem ptabStage_twins {s : State} {T : Tables} (h : TablesOk .start s) (hf : s.fv = true) (u : Unseen .start s T) :
    Twins (fun _ => Unseen .start) (ptabStage.run s) (ptabStage.run (s.withTables T)) := by
  have hfreq : T.freq = s.freq := u.freq (.inl hf)
  have hent : entries (s.withTables T).freq (s.withTables T).total.toNat = entries s.freq s.total.toNat :=
    congrArg (entries · s.total.toNat) hfreq
  obtain ⟨P, R, e, hat⟩ := ptabResults_cases { s with stage := .ptab }
  obtain ⟨P', R', e', hat'⟩ := ptabResults_cases { s.withTables T with stage := .ptab }
  simp only [hent] at hat'
  rw [ptabStage_run, ptabStage_run, e, e']
  refine ⟨⟨T.freq, P', R', T.codes⟩, rfl, fun _ => hfreq, fun _ i hi => ?_, fun hc => ?_⟩
  · have hlt : i < (sortEntries (entries s.freq s.total.toNat)).length := by
      rw [sortEntries_length, ← h.alphabetIs hf rfl]
      exact hi
    exact ⟨(hat' i hlt).1.trans (hat i hlt).1.symm, (hat' i hlt).2.trans (hat i hlt).2.symm⟩
  · rcases hc with hc | hc <;> cases hc

theorem probSum_congr {prob prob' : Table Double} {is : List Nat} (h : ∀ i ∈ is, prob'.at i = prob.at i) :
    probSum prob' is = probSum prob is :=
  List.foldl_ext _ _ _ fun p i hi => congrArg (fadd p) (h i hi)

theorem firstAbove_congr {prob prob' : Table Double} (half : Double) {is : List Nat} (p : Double)
    (h : ∀ i ∈ is, prob'.at i = prob.at i) : firstAbove prob' half p is = firstAbove prob half p is := by
  induction is generalizing p with
  | nil => rfl
  | cons i is ih =>
    simp only [firstAbove, h i (by simp)]
    rw [ih _ fun j hj => h j (by simp [hj])]

/-- The split point of a range is a matter of the probabilities in it. -/
theorem splitPoint_congr {prob prob' : Table Double} {lo hi : Nat} (h : ∀ i ∈ indexes lo hi, prob'.at i = prob.at i) :
    splitPoint prob' lo hi = splitPoint prob lo hi := by
  unfold splitPoint
  rw [probSum_congr h, firstAbove_congr _ _ h]

theorem appendBits_congr {psym psym' : Table Byte} (split : Nat) {is : List Nat} (t : CodeTable)
    (h : ∀ i ∈ is, psym'.at i = psym.at i) : appendBits psym' split is t = appendBits psym split is t := by
  induction is generalizing t with
  | nil => rfl
  | cons i is ih => rw [appendBits, appendBits, h i (by simp), ih _ fun j hj => h j (by simp [hj])]

/-- Bisect looks at the entries of its range and at no other. -/
theorem bisect_congr {psym psym' : Table Byte} {prob prob' : Table Double} (fuel : Nat) {lo hi : Nat} (t : CodeTable)
    (hlo : lo ≤ hi) (h : ∀ i ∈ indexes lo hi, psym'.at i = psym.at i ∧ prob'.at i = prob.at i) :
    bisect psym' prob' fuel lo hi t = bisect psym prob fuel lo hi t := by
  induction fuel generalizing lo hi t with
  | zero => rfl
  | succ fuel ih =>
    rcases Nat.eq_or_lt_of_le hlo with rfl | hlt
    · rw [bisect_self, bisect_self]
    · have hs := splitPoint_bounds prob hlt
      have parts := indexes_split hs.1 hs.2
      rw [bisect_succ _ _ _ _ hlt, bisect_succ _ _ _ _ hlt, splitPoint_congr fun i hi => (h i hi).2,
        appendBits_congr _ _ fun i hi => (h i hi).1,
        ih _ (by omega) fun i hi => h i (parts ▸ List.mem_append_left _ hi),
        ih _ (by omega) fun i hi => h i (parts ▸ List.mem_append_right _ hi)]

/-- TREE looks at the first NSYM entries and at no other. -/
theorem buildTree_congr {psym psym' : Table Byte} {prob prob' : Table Double} {n : Nat} (hn : 1 ≤ n)
    (h : ∀ i, i < n → psym'.at i = psym.at i ∧ prob'.at i = prob.at i) :
    buildTree psym' prob' n = buildTree psym prob n := by
  rw [buildTree, buildTree, (h 0 hn).1]
  refine if_congr Iff.rfl rfl (bisect_congr n _ (Nat.zero_le _) fun i hi => h i ?_)
  rw [indexes_zero hn] at hi
  exact List.mem_range.1 hi

theorem treeStage_twins {s : State} {T : Tables} (h : TablesOk .start s) (hp : s.pv = true) (u : Unseen .start s T) :
    Twins (fun _ => Unseen .start) (treeStage.run s) (treeStage.run (s.withTables T)) := by
  refine ⟨⟨T.freq, T.psym, T.prob, buildTree T.psym T.prob s.nsym.toNat⟩, rfl, u.freq, u.ranks, fun _ => ?_⟩
  exact buildTree_congr (h.ranked hp).1 (u.ranks hp)

/-- The header is a matter of the tables that hold a value (42_encoder.md R171). -/
theorem artifactHeader_withTables {p : Progress} {s : State} {T : Tables} (hp : s.pv = true) (hv : s.cv = true)
    (u : Unseen p s T) : artifactHeader (s.withTables T) = artifactHeader s := by
  have hrow : ∀ i ∈ List.range s.nsym.toNat, artifactRow (s.withTables T) i = artifactRow s i := by
    intro i hi
    obtain ⟨h1, h2⟩ := u.ranks hp i (List.mem_range.1 hi)
    simp only [artifactRow, State.withTables, h1, h2, u.codes (.inl hv)]
  change dec s.nsym.toNat ++ [LF] ++ (List.range s.nsym.toNat).flatMap (artifactRow (s.withTables T)) ++ [LF] = _
  rw [List.flatMap_congr hrow]
  rfl

theorem emitBegin_twins {s : State} {T : Tables} (hp : s.pv = true) (hv : s.cv = true) (u : Unseen .start s T) :
    Twins UnseenAfter (emitBegin.run s) (emitBegin.run (s.withTables T)) := by
  rw [emitBegin_run, emitBegin_run, artifactHeader_withTables hp hv u]
  exact ⟨T, rfl, { u with }⟩

theorem matchBegin_twins {s : State} {T : Tables} (base : Nat) (u : Unseen .start s T) :
    Twins UnseenAfter ((matchBegin base).run s) ((matchBegin base).run (s.withTables T)) :=
  ⟨T, rfl, { u with }⟩

theorem freqBegin_twins {s : State} {T : Tables} (u : Unseen .start s T) :
    Twins UnseenAfter ((do freqBegin; pure (some (.freq 0)) : Engine (Option Progress)).run s)
      ((do freqBegin; pure (some (.freq 0)) : Engine (Option Progress)).run (s.withTables T)) := by
  refine twins_bind (P := fun _ => Unseen (.freq 0)) ?_ fun _ _ U _ hu => ⟨U, rfl, hu⟩
  exact ite_twins (s := { s with stage := .freq }) Iff.rfl (fun _ => ⟨T, rfl⟩) fun _ =>
    ⟨{ T with freq := Table.zeros }, rfl, { u with freq := fun _ => rfl }⟩

theorem parseBegin_twins {s : State} {T : Tables} (u : Unseen .start s T) :
    Twins UnseenAfter ((do parseBegin; pure (some (.parse 0 Parser.start)) : Engine (Option Progress)).run s)
      ((do parseBegin; pure (some (.parse 0 Parser.start)) : Engine (Option Progress)).run (s.withTables T)) :=
  ⟨{ T with codes := CodeTable.empty }, rfl, { u with codes := fun _ => rfl }⟩

theorem begin_twins {c : Instr} {s : State} {T : Tables} (h : Working c .start s) (u : Unseen .start s T) :
    Twins UnseenAfter ((begin c).run s) ((begin c).run (s.withTables T)) := by
  have hready := h.ready rfl
  cases c with
  | nop => exact ⟨T, rfl, u⟩
  | clear => exact ⟨T, rfl, unseen_of_noFlags rfl rfl rfl rfl rfl T⟩
  | freq | encode => exact freqBegin_twins u
  | ptab =>
    exact twins_bind (ptabStage_twins h.tables hready u) fun _ _ U _ hu => ⟨U, rfl, hu⟩
  | tree =>
    exact twins_bind (treeStage_twins h.tables hready u) fun _ _ U _ hu => ⟨U, rfl, hu⟩
  | emit =>
    obtain ⟨hp, hv⟩ := Bool.and_eq_true_iff.1 hready
    exact emitBegin_twins hp hv u
  | parse | decode => exact parseBegin_twins u
  | matchBits => exact matchBegin_twins 0 u

/-! ### One access -/

theorem Finished.ptabStage {c : Instr} {s t : State} (h : Finished c s) (hf : s.fv = true)
    (ht : Machine.ptabStage.run s = .ok () t) : Finished c t ∧ t.pv = true := by
  rw [ptabStage_run] at ht
  injection ht with _ ht
  subst ht
  exact ⟨h.ptab hf, by rw [ptabResults_eq]⟩

theorem afterFreq_twins {c : Instr} {s : State} {T : Tables} (h : Finished c s) (hf : s.fv = true)
    (u : Unseen .start s T) : Twins UnseenAfter ((afterFreq c).run s) ((afterFreq c).run (s.withTables T)) := by
  cases c with
  | encode =>
    refine twins_bind (ptabStage_twins h.tables hf u) fun _ t U ht hu => ?_
    obtain ⟨fin, hpv⟩ := h.ptabStage hf ht
    refine twins_bind (treeStage_twins fin.tables hpv hu) fun _ v V hv hu' => ?_
    rw [treeStage_run] at hv
    cases hv
    exact emitBegin_twins hpv rfl hu'
  | nop | clear | freq | ptab | tree | emit | parse | matchBits | decode => exact ⟨T, rfl, u⟩

theorem freq_twins {c : Instr} {i : Nat} {s : State} {T : Tables} (h : Working c (.freq i) s)
    (u : Unseen (.freq i) s T) :
    Twins UnseenAfter ((freqAccess c i).run s) ((freqAccess c i).run (s.withTables T)) := by
  have hfreq : T.freq = s.freq := u.freq (.inr rfl)
  obtain ⟨-, -, hi, hl, hsum⟩ := h.place
  rw [freqAccess, run_bind, run_bind, run_get, run_get]
  refine ite_twins Iff.rfl (fun hlt => ?_) fun hlt => ?_
  · refine read_twins fun b d l => ?_
    exact ⟨{ T with freq := countByte b T.freq }, rfl, { u with freq := fun _ => congrArg (countByte b) hfreq }⟩
  · rw [run_bind, run_bind, run_modify, run_modify]
    have hres : freqResults (s.withTables T) = (freqResults s).withTables T := by
      unfold freqResults
      rw [show (s.withTables T).freq = s.freq from hfreq]
      rfl
    have fin : Finished c (freqResults s) := ⟨h.tables.freqResults (by omega) hl, { h.control with }⟩
    rw [hres]
    refine afterFreq_twins fin rfl ⟨fun _ => hfreq, fun hp => ?_, fun hv => ?_⟩
    · cases hp
    · rcases hv with hv | hv <;> cases hv

theorem bits_twins {c : Instr} {hdr j : Nat} {rest : List Byte} {s : State} {T : Tables}
    (h : Working c (.bits hdr j rest) s) (u : Unseen (.bits hdr j rest) s T) :
    Twins UnseenAfter ((bitsAccess hdr j rest).run s) ((bitsAccess hdr j rest).run (s.withTables T)) := by
  obtain ⟨-, -, -, hv, -, -⟩ := h.place
  cases rest with
  | cons b rest => exact put_twins u fun t ht => { ht with }
  | nil =>
    rw [bitsAccess, run_bind, run_bind, run_get, run_get]
    refine ite_twins Iff.rfl (fun hlt => ?_) fun hlt => ?_
    · refine read_twins fun b d l => ?_
      have hcodes : (State.withTables { s with draws := d, accesses := l } T).codes = s.codes := u.codes (.inl hv)
      rw [run_bind, run_bind, run_get, run_get]
      dsimp only
      rw [hcodes]
      refine ite_twins Iff.rfl (fun _ => ?_) fun _ => ?_
      · exact ⟨T, rfl⟩
      · exact ⟨T, rfl, { u with }⟩
    · exact ⟨T, rfl, { u with }⟩

theorem afterParse_twins {c : Instr} {s : State} {T : Tables} (u : Unseen .start s T) :
    Twins UnseenAfter ((afterParse c).run s) ((afterParse c).run (s.withTables T)) := by
  cases c with
  | decode => exact matchBegin_twins _ u
  | nop | clear | freq | ptab | tree | emit | encode | parse | matchBits => exact ⟨T, rfl, u⟩

theorem parse_twins {c : Instr} {pos : Nat} {p : Parser} {s : State} {T : Tables} (u : Unseen (.parse pos p) s T) :
    Twins UnseenAfter ((parseAccess c pos p).run s) ((parseAccess c pos p).run (s.withTables T)) := by
  have hcodes : T.codes = s.codes := u.codes (.inr rfl)
  rw [parseAccess, run_bind, run_bind, run_get, run_get]
  refine ite_twins Iff.rfl (fun hlt => ?_) fun hlt => ?_
  · refine read_twins fun b d l => ?_
    have hcodes' : (State.withTables { s with draws := d, accesses := l } T).codes = s.codes := hcodes
    rw [run_bind, run_bind, run_get, run_get]
    dsimp only
    rw [hcodes']
    cases parseByte p s.codes b with
    | bad => exact ⟨T, rfl⟩
    | more p' t => exact ⟨{ T with codes := t }, rfl, { u with codes := fun _ => rfl }⟩
    | done =>
      refine afterParse_twins (s := parseResults p.n (pos + 1) { s with draws := d, accesses := l })
        ⟨fun hf => ?_, fun hp => ?_, fun _ => hcodes⟩
      · rcases hf with hf | hf <;> cases hf
      · cases hp
  · exact ⟨T, rfl⟩

theorem match_twins {c : Instr} {base j start : Nat} {acc : Codeword} {s : State} {T : Tables}
    (h : Working c (.matching base j acc start) s) (u : Unseen (.matching base j acc start) s T) :
    Twins UnseenAfter ((matchAccess base j acc start).run s) ((matchAccess base j acc start).run (s.withTables T)) := by
  obtain ⟨-, -, hv, -, -⟩ := h.place
  rw [matchAccess, run_bind, run_bind, run_get, run_get]
  refine ite_twins Iff.rfl (fun hlt => ?_) fun hlt => ?_
  · refine read_twins fun b d l => ?_
    refine ite_twins Iff.rfl (fun _ => ?_) fun _ => ?_
    · exact ⟨T, rfl⟩
    · have hcodes : (State.withTables { s with draws := d, accesses := l } T).codes = s.codes := u.codes (.inl hv)
      rw [run_bind, run_bind, run_get, run_get]
      dsimp only
      rw [hcodes]
      cases findSymbol s.codes (acc ++ [charBit b]) with
      | some x => exact ⟨T, rfl, { u with }⟩
      | none => exact ⟨T, rfl, { u with }⟩
  · refine ite_twins Iff.rfl (fun _ => ?_) fun _ => ?_
    · exact ⟨T, rfl, { u with }⟩
    · exact ⟨T, rfl⟩

/-- Every access is alike in two machines that differ in tables without a value, and leaves them so. -/
theorem advance_twins {c : Instr} {p : Progress} {s : State} {T : Tables} (h : Working c p s) (u : Unseen p s T) :
    Twins UnseenAfter ((advance c p).run s) ((advance c p).run (s.withTables T)) := by
  cases p with
  | start => exact begin_twins h u
  | freq i => exact freq_twins h u
  | header rest =>
    cases rest with
    | nil => exact ⟨T, rfl, { u with }⟩
    | cons b rest => exact put_twins u fun t ht => { ht with }
  | bits hdr j rest => exact bits_twins h u
  | parse pos p => exact parse_twins u
  | matching base j acc start => exact match_twins h u
  | found base j b start => exact put_twins u fun t ht => { ht with }

/-! ### A command and a step -/

/-- What is left of a command is alike. -/
theorem finish_twins {c : Instr} {p : Progress} {s : State} {T : Tables} (h : Working c p s) (u : Unseen p s T) :
    Twins (fun _ => Unseen .start) ((finish c p).run s) ((finish c p).run (s.withTables T)) := by
  refine Working.induction (motive := fun p s => ∀ T, Unseen p s T → Twins (fun _ => Unseen .start)
    ((finish c p).run s) ((finish c p).run (s.withTables T))) (fun p s h ih T u => ?_) h T u
  have ha := advance_twins h u
  rw [finish_eq_advance, finish_eq_advance]
  cases hr : (advance c p).run s with
  | error r t =>
    rw [hr] at ha
    obtain ⟨U, e⟩ := ha
    rw [e]
    exact ⟨U, rfl⟩
  | ok o t =>
    rw [hr] at ha
    obtain ⟨U, e, hu⟩ := ha
    rw [e]
    cases o with
    | none => exact ⟨U, rfl, hu⟩
    | some q => exact ih q t hr U hu

theorem errorTerminate_indistinct (r : Raise) (s : State) (T : Tables) :
    Indistinct (errorTerminate r s) (errorTerminate r (s.withTables T)) :=
  indistinct_withTables (s := errorTerminate r s) (unseen_of_noFlags rfl rfl rfl rfl rfl T)

theorem normalTerminate_indistinct {s : State} {T : Tables} (u : Unseen .start s T) :
    Indistinct (normalTerminate s) (normalTerminate (s.withTables T)) :=
  indistinct_withTables (s := normalTerminate s) { u with }

theorem Twins.terminate {x y : EStateM.Result Raise State Unit} (h : Twins (fun _ => Unseen .start) x y) :
    Indistinct (terminate x) (terminate y) := by
  cases x with
  | ok _ s =>
    obtain ⟨T, rfl, u⟩ := h
    exact normalTerminate_indistinct u
  | error r s =>
    obtain ⟨T, rfl⟩ := h
    exact errorTerminate_indistinct r s T

theorem Twins.pause {x y : EStateM.Result Raise State (Option Progress)} (h : Twins UnseenAfter x y) :
    Indistinct (pause x) (pause y) := by
  rcases x with ⟨_ | q, s⟩ | ⟨r, s⟩
  · obtain ⟨T, rfl, u⟩ := h
    exact normalTerminate_indistinct u
  · obtain ⟨T, rfl, u⟩ := h
    exact indistinct_withTables (s := { s with progress := q }) { u with }
  · obtain ⟨T, rfl⟩ := h
    exact errorTerminate_indistinct r s T

/-! ### A step -/

theorem admission_withTables (c : Instr) (s : State) (T : Tables) : admission c (s.withTables T) = admission c s := by
  cases c <;> rfl

/-- A command in two machines that differ in tables without a value. -/
theorem runCommand_indistinct {c : Instr} {s : State} {T : Tables} (h : Inv s) (hw : s.running = some (encode c))
    (hp : s.progress = .start) (u : Unseen .start s T) :
    IndistinctOutcomes (runCommand c (stages c) s) (runCommand c (stages c) (s.withTables T)) := by
  unfold runCommand
  rw [admission_accept, admission_accept, admission_withTables]
  cases ha : admission c s with
  | some r => exact errorTerminate_indistinct r (accept (encode c) s) T
  | none =>
    rw [show touchesDevice c (s.withTables T) = touchesDevice c s from rfl]
    cases hd : touchesDevice c s with
    | true => exact rfl
    | false =>
      have hready := tablesReady_of_admitted ((admitted_iff c s).2 ⟨ha, hd⟩)
      exact (finish_twins (T := T) (h.working_accept hw hp hready) { u with }).terminate

theorem engineTurn_indistinct {s : State} {T : Tables} (h : Inv s) (u : Unseen s.progress s T) :
    IndistinctOutcomes (engineTurn s) (engineTurn (s.withTables T)) := by
  unfold engineTurn
  rw [show (s.withTables T).running = s.running from rfl, show (s.withTables T).progress = s.progress from rfl]
  cases hw : s.running with
  | none => exact indistinct_withTables u
  | some w =>
    dsimp only
    cases hd : decode w with
    | error e => exact errorTerminate_indistinct _ (accept w s) T
    | ok c =>
      obtain rfl := encode_of_decode hd
      dsimp only
      by_cases hp : s.progress = .start
      · rw [if_pos hp, if_pos hp, exec_eq_runCommand, exec_eq_runCommand]
        exact runCommand_indistinct h hw hp (hp ▸ u)
      · rw [if_neg hp, if_neg hp]
        exact (finish_twins (T := T) (h.working_resumed hw hp) { u with }).terminate

theorem accessTurn_indistinct {s : State} {T : Tables} (h : Inv s) (u : Unseen s.progress s T) :
    IndistinctOutcomes (accessTurn s) (accessTurn (s.withTables T)) := by
  unfold accessTurn
  rw [show (s.withTables T).running = s.running from rfl, show (s.withTables T).progress = s.progress from rfl]
  cases hw : s.running with
  | none => exact indistinct_withTables u
  | some w =>
    dsimp only
    cases hd : decode w with
    | error e => exact errorTerminate_indistinct _ (accept w s) T
    | ok c =>
      obtain rfl := encode_of_decode hd
      dsimp only
      by_cases hp : s.progress = .start
      · rw [if_pos hp, if_pos hp, admission_accept, admission_accept, admission_withTables]
        cases ha : admission c s with
        | some r => exact errorTerminate_indistinct r (accept (encode c) s) T
        | none =>
          rw [show touchesDevice c (s.withTables T) = touchesDevice c s from rfl]
          cases hdev : touchesDevice c s with
          | true => exact rfl
          | false =>
            have hready := tablesReady_of_admitted ((admitted_iff c s).2 ⟨ha, hdev⟩)
            rw [hp] at u
            exact (advance_twins (T := T) (h.working_accept hw hp hready) { u with }).pause
      · rw [if_neg hp, if_neg hp]
        exact (advance_twins (T := T) (h.working_resumed hw hp) { u with }).pause

/-- A window whose table holds no value is not read from it (10_state.md R43, R46). -/
theorem readIdle_withTables {p : Progress} {s : State} {T : Tables} (u : Unseen p s T) (r : Reg) :
    readIdle (s.withTables T) r = readIdle s r := by
  have rank : ∀ {β : Type} (i : Byte) (f : Byte → Double → β),
      (if s.pv = true ∧ i.toNat < s.nsym.toNat then some (f (T.psym.at i.toNat) (T.prob.at i.toNat)) else none)
        = if s.pv = true ∧ i.toNat < s.nsym.toNat then some (f (s.psym.at i.toNat) (s.prob.at i.toNat)) else none := by
    intro β i f
    by_cases h : s.pv = true ∧ i.toNat < s.nsym.toNat
    · rw [if_pos h, if_pos h, (u.ranks h.1 _ h.2).1, (u.ranks h.1 _ h.2).2]
    · rw [if_neg h, if_neg h]
  have code : ∀ (f : CodeTable → Word),
      (if s.cv = true then some (f T.codes) else none) = if s.cv = true then some (f s.codes) else none := by
    intro f
    by_cases h : s.cv = true
    · rw [if_pos h, if_pos h, u.codes (.inl h)]
    · rw [if_neg h, if_neg h]
  cases r with
  | freq b =>
    change (if s.fv = true then some (T.freq.at b.toNat) else none) = _
    by_cases h : s.fv = true
    · rw [readIdle, if_pos h, if_pos h, u.freq (.inl h)]
    · rw [readIdle, if_neg h, if_neg h]
  | psym i => exact rank i fun x _ => x.setWidth 32
  | probLo i => exact rank i fun _ x => x.extractLsb' 0 32
  | probHi i => exact rank i fun _ x => x.extractLsb' 32 32
  | clen b => exact code fun t => (t.clen.at b.toNat).setWidth 32
  | cbits b w => exact code fun t => t.word b w
  | id | ctrl | status | cmd | srcAddr | srcLen | dstAddr | dstCap | dstLen | nsym | total | bitLen | bsOff | errInfo
  | reserved => rfl

theorem portValue_withTables {p : Progress} {s : State} {T : Tables} (u : Unseen p s T) (idx : BitVec 12) :
    portValue (s.withTables T) idx = portValue s idx := by
  cases hb : s.busy with
  | true =>
    rw [portValue_busy hb, portValue_busy (s := s.withTables T) hb]
    cases regAt idx <;> rfl
  | false =>
    rw [portValue_idle hb, portValue_idle (s := s.withTables T) hb, readIdle_withTables u]
    rfl

theorem writeIdle_withTables (v : Word) (s : State) (T : Tables) (r : Reg) :
    writeIdle v (s.withTables T) r = (writeIdle v s r).withTables T := by
  cases r with
  | status =>
    rw [writeIdle, writeIdle, writeStatus_eq, writeStatus_eq]
    rfl
  | id | ctrl | cmd | srcAddr | srcLen | dstAddr | dstCap | dstLen | nsym | total | bitLen | bsOff | errInfo | reserved
  | freq _ | psym _ | clen _ | probLo _ | probHi _ | cbits _ _ => rfl

theorem portWrite_indistinct {s : State} {T : Tables} (h : Inv s) (u : Unseen s.progress s T) (idx : BitVec 12)
    (v : Word) : Indistinct (portWrite idx v s) (portWrite idx v (s.withTables T)) := by
  by_cases hbusy : s.busy = true
  · rw [portWrite_busy hbusy, portWrite_busy (s := s.withTables T) hbusy]
    exact indistinct_withTables u
  by_cases hrst : s.rst = true
  · rw [portWrite_held hrst, portWrite_held (s := s.withTables T) hrst]
    exact indistinct_withTables u
  have hb : s.busy = false := by simpa using hbusy
  have hr : s.rst = false := by simpa using hrst
  rw [portWrite_idle hb hr, portWrite_idle (s := s.withTables T) hb hr, writeIdle_withTables]
  apply indistinct_withTables
  have hp : s.progress = .start := (h.hidden hb).1
  cases regAt idx with
  | cmd =>
    rw [hp] at u
    exact { u with }
  | status =>
    rw [writeIdle, writeStatus_eq]
    exact { u with }
  | ctrl | srcAddr | srcLen | dstAddr | dstCap => exact { u with }
  | id | dstLen | nsym | total | bitLen | bsOff | errInfo | reserved => exact u
  | freq _ | psym _ | clen _ | probLo _ | probHi _ | cbits _ _ => exact u

theorem driveReset_indistinct {s : State} {T : Tables} (u : Unseen s.progress s T) (b : Bool) :
    Indistinct (driveReset b s) (driveReset b (s.withTables T)) := by
  cases b with
  | true =>
    exact indistinct_withTables (s := { resetRegisters s with rst := true }) (unseen_of_noFlags rfl rfl rfl rfl rfl T)
  | false =>
    by_cases hr : s.rst = true
    · rw [driveReset_release hr, driveReset_release (s := s.withTables T) hr]
      exact indistinct_withTables (s := resetRegisters s) (unseen_of_noFlags rfl rfl rfl rfl rfl T)
    · rw [Bool.not_eq_true] at hr
      rw [driveReset_released hr, driveReset_released (s := s.withTables T) hr]
      exact indistinct_withTables u

theorem event_indistinct {s : State} {T : Tables} (h : Inv s) (u : Unseen s.progress s T) (e : Event) :
    IndistinctOutcomes (event e s) (event e (s.withTables T)) := by
  cases e with
  | engine => exact engineTurn_indistinct h u
  | access => exact accessTurn_indistinct h u
  | portWrite idx v => exact portWrite_indistinct h u idx v
  | portRead idx =>
    rw [event, event, portRead, portRead, portValue_withTables u]
    exact indistinct_withTables (s := { s with readData := portValue s idx, draws := s.draws + 1 }) { u with }
  | memWrite a b => exact indistinct_withTables (s := hostWrite a b s) { u with }
  | memRead a => exact indistinct_withTables (s := { s with readData := (s.mem.read a.toNat).setWidth 32 }) { u with }
  | reset => exact indistinct_withTables (s := resetRegisters s) (unseen_of_noFlags rfl rfl rfl rfl rfl T)
  | rst b => exact driveReset_indistinct u b

/-- Settles O60: whoever has the turn, the two machines do the same, but for tables that hold no value. -/
theorem tablesWithoutValueCannotBeSeen : Obligations.TablesWithoutValueCannotBeSeen := by
  intro s t h _ hi
  obtain ⟨T, rfl, u⟩ := hi.exists_tables
  unfold step turn
  rw [show (s.withTables T).inputs = s.inputs from rfl]
  cases s.inputs with
  | nil => exact engineTurn_indistinct h u
  | cons e rest =>
    have h' := h.host h.memory (fun hb => (h.hidden hb).2.2) rest s.readData s.draws
    exact event_indistinct (s := { s with inputs := rest }) h' { u with } e

end Sys2Proof.Machine
end

section
/-! PROOFS. The host port of an idle engine (10_state.md R21 to R47): what every word reads as, and what a write
does. -/

namespace Sys2Proof.Machine

/-! ### The register map outside the windows (10_state.md R21, R36) -/

/-- The words 14 to 255 and 1536 to 2047 are reserved. -/
theorem regAt_reserved {idx : BitVec 12}
    (h : (14 ≤ idx.toNat ∧ idx.toNat < 256) ∨ (1536 ≤ idx.toNat ∧ idx.toNat < 2048)) : regAt idx = .reserved := by
  unfold regAt
  rcases h with ⟨h1, h2⟩ | ⟨h1, h2⟩
  · simp only [lowReg]
    rw [if_pos (by omega)]
    repeat rw [if_neg (by omega)]
  · simp only
    repeat rw [if_neg (by omega)]
    rw [if_pos (by omega)]

/-- The registers a host write with BUSY = 0 changes (10_state.md R23, R24, R26 to R29; 30_encoding.md R116). -/
def Reg.writable : Reg → Bool
  | .ctrl | .status | .cmd | .srcAddr | .srcLen | .dstAddr | .dstCap => true
  | .id | .dstLen | .nsym | .total | .bitLen | .bsOff | .errInfo | .reserved => false
  | .freq _ | .psym _ | .clen _ | .probLo _ | .probHi _ | .cbits _ _ => false

theorem writeIdle_of_not_writable (v : Word) (s : State) {r : Reg} (h : r.writable = false) : writeIdle v s r = s := by
  cases r with
  | ctrl | status | cmd | srcAddr | srcLen | dstAddr | dstCap => cases h
  | id | dstLen | nsym | total | bitLen | bsOff | errInfo | reserved => rfl
  | freq _ | psym _ | clen _ | probLo _ | probHi _ | cbits _ _ => rfl

theorem lowReg_not_writable {k : Nat} (h : 8 ≤ k) : (lowReg k).writable = false := by
  unfold lowReg
  iterate 8 rw [if_neg (by omega)]
  repeat' split
  all_goals rfl

/-- ID and every word from 8 on are read-only (R22, R30 to R36, R45). -/
theorem regAt_not_writable {idx : BitVec 12} (h : idx = 0 ∨ 8 ≤ idx.toNat) : (regAt idx).writable = false := by
  rcases h with rfl | h
  · rfl
  · unfold regAt
    dsimp only
    split
    · exact lowReg_not_writable h
    · repeat' split
      all_goals rfl

/-! ### Writes -/

/-- A step on a host write. -/
theorem step_portWrite {s : State} {idx : BitVec 12} {v : Word} {rest : List Event}
    (h : s.inputs = .portWrite idx v :: rest) : step s = .next (portWrite idx v { s with inputs := rest }) := by
  rw [step, turn, h]
  rfl

/-- Settles O13: a host write with BUSY = 0 has the effect of its register, and none while `rst` is asserted. -/
theorem idlePortWrites : Obligations.IdlePortWrites := by
  intro s idx v rest hb hin
  rw [step_portWrite hin]
  refine ⟨fun hr => congrArg _ (portWrite_held (s := { s with inputs := rest }) hr idx v), fun hr => ?_⟩
  rw [portWrite_idle (s := { s with inputs := rest }) hb hr]
  refine ⟨?_, ?_, ?_, ?_, ?_, ?_, fun h => ?_⟩
  · rintro rfl
    rfl
  · rintro rfl
    exact congrArg _ (writeStatus_eq _ v)
  · rintro rfl
    rfl
  · rintro rfl
    rfl
  · rintro rfl
    rfl
  · rintro rfl
    rfl
  · rw [writeIdle_of_not_writable v _ (regAt_not_writable h)]

/-! ### Windows without a value -/

/-- A read of a word that is unspecified returns the free value that stands ready (log 6). -/
theorem portValue_free {s : State} {idx : BitVec 12} (hb : s.busy = false) (h : readIdle s (regAt idx) = none) :
    portValue s idx = Config.freeWord s.draws := by
  rw [portValue_idle hb, h, Option.getD_none]

/-- A read of a word that has a value returns it. -/
theorem portValue_of_readIdle {s : State} {idx : BitVec 12} {v : Word} (hb : s.busy = false)
    (h : readIdle s (regAt idx) = some v) : portValue s idx = v := by
  rw [portValue_idle hb, h, Option.getD_some]

/-- Settles O12: a window without a valid table has no value to read. -/
theorem invalidWindowsReadFreeValues : Obligations.InvalidWindowsReadFreeValues := by
  intro s b w hb hw
  refine ⟨fun hf => portValue_free hb ?_, fun hp => ?_, fun hc => ⟨portValue_free hb ?_, portValue_free hb ?_⟩⟩
  · simp [regAt_freq, readIdle, hf]
  · have hp' : ¬ (s.pv = true ∧ b.toNat < s.nsym.toNat) := by
      rintro ⟨h1, h2⟩
      rcases hp with hp | hp
      · cases hp.symm.trans h1
      · omega
    refine ⟨portValue_free hb ?_, portValue_free hb ?_, portValue_free hb ?_⟩
    · rw [regAt_psym, readIdle, if_neg hp']
    · rw [regAt_probLo, readIdle, if_neg hp']
    · rw [regAt_probHi, readIdle, if_neg hp']
  · simp [regAt_clen, readIdle, hc]
  · simp [regAt_cbits b w hw, readIdle, hc]

/-! ### STATUS, bit by bit (10_state.md R24) -/

theorem bitAt_getLsbD {k i : Nat} (b : Bool) (hi : i < 32) : (bitAt k b).getLsbD i = (b && decide (i = k)) := by
  unfold bitAt
  cases b
  · simp
  · simp only [if_true, BitVec.getLsbD_shiftLeft, BitVec.getLsbD_one, Bool.true_and]
    by_cases h : i = k
    · subst h
      simp [hi]
    · have : ¬ (k ≤ i ∧ i - k = 0) := by omega
      simpa [h, hi] using this

/-- Bit `i` of STATUS: the fields of R24 in their places. -/
theorem statusWord_getLsbD (s : State) {i : Nat} (hi : i < 32) :
    s.statusWord.getLsbD i =
      (s.busy && decide (i = 0) || s.done && decide (i = 1) || s.errBit && decide (i = 2)
        || decide (4 ≤ i) && s.errCode.getLsbD (i - 4) || (s.fv && decide (i = 8) || s.pv && decide (i = 9)
        || s.cv && decide (i = 10) || decide (12 ≤ i) && s.stage.code.getLsbD (i - 12))) := by
  have code : ∀ (c : BitVec 4) (k : Nat), (c.setWidth 32 <<< k).getLsbD i = (decide (k ≤ i) && c.getLsbD (i - k)) := by
    intro c k
    rw [BitVec.getLsbD_shiftLeft, BitVec.getLsbD_setWidth, decide_eq_true hi, decide_eq_true (by omega : i - k < 32)]
    by_cases h : i < k
    · rw [decide_eq_true h, decide_eq_false (by omega)]
      rfl
    · rw [decide_eq_false h, decide_eq_true (by omega)]
      rfl
  simp only [State.statusWord, State.statusLow, State.statusHigh, BitVec.getLsbD_or, bitAt_getLsbD _ hi, code]

theorem errCode_eq (s : State) : s.errCode = match s.err with
    | none => 0
    | some .emptyInput => 1
    | some .unknownSymbol => 2
    | some .unmatchedBits => 3
    | some .malformedArtifact => 4
    | some .illegalCommand => 5
    | some .sequence => 6
    | some .range => 7
    | some .dstOverflow => 8
    | some .bus => 9 := by
  rw [State.errCode]
  rcases s.err with _ | e
  · rfl
  · cases e <;> rfl

theorem stageCode_eq (s : State) : s.stage.code = match s.stage with
    | .none => 0
    | .freq => 1
    | .ptab => 2
    | .tree => 3
    | .emit => 4
    | .parse => 5
    | .matchBits => 6 := by
  cases s.stage <;> rfl

/-- The fields of one bit, and the two bits between the fields. -/
theorem statusWord_bits (s : State) :
    s.statusWord.getLsbD 0 = s.busy ∧ s.statusWord.getLsbD 1 = s.done ∧ s.statusWord.getLsbD 2 = s.errBit
      ∧ s.statusWord.getLsbD 3 = false ∧ s.statusWord.getLsbD 8 = s.fv ∧ s.statusWord.getLsbD 9 = s.pv
      ∧ s.statusWord.getLsbD 10 = s.cv ∧ s.statusWord.getLsbD 11 = false := by
  refine ⟨?_, ?_, ?_, ?_, ?_, ?_, ?_, ?_⟩ <;> rw [statusWord_getLsbD s (by decide)]
  all_goals simp [BitVec.getLsbD_of_ge]

theorem statusWord_errCode (s : State) : s.statusWord.extractLsb' 4 4 = s.errCode := by
  refine BitVec.eq_of_getLsbD_eq fun k hk => ?_
  rw [BitVec.getLsbD_extractLsb', decide_eq_true hk, Bool.true_and, statusWord_getLsbD s (by omega)]
  interval_cases k <;> simp

theorem statusWord_stage (s : State) : s.statusWord.extractLsb' 12 4 = s.stage.code := by
  refine BitVec.eq_of_getLsbD_eq fun k hk => ?_
  rw [BitVec.getLsbD_extractLsb', decide_eq_true hk, Bool.true_and, statusWord_getLsbD s (by omega)]
  interval_cases k <;> simp

theorem statusWord_high (s : State) : s.statusWord.extractLsb' 16 16 = 0 := by
  refine BitVec.eq_of_getLsbD_eq fun k hk => ?_
  rw [BitVec.getLsbD_extractLsb', decide_eq_true hk, Bool.true_and, statusWord_getLsbD s (by omega),
    BitVec.getLsbD_of_ge s.errCode _ (by omega), BitVec.getLsbD_of_ge s.stage.code _ (by omega)]
  have : ∀ j, j < 16 → ¬ 16 + k = j := by omega
  simp [this]

/-! ### Windows with a value -/

/-- A pattern is its high word and its low word. -/
theorem high_append_low (x : Double) : x.extractLsb' 32 32 ++ x.extractLsb' 0 32 = x := by
  refine BitVec.eq_of_getLsbD_eq fun i hi => ?_
  rw [BitVec.getLsbD_append, BitVec.getLsbD_extractLsb', BitVec.getLsbD_extractLsb']
  by_cases h : i < 32
  · simp [h]
  · have h1 : i - 32 < 32 := by omega
    have h2 : 32 + (i - 32) = i := by omega
    simp [h, h1, h2]

/-- A step on a host read (20_memory.md R71): it has no side effect. -/
theorem step_portRead {s : State} {idx : BitVec 12} {rest : List Event} (h : s.inputs = .portRead idx :: rest) :
    step s = .next { s with inputs := rest, readData := portValue s idx, draws := s.draws + 1 } := by
  rw [step, turn, h]
  rfl

/-- Settles O11: register by register and window by window, the map of R21 read back. -/
theorem windowsShowValidTables : Obligations.WindowsShowValidTables := by
  intro s idx b w rest hb hw
  have status : portValue s 2 = s.statusWord := portValue_of_readIdle hb rfl
  have low : ∀ {r : BitVec 12} {v : Word}, readIdle s (regAt r) = some v → portValue s r = v := portValue_of_readIdle hb
  obtain ⟨h0, h1, h2, h3, h8, h9, h10, h11⟩ := statusWord_bits s
  rw [status]
  refine ⟨step_portRead, low rfl, low rfl, h0.trans hb, h1, h2, h3, (statusWord_errCode s).trans (errCode_eq s), h8,
    h9, h10, h11, (statusWord_stage s).trans (stageCode_eq s), statusWord_high s, low rfl, low rfl, low rfl, low rfl,
    low rfl, low rfl, low rfl, low rfl, low rfl, low rfl, low rfl, fun h => low ?_, fun hf => low ?_,
    fun hp hn => ⟨low ?_, ?_⟩,
    fun hc => ⟨low ?_, fun k hk => ?_⟩⟩
  · rw [regAt_reserved h]
    rfl
  · rw [regAt_freq, readIdle, if_pos hf]
  · rw [regAt_psym, readIdle, if_pos ⟨hp, hn⟩]
  · have high := low (r := BitVec.ofNat 12 ((0x1004 + 8 * b.toNat) / 4)) (v := (s.prob.at b.toNat).extractLsb' 32 32)
      (by rw [regAt_probHi, readIdle, if_pos ⟨hp, hn⟩])
    rw [high, low (by rw [regAt_probLo, readIdle, if_pos ⟨hp, hn⟩])]
    exact high_append_low _
  · rw [regAt_clen, readIdle, if_pos hc]
  · rw [low (by rw [regAt_cbits b w hw, readIdle, if_pos hc]), CodeTable.word, BitVec.getLsbD_extractLsb',
      decide_eq_true hk, Bool.true_and]

end Sys2Proof.Machine
end

section
/-! PROOFS. What each command changes (10_state.md R23 to R34, R40, R41, R45): operands, tables, result registers, flags
and STAGE, stage by stage. -/

namespace Sys2Proof.Machine

variable {α β : Type} {c : Instr}

/-! ### What a piece of a command changes -/

/-- What the stages of the command `c` may change at most: no operand, and of the tables and the result registers those
its stages own (R30 to R34, R45). -/
structure Footprint (c : Instr) (s t : State) : Prop where
  operands : SameOperands s t
  err : t.err = s.err
  freq : c ∉ [.freq, .encode] → t.freq = s.freq
  ranks : c ∉ [.ptab, .encode] → t.psym = s.psym ∧ t.prob = s.prob
  codes : c ∉ [.tree, .encode, .parse, .decode] → t.codes = s.codes
  dstLen : c ∉ [.emit, .encode, .matchBits, .decode, .clear] → t.dstLen = s.dstLen
  counts : c ∉ [.freq, .encode, .parse, .decode, .clear] → t.nsym = s.nsym ∧ t.total = s.total
  bitLen : c ∉ [.emit, .encode, .parse, .matchBits, .decode, .clear] → t.bitLen = s.bitLen
  bsOff : c ∉ [.emit, .encode, .parse, .decode, .clear] → t.bsOff = s.bsOff

theorem Footprint.refl (c : Instr) (s : State) : Footprint c s s where
  operands := ⟨rfl, rfl, rfl, rfl, rfl, rfl, rfl, rfl, rfl⟩
  err := rfl
  freq _ := rfl
  ranks _ := ⟨rfl, rfl⟩
  codes _ := rfl
  dstLen _ := rfl
  counts _ := ⟨rfl, rfl⟩
  bitLen _ := rfl
  bsOff _ := rfl

theorem SameOperands.trans {s t u : State} (h : SameOperands s t) (h' : SameOperands t u) : SameOperands s u := by
  obtain ⟨h1, h2, h3, h4, h5, h6, h7, h8, h9⟩ := h
  obtain ⟨g1, g2, g3, g4, g5, g6, g7, g8, g9⟩ := h'
  exact ⟨g1.trans h1, g2.trans h2, g3.trans h3, g4.trans h4, g5.trans h5, g6.trans h6, g7.trans h7, g8.trans h8,
    g9.trans h9⟩

theorem Footprint.trans {s t u : State} (h : Footprint c s t) (h' : Footprint c t u) : Footprint c s u where
  operands := h.operands.trans h'.operands
  err := h'.err.trans h.err
  freq hc := (h'.freq hc).trans (h.freq hc)
  ranks hc := ⟨(h'.ranks hc).1.trans (h.ranks hc).1, (h'.ranks hc).2.trans (h.ranks hc).2⟩
  codes hc := (h'.codes hc).trans (h.codes hc)
  dstLen hc := (h'.dstLen hc).trans (h.dstLen hc)
  counts hc := ⟨(h'.counts hc).1.trans (h.counts hc).1, (h'.counts hc).2.trans (h.counts hc).2⟩
  bitLen hc := (h'.bitLen hc).trans (h.bitLen hc)
  bsOff hc := (h'.bsOff hc).trans (h.bsOff hc)

/-- The valid flags and STAGE (R40, R41). -/
structure Flags where
  fv : Bool
  pv : Bool
  cv : Bool
  stage : Stage

def State.flags (s : State) : Flags := ⟨s.fv, s.pv, s.cv, s.stage⟩

/-- The piece changes at most what the command `c` may, and moves the flags and STAGE by `g` where it runs to its
end. -/
def Does (c : Instr) (g : Flags → Flags) (m : Engine α) : Prop :=
  ∀ s, Footprint c s (endOf (m.run s)) ∧ ∀ a t, m.run s = .ok a t → t.flags = g s.flags

theorem does_bind {g k : Flags → Flags} {m : Engine α} {f : α → Engine β} (hm : Does c g m) (hf : ∀ a, Does c k (f a)) :
    Does c (k ∘ g) (m >>= f) := by
  intro s
  obtain ⟨hfoot, hflags⟩ := hm s
  rw [run_bind]
  cases hr : m.run s with
  | error r t =>
    rw [hr] at hfoot
    exact ⟨hfoot, fun a u h => by cases h⟩
  | ok a t =>
    rw [hr] at hfoot
    obtain ⟨hfoot', hflags'⟩ := hf a t
    exact ⟨hfoot.trans hfoot', fun b u h => by rw [hflags' b u h, hflags a t hr, Function.comp_apply]⟩

/-- A piece that begins by looking at the state. -/
theorem does_look {g : Flags → Flags} {f : State → Engine α}
    (h : ∀ s, Footprint c s (endOf ((f s).run s)) ∧ ∀ a t, (f s).run s = .ok a t → t.flags = g s.flags) :
    Does c g (get >>= f) := by
  intro s
  rw [run_bind, run_get]
  exact h s

theorem does_pure (a : α) : Does c id (pure a : Engine α) :=
  fun s => ⟨Footprint.refl c s, fun _ _ h => by cases h; rfl⟩

theorem does_throw (g : Flags → Flags) (r : Raise) : Does c g (throw r : Engine α) :=
  fun s => ⟨Footprint.refl c s, fun _ _ h => by cases h⟩

theorem does_modify {f : State → State} {g : Flags → Flags} (hf : ∀ s, Footprint c s (f s))
    (hg : ∀ s, (f s).flags = g s.flags) : Does c g (modify f : Engine Unit) :=
  fun s => ⟨hf s, fun _ _ h => by cases h; exact hg s⟩

theorem does_ite {p : Prop} [Decidable p] {g : Flags → Flags} {m n : Engine α} (hm : Does c g m) (hn : Does c g n) :
    Does c g (if p then m else n) := by
  split
  · exact hm
  · exact hn

/-- The memory port moves no field that a footprint speaks of, and no flag. -/
theorem does_of_samePort {m : Engine α} (h : Keeps SamePort m) : Does c id m := by
  intro s
  have hs : SamePort s (endOf (m.run s)) := h s
  generalize ht : endOf (m.run s) = t at hs
  rw [hs]
  exact ⟨{ Footprint.refl c s with }, fun a u hu => by
    rw [hu] at ht
    rw [show u = t from ht, hs]
    rfl⟩

theorem does_srcByte (i : Nat) : Does c id (srcByte i) := does_of_samePort (srcByte_samePort i)

theorem does_enter (st : Stage) : Does c (fun x => { x with stage := st }) (enter st) :=
  does_modify (fun s => { Footprint.refl c s with }) fun _ => rfl

/-! ### The stages -/

/-- A command that owns something is none of those that leave it alone. -/
theorem owns {l l' : List Instr} {p : Prop} (hc : c ∈ l) (h : l ⊆ l') (hc' : c ∉ l') : p := absurd (h hc) hc'

theorem does_freqLoop (hc : c ∈ [.freq, .encode]) (n i : Nat) : Does c id (freqLoop n i) := by
  induction n generalizing i with
  | zero => exact does_pure ()
  | succ n ih =>
    have count : ∀ b, Does c id (modify fun s : State => { s with freq := countByte b s.freq } : Engine Unit) :=
      fun b => does_modify (fun s => { Footprint.refl c s with freq := owns hc (by decide) }) fun _ => rfl
    exact does_bind (does_srcByte i) fun b => does_bind (count b) fun _ => ih _

theorem does_freqStage (hc : c ∈ [.freq, .encode]) : Does c (fun _ => ⟨true, false, false, .freq⟩) freqStage := by
  have results : Does c (fun x => ⟨true, false, false, x.stage⟩) (modify freqResults : Engine Unit) :=
    does_modify (fun s => { Footprint.refl c s with counts := owns hc (by decide) }) fun _ => rfl
  have start : Does c id (modify fun s : State => { s with freq := Table.zeros } : Engine Unit) :=
    does_modify (fun s => { Footprint.refl c s with freq := owns hc (by decide) }) fun _ => rfl
  exact does_bind (does_bind (does_enter .freq) fun _ => does_look fun s => does_ite (does_throw id _) start s) fun _ =>
    does_look fun s => does_bind (does_freqLoop hc _ _) (fun _ => results) s

theorem does_ptabStage (hc : c ∈ [.ptab, .encode]) : Does c (fun x => ⟨x.fv, true, false, .ptab⟩) ptabStage := by
  refine does_bind (does_enter .ptab) fun _ =>
    does_modify (g := fun x => ⟨x.fv, true, false, x.stage⟩) (fun s => ?_) fun s => ?_
  · rw [ptabResults_eq]
    exact { Footprint.refl c s with ranks := owns hc (by decide) }
  · rw [ptabResults_eq]
    rfl

theorem does_treeStage (hc : c ∈ [.tree, .encode]) : Does c (fun x => ⟨x.fv, x.pv, true, .tree⟩) treeStage := by
  refine does_bind (does_enter .tree) fun _ =>
    does_modify (g := fun x => ⟨x.fv, x.pv, true, x.stage⟩) (fun s => ?_) fun _ => rfl
  exact { Footprint.refl c s with codes := owns hc (by decide) }

theorem does_emitLoop (n j : Nat) : Does c id (emitLoop n j) := by
  induction n generalizing j with
  | zero => exact does_pure ()
  | succ n ih =>
    exact does_bind (does_srcByte j) fun b => does_look fun s => does_ite (does_throw id _)
      (does_bind (does_of_samePort (putStr_samePort _)) fun _ => ih _) s

theorem does_emitStage (hc : c ∈ [.emit, .encode]) : Does c (fun x => { x with stage := .emit }) emitStage := by
  have results : ∀ hdr, Does c id (modify (emitResults hdr) : Engine Unit) := fun hdr =>
    does_modify (fun s => { Footprint.refl c s with
      dstLen := owns hc (by decide), bitLen := owns hc (by decide), bsOff := owns hc (by decide) }) fun _ => rfl
  exact does_bind (does_enter .emit) fun _ => does_look fun s => does_bind (does_of_samePort (putStr_samePort _))
    (fun _ => does_look fun t => does_look (fun u => does_bind (does_emitLoop _ _) (fun _ => results _) u) t) s

theorem does_parseLoop (hc : c ∈ [.parse, .decode]) (left pos : Nat) (p : Parser) :
    Does c (fun x => ⟨false, false, true, x.stage⟩) (parseLoop left pos p) := by
  induction left generalizing pos p with
  | zero => exact does_look fun s => does_throw (fun x => ⟨false, false, true, x.stage⟩) _ s
  | succ left ih =>
    refine does_bind (does_srcByte pos) fun b => does_look (g := fun x => ⟨false, false, true, x.stage⟩) fun s => ?_
    cases parseByte p s.codes b with
    | bad => exact does_throw (fun x => ⟨false, false, true, x.stage⟩) _ s
    | more p' t =>
      have store : Does c id (modify fun s : State => { s with codes := t } : Engine Unit) :=
        does_modify (fun s => { Footprint.refl c s with codes := owns hc (by decide) }) fun _ => rfl
      exact does_bind store (fun _ => ih (pos + 1) p') s
    | done =>
      refine ⟨{ Footprint.refl c s with counts := ?_, bitLen := ?_, bsOff := ?_ }, fun a t h => ?_⟩
      · exact owns hc (by decide)
      · exact owns hc (by decide)
      · exact owns hc (by decide)
      · cases h
        rfl

theorem does_parseStage (hc : c ∈ [.parse, .decode]) : Does c (fun _ => ⟨false, false, true, .parse⟩) parseStage := by
  have start : Does c id (modify fun s : State => { s with codes := CodeTable.empty } : Engine Unit) :=
    does_modify (fun s => { Footprint.refl c s with codes := owns hc (by decide) }) fun _ => rfl
  have header : Does c (fun x => ⟨false, false, true, x.stage⟩) (parseFrom 0 Parser.start) :=
    does_look fun s => does_parseLoop hc _ _ _ s
  exact does_bind (does_bind (does_enter .parse) fun _ => start) fun _ => header

theorem does_matchLoop (left j : Nat) (acc : Codeword) (start : Nat) : Does c id (matchLoop left j acc start) := by
  induction left generalizing j acc start with
  | zero => exact does_ite (does_pure ()) (does_throw id _)
  | succ left ih =>
    refine does_bind (does_srcByte j) fun b => does_ite (does_throw id _) (does_look fun s => ?_)
    dsimp only
    cases findSymbol s.codes (acc ++ [charBit b]) with
    | some x => exact does_bind (does_of_samePort (put_samePort x)) (fun _ => ih _ _ _) s
    | none => exact ih _ _ _ s

theorem does_matchStage (hc : c ∈ [.matchBits, .decode]) (base : Nat) :
    Does c (fun x => { x with stage := .matchBits }) (matchStage base) := by
  have results : Does c id (modify (matchResults base) : Engine Unit) :=
    does_modify (fun s => { Footprint.refl c s with
      dstLen := owns hc (by decide), bitLen := owns hc (by decide) }) fun _ => rfl
  exact does_bind (does_enter .matchBits) fun _ => does_look fun s =>
    does_bind (does_matchLoop _ _ _ _) (fun _ => results) s

/-! ### The commands -/

/-- How a command moves the flags and STAGE when it ends normally (R40, R41). -/
def flagsAfter : Instr → Flags → Flags
  | .nop, x => x
  | .clear, x => ⟨false, false, false, x.stage⟩
  | .freq, _ => ⟨true, false, false, .freq⟩
  | .ptab, x => ⟨x.fv, true, false, .ptab⟩
  | .tree, x => ⟨x.fv, x.pv, true, .tree⟩
  | .emit, x => { x with stage := .emit }
  | .encode, _ => ⟨true, true, true, .emit⟩
  | .parse, _ => ⟨false, false, true, .parse⟩
  | .matchBits, x => { x with stage := .matchBits }
  | .decode, _ => ⟨false, false, true, .matchBits⟩

theorem does_stages (c : Instr) : Does c (flagsAfter c) (stages c) := by
  cases c with
  | nop => exact does_pure ()
  | clear =>
    refine does_modify (fun s => { Footprint.refl .clear s with
      dstLen := ?_, counts := ?_, bitLen := ?_, bsOff := ?_ }) fun _ => rfl
    all_goals exact fun h => absurd (by decide) h
  | freq => exact does_freqStage (by decide)
  | ptab => exact does_ptabStage (by decide)
  | tree => exact does_treeStage (by decide)
  | emit => exact does_emitStage (by decide)
  | encode =>
    exact does_bind (does_freqStage (by decide)) fun _ => does_bind (does_ptabStage (by decide)) fun _ =>
      does_bind (does_treeStage (by decide)) fun _ => does_emitStage (by decide)
  | parse => exact does_parseStage (by decide)
  | matchBits => exact does_matchStage (by decide) 0
  | decode =>
    have matching : Does .decode (fun x => { x with stage := .matchBits })
        (do let s ← get; matchStage s.bsOff.toNat) := does_look fun s => does_matchStage (by decide) _ s
    exact does_bind (does_parseStage (by decide)) fun _ => matching

/-- All that a command can answer: it ended with an error, its operands and tables as its footprint says; or it ended
normally, admitted, with the rest of the footprint too, and the flags moved. -/
theorem exec_next {i : Instr} {s t : State} (h : exec i s = .next t) :
    (∃ r u, t = errorTerminate r u ∧ Footprint i (accept (encode i) s) u)
      ∨ ∃ u, t = normalTerminate u ∧ Footprint i (accept (encode i) s) u ∧ tablesReady i s = true
          ∧ u.flags = flagsAfter i (accept (encode i) s).flags := by
  rw [exec_eq_runCommand] at h
  rcases runCommand_next h with ⟨r, -, rfl⟩ | ⟨ha, rfl⟩
  · exact .inl ⟨r, _, rfl, Footprint.refl i _⟩
  · obtain ⟨hfoot, hflags⟩ := does_stages i (accept (encode i) s)
    cases hr : (stages i).run (accept (encode i) s) with
    | error r u =>
      rw [hr] at hfoot
      exact .inl ⟨r, u, rfl, hfoot⟩
    | ok a u =>
      rw [hr] at hfoot
      exact .inr ⟨u, rfl, hfoot, tablesReady_of_admitted ha, hflags a u hr⟩

/-- However a command ends, its operands and tables are as its footprint says. -/
theorem exec_footprint {i : Instr} {s t : State} (h : exec i s = .next t) :
    SameOperands s t ∧ (i ∉ [.freq, .encode] → t.freq = s.freq)
      ∧ (i ∉ [.ptab, .encode] → t.psym = s.psym ∧ t.prob = s.prob)
      ∧ (i ∉ [.tree, .encode, .parse, .decode] → t.codes = s.codes) := by
  rcases exec_next h with ⟨r, u, rfl, hu⟩ | ⟨u, rfl, hu, -, -⟩
  · exact ⟨hu.operands, hu.freq, hu.ranks, hu.codes⟩
  · exact ⟨hu.operands, hu.freq, hu.ranks, hu.codes⟩

/-- Settles O18: no stage and no ending touches an operand. -/
theorem noCommandChangesOperands : Obligations.NoCommandChangesOperands := fun _ _ _ h => (exec_footprint h).1

/-- Settles O19: of the tables a command changes those its stages own. -/
theorem tablesWrittenOnlyByTheirStages : Obligations.TablesWrittenOnlyByTheirStages := by
  intro i s t h
  obtain ⟨-, hfreq, hranks, hcodes⟩ := exec_footprint h
  exact ⟨fun h1 h2 => hfreq (by simp [h1, h2]), fun h1 h2 => hranks (by simp [h1, h2]),
    fun h1 h2 h3 h4 => hcodes (by simp [h1, h2, h3, h4])⟩

/-- Settles O20: of the result registers a command that ends normally changes those its stages own. -/
theorem resultRegistersLeftAlone : Obligations.ResultRegistersLeftAlone := by
  intro i s t h herr
  rcases exec_next h with ⟨r, u, rfl, -⟩ | ⟨u, rfl, hu, -, -⟩
  · cases herr
  · exact ⟨hu.dstLen, hu.counts, hu.bitLen, hu.bsOff⟩

/-- Settles O21: an error drops the flags; a normal ending moves them, and STAGE, by the stages of the command. -/
theorem validFlagsAndStageMoveByTheTables : Obligations.ValidFlagsAndStageMoveByTheTables := by
  intro i s t h
  rcases exec_next h with ⟨r, u, rfl, -⟩ | ⟨u, rfl, hu, hready, hflags⟩
  · exact ⟨fun _ => rfl, fun h => by cases h⟩
  · refine ⟨fun h => absurd hu.err h, fun _ => ?_⟩
    have e : (u.fv, u.pv, u.cv, u.stage.code) = (u.flags.fv, u.flags.pv, u.flags.cv, u.flags.stage.code) := rfl
    refine e.trans ?_
    rw [hflags]
    cases i with
    | ptab => exact congrArg (·, true, false, 2#4) hready
    | tree => exact congrArg (s.fv, ·, true, 3#4) hready
    | nop | clear | freq | emit | encode | parse | matchBits | decode => rfl

end Sys2Proof.Machine
end

section
/-! PROOFS. What a read of the engine returns of a byte the host writes (20_memory.md R79, R80). -/

namespace Sys2Proof.Machine

/-- A read returns the byte in memory or one of its older values. -/
theorem busRead_mem (a : Word) (s : State) :
    (busRead a s).1 = s.mem.read a.toNat ∨ (busRead a s).1 ∈ s.olderValues a := by
  unfold busRead
  cases h : s.olderValues a with
  | nil => exact .inl rfl
  | cons old olds =>
    have hlt : (Config.freeWord s.draws).toNat % (olds.length + 2) < (s.mem.read a.toNat :: old :: olds).length :=
      Nat.mod_lt _ (Nat.succ_pos _)
    have hmem := List.getElem_mem hlt
    rw [← List.getD_eq_getElem _ old hlt] at hmem
    exact List.mem_cons.1 hmem

theorem olderValues_eq_nil {s : State} {a : Word} (h : ∀ c ∈ s.raced, c.1 ≠ a.toNat) : s.olderValues a = [] :=
  List.eq_nil_iff_forall_not_mem.2 fun _ hb => h _ (mem_olderValues.1 hb) rfl

/-- All that a read that is not refused does. -/
theorem memRead_ok {a : Word} {b : Byte} {s t : State} (h : memRead a s = .ok b t) :
    b = (busRead a s).1 ∧ t.mem = s.mem ∧ t.accesses = s.accesses ++ [.read a b] := by
  have hr := memRead_run a s
  rw [EStateM.run, h] at hr
  split at hr
  · cases hr
    exact ⟨rfl, rfl, rfl⟩
  · cases hr

/-- A read returns the byte in memory or a value the host overwrote. -/
theorem memRead_old_or_new {a : Word} {b : Byte} {s t : State} (h : memRead a s = .ok b t) :
    b = s.mem.read a.toNat ∨ (a.toNat, b) ∈ s.raced := by
  obtain ⟨rfl, -, -⟩ := memRead_ok h
  exact (busRead_mem a s).imp_right mem_olderValues.1

/-- Where the host wrote no such byte, a read returns the byte in memory. -/
theorem memRead_unraced {a : Word} {b : Byte} {s t : State} (h : memRead a s = .ok b t)
    (hraced : ∀ c ∈ s.raced, c.1 ≠ a.toNat) : b = s.mem.read a.toNat := by
  obtain ⟨rfl, -, -⟩ := memRead_ok h
  rw [busRead_quiet (olderValues_eq_nil hraced)]

theorem hostWrite_raced (a : Word) (v : Byte) (s : State) :
    (hostWrite a v s).raced = (if s.busy then [(a.toNat, s.mem.read a.toNat)] else []) ++ s.raced := by
  unfold hostWrite
  cases s.busy <;> rfl

/-- With no race before it, a host write leaves one older value at most, and that under a running command. -/
theorem mem_hostWrite_raced {a : Word} {v : Byte} {s : State} (hq : quiet s) {c : Nat × Byte}
    (hc : c ∈ (hostWrite a v s).raced) : s.busy = true ∧ c = (a.toNat, s.mem.read a.toNat) := by
  rw [hostWrite_raced, show s.raced = [] from hq, List.append_nil] at hc
  split at hc
  · exact ⟨‹_›, List.mem_singleton.1 hc⟩
  · cases hc

/-- What reads return after a host write with no race before it: of the byte written the new or the old value, and the
new one where no command runs; of any other byte what memory held. -/
theorem memRead_hostWrite {a x : Word} {v b : Byte} {s u : State} (hq : quiet s) (hwf : s.mem.wf = true)
    (h : memRead x (hostWrite a v s) = .ok b u) :
    (x = a → (b = v ∨ b = s.mem.read a.toNat) ∧ (s.busy = false → b = v)) ∧ (x ≠ a → b = s.mem.read x.toNat) := by
  have hread : (hostWrite a v s).mem.read a.toNat = v := Memory.read_write_same s.mem a.toNat v hwf
  refine ⟨fun hx => ?_, fun hx => ?_⟩
  · subst hx
    refine ⟨(memRead_old_or_new h).imp (·.trans hread) fun hb => ?_, fun hidle => ?_⟩
    · exact (Prod.mk.inj (mem_hostWrite_raced hq hb).2).2
    · refine (memRead_unraced h fun c hc => ?_).trans hread
      have hbusy := (mem_hostWrite_raced hq hc).1
      rw [hidle] at hbusy
      cases hbusy
  · have hne : x.toNat ≠ a.toNat := fun he => hx (BitVec.eq_of_toNat_eq he)
    refine (memRead_unraced h fun c hc => ?_).trans (Memory.read_write_other s.mem a.toNat _ v hne)
    rw [(mem_hostWrite_raced hq hc).2]
    exact hne.symm

/-- Settles O15: what the engine reads is in memory or among the older values, and a host write puts one older value
there at most. -/
theorem racedReadIsOldOrNew : Obligations.RacedReadIsOldOrNew := by
  refine ⟨fun s t a b h => ?_, fun s a v rest hin hwf => ?_⟩
  · obtain ⟨-, hmem, hacc⟩ := memRead_ok h
    exact ⟨memRead_old_or_new h, memRead_unraced h, hmem, hacc⟩
  · have hread : (s.mem.write a.toNat v).read a.toNat = v := Memory.read_write_same s.mem a.toNat v hwf
    refine ⟨hostWrite a v { s with inputs := rest }, ?_, rfl, hostWrite_raced .., Memory.wf_write _ _ _ hwf a.isLt,
      hread, fun x hx => Memory.read_write_other s.mem a.toNat x v hx, ?_,
      fun hq b u h => (memRead_hostWrite (s := { s with inputs := rest }) hq hwf h).1 rfl,
      fun hq x b u hx h => (memRead_hostWrite (s := { s with inputs := rest }) hq hwf h).2 hx⟩
    · rw [step, turn, hin]
      rfl
    · rw [hostRead_eq, show (hostWrite a v { s with inputs := rest }).mem.read a.toNat = v from hread]

end Sys2Proof.Machine
end

section
/-! PROOFS. What the stages are built of: reads of the source, Puts, and steps off the memory port. What holds of each
of these holds of every stage (20_memory.md R72, R78). -/

namespace Sys2Proof.Machine

variable {α β : Type} {r w e : Prop}

/-! ### The building blocks -/

/-- A step off the memory port and inside its stage. -/
structure OffPort (s t : State) : Prop where
  operands : SameOperands s t
  still : Still s t
  cursor : t.cursor = s.cursor
  stage : t.stage = s.stage

theorem OffPort.refl (s : State) : OffPort s s where
  operands := ⟨rfl, rfl, rfl, rfl, rfl, rfl, rfl, rfl, rfl⟩
  still := still_refl s
  cursor := rfl
  stage := rfl

/-- A piece built of steps off the memory port and of raises other than BusError; of reads of the source where `r`
allows them, of Puts where `w`, of entries of stages where `e` does. -/
inductive Built (r w e : Prop) : {α : Type} → Engine α → Prop
  | pure {α : Type} (a : α) : Built r w e (pure a)
  | throw {α : Type} (x : Raise) (h : x.kind ≠ .bus) : Built r w e (throw x : Engine α)
  | modify (f : State → State) (h : ∀ s, OffPort s (f s)) : Built r w e (modify f : Engine Unit)
  | enter (h : e) (st : Stage) : Built r w e (enter st)
  | srcByte (h : r) (i : Nat) : Built r w e (srcByte i)
  | put (h : w) (b : Byte) : Built r w e (put b)
  | bind {α β : Type} {m : Engine α} {f : α → Engine β} :
      Built r w e m → (∀ a, Built r w e (f a)) → Built r w e (m >>= f)
  /-- what follows a look at the state may be written in terms of the state seen -/
  | look {α : Type} {f : State → Engine α} (g : State → Engine α) :
      (∀ s, Built r w e (g s)) → (∀ s, (f s).run s = (g s).run s) → Built r w e (get >>= f)

theorem built_look {f : State → Engine α} (h : ∀ s, Built r w e (f s)) : Built r w e (get >>= f) :=
  .look f h fun _ => rfl

theorem built_ite {p : Prop} [Decidable p] {m n : Engine α} (hm : Built r w e m) (hn : Built r w e n) :
    Built r w e (if p then m else n) := by
  split
  · exact hm
  · exact hn

/-- What the blocks keep, every piece built of them keeps. -/
theorem Built.keeps {R : State → State → Prop} (trans : ∀ s t u, R s t → R t u → R s u)
    (off : ∀ s t, OffPort s t → R s t) (entry : e → ∀ st, Keeps R (Machine.enter st))
    (read : r → ∀ i, Keeps R (Machine.srcByte i)) (write : w → ∀ b, Keeps R (Machine.put b)) {m : Engine α}
    (h : Built r w e m) : Keeps R m := by
  have refl : ∀ s, R s s := fun s => off s s (.refl s)
  induction h with
  | pure a => exact keeps_pure refl a
  | throw x => exact keeps_throw refl x
  | modify f hf => exact keeps_modify fun s => off s _ (hf s)
  | enter he st => exact entry he st
  | srcByte hr i => exact read hr i
  | put hw b => exact write hw b
  | bind _ _ hm hf => exact keeps_bind trans hm hf
  | look g _ hg ih =>
    intro s
    rw [run_bind, run_get]
    dsimp only
    rw [hg s]
    exact ih s s

/-! ### The stages -/

theorem built_freqBegin (he : e) : Built r w e freqBegin :=
  .bind (.enter he .freq) fun _ => built_look fun _ =>
    built_ite (.throw _ ErrKind.noConfusion) (.modify _ fun s => { OffPort.refl s with })

theorem built_freqLoop (hr : r) (n i : Nat) : Built r w e (freqLoop n i) := by
  induction n generalizing i with
  | zero => exact .pure ()
  | succ n ih => exact .bind (.srcByte hr i) fun b => .bind (.modify _ fun s => { OffPort.refl s with }) fun _ => ih _

theorem built_freqResults : Built r w e (modify freqResults : Engine Unit) := .modify _ fun s => { OffPort.refl s with }

theorem built_freqFrom (hr : r) (i : Nat) : Built r w e (freqFrom i) :=
  built_look fun _ => .bind (built_freqLoop hr _ i) fun _ => built_freqResults

theorem built_ptabStage (he : e) : Built r w e ptabStage :=
  .bind (.enter he .ptab) fun _ => .modify _ fun s => by
    rw [ptabResults_eq]
    exact { OffPort.refl s with }

theorem built_treeStage (he : e) : Built r w e treeStage :=
  .bind (.enter he .tree) fun _ => .modify _ fun s => { OffPort.refl s with }

theorem built_putStr (hw : w) (l : List Byte) : Built r w e (putStr l) := by
  induction l with
  | nil => exact .pure ()
  | cons b l ih => exact .bind (.put hw b) fun _ => ih

theorem built_emitLoop (hr : r) (hw : w) (n j : Nat) : Built r w e (emitLoop n j) := by
  induction n generalizing j with
  | zero => exact .pure ()
  | succ n ih =>
    exact .bind (.srcByte hr j) fun b => built_look fun s =>
      built_ite (.throw _ ErrKind.noConfusion) (.bind (built_putStr hw _) fun _ => ih _)

theorem built_emitResults (hdr : Nat) : Built r w e (modify (emitResults hdr) : Engine Unit) :=
  .modify _ fun s => { OffPort.refl s with }

theorem built_bitsFrom (hr : r) (hw : w) (hdr j : Nat) : Built r w e (bitsFrom hdr j) :=
  built_look fun _ => .bind (built_emitLoop hr hw _ j) fun _ => built_emitResults hdr

theorem built_headerFrom (hr : r) (hw : w) (rest : List Byte) : Built r w e (headerFrom rest) :=
  .bind (built_putStr hw rest) fun _ => built_look fun _ => built_bitsFrom hr hw _ 0

theorem built_emitStage (hr : r) (hw : w) (he : e) : Built r w e emitStage :=
  .bind (.enter he .emit) fun _ => built_look fun _ => built_headerFrom hr hw _

theorem built_parseBegin (he : e) : Built r w e parseBegin :=
  .bind (.enter he .parse) fun _ => .modify _ fun s => { OffPort.refl s with }

/-- PARSE keeps the code table so far in the state. -/
theorem built_setCodes {k : Engine α} (t : CodeTable) (hk : Built r w e k) :
    Built r w e (do modify fun u : State => { u with codes := t }; k) :=
  .bind (.modify _ fun s => { OffPort.refl s with }) fun _ => hk

theorem built_parseResults (n pos : Nat) : Built r w e (modify (parseResults n pos) : Engine Unit) :=
  .modify _ fun s => { OffPort.refl s with }

/-- What PARSE does with a header byte, in the state `s` after its read. -/
def parseThen (p : Parser) (pos : Nat) (b : Byte) (more : Parser → Engine α) (done : Engine α) (s : State) : Engine α :=
  match parseByte p s.codes b with
  | .bad => throw { kind := .malformedArtifact, info := BitVec.ofNat 32 pos }
  | .more p' t => do
    modify fun u : State => { u with codes := t }
    more p'
  | .done => do
    modify (parseResults p.n (pos + 1))
    done

theorem built_parseThen (p : Parser) (pos : Nat) (b : Byte) {more : Parser → Engine α} {done : Engine α}
    (hmore : ∀ p', Built r w e (more p')) (hdone : Built r w e done) (s : State) :
    Built r w e (parseThen p pos b more done s) := by
  unfold parseThen
  cases parseByte p s.codes b with
  | bad => exact .throw _ ErrKind.noConfusion
  | more p' t => exact built_setCodes t (hmore p')
  | done => exact .bind (built_parseResults _ _) fun _ => hdone

theorem built_parseLoop (hr : r) (left pos : Nat) (p : Parser) : Built r w e (parseLoop left pos p) := by
  induction left generalizing pos p with
  | zero => exact built_look fun _ => .throw _ ErrKind.noConfusion
  | succ left ih =>
    refine .bind (.srcByte hr pos) fun b =>
      .look (parseThen p pos b (parseLoop left (pos + 1)) (pure ()))
        (built_parseThen p pos b (ih _) (.pure ())) fun s => ?_
    unfold parseThen
    cases parseByte p s.codes b <;> rfl

theorem built_parseFrom (hr : r) (pos : Nat) (p : Parser) : Built r w e (parseFrom pos p) :=
  built_look fun _ => built_parseLoop hr _ pos p

theorem built_parseStage (hr : r) (he : e) : Built r w e parseStage :=
  .bind (built_parseBegin he) fun _ => built_parseFrom hr 0 _

theorem built_matchLoop (hr : r) (hw : w) (left j : Nat) (acc : Codeword) (start : Nat) :
    Built r w e (matchLoop left j acc start) := by
  induction left generalizing j acc start with
  | zero => exact built_ite (.pure ()) (.throw _ ErrKind.noConfusion)
  | succ left ih =>
    refine .bind (.srcByte hr j) fun b => built_ite (.throw _ ErrKind.noConfusion) (built_look fun s => ?_)
    dsimp only
    cases findSymbol s.codes (acc ++ [charBit b]) with
    | some x => exact .bind (.put hw x) fun _ => ih _ _ _
    | none => exact ih _ _ _

theorem built_matchResults (base : Nat) : Built r w e (modify (matchResults base) : Engine Unit) :=
  .modify _ fun s => { OffPort.refl s with }

theorem built_matchFrom (hr : r) (hw : w) (base j : Nat) (acc : Codeword) (start : Nat) :
    Built r w e (matchFrom base j acc start) :=
  built_look fun _ => .bind (built_matchLoop hr hw _ j acc start) fun _ => built_matchResults base

theorem built_matchStage (hr : r) (hw : w) (he : e) (base : Nat) : Built r w e (matchStage base) :=
  .bind (.enter he .matchBits) fun _ => built_matchFrom hr hw base base [] base

/-! ### The commands -/

/-- A command reads where it uses the source region and puts where it uses the destination region (R103). -/
theorem built_stages (c : Instr) : Built (usesSource c = true) (usesDest c = true) True (stages c) := by
  cases c with
  | nop => exact .pure ()
  | clear => exact .modify _ fun s => { OffPort.refl s with }
  | freq => exact .bind (built_freqBegin trivial) fun _ => built_freqFrom rfl 0
  | ptab => exact built_ptabStage trivial
  | tree => exact built_treeStage trivial
  | emit => exact built_emitStage rfl rfl trivial
  | encode =>
    exact .bind (.bind (built_freqBegin trivial) fun _ => built_freqFrom rfl 0) fun _ =>
      .bind (built_ptabStage trivial) fun _ => .bind (built_treeStage trivial) fun _ => built_emitStage rfl rfl trivial
  | parse => exact built_parseStage rfl trivial
  | matchBits => exact built_matchStage rfl rfl trivial 0
  | decode => exact .bind (built_parseStage rfl trivial) fun _ => built_look fun _ => built_matchStage rfl rfl trivial _

end Sys2Proof.Machine
end

section
/-! PROOFS. What a command does to memory (20_memory.md R72, R77, R78): nothing where it does not use the destination
region, else the bytes of that region, ascending, once each. -/

namespace Sys2Proof.Machine

variable {α β : Type} {r w e : Prop} {m : Engine α}

/-! ### How a command ends -/

/-- A command that answers a next state ran its stages, or nothing but a raise that is no BusError; either is built of
reads and Puts as the regions it uses allow. -/
theorem exec_runs {i : Instr} {s t : State} (h : exec i s = .next t) :
    ∃ m : Engine Unit, (m = stages i ∨ ∃ x : Raise, x.kind ≠ .bus ∧ m = throw x)
      ∧ Built (usesSource i = true) (usesDest i = true) True m ∧ t = terminate (m.run (accept (encode i) s)) := by
  rw [exec_eq_runCommand] at h
  rcases runCommand_next h with ⟨x, hx, rfl⟩ | ⟨-, rfl⟩
  · have hbus : x.kind ≠ .bus := by
      rcases admission_cases i s with ⟨-, ha⟩ | ⟨-, -, ha⟩ | ⟨-, -, ha⟩ <;> rw [ha] at hx <;> cases hx
        <;> exact ErrKind.noConfusion
    exact ⟨throw x, .inr ⟨x, hbus, rfl⟩, .throw x hbus, rfl⟩
  · exact ⟨stages i, .inl rfl, built_stages i, rfl⟩

@[simp] theorem terminate_mem (x : EStateM.Result Raise State Unit) : (terminate x).mem = (endOf x).mem := by
  cases x <;> rfl

@[simp] theorem terminate_accesses (x : EStateM.Result Raise State Unit) :
    (terminate x).accesses = (endOf x).accesses := by
  cases x <;> rfl

/-- ERR = 0 only where the stages have run to their end. -/
theorem terminate_normal {x : EStateM.Result Raise State Unit} (h : (terminate x).err = none) :
    ∃ u, x = .ok () u ∧ terminate x = normalTerminate u := by
  cases x with
  | ok a u => exact ⟨u, rfl, rfl⟩
  | error r u => cases h

/-! ### The log of accesses -/

@[simp] theorem readsOf_append (l l' : List Access) : readsOf (l ++ l') = readsOf l ++ readsOf l' :=
  List.filterMap_append

@[simp] theorem writesOf_append (l l' : List Access) : writesOf (l ++ l') = writesOf l ++ writesOf l' :=
  List.filterMap_append

@[simp] theorem readsOf_read (a : Word) (b : Byte) : readsOf [.read a b] = [(a, b)] := rfl
@[simp] theorem readsOf_write (a : Word) (b : Byte) : readsOf [.write a b] = [] := rfl
@[simp] theorem writesOf_read (a : Word) (b : Byte) : writesOf [.read a b] = [] := rfl
@[simp] theorem writesOf_write (a : Word) (b : Byte) : writesOf [.write a b] = [(a, b)] := rfl

/-! ### Commands that do not use the destination region -/

/-- No byte of memory is written. -/
def NoWrite (s t : State) : Prop := t.mem = s.mem ∧ writesOf t.accesses = writesOf s.accesses

theorem noWrite_trans (s t u : State) (h : NoWrite s t) (h' : NoWrite t u) : NoWrite s u :=
  ⟨h'.1.trans h.1, h'.2.trans h.2⟩

theorem srcByte_noWrite (i : Nat) : Keeps NoWrite (srcByte i) := by
  intro s
  rw [srcByte_run, memRead_run]
  split
  · exact ⟨rfl, by simp [endOf]⟩
  · exact ⟨rfl, rfl⟩

/-- Without Puts no byte is written. -/
theorem Built.noWrite (h : Built r w e m) (hw : ¬ w) : Keeps NoWrite m :=
  h.keeps noWrite_trans (fun _ _ ho => ⟨ho.still.2.1, congrArg writesOf ho.still.1⟩) (fun _ _ _ => ⟨rfl, rfl⟩)
    (fun _ => srcByte_noWrite) fun hp => absurd hp hw

/-- Without reads and Puts no access is made. -/
theorem Built.still (h : Built r w e m) (hr : ¬ r) (hw : ¬ w) : Keeps Still m :=
  h.keeps still_trans (fun _ _ ho => ho.still) (fun _ => enter_still) (fun hp => absurd hp hr) fun hp => absurd hp hw

theorem usesDest_eq_false {i : Instr} (h : i ∈ [.nop, .clear, .freq, .ptab, .tree, .parse]) : usesDest i = false := by
  cases i with
  | nop | clear | freq | ptab | tree | parse => rfl
  | emit | encode | matchBits | decode => exact absurd h (by decide)

theorem usesSource_eq_false {i : Instr} (h : i ∈ [.nop, .clear, .ptab, .tree]) : usesSource i = false := by
  cases i with
  | nop | clear | ptab | tree => rfl
  | freq | emit | encode | parse | matchBits | decode => exact absurd h (by decide)

/-- Settles O22: the stages of these commands are built without Puts, those of the last four without reads too. -/
theorem nonStoringCommandsLeaveMemory : Obligations.NonStoringCommandsLeaveMemory := by
  intro i s t hi h
  obtain ⟨m, -, hm, rfl⟩ := exec_runs h
  have hw := Bool.eq_false_iff.1 (usesDest_eq_false hi)
  obtain ⟨hmem, hlog⟩ := hm.noWrite hw (accept (encode i) s)
  refine ⟨fun a => ?_, ?_, fun hi' => ?_⟩
  · rw [terminate_mem, hmem, accept_mem]
  · rw [terminate_accesses, hlog]
    rfl
  · have hr := Bool.eq_false_iff.1 (usesSource_eq_false hi')
    rw [terminate_accesses]
    exact (hm.still hr hw (accept (encode i) s)).1

/-! ### Writes of consecutive bytes -/

theorem dstAt_toNat (s : State) (k : Nat) : (s.dstAt k).toNat = (s.dstAddr.toNat + k) % 2 ^ 32 := by
  rw [State.dstAt, BitVec.toNat_add, BitVec.toNat_ofNat, Nat.add_mod_mod]

/-- Fewer than 2^32 bytes on from DST_ADDR the addresses are distinct. -/
theorem dstAt_inj {s : State} {j k : Nat} (hj : j < 2 ^ 32) (hk : k < 2 ^ 32)
    (h : (s.dstAt j).toNat = (s.dstAt k).toNat) : j = k := by
  rw [dstAt_toNat, dstAt_toNat] at h
  omega

/-- The writes of the bytes at the offsets from `k` on of the destination region. -/
def State.writesAt (s : State) (k : Nat) (bytes : List Byte) : List (Word × Byte) :=
  ((List.range' k bytes.length).map s.dstAt).zip bytes

theorem State.writesAt_cons (s : State) (k : Nat) (b : Byte) (bytes : List Byte) :
    s.writesAt k (b :: bytes) = (s.dstAt k, b) :: s.writesAt (k + 1) bytes := rfl

theorem State.writesAt_append (s : State) (k : Nat) (bytes bytes' : List Byte) :
    s.writesAt k (bytes ++ bytes') = s.writesAt k bytes ++ s.writesAt (k + bytes.length) bytes' := by
  induction bytes generalizing k with
  | nil => rfl
  | cons b bytes ih =>
    rw [List.cons_append, writesAt_cons, writesAt_cons, ih, List.length_cons, List.cons_append, Nat.add_right_comm,
      Nat.add_assoc k]

theorem State.writesAt_length (s : State) (k : Nat) (bytes : List Byte) :
    (s.writesAt k bytes).length = bytes.length := by
  simp [State.writesAt]

theorem State.mem_writesAt {s : State} {k : Nat} {bytes : List Byte} {x : Word × Byte} (h : x ∈ s.writesAt k bytes) :
    ∃ j, k ≤ j ∧ j < k + bytes.length ∧ x.1 = s.dstAt j := by
  obtain ⟨j, hj, hx⟩ := List.mem_map.1 (List.of_mem_zip h).1
  obtain ⟨hkj, hjk⟩ := List.mem_range'_1.1 hj
  exact ⟨j, hkj, hjk, hx.symm⟩

/-- After the writes of fewer than 2^32 bytes each of them stands at its address. -/
theorem writeAll_writesAt (s : State) (k : Nat) (bytes : List Byte) (mem : Memory) (hwf : mem.wf = true)
    (hk : k + bytes.length ≤ 2 ^ 32) :
    (List.range' k bytes.length).map (fun j => (writeAll (s.writesAt k bytes) mem).read (s.dstAt j).toNat) = bytes := by
  induction bytes generalizing k mem with
  | nil => rfl
  | cons b bytes ih =>
    rw [List.length_cons] at hk ⊢
    have first : (writeAll (s.writesAt (k + 1) bytes) (mem.write (s.dstAt k).toNat b)).read (s.dstAt k).toNat = b := by
      rw [writeAll_read_other, Memory.read_write_same _ _ _ hwf]
      intro x hx he
      obtain ⟨j, hkj, hj, hxj⟩ := State.mem_writesAt hx
      rw [hxj] at he
      have := dstAt_inj (by omega) (by omega) he
      omega
    rw [List.range'_succ, List.map_cons, State.writesAt_cons, writeAll, first,
      ih (k + 1) _ (Memory.wf_write _ _ _ hwf (s.dstAt k).isLt) (by omega)]

/-! ### Commands that use it -/

/-- From `s` to `t` the bytes are put, and memory is moved by nothing else. -/
structure PutsBytes (bytes : List Byte) (s t : State) : Prop where
  operands : SameOperands s t
  raced : t.raced = s.raced
  cursor : t.cursor = s.cursor + bytes.length
  /-- Put tests the capacity (60_exceptions.md R238) -/
  room : s.cursor ≤ s.dstCap.toNat → t.cursor ≤ s.dstCap.toNat
  writes : writesOf t.accesses = writesOf s.accesses ++ s.writesAt s.cursor bytes
  mem : quiet s → t.mem = writeAll (s.writesAt s.cursor bytes) s.mem
  /-- with races too -/
  frame : ∀ a, (∀ k, s.cursor ≤ k → k < t.cursor → a ≠ (s.dstAt k).toNat) → t.mem.read a = s.mem.read a

theorem SameOperands.dstAt {s t : State} (h : SameOperands s t) : t.dstAt = s.dstAt := by
  obtain ⟨-, -, -, hdst, -⟩ := h
  funext k
  rw [State.dstAt, State.dstAt, hdst]

theorem SameOperands.srcAt {s t : State} (h : SameOperands s t) : t.srcAt = s.srcAt := by
  obtain ⟨-, hsrc, -⟩ := h
  funext k
  rw [State.srcAt, State.srcAt, hsrc]

theorem SameOperands.srcLen {s t : State} (h : SameOperands s t) : t.srcLen = s.srcLen := h.2.2.1

theorem SameOperands.dstCap {s t : State} (h : SameOperands s t) : t.dstCap = s.dstCap := h.2.2.2.2.1

theorem SameOperands.writesAt {s t : State} (h : SameOperands s t) : t.writesAt = s.writesAt := by
  funext k bytes
  rw [State.writesAt, State.writesAt, h.dstAt]

theorem PutsBytes.trans {s t u : State} {bytes bytes' : List Byte} (h : PutsBytes bytes s t)
    (h' : PutsBytes bytes' t u) : PutsBytes (bytes ++ bytes') s u where
  operands := h.operands.trans h'.operands
  raced := h'.raced.trans h.raced
  cursor := by rw [h'.cursor, h.cursor, List.length_append, Nat.add_assoc]
  room hs := h.operands.dstCap ▸ h'.room (h.operands.dstCap ▸ h.room hs)
  writes := by rw [h'.writes, h.writes, h.operands.writesAt, h.cursor, State.writesAt_append, List.append_assoc]
  mem hq := by
    rw [h'.mem (h.raced.trans hq), h.mem hq, h.operands.writesAt, h.cursor, State.writesAt_append, writeAll_append]
  frame a ha := by
    have h1 := h.cursor
    have h2 := h'.cursor
    refine (h'.frame a fun k hk hk' => ?_).trans (h.frame a fun k hk hk' => ha k hk (by omega))
    rw [h.operands.dstAt]
    exact ha k (by omega) hk'

/-- Steps that put nothing. -/
theorem PutsBytes.nothing {s t : State} (operands : SameOperands s t) (raced : t.raced = s.raced)
    (cursor : t.cursor = s.cursor) (h : NoWrite s t) : PutsBytes [] s t where
  operands := operands
  raced := raced
  cursor := cursor
  room hs := cursor ▸ hs
  writes := h.2.trans (List.append_nil _).symm
  mem _ := h.1
  frame a _ := by rw [h.1]

/-- A Put that is not refused puts its byte. -/
theorem put_putsBytes {b : Byte} {s t : State} (h : (put b).run s = .ok () t) : PutsBytes [b] s t := by
  rw [put_run] at h
  split at h
  · cases h
  · rename_i hcap
    split at h
    · cases h
      refine ⟨⟨rfl, rfl, rfl, rfl, rfl, rfl, rfl, rfl, rfl⟩, rfl, rfl, fun hs => Nat.lt_of_le_of_ne hs hcap,
        writesOf_append _ _, fun hq => ?_, fun a ha => ?_⟩
      · rw [busWrite_quiet (olderValues_nil hq _)]
        rfl
      · rcases busWrite_mem (s.dstAt s.cursor) b s with he | he <;> rw [he]
        exact Memory.read_write_other _ _ _ _ (ha s.cursor (Nat.le_refl _) (Nat.lt_succ_self _))
    · cases h

theorem put_error {b : Byte} {x : Raise} {s t : State} (h : (put b).run s = .error x t) : t = s := by
  rw [put_run] at h
  split at h
  · cases h
    rfl
  · split at h <;> cases h
    rfl

/-- Some bytes are put. -/
def Stores (s t : State) : Prop := ∃ bytes, PutsBytes bytes s t

theorem stores_refl (s : State) : Stores s s := ⟨[], .nothing (OffPort.refl s).operands rfl rfl ⟨rfl, rfl⟩⟩

theorem stores_trans (s t u : State) : Stores s t → Stores t u → Stores s u :=
  fun ⟨_, h⟩ ⟨_, h'⟩ => ⟨_, h.trans h'⟩

theorem put_stores (b : Byte) : Keeps Stores (put b) := by
  intro s
  cases h : (put b).run s with
  | ok a t => exact ⟨[b], put_putsBytes h⟩
  | error x t =>
    cases put_error h
    exact stores_refl s

/-- A read moves the log and the counter of free values alone. -/
theorem srcByte_frame (i : Nat) :
    Keeps (fun s t => SameOperands s t ∧ t.raced = s.raced ∧ t.cursor = s.cursor) (srcByte i) := by
  intro s
  rcases srcByte_cases i s with ⟨b, d, l, h⟩ | ⟨x, h⟩ <;> rw [h] <;> exact ⟨(OffPort.refl s).operands, rfl, rfl⟩

/-- Whatever the pieces of a command do, memory is moved by the bytes put alone. -/
theorem Built.stores (h : Built r w e m) : Keeps Stores m := by
  refine h.keeps stores_trans (fun s t ho => ?_) (fun _ st s => ?_) (fun _ i s => ?_) fun _ => put_stores
  · obtain ⟨hlog, hmem, hraced⟩ := ho.still
    exact ⟨[], .nothing ho.operands hraced ho.cursor ⟨hmem, congrArg writesOf hlog⟩⟩
  · exact ⟨[], .nothing (OffPort.refl s).operands rfl rfl ⟨rfl, rfl⟩⟩
  · obtain ⟨hops, hraced, hcur⟩ := srcByte_frame i s
    exact ⟨[], .nothing hops hraced hcur (srcByte_noWrite i s)⟩

/-- Whatever the pieces of a command do, no operand changes. -/
theorem Built.operands (h : Built r w e m) : Keeps SameOperands m := fun s => by
  obtain ⟨bytes, hputs⟩ := h.stores s
  exact hputs.operands

/-! ### DST_LEN (10_state.md R30) -/

/-- Where the piece runs to its end, DST_LEN is the output cursor. -/
def FilesLength (m : Engine Unit) : Prop := ∀ s t, m.run s = .ok () t → t.dstLen = BitVec.ofNat 32 t.cursor

theorem filesLength_bind {m : Engine α} {f : α → Engine Unit} (hf : ∀ a, FilesLength (f a)) :
    FilesLength (m >>= f) := by
  intro s t h
  rw [run_bind] at h
  cases hr : m.run s with
  | ok a u =>
    rw [hr] at h
    exact hf a u t h
  | error x u =>
    rw [hr] at h
    cases h

theorem filesLength_emitStage : FilesLength emitStage := by
  have results : ∀ hdr, FilesLength (modify (emitResults hdr) : Engine Unit) := fun hdr s t h => by
    cases h
    rfl
  exact filesLength_bind fun _ => filesLength_bind fun _ => filesLength_bind fun _ => filesLength_bind fun _ =>
    filesLength_bind fun _ => filesLength_bind fun _ => results _

theorem filesLength_matchStage (base : Nat) : FilesLength (matchStage base) := by
  have results : FilesLength (modify (matchResults base) : Engine Unit) := fun s t h => by
    cases h
    rfl
  exact filesLength_bind fun _ => filesLength_bind fun _ => filesLength_bind fun _ => results

theorem filesLength_stages {i : Instr} (h : i ∈ [.emit, .encode, .matchBits, .decode]) : FilesLength (stages i) := by
  cases i with
  | emit => exact filesLength_emitStage
  | encode => exact filesLength_bind fun _ => filesLength_bind fun _ => filesLength_bind fun _ => filesLength_emitStage
  | matchBits => exact filesLength_matchStage 0
  | decode => exact filesLength_bind fun _ => filesLength_bind fun _ => filesLength_matchStage _
  | nop | clear | freq | ptab | tree | parse => exact absurd h (by decide)

/-- Settles O23: from acceptance on, where the output cursor is 0, a command puts the bytes from DST_ADDR on, and its
last step files their number. -/
theorem storingCommandsWriteTheDestination : Obligations.StoringCommandsWriteTheDestination := by
  intro i s t hi h
  obtain ⟨m, hm, hbuilt, rfl⟩ := exec_runs h
  have hfiles : FilesLength m := by
    rcases hm with rfl | ⟨x, -, rfl⟩
    · exact filesLength_stages hi
    · exact fun _ _ hr => by cases hr
  obtain ⟨bytes, hputs⟩ := hbuilt.stores (accept (encode i) s)
  have hcur : (endOf (m.run (accept (encode i) s))).cursor = bytes.length := hputs.cursor.trans (Nat.zero_add _)
  have hcap : bytes.length ≤ s.dstCap.toNat := hcur ▸ hputs.room (Nat.zero_le _)
  have hlt : bytes.length < 2 ^ 32 := hcap.trans_lt s.dstCap.isLt
  refine ⟨bytes, ?_, hcap, fun herr => ?_, fun hq hwf => ?_, fun a ha => ?_⟩
  · rw [terminate_accesses, hputs.writes, List.range_eq_range']
    rfl
  · obtain ⟨u, hu, ht⟩ := terminate_normal herr
    rw [hu] at hcur
    rw [ht, show (normalTerminate u).dstLen = u.dstLen from rfl, hfiles _ u hu, show u.cursor = bytes.length from hcur,
      BitVec.toNat_ofNat, Nat.mod_eq_of_lt hlt]
  · rw [dstBytes, (noCommandChangesOperands i s _ h).dstAt, terminate_mem, hputs.mem hq, List.range_eq_range']
    exact writeAll_writesAt s 0 bytes s.mem hwf (by omega)
  · rw [terminate_mem]
    exact hputs.frame a fun k _ hk => ha k (hcur ▸ hk)

end Sys2Proof.Machine
end

section
/-! PROOFS. Memory while a command runs access by access (20_memory.md R79, R80; 70_reset_and_hazards.md R265, R270): a
byte is put once at most, so it is the old one or the one the command leaves. -/

namespace Sys2Proof.Machine

/-! ### What an access, and what is left of a command, is built of -/

theorem built_emitBegin : Built True True True emitBegin :=
  .bind (.enter trivial .emit) fun _ => built_look fun _ => .pure _

theorem built_matchBegin (base : Nat) : Built True True True (matchBegin base) :=
  .bind (.enter trivial .matchBits) fun _ => .pure _

theorem built_begin (c : Instr) : Built True True True (begin c) := by
  cases c with
  | nop => exact .pure _
  | clear => exact .bind (.modify _ fun s => { OffPort.refl s with }) fun _ => .pure _
  | freq | encode => exact .bind (built_freqBegin trivial) fun _ => .pure _
  | ptab => exact .bind (built_ptabStage trivial) fun _ => .pure _
  | tree => exact .bind (built_treeStage trivial) fun _ => .pure _
  | emit => exact built_emitBegin
  | parse | decode => exact .bind (built_parseBegin trivial) fun _ => .pure _
  | matchBits => exact built_matchBegin 0

theorem built_afterFreq (c : Instr) : Built True True True (afterFreq c) := by
  cases c with
  | encode => exact .bind (built_ptabStage trivial) fun _ => .bind (built_treeStage trivial) fun _ => built_emitBegin
  | nop | clear | freq | ptab | tree | emit | parse | matchBits | decode => exact .pure _

theorem built_afterParse (c : Instr) : Built True True True (afterParse c) := by
  cases c with
  | decode => exact built_look fun _ => built_matchBegin _
  | nop | clear | freq | ptab | tree | emit | encode | parse | matchBits => exact .pure _

theorem built_parseAccess (c : Instr) (pos : Nat) (p : Parser) : Built True True True (parseAccess c pos p) := by
  refine built_look fun _ => built_ite (.bind (.srcByte trivial pos) fun b => ?_) (.throw _ ErrKind.noConfusion)
  refine .look (parseThen p pos b (fun p' => pure (some (.parse (pos + 1) p'))) (afterParse c))
    (built_parseThen p pos b (fun _ => .pure _) (built_afterParse c)) fun s => ?_
  unfold parseThen
  cases parseByte p s.codes b <;> rfl

theorem built_matchAccess (base j : Nat) (acc : Codeword) (start : Nat) :
    Built True True True (matchAccess base j acc start) := by
  refine built_look fun _ => built_ite (.bind (.srcByte trivial j) fun b => built_ite (.throw _ ErrKind.noConfusion)
    (built_look fun t => ?_))
    (built_ite (.bind (built_matchResults base) fun _ => .pure _) (.throw _ ErrKind.noConfusion))
  dsimp only
  split <;> exact .pure _

theorem built_advance (c : Instr) (p : Progress) : Built True True True (advance c p) := by
  cases p with
  | start => exact built_begin c
  | freq i =>
    exact built_look fun _ => built_ite
      (.bind (.srcByte trivial i) fun b => .bind (.modify _ fun s => { OffPort.refl s with }) fun _ => .pure _)
      (.bind built_freqResults fun _ => built_afterFreq c)
  | header rest =>
    cases rest with
    | nil => exact built_look fun _ => .pure _
    | cons b rest => exact .bind (.put trivial b) fun _ => .pure _
  | bits hdr j rest =>
    cases rest with
    | nil =>
      exact built_look fun _ => built_ite
        (.bind (.srcByte trivial j) fun b => built_look fun t => built_ite (.throw _ ErrKind.noConfusion) (.pure _))
        (.bind (built_emitResults hdr) fun _ => .pure _)
    | cons b rest => exact .bind (.put trivial b) fun _ => .pure _
  | parse pos p => exact built_parseAccess c pos p
  | matching base j acc start => exact built_matchAccess base j acc start
  | found base j b start => exact .bind (.put trivial b) fun _ => .pure _

theorem built_restAfterFreq (c : Instr) : Built True True True (restAfterFreq c) := by
  cases c with
  | encode =>
    exact .bind (built_ptabStage trivial) fun _ => .bind (built_treeStage trivial) fun _ =>
      built_emitStage trivial trivial trivial
  | nop | clear | freq | ptab | tree | emit | parse | matchBits | decode => exact .pure _

theorem built_restAfterParse (c : Instr) : Built True True True (restAfterParse c) := by
  cases c with
  | decode => exact built_look fun _ => built_matchStage trivial trivial trivial _
  | nop | clear | freq | ptab | tree | emit | encode | parse | matchBits => exact .pure _

/-- What is left of a command from a place inside it. -/
theorem built_finish (c : Instr) {p : Progress} (hp : p ≠ .start) : Built True True True (finish c p) := by
  cases p with
  | start => exact absurd rfl hp
  | freq i => exact .bind (built_freqFrom trivial i) fun _ => built_restAfterFreq c
  | header rest => exact built_headerFrom trivial trivial rest
  | bits hdr j rest => exact .bind (built_putStr trivial rest) fun _ => built_bitsFrom trivial trivial hdr j
  | parse pos p => exact .bind (built_parseFrom trivial pos p) fun _ => built_restAfterParse c
  | matching base j acc start => exact built_matchFrom trivial trivial base j acc start
  | found base j b start => exact .bind (.put trivial b) fun _ => built_matchFrom trivial trivial base j [] start

/-! ### Accesses one after the other -/

theorem running_eq_none {s : State} (h : s.busy = false) : s.running = none :=
  Option.isNone_iff_eq_none.1 (Option.isSome_eq_false_iff.1 h)

theorem engineTurn_idle {s : State} (h : s.busy = false) : engineTurn s = .next s := by
  rw [engineTurn, running_eq_none h]

theorem accessTurns_idle {s : State} (h : s.busy = false) (n : Nat) : accessTurns n s = .next s := by
  have turn : accessTurn s = .next s := by rw [accessTurn, running_eq_none h]
  induction n with
  | zero => rfl
  | succ n ih =>
    rw [accessTurns, turn]
    exact ih

/-- A piece after which the command still runs stopped at a place. -/
theorem pause_busy {x : EStateM.Result Raise State (Option Progress)} (h : (pause x).busy = true) :
    ∃ q u, x = .ok (some q) u ∧ pause x = { u with progress := q } := by
  cases x with
  | error r u => cases h
  | ok o u =>
    cases o with
    | none => cases h
    | some q => exact ⟨q, u, rfl, rfl⟩

/-- A piece after which the command still runs has put some bytes, and stands inside the command. -/
theorem pause_advance_stores {c : Instr} {p : Progress} {s : State}
    (h : (pause ((advance c p).run s)).busy = true) :
    (pause ((advance c p).run s)).progress ≠ .start ∧ Stores s (pause ((advance c p).run s)) := by
  obtain ⟨q, u, hr, hpause⟩ := pause_busy h
  obtain ⟨bytes, hputs⟩ := (built_advance c p).stores s
  rw [hr] at hputs
  rw [hpause]
  exact ⟨(advance_piece c p).2 s q u hr, bytes, { hputs with }⟩

/-- An access after which the command still runs has put some bytes since the acceptance, or since the access before. -/
theorem accessTurn_busy {s t : State} (h : accessTurn s = .next t) (hb : t.busy = true) :
    t.progress ≠ .start ∧ (s.progress ≠ .start → Stores s t) ∧ ∃ c, s.progress = .start → Stores (accept c s) t := by
  rcases accessTurn_next h with ⟨hrun, rfl⟩ | ⟨w, -, hi⟩ | ⟨c, -, ⟨r, rfl⟩ | ⟨hp, -, rfl⟩ | ⟨hp, rfl⟩⟩
  · rw [State.busy, hrun] at hb
    cases hb
  · cases hi
    cases hb
  · cases hb
  · obtain ⟨hq, hs⟩ := pause_advance_stores hb
    exact ⟨hq, fun hne => absurd hp hne, _, fun _ => hs⟩
  · obtain ⟨hq, bytes, hputs⟩ := pause_advance_stores hb
    exact ⟨hq, fun _ => ⟨bytes, { hputs with }⟩, 0, fun he => absurd he hp⟩

/-- Accesses after which the command still runs, the first of them apart. -/
theorem accessTurns_succ {n : Nat} {s t : State} (h : accessTurns (n + 1) s = .next t) (hb : t.busy = true) :
    ∃ u, accessTurn s = .next u ∧ u.busy = true ∧ accessTurns n u = .next t := by
  rw [accessTurns] at h
  cases ha : accessTurn s with
  | next u =>
    rw [ha] at h
    change accessTurns n u = .next t at h
    refine ⟨u, rfl, ?_, h⟩
    by_contra hu
    rw [accessTurns_idle (Bool.eq_false_iff.2 hu)] at h
    cases h
    exact hu hb
  | fault f =>
    rw [ha] at h
    cases h
  | refused r =>
    rw [ha] at h
    cases h

theorem accessTurns_stores {n : Nat} {s t : State} (hp : s.progress ≠ .start) (h : accessTurns n s = .next t)
    (hb : t.busy = true) : t.progress ≠ .start ∧ Stores s t := by
  induction n generalizing s with
  | zero =>
    cases h
    exact ⟨hp, stores_refl _⟩
  | succ n ih =>
    obtain ⟨u, ha, hu, hrest⟩ := accessTurns_succ h hb
    obtain ⟨hup, hstores, -⟩ := accessTurn_busy ha hu
    obtain ⟨htp, hstores'⟩ := ih hup hrest
    exact ⟨htp, stores_trans _ _ _ (hstores hp) hstores'⟩

/-- What is left of a command from a place inside it puts some bytes. -/
theorem engineTurn_stores {s t : State} (hp : s.progress ≠ .start) (h : engineTurn s = .next t) :
    ∃ u, Stores s u ∧ t.mem = u.mem := by
  rcases engineTurn_cases s with ⟨-, he⟩ | ⟨w, r, -, -, he⟩ | ⟨w, c, -, -, hs, -⟩ | ⟨w, c, -, -, -, he⟩
  · cases he.symm.trans h
    exact ⟨s, stores_refl s, rfl⟩
  · cases he.symm.trans h
    exact ⟨s, stores_refl s, rfl⟩
  · exact absurd hs hp
  · cases he.symm.trans h
    obtain ⟨bytes, hputs⟩ := (built_finish c hp).stores s.resumed
    exact ⟨_, ⟨bytes, { hputs with }⟩, terminate_mem _⟩

/-- Of the bytes put from the start of the region on, those put later are not those put before. -/
theorem Stores.old_or_final {s m u : State} (h : Stores s m) (h' : Stores m u) (hs : s.cursor = 0) (a : Nat) :
    m.mem.read a = s.mem.read a ∨ m.mem.read a = u.mem.read a := by
  obtain ⟨bytes, hm⟩ := h
  obtain ⟨bytes', hu⟩ := h'
  have hmcap := hm.room (hs ▸ Nat.zero_le _)
  have hucap := hu.room (hm.operands.dstCap ▸ hmcap)
  rw [hm.operands.dstCap] at hucap
  have hcap := s.dstCap.isLt
  by_cases hlater : ∃ k, m.cursor ≤ k ∧ k < u.cursor ∧ a = (s.dstAt k).toNat
  · obtain ⟨k, hmk, hku, rfl⟩ := hlater
    refine .inl (hm.frame _ fun j _ hj he => ?_)
    have := dstAt_inj (by omega) (by omega) he
    omega
  · refine .inr (hu.frame a fun k hmk hku he => hlater ⟨k, hmk, hku, ?_⟩).symm
    rw [he, hm.operands.dstAt]

/-- Settles O16: the accesses before the read put bytes, and those after it put others. -/
theorem hostReadSeesOldOrFinalByte : Obligations.HostReadSeesOldOrFinalByte := by
  refine ⟨fun s a => hostRead_eq a s, fun s t m n a _ hstart _ ht hm => ?_⟩
  have hturn : engineTurn m = .next t := (engineTurn_accessTurns hm).symm.trans ht
  have hended : m.busy = false → m = t := fun hb => by
    rw [engineTurn_idle hb] at hturn
    injection hturn
  refine ⟨?_, hended⟩
  by_cases hb : m.busy = true
  · cases n with
    | zero =>
      cases hm
      exact .inl rfl
    | succ n =>
      obtain ⟨u, ha, hu, hrest⟩ := accessTurns_succ hm hb
      obtain ⟨hup, -, c, hfirst⟩ := accessTurn_busy ha hu
      obtain ⟨hmp, hstores⟩ := accessTurns_stores hup hrest hb
      obtain ⟨v, hfinal, hmem⟩ := engineTurn_stores hmp hturn
      rw [hmem]
      exact (stores_trans _ _ _ (hfirst hstart) hstores).old_or_final hfinal rfl a.toNat
  · exact .inr (by rw [hended (Bool.eq_false_iff.2 hb)])

end Sys2Proof.Machine
end

section
/-! PROOFS. The reads of a command (20_memory.md R78): each stage that reads does so from an offset on, ascending, each
byte once. -/

namespace Sys2Proof.Machine

variable {α β : Type}

/-! ### Reads in a row -/

/-- The addresses the running command has read. -/
def State.readAddrs (s : State) : List Word := (readsOf s.accesses).map Prod.fst

/-- What ended in `x` from the state `s` has read the source bytes from offset `i` on, ascending, each once, `n` of them
at most; where it ran to its end, `k` of them with `done k`. -/
def Reads (i n : Nat) (done : Nat → State → Prop) (s : State) (x : EStateM.Result Raise State α) : Prop :=
  ∃ k, k ≤ n ∧ (endOf x).readAddrs = s.readAddrs ++ (List.range' i k).map s.srcAt ∧ ∀ a t, x = .ok a t → done k t

theorem Reads.mono {i n : Nat} {done done' : Nat → State → Prop} {s : State} {x : EStateM.Result Raise State α}
    (h : Reads i n done s x) (hd : ∀ k t, k ≤ n → done k t → done' k t) : Reads i n done' s x := by
  obtain ⟨k, hk, hlog, hdone⟩ := h
  exact ⟨k, hk, hlog, fun a t hx => hd k t hk (hdone a t hx)⟩

/-- What makes no read. -/
theorem reads_none {i n : Nat} {done : Nat → State → Prop} {s : State} {x : EStateM.Result Raise State α}
    (h : (endOf x).readAddrs = s.readAddrs) (hd : ∀ a t, x = .ok a t → done 0 t) : Reads i n done s x :=
  ⟨0, Nat.zero_le n, h.trans (List.append_nil _).symm, hd⟩

theorem reads_throw {i n : Nat} {done : Nat → State → Prop} (s : State) (x : Raise) :
    Reads i n done s ((throw x : Engine α).run s) := reads_none rfl fun _ _ h => by cases h

/-- Where both pieces read, the second goes on where the first stopped. -/
theorem reads_bind {i n : Nat} {done done' : Nat → State → Prop} {s : State} {m : Engine α} {f : α → Engine β}
    (hops : Keeps SameOperands m) (hm : Reads i n done s (m.run s))
    (hf : ∀ k a t, SameOperands s t → k ≤ n → done k t →
      Reads (i + k) (n - k) (fun k' => done' (k + k')) t ((f a).run t)) :
    Reads i n done' s ((m >>= f).run s) := by
  obtain ⟨k, hk, hlog, hdone⟩ := hm
  rw [run_bind]
  cases hr : m.run s with
  | error x t =>
    rw [hr] at hlog
    exact ⟨k, hk, hlog, fun _ _ h => by cases h⟩
  | ok a t =>
    have h := hops s
    rw [hr] at hlog h
    have hst : SameOperands s t := h
    obtain ⟨k', hk', hlog', hdone'⟩ := hf k a t hst hk (hdone a t hr)
    refine ⟨k + k', by omega, hlog'.trans ?_, hdone'⟩
    rw [show t.readAddrs = _ from hlog, hst.srcAt, List.append_assoc, ← List.map_append, List.range'_append_1]

/-- A piece that begins by looking at the state. -/
theorem reads_look {i n : Nat} {done : Nat → State → Prop} {s : State} {f : State → Engine α}
    (h : Reads i n done s ((f s).run s)) : Reads i n done s ((get >>= f).run s) := h

theorem put_noRead (b : Byte) : Keeps (fun s t => t.readAddrs = s.readAddrs) (put b) := by
  intro s
  rw [put_run]
  split
  · rfl
  · split
    · simp [endOf, State.readAddrs]
    · rfl

/-- Without reads none is logged. -/
theorem Built.noRead {r w e : Prop} {m : Engine α} (h : Built r w e m) (hr : ¬ r) :
    Keeps (fun s t => t.readAddrs = s.readAddrs) m :=
  h.keeps (fun _ _ _ h h' => h'.trans h)
    (fun _ _ ho => congrArg (fun l => (readsOf l).map Prod.fst) ho.still.1) (fun _ _ _ => rfl) (fun hp => absurd hp hr)
    fun _ => put_noRead

/-- Nothing is read before. -/
theorem reads_after {i n : Nat} {done : Nat → State → Prop} {s : State} {m : Engine α} {f : α → Engine β}
    (hb : Built False True True m) (hf : ∀ a t, SameOperands s t → Reads i n done t ((f a).run t)) :
    Reads i n done s ((m >>= f).run s) := by
  refine reads_bind (done := fun k _ => k = 0) hb.operands (reads_none (hb.noRead id s) fun _ _ _ => rfl) ?_
  rintro k a t hops - rfl
  exact (hf a t hops).mono fun k t _ h => (Nat.zero_add k).symm ▸ h

/-- Nothing is read after. -/
theorem reads_before {i n : Nat} {done done' : Nat → State → Prop} {s : State} {m : Engine α} {f : α → Engine β}
    (hb : Built True True True m) (hm : Reads i n done s (m.run s)) (hf : ∀ a, Built False True True (f a))
    (hd : ∀ k a t b u, done k t → (f a).run t = .ok b u → done' k u) : Reads i n done' s ((m >>= f).run s) :=
  reads_bind hb.operands hm fun k a t _ _ hk => reads_none ((hf a).noRead id t) fun b u hu => hd k a t b u hk hu

/-- One read, and then the rest. -/
theorem reads_read {i n : Nat} {done : Nat → State → Prop} {s : State} {f : Byte → Engine α}
    (hf : ∀ b t, SameOperands s t → Reads (i + 1) n (fun k => done (k + 1)) t ((f b).run t)) :
    Reads i (n + 1) done s ((srcByte i >>= f).run s) := by
  have hread : Reads i (n + 1) (fun k _ => k = 1) s ((srcByte i).run s) := by
    rw [srcByte_run, memRead_run]
    split
    · exact ⟨1, by omega, by simp [endOf, State.readAddrs], fun _ _ _ => rfl⟩
    · exact reads_none rfl fun _ _ h => by cases h
  refine reads_bind (fun s => (srcByte_frame i s).1) hread ?_
  rintro k b t hops - rfl
  exact (hf b t hops).mono fun k t _ h => Nat.add_comm 1 k ▸ h

/-! ### The stages that read -/

theorem reads_freqLoop (n i : Nat) (s : State) : Reads i n (fun k _ => k = n) s ((freqLoop n i).run s) := by
  induction n generalizing i s with
  | zero => exact reads_none rfl fun _ _ _ => rfl
  | succ n ih =>
    refine reads_read fun b t _ => reads_after (.modify _ fun s => { OffPort.refl s with })
      fun _ u _ => (ih (i + 1) u).mono fun k _ _ hk => by rw [hk]

theorem reads_freqStage (s : State) :
    Reads 0 s.srcLen.toNat (fun k _ => k = s.srcLen.toNat) s (freqStage.run s) := by
  refine reads_after (built_freqBegin trivial) fun _ t hops => ?_
  rw [← hops.srcLen]
  refine reads_look ?_
  exact reads_before (built_freqLoop trivial _ 0) (reads_freqLoop _ 0 t) (fun _ => built_freqResults)
    fun _ _ _ _ _ hk _ => hk

theorem reads_emitLoop (n j : Nat) (s : State) : Reads j n (fun k _ => k = n) s ((emitLoop n j).run s) := by
  induction n generalizing j s with
  | zero => exact reads_none rfl fun _ _ _ => rfl
  | succ n ih =>
    refine reads_read fun b t _ => reads_look ?_
    split
    · exact reads_throw t _
    · exact reads_after (built_putStr trivial _) fun _ u _ =>
        (ih (j + 1) u).mono fun k _ _ hk => by rw [hk]

theorem reads_emitStage (s : State) :
    Reads 0 s.srcLen.toNat (fun k _ => k = s.srcLen.toNat) s (emitStage.run s) := by
  refine reads_after (.enter trivial .emit) fun _ t ht => reads_look ?_
  refine reads_after (built_putStr trivial _) fun _ u hu => reads_look (reads_look ?_)
  rw [← (ht.trans hu).srcLen]
  exact reads_before (built_emitLoop trivial trivial _ 0) (reads_emitLoop _ 0 u)
    (fun _ => built_emitResults _) fun _ _ _ _ _ hk _ => hk

/-- PARSE reads up to BS_OFF (43_decoder.md R190). -/
theorem reads_parseLoop (left pos : Nat) (p : Parser) (s : State) :
    Reads pos left (fun k t => t.bsOff = BitVec.ofNat 32 (pos + k)) s ((parseLoop left pos p).run s) := by
  induction left generalizing pos p s with
  | zero => exact reads_throw s _
  | succ left ih =>
    refine reads_read fun b t _ => reads_look ?_
    split
    · exact reads_throw t _
    · rename_i p' codes _
      exact (ih (pos + 1) p' { t with codes := codes }).mono fun k _ _ hk => by
        rw [hk, Nat.add_right_comm, Nat.add_assoc]
    · exact reads_none rfl fun _ u hu => by
        cases hu
        rfl

theorem reads_parseStage (s : State) :
    Reads 0 s.srcLen.toNat (fun k t => k = t.bsOff.toNat) s (parseStage.run s) := by
  refine reads_after (built_parseBegin trivial) fun _ t ht => ?_
  rw [← ht.srcLen]
  refine (reads_parseLoop _ 0 Parser.start t).mono fun k u hk hu => ?_
  rw [hu, Nat.zero_add, BitVec.toNat_ofNat, Nat.mod_eq_of_lt (hk.trans_lt t.srcLen.isLt)]

theorem reads_matchLoop (left j : Nat) (acc : Codeword) (start : Nat) (s : State) :
    Reads j left (fun k _ => k = left) s ((matchLoop left j acc start).run s) := by
  induction left generalizing j acc start s with
  | zero =>
    rw [matchLoop]
    split
    · exact reads_none rfl fun _ _ _ => rfl
    · exact reads_throw s _
  | succ left ih =>
    refine reads_read fun b t _ => ?_
    split
    · exact reads_throw t _
    · refine reads_look ?_
      dsimp only
      split
      · exact reads_after (.put trivial _) fun _ u _ =>
          (ih (j + 1) _ _ u).mono fun k _ _ hk => by rw [hk]
      · exact (ih (j + 1) _ _ t).mono fun k _ _ hk => by rw [hk]

theorem reads_matchStage (base : Nat) (s : State) :
    Reads base (s.srcLen.toNat - base) (fun k _ => k = s.srcLen.toNat - base) s ((matchStage base).run s) := by
  refine reads_after (.enter trivial .matchBits) fun _ t ht => ?_
  rw [← ht.srcLen]
  refine reads_look ?_
  exact reads_before (built_matchLoop trivial trivial _ base [] base) (reads_matchLoop _ base [] base t)
    (fun _ => built_matchResults _) fun _ _ _ _ _ hk _ => hk

/-! ### The commands -/

/-- In every command but ENCODE the stages read the source once. -/
theorem reads_stages {i : Instr} (hi : i ≠ .encode) (s : State) :
    Reads 0 s.srcLen.toNat (fun k t => (i ∈ [.freq, .emit, .matchBits, .decode] → k = s.srcLen.toNat)
      ∧ (i = .parse → k = t.bsOff.toNat)) s ((stages i).run s) := by
  have none_read : ∀ c, usesSource c = false → (endOf ((stages c).run s)).readAddrs = s.readAddrs := fun c hc =>
    (built_stages c).noRead (Bool.eq_false_iff.1 hc) s
  cases i with
  | nop | clear | ptab | tree =>
    exact reads_none (none_read _ rfl) fun _ _ _ => ⟨fun h => absurd h (by decide), Instr.noConfusion⟩
  | freq => exact (reads_freqStage s).mono fun _ _ _ hk => ⟨fun _ => hk, Instr.noConfusion⟩
  | emit => exact (reads_emitStage s).mono fun _ _ _ hk => ⟨fun _ => hk, Instr.noConfusion⟩
  | encode => exact absurd rfl hi
  | parse => exact (reads_parseStage s).mono fun _ _ _ hk => ⟨fun h => absurd h (by decide), fun _ => hk⟩
  | matchBits => exact (reads_matchStage 0 s).mono fun _ _ _ hk => ⟨fun _ => hk, Instr.noConfusion⟩
  | decode =>
    refine reads_bind (built_stages .parse).operands (reads_parseStage s) ?_
    rintro k _ t hst hk rfl
    have hlen : t.srcLen = s.srcLen := hst.srcLen
    rw [Nat.zero_add, ← hlen]
    refine (reads_matchStage t.bsOff.toNat t).mono fun k' _ _ hk' => ⟨fun _ => ?_, Instr.noConfusion⟩
    rw [hlen] at hk' ⊢
    omega

/-- ENCODE reads the source in FREQ and, once it is counted, again in EMIT (30_encoding.md R124). -/
theorem readAddrs_encodeStages (s : State) :
    ∃ n m, n ≤ s.srcLen.toNat ∧ m ≤ s.srcLen.toNat ∧ (0 < m → n = s.srcLen.toNat)
      ∧ (∀ a t, encodeStages.run s = .ok a t → n = s.srcLen.toNat ∧ m = s.srcLen.toNat)
      ∧ (endOf (encodeStages.run s)).readAddrs = s.readAddrs ++ (List.range n ++ List.range m).map s.srcAt := by
  obtain ⟨n, hn, hlog, hdone⟩ := reads_freqStage s
  have hfreq := (built_stages .freq).operands s
  rw [encodeStages, run_bind]
  cases hr : freqStage.run s with
  | error x t =>
    rw [hr] at hlog
    refine ⟨n, 0, hn, Nat.zero_le _, fun h => absurd h (Nat.lt_irrefl 0), fun _ _ h => (by cases h), ?_⟩
    rw [List.range_zero, List.append_nil, List.range_eq_range']
    exact hlog
  | ok a t =>
    rw [show (stages .freq).run s = _ from hr] at hfreq
    rw [hr] at hlog
    have hst : SameOperands s t := hfreq
    have hemit : Reads 0 t.srcLen.toNat (fun k _ => k = t.srcLen.toNat) t
        ((do ptabStage; treeStage; emitStage : Engine Unit).run t) := by
      refine reads_after (built_ptabStage trivial) fun _ u hu => ?_
      refine reads_after (built_treeStage trivial) fun _ v hv => ?_
      exact (hu.trans hv).srcLen ▸ reads_emitStage v
    obtain ⟨m, hm, hlog', hdone'⟩ := hemit
    refine ⟨n, m, hn, hst.srcLen ▸ hm, fun _ => hdone a t hr,
      fun b u hu => ⟨hdone a t hr, hst.srcLen ▸ hdone' b u hu⟩, ?_⟩
    refine hlog'.trans ?_
    rw [show t.readAddrs = _ from hlog, hst.srcAt, List.append_assoc, ← List.map_append, List.range_eq_range',
      List.range_eq_range']

/-- Settles O24: from acceptance on, where no access has been made, the reads are those of the stages. -/
theorem readsAscendThroughTheSource : Obligations.ReadsAscendThroughTheSource := by
  intro i s t h
  obtain ⟨m, hm, -, rfl⟩ := exec_runs h
  rw [terminate_accesses]
  rcases hm with rfl | ⟨x, -, rfl⟩
  · refine ⟨fun hi => ?_, fun hi => ?_⟩
    · obtain ⟨n, hn, hlog, hdone⟩ := reads_stages hi (accept (encode i) s)
      refine ⟨n, hn, ?_, fun herr hi' => ?_, fun herr hi' => ?_⟩
      · rw [List.range_eq_range']
        exact hlog
      all_goals
        obtain ⟨u, hu, ht⟩ := terminate_normal herr
        obtain ⟨hall, hparse⟩ := hdone () u hu
      · exact hall hi'
      · rw [ht]
        exact hparse hi'
    · subst hi
      obtain ⟨n, m, hn, hm, hnm, hdone, hlog⟩ := readAddrs_encodeStages (accept (encode .encode) s)
      refine ⟨n, m, hn, hm, hnm, fun herr => ?_, hlog⟩
      obtain ⟨u, hu, -⟩ := terminate_normal herr
      exact hdone () u hu
  · exact ⟨fun _ => ⟨0, Nat.zero_le _, rfl, fun herr => (by cases herr), fun herr => by cases herr⟩,
      fun _ => ⟨0, 0, Nat.zero_le _, Nat.zero_le _, fun h => absurd h (Nat.lt_irrefl 0),
        fun herr => (by cases herr), rfl⟩⟩

end Sys2Proof.Machine
end

section
/-! PROOFS. The bytes through which a header goes on (43_decoder.md R190 to R193): every byte of a well-formed header
but its last is accepted, and so is a size of three digits. -/

namespace Sys2Proof.Machine

/-! ### Header bytes in a row -/

/-- The variables of R190 and the code table after the bytes, if the header goes on through all of them. -/
def parseBytes : Parser → CodeTable → List Byte → Option (Parser × CodeTable)
  | p, t, [] => some (p, t)
  | p, t, b :: l =>
    match parseByte p t b with
    | .more p' t' => parseBytes p' t' l
    | .bad | .done => none

theorem parseBytes_cons {p p' : Parser} {t t' : CodeTable} {b : Byte} (h : parseByte p t b = .more p' t')
    (l : List Byte) :
    parseBytes p t (b :: l) = parseBytes p' t' l := by
  rw [parseBytes, h]

/-- Bytes that are accepted begin with one that is. -/
theorem parseByte_of_parseBytes {p : Parser} {t : CodeTable} {b : Byte} {l : List Byte} {x : Parser × CodeTable}
    (h : parseBytes p t (b :: l) = some x) : ∃ p' t', parseByte p t b = .more p' t' ∧ parseBytes p' t' l = some x := by
  rw [parseBytes] at h
  cases hb : parseByte p t b with
  | more p' t' =>
    rw [hb] at h
    exact ⟨p', t', rfl, h⟩
  | bad =>
    rw [hb] at h
    cases h
  | done =>
    rw [hb] at h
    cases h

theorem parseBytes_append {p p' : Parser} {t t' : CodeTable} {l : List Byte} (h : parseBytes p t l = some (p', t'))
    (l' : List Byte) : parseBytes p t (l ++ l') = parseBytes p' t' l' := by
  induction l generalizing p t with
  | nil =>
    cases h
    rfl
  | cons b l ih =>
    obtain ⟨q, u, hb, hl⟩ := parseByte_of_parseBytes h
    rw [List.cons_append, parseBytes_cons hb, ih hl]

/-- What begins accepted bytes is accepted. -/
theorem parseBytes_left {p : Parser} {t : CodeTable} {l l' : List Byte} {x : Parser × CodeTable}
    (h : parseBytes p t (l ++ l') = some x) : ∃ y, parseBytes p t l = some y := by
  induction l generalizing p t with
  | nil => exact ⟨_, rfl⟩
  | cons b l ih =>
    obtain ⟨q, u, hb, hl⟩ := parseByte_of_parseBytes h
    obtain ⟨y, hy⟩ := ih hl
    exact ⟨y, (parseBytes_cons hb l).trans hy⟩

/-! ### The size line (43_decoder.md R191) -/

theorem byte_ne {b c : Byte} (h : b.toNat ≠ c.toNat) : b ≠ c := fun e => h (congrArg BitVec.toNat e)

theorem parseByte_digit {p : Parser} (t : CodeTable) {b : Byte} (hp : p.phase = .size)
    (hb : 0x30 ≤ b.toNat ∧ b.toNat ≤ 0x39) (hk : p.k < 3) (h0 : p.k = 0 → b ≠ 0x30) :
    parseByte p t b = .more { p with n := 10 * p.n + (b.toNat - 0x30), k := p.k + 1 } t := by
  obtain ⟨hlo, hhi⟩ := hb
  have hlf : b ≠ LF := byte_ne (by change b.toNat ≠ 10; omega)
  have hdigit : isDigit b = true := by
    rw [isDigit, Bool.and_eq_true, decide_eq_true_eq, decide_eq_true_eq]
    exact ⟨hlo, hhi⟩
  simp only [parseByte, hp, parseSize]
  rw [if_neg hlf, hdigit, if_neg Bool.noConfusion, if_neg (by omega), if_neg fun h => h0 h.1 h.2]

/-- Up to three digits, the first of them not 0, are accepted as a number. -/
theorem parseBytes_digits {l : List Byte} {p : Parser} (t : CodeTable) (hp : p.phase = .size)
    (hl : ∀ b ∈ l, 0x30 ≤ b.toNat ∧ b.toNat ≤ 0x39) (hk : p.k + l.length ≤ 3) (h0 : p.k = 0 → l.head? ≠ some 0x30) :
    parseBytes p t l =
      some ({ p with n := l.foldl (fun v b => 10 * v + (b.toNat - 0x30)) p.n, k := p.k + l.length }, t) := by
  induction l generalizing p with
  | nil => rfl
  | cons b l ih =>
    rw [List.length_cons] at hk
    obtain ⟨hb, hl⟩ := List.forall_mem_cons.1 hl
    have hne : p.k = 0 → b ≠ 0x30 := fun h e => h0 h (congrArg some e)
    rw [parseBytes_cons (parseByte_digit t hp hb (by omega) hne),
      ih (p := { p with n := 10 * p.n + (b.toNat - 0x30), k := p.k + 1 }) hp hl (by simp only; omega)
        fun h => absurd h (Nat.succ_ne_zero _)]
    simp only [List.foldl_cons, List.length_cons, Nat.add_assoc, Nat.add_comm 1]

theorem parseBytes_dec {n : Nat} (t : CodeTable) (hn : n ≠ 0) (h : n ≤ 999) :
    parseBytes Parser.start t (dec n) = some ({ Parser.start with n := n, k := (dec n).length }, t) := by
  have hlen : (dec n).length ≤ 3 := by
    rw [dec_length hn h]
    split
    · omega
    · split <;> omega
  rw [parseBytes_digits t rfl (fun b => dec_mem hn) (by simpa [Parser.start] using hlen) fun _ => dec_head hn]
  simp only [Parser.start, dec_value hn, Nat.zero_add]

/-- After the size line the first row is expected. -/
theorem parseBytes_sizeLine {n : Nat} (t : CodeTable) (hn : n ≠ 0) (h : n ≤ Config.nsymMax) :
    parseBytes Parser.start t (dec n ++ [LF]) =
      some ({ Parser.start with phase := .symbol, n := n, rows := n, k := (dec n).length }, t) := by
  have h' : n ≤ 256 := h
  have hk : (dec n).length ≠ 0 := by
    rw [dec_length hn (by omega)]
    split
    · omega
    · split <;> omega
  have last : parseByte { Parser.start with n := n, k := (dec n).length } t LF =
      .more { Parser.start with phase := .symbol, n := n, rows := n, k := (dec n).length } t := by
    simp [parseByte, Parser.start, parseSize, hk, hn, Nat.not_lt.2 h]
  exact (parseBytes_append (parseBytes_dec t hn (by omega)) [LF]).trans (parseBytes_cons last [])

/-! ### Rows (43_decoder.md R192) -/

/-- `code(b) <- code(b) ++ code`, bit by bit. -/
def CodeTable.appendAll (t : CodeTable) (b : Byte) (code : Codeword) : CodeTable :=
  code.foldl (fun u x => u.append b x) t

theorem CodeTable.code_appendAll {t : CodeTable} {b : Byte} {code : Codeword} (h : t.len b + code.length ≤ Config.cwMax)
    (c : Byte) : (t.appendAll b code).code c = if b = c then t.code b ++ code else t.code c := by
  induction code generalizing t with
  | nil =>
    by_cases hbc : b = c
    · rw [if_pos hbc, List.append_nil, ← hbc]
      rfl
    · rw [if_neg hbc]
      rfl
  | cons x code ih =>
    rw [List.length_cons, Config.cwMax] at h
    have hlt : t.len b < 255 := by omega
    have hlen : (t.append b x).len b = t.len b + 1 := by rw [len_append t b b x hlt, if_pos rfl]
    refine (ih (t := t.append b x) (by rw [hlen, Config.cwMax]; omega)).trans ?_
    rw [code_append t b b x hlt, code_append t b c x hlt, if_pos rfl, List.append_assoc, List.singleton_append]
    split <;> rfl

theorem CodeTable.len_appendAll_other {t : CodeTable} {b c : Byte} {code : Codeword}
    (h : t.len b + code.length ≤ Config.cwMax) (hbc : b ≠ c) : (t.appendAll b code).len c = t.len c := by
  rw [← code_length, code_appendAll h, if_neg hbc, code_length]

theorem CodeTable.len_appendAll_same {t : CodeTable} {b : Byte} {code : Codeword}
    (h : t.len b + code.length ≤ Config.cwMax) : (t.appendAll b code).len b = t.len b + code.length := by
  rw [← code_length, code_appendAll h, if_pos rfl, List.length_append, code_length]

theorem parseBytes_field {l : List Byte} {p : Parser} (t : CodeTable) (hp : p.phase = .prob)
    (hl : ∀ b ∈ l, isProbChar b = true) : parseBytes p t l = some ({ p with k := p.k + l.length }, t) := by
  induction l generalizing p with
  | nil => rfl
  | cons b l ih =>
    obtain ⟨hb, hl⟩ := List.forall_mem_cons.1 hl
    have htab : b ≠ TAB := by
      rintro rfl
      exact absurd hb (by decide)
    have hbyte : parseByte p t b = .more { p with k := p.k + 1 } t := by
      simp only [parseByte, hp, parseProb]
      rw [if_neg htab, hb, if_neg Bool.noConfusion]
    rw [parseBytes_cons hbyte, ih (p := { p with k := p.k + 1 }) hp hl]
    simp only [List.length_cons, Nat.add_assoc, Nat.add_comm 1]

theorem parseByte_bit {p : Parser} {t : CodeTable} (x : Bool) (hp : p.phase = .code) (h : t.len p.sym ≠ Config.cwMax) :
    parseByte p t (bitChar x) = .more p (t.append p.sym x) := by
  have hlf : bitChar x ≠ LF := by cases x <;> decide
  have hbit : isBitChar (bitChar x) = true := by cases x <;> decide
  have hval : charBit (bitChar x) = x := by cases x <;> decide
  simp only [parseByte, hp, parseCode]
  rw [if_neg hlf, hbit, if_neg Bool.noConfusion, if_neg h, hval]

theorem parseBytes_bits {code : Codeword} {p : Parser} {t : CodeTable} (hp : p.phase = .code)
    (h : t.len p.sym + code.length ≤ Config.cwMax) :
    parseBytes p t (bitsText code) = some (p, t.appendAll p.sym code) := by
  induction code generalizing t with
  | nil => rfl
  | cons x code ih =>
    rw [List.length_cons, Config.cwMax] at h
    have hlen : (t.append p.sym x).len p.sym = t.len p.sym + 1 := by
      rw [CodeTable.len_append t _ _ x (by omega), if_pos rfl]
    rw [bitsText, List.map_cons, parseBytes_cons (parseByte_bit x hp (by rw [Config.cwMax]; omega))]
    exact ih (by rw [hlen, Config.cwMax]; omega)

/-- What `Row.ok` says. -/
theorem Row.ok_iff (x : Row) : x.ok = true ↔
    x.field ≠ [] ∧ (∀ b ∈ x.field, isProbChar b = true) ∧ x.code ≠ [] ∧ x.code.length ≤ Config.cwMax := by
  simp [Row.ok, and_assoc]

/-- The variables of R190 in the row of the symbol `b`, `k` bytes of its field having been read. -/
def Parser.inRow (p : Parser) (b : Byte) (k : Nat) (phase : ParsePhase) : Parser :=
  { p with phase := phase, sym := b, k := k }

/-- A row whose symbol has no codeword yet is accepted and gives it its codeword. -/
theorem parseBytes_row {x : Row} {p : Parser} {t : CodeTable} (hx : x.ok = true) (hp : p.phase = .symbol)
    (ht : t.len x.symbol = 0) : ∃ p' : Parser,
      p'.phase = (if p.rows = 1 then .blank else .symbol) ∧ p'.rows = p.rows - 1 ∧ p'.n = p.n
        ∧ parseBytes p t x.text = some (p', t.appendAll x.symbol x.code) := by
  obtain ⟨hfield, hprob, hcode, hlen⟩ := (Row.ok_iff x).1 hx
  have hk : x.field.length ≠ 0 := fun h => hfield (List.length_eq_zero_iff.1 h)
  have hfull : (t.appendAll x.symbol x.code).len x.symbol ≠ 0 := by
    rw [CodeTable.len_appendAll_same (by omega)]
    exact fun h => hcode (List.length_eq_zero_iff.1 (by omega))
  have symbol : parseBytes p t [x.symbol, TAB] = some (p.inRow x.symbol 0 .prob, t) := by
    simp [parseBytes, parseByte, hp, parseSymbol, parseTab, ht, Parser.inRow]
  have field := parseBytes_field (p := p.inRow x.symbol 0 .prob) t rfl hprob
  have tab : parseBytes (p.inRow x.symbol (0 + x.field.length) .prob) t [TAB] =
      some (p.inRow x.symbol (0 + x.field.length) .code, t) := by
    simp [parseBytes, parseByte, parseProb, hk, Parser.inRow]
  have code := parseBytes_bits (p := p.inRow x.symbol (0 + x.field.length) .code) (t := t) (code := x.code) rfl
    (by rw [show t.len (p.inRow x.symbol _ _).sym = 0 from ht, Nat.zero_add]; exact hlen)
  refine ⟨{ p.inRow x.symbol (0 + x.field.length) (if p.rows = 1 then .blank else .symbol) with rows := p.rows - 1 },
    rfl, rfl, rfl, ?_⟩
  have last : parseByte (p.inRow x.symbol (0 + x.field.length) .code) (t.appendAll x.symbol x.code) LF = .more
      { p.inRow x.symbol (0 + x.field.length) (if p.rows = 1 then .blank else .symbol) with rows := p.rows - 1 }
      (t.appendAll x.symbol x.code) := by
    simp [parseByte, parseCode, hfull, Parser.inRow]
  rw [Row.text, List.append_assoc, List.append_assoc, List.append_assoc, parseBytes_append symbol,
    parseBytes_append field]
  refine (parseBytes_append tab _).trans ((parseBytes_append code _).trans ?_)
  exact parseBytes_cons last []

/-- The code table the rows of a header give, one after the other. -/
def rowsTable (t : CodeTable) (rows : List Row) : CodeTable := rows.foldl (fun u x => u.appendAll x.symbol x.code) t

/-- Rows of distinct symbols without codewords are accepted; after the last of them the blank line is expected. -/
theorem parseBytes_rows {rows : List Row} {p : Parser} {t : CodeTable} (hok : ∀ x ∈ rows, x.ok = true)
    (hnodup : (rows.map Row.symbol).Nodup) (ht : ∀ x ∈ rows, t.len x.symbol = 0) (hrows : p.rows = rows.length)
    (hp : p.phase = if p.rows = 0 then .blank else .symbol) : ∃ p' : Parser,
      p'.phase = .blank ∧ p'.n = p.n ∧ parseBytes p t (rows.flatMap Row.text) = some (p', rowsTable t rows) := by
  induction rows generalizing p t with
  | nil =>
    rw [hrows, List.length_nil, if_pos rfl] at hp
    exact ⟨p, hp, rfl, rfl⟩
  | cons x rows ih =>
    obtain ⟨hx, hok⟩ := List.forall_mem_cons.1 hok
    obtain ⟨htx, ht⟩ := List.forall_mem_cons.1 ht
    obtain ⟨hnew, hnodup⟩ := List.nodup_cons.1 hnodup
    rw [List.length_cons] at hrows
    rw [if_neg (by omega)] at hp
    obtain ⟨q, hq, hqrows, hqn, hrow⟩ := parseBytes_row hx hp htx
    have hlen : t.len x.symbol + x.code.length ≤ Config.cwMax := by
      rw [htx, Nat.zero_add]
      exact ((Row.ok_iff x).1 hx).2.2.2
    obtain ⟨p', hp', hn', hrest⟩ := ih (p := q) (t := t.appendAll x.symbol x.code) hok hnodup (fun y hy => by
      rw [CodeTable.len_appendAll_other hlen fun e => hnew (e ▸ List.mem_map_of_mem hy)]
      exact ht y hy) (by omega) (by
      rw [hq, hqrows]
      by_cases h1 : p.rows = 1
      · rw [if_pos h1, if_pos (by omega)]
      · rw [if_neg h1, if_neg (by omega)])
    exact ⟨p', hp', hn'.trans hqn, by rw [List.flatMap_cons, parseBytes_append hrow, hrest]; rfl⟩

/-! ### The header -/

theorem rowsOk_iff (rows : List Row) : rowsOk rows = true ↔
    0 < rows.length ∧ rows.length ≤ Config.nsymMax ∧ (∀ x ∈ rows, x.ok = true) ∧ (rows.map Row.symbol).Nodup := by
  simp only [rowsOk, Bool.and_eq_true, decide_eq_true_eq, List.all_eq_true, and_assoc]

/-- A well-formed header is accepted up to its last byte, before which the blank line is expected. -/
theorem parseBytes_header {rows : List Row} (h : rowsOk rows = true) : ∃ p : Parser,
    p.phase = .blank ∧ p.n = rows.length
      ∧ parseBytes Parser.start CodeTable.empty (dec rows.length ++ [LF] ++ rows.flatMap Row.text) =
          some (p, rowsTable CodeTable.empty rows) := by
  obtain ⟨hpos, hmax, hok, hnodup⟩ := (rowsOk_iff rows).1 h
  have hne := Nat.pos_iff_ne_zero.1 hpos
  obtain ⟨p, hp, hn, hrows⟩ := parseBytes_rows (t := CodeTable.empty) (p := { Parser.start with
      phase := .symbol, n := rows.length, rows := rows.length, k := (dec rows.length).length }) hok hnodup
    (fun x _ => CodeTable.len_empty x.symbol) rfl (if_neg hne).symm
  exact ⟨p, hp, hn, (parseBytes_append (parseBytes_sizeLine CodeTable.empty hne hmax) _).trans hrows⟩

/-- Bytes that begin a header are accepted. -/
theorem parseBytes_of_headerBegins {l : List Byte} (h : headerBegins l) :
    ∃ p t, parseBytes Parser.start CodeTable.empty l = some (p, t) := by
  rcases h with ⟨rows, rest, hok, hne, hl⟩ | ⟨n, hn, hmax, rfl⟩
  · obtain ⟨p, -, -, hp⟩ := parseBytes_header hok
    have hbody : dec rows.length ++ [LF] ++ rows.flatMap Row.text = l ++ rest.dropLast := by
      rw [← List.dropLast_append_of_ne_nil hne, ← hl, headerText, List.dropLast_concat]
    rw [hbody] at hp
    obtain ⟨⟨q, t⟩, hq⟩ := parseBytes_left hp
    exact ⟨q, t, hq⟩
  · exact ⟨_, _, parseBytes_dec _ (by omega) hmax⟩

end Sys2Proof.Machine
end

section
/-! PROOFS. Refused accesses (60_exceptions.md R241, R242; 20_memory.md R73): a BusError names an address the platform
refuses, and each stage raises it at the first refused access, every access before having been made. -/

namespace Sys2Proof.Machine

variable {α β : Type} {r w e : Prop}

/-! ### Pieces one after the other -/

theorem run_bind_ok {m : Engine α} {f : α → Engine β} {s t : State} {a : α} (h : m.run s = .ok a t) :
    (m >>= f).run s = (f a).run t := by
  rw [run_bind, h]

theorem run_bind_error {m : Engine α} {f : α → Engine β} {s t : State} {x : Raise} (h : m.run s = .error x t) :
    (m >>= f).run s = .error x t := by
  rw [run_bind, h]

/-- A piece that begins by looking at the state. -/
theorem run_look (f : State → Engine α) (s : State) : (get >>= f).run s = (f s).run s := rfl

/-! ### What a BusError names -/

theorem SameOperands.memOK {s t : State} (h : SameOperands s t) : t.memOK = s.memOK := by
  obtain ⟨-, -, -, -, -, -, hplatform, -⟩ := h
  funext a k
  rw [State.memOK, State.memOK, hplatform]

/-- A BusError comes of a refused read or of a refused Put. -/
theorem Built.bus {m : Engine α} (h : Built r w e m) {s t : State} {x : Raise} (hr : m.run s = .error x t)
    (hx : x.kind = .bus) : r ∧ s.memOK x.info .read = false ∨ w ∧ s.memOK x.info .write = false := by
  induction h generalizing s t x with
  | pure a => cases hr
  | throw y hy =>
    cases hr
    exact absurd hx hy
  | modify f _ => cases hr
  | enter _ st => cases hr
  | srcByte hread i =>
    rw [srcByte_run, memRead_run] at hr
    split at hr
    · cases hr
    · cases hr
      exact .inl ⟨hread, Bool.eq_false_iff.2 ‹_›⟩
  | put hput b =>
    rw [put_run] at hr
    split at hr
    · cases hr
      cases hx
    · split at hr
      · cases hr
      · cases hr
        exact .inr ⟨hput, Bool.eq_false_iff.2 ‹_›⟩
  | @bind _ _ m f hm _ ihm ihf =>
    rw [run_bind] at hr
    cases hmr : m.run s with
    | error y u =>
      rw [hmr] at hr
      cases hr
      exact ihm hmr hx
    | ok a u =>
      rw [hmr] at hr
      have hops := hm.operands s
      rw [hmr] at hops
      rw [← hops.memOK]
      exact ihf a hr hx
  | look g _ hg ih =>
    rw [run_bind, run_get] at hr
    exact ih s ((hg s).symm.trans hr) hx

/-! ### The stage of a BusError -/

/-- The piece ends in the stage `st`, whether it runs to its end or raises. -/
def Enters (st : Stage) (m : Engine α) : Prop := ∀ s, (endOf (m.run s)).stage = st

/-- Without entries of stages the stage stays. -/
theorem Built.stage {m : Engine α} (h : Built r w e m) (he : ¬ e) : Keeps (fun s t => t.stage = s.stage) m := by
  have port : ∀ s t, SamePort s t → t.stage = s.stage := fun s t h => by rw [h]
  exact h.keeps (fun _ _ _ h h' => h'.trans h) (fun _ _ ho => ho.stage) (fun hp => absurd hp he)
    (fun _ i s => port _ _ (srcByte_samePort i s)) fun _ b s => port _ _ (put_samePort b s)

theorem enters_enter (st : Stage) : Enters st (enter st) := fun _ => rfl

theorem enters_bind {st : Stage} {m : Engine α} {f : α → Engine β} (hm : Enters st m)
    (hf : ∀ a, Built True True False (f a)) : Enters st (m >>= f) := by
  intro s
  have h := hm s
  rw [run_bind]
  cases hr : m.run s with
  | error x t =>
    rw [hr] at h
    exact h
  | ok a t =>
    rw [hr] at h
    exact ((hf a).stage id t).trans h

theorem enters_freqStage : Enters .freq freqStage :=
  enters_bind (m := freqBegin) (fun s => by
    rw [freqBegin_run]
    split <;> rfl) fun _ => built_freqFrom trivial 0

theorem enters_emitStage : Enters .emit emitStage :=
  enters_bind (enters_enter .emit) fun _ => built_look fun _ => built_headerFrom trivial trivial _

theorem enters_parseStage : Enters .parse parseStage :=
  enters_bind (m := parseBegin) (fun _ => rfl) fun _ => built_parseFrom trivial 0 _

theorem enters_matchStage (base : Nat) : Enters .matchBits (matchStage base) :=
  enters_bind (enters_enter .matchBits) fun _ => built_matchFrom trivial trivial base base [] base

/-- A BusError of the piece is raised in one of the stages that access memory. -/
def BusInStage (m : Engine α) : Prop :=
  ∀ s x t, m.run s = .error x t → x.kind = .bus → t.stage ∈ [.freq, .emit, .parse, .matchBits]

theorem Enters.busInStage {st : Stage} {m : Engine α} (h : Enters st m)
    (hst : st ∈ [.freq, .emit, .parse, .matchBits]) : BusInStage m := by
  intro s x t hr _
  have hs := h s
  rw [hr] at hs
  exact hs ▸ hst

theorem Built.busInStage {m : Engine α} (h : Built r w e m) (hr : ¬ r) (hw : ¬ w) : BusInStage m := by
  intro s x t hrun hx
  rcases h.bus hrun hx with ⟨hr', -⟩ | ⟨hw', -⟩
  · exact absurd hr' hr
  · exact absurd hw' hw

theorem busInStage_bind {m : Engine α} {f : α → Engine β} (hm : BusInStage m) (hf : ∀ a, BusInStage (f a)) :
    BusInStage (m >>= f) := by
  intro s x t h hx
  rw [run_bind] at h
  cases hr : m.run s with
  | error y u =>
    rw [hr] at h
    cases h
    exact hm s x t hr hx
  | ok a u =>
    rw [hr] at h
    exact hf a u x t h hx

theorem busInStage_stages (c : Instr) : BusInStage (stages c) := by
  have still : ∀ c, usesSource c = false → usesDest c = false → BusInStage (stages c) := fun c hs hd =>
    (built_stages c).busInStage (Bool.eq_false_iff.1 hs) (Bool.eq_false_iff.1 hd)
  cases c with
  | nop | clear | ptab | tree => exact still _ rfl rfl
  | freq => exact enters_freqStage.busInStage (by decide)
  | emit => exact enters_emitStage.busInStage (by decide)
  | encode =>
    exact busInStage_bind (enters_freqStage.busInStage (by decide)) fun _ =>
      busInStage_bind (still .ptab rfl rfl) fun _ => busInStage_bind (still .tree rfl rfl) fun _ =>
        enters_emitStage.busInStage (by decide)
  | parse => exact enters_parseStage.busInStage (by decide)
  | matchBits => exact (enters_matchStage 0).busInStage (by decide)
  | decode =>
    exact busInStage_bind (enters_parseStage.busInStage (by decide)) fun _ =>
      busInStage_bind (fun s x t h => by cases h) fun s => (enters_matchStage s.bsOff.toNat).busInStage (by decide)

theorem platform_ne_nil {s : State} {a : Word} {k : AccessKind} (h : s.memOK a k = false) : s.platform ≠ [] := by
  intro hnil
  rw [State.memOK, hnil] at h
  cases h

/-- A command that ends with BusError names a refused address, in a stage that accesses memory. -/
theorem exec_bus {i : Instr} {s t : State} (h : exec i s = .next t) (ht : t.err = some .bus) :
    (s.memOK t.errInfo .read = false ∨ s.memOK t.errInfo .write = false)
      ∧ t.stage ∈ [.freq, .emit, .parse, .matchBits] := by
  obtain ⟨m, hm, hbuilt, rfl⟩ := exec_runs h
  cases hr : m.run (accept (encode i) s) with
  | ok a u =>
    rw [hr] at ht
    rcases hm with rfl | ⟨y, -, rfl⟩
    · have herr := (does_stages i (accept (encode i) s)).1.err
      rw [hr] at herr
      cases ht.symm.trans herr
    · cases hr
  | error x u =>
    rw [hr] at ht
    have hx : x.kind = .bus := Option.some.inj ht
    refine ⟨(hbuilt.bus hr hx).imp And.right And.right, ?_⟩
    rcases hm with rfl | ⟨y, hy, rfl⟩
    · exact busInStage_stages i _ x u hr hx
    · cases hr
      exact absurd hx hy

/-- A command whose stages raise a BusError ends with it. -/
theorem exec_raises_bus {i : Instr} {s u : State} {a : Word} {st : Stage} (ha : admitted i s = true)
    (hr : (stages i).run (accept (encode i) s) = .error { kind := .bus, info := a } u) (hst : u.stage = st) :
    ∃ t, exec i s = .next t ∧ EndedWith t .bus a st ∧ t.errCode = 9 ∧ t.accesses = u.accesses ∧ t.mem = u.mem
      ∧ SameOperands s t := by
  have h : exec i s = .next (errorTerminate { kind := .bus, info := a } u) := by
    rw [exec_eq_runCommand, runCommand_admitted ha, hr]
    rfl
  exact ⟨_, h, ⟨rfl, rfl, rfl, rfl, hst, rfl, rfl, rfl, rfl, rfl, rfl, rfl, rfl⟩, rfl, rfl, rfl,
    noCommandChangesOperands i s _ h⟩

/-! ### FREQ -/

theorem srcByte_refused {i : Nat} {s : State} (h : s.memOK (s.srcAt i) .read = false) :
    (srcByte i).run s = .error { kind := .bus, info := s.srcAt i } s := by
  rw [srcByte_run, memRead_run, h]
  rfl

/-- A read that is not refused, as the log shows it. -/
theorem srcByte_admitted {i : Nat} {s : State} (h : s.memOK (s.srcAt i) .read = true) :
    ∃ b d, (srcByte i).run s = .ok b { s with draws := d, accesses := s.accesses ++ [.read (s.srcAt i) b] } := by
  rw [srcByte_run, memRead_run, if_pos h]
  exact ⟨_, _, rfl⟩

/-- The counting loop stops at the first unreadable byte. -/
theorem freqLoop_refused {j n i : Nat} {s : State} (hj : j < n)
    (hok : ∀ k, k < j → s.memOK (s.srcAt (i + k)) .read = true) (hno : s.memOK (s.srcAt (i + j)) .read = false) :
    ∃ t, (freqLoop n i).run s = .error { kind := .bus, info := s.srcAt (i + j) } t
      ∧ (readsOf t.accesses).length = (readsOf s.accesses).length + j := by
  induction j generalizing n i s with
  | zero =>
    obtain ⟨n, rfl⟩ := Nat.exists_eq_add_one.2 hj
    exact ⟨s, run_bind_error (srcByte_refused hno), rfl⟩
  | succ j ih =>
    obtain ⟨n, rfl⟩ := Nat.exists_eq_add_one.2 (Nat.zero_lt_of_lt hj)
    obtain ⟨b, d, hread⟩ := srcByte_admitted (i := i) (hok 0 (Nat.succ_pos j))
    have hshift : ∀ k, i + (k + 1) = i + 1 + k := fun k => by omega
    rw [hshift j] at hno ⊢
    obtain ⟨t, ht, hlen⟩ := ih (n := n) (i := i + 1)
      (s := { s with draws := d, accesses := s.accesses ++ [.read (s.srcAt i) b], freq := countByte b s.freq })
      (by omega) (fun k hk => hshift k ▸ hok (k + 1) (by omega)) hno
    refine ⟨t, ?_, hlen.trans ?_⟩
    · exact (run_bind_ok hread).trans ht
    · rw [readsOf_append, List.length_append, readsOf_read, List.length_singleton]
      omega

theorem freqStage_refused {j : Nat} {s : State} (hj : j < s.srcLen.toNat)
    (hok : ∀ k, k < j → s.memOK (s.srcAt k) .read = true) (hno : s.memOK (s.srcAt j) .read = false) :
    ∃ t, freqStage.run s = .error { kind := .bus, info := s.srcAt j } t
      ∧ (readsOf t.accesses).length = (readsOf s.accesses).length + j := by
  have hlen : ¬ s.srcLen = 0 := fun h => by
    rw [h] at hj
    exact absurd hj (Nat.not_lt_zero j)
  obtain ⟨t, ht, hreads⟩ := freqLoop_refused (n := s.srcLen.toNat) (i := 0)
    (s := { s with stage := .freq, freq := Table.zeros }) hj
    (fun k hk => (Nat.zero_add k).symm ▸ hok k hk) ((Nat.zero_add j).symm ▸ hno)
  rw [Nat.zero_add] at ht
  have hbegin : freqBegin.run s = .ok () { s with stage := .freq, freq := Table.zeros } := by
    rw [freqBegin_run, if_neg hlen]
  refine ⟨t, ?_, hreads⟩
  rw [freqStage, run_bind_ok hbegin, freqFrom, run_look]
  exact run_bind_error ht

/-- FREQ, in ENCODE too, ends at the first unreadable byte. -/
theorem freq_refused {i : Instr} {s : State} {j : Nat} (hi : i ∈ [.freq, .encode]) (ha : admitted i s = true)
    (hj : j < s.srcLen.toNat) (hok : ∀ k, k < j → s.memOK (s.srcAt k) .read = true)
    (hno : s.memOK (s.srcAt j) .read = false) :
    ∃ t, exec i s = .next t ∧ EndedWith t .bus (s.srcAt j) .freq ∧ t.errCode = 9 ∧ (readsOf t.accesses).length = j
      ∧ t.mem = s.mem ∧ SameOperands s t := by
  obtain ⟨u, hu, hreads⟩ := freqStage_refused (s := accept (encode i) s) hj hok hno
  have hr : (stages i).run (accept (encode i) s) = .error { kind := .bus, info := s.srcAt j } u := by
    cases i with
    | freq => exact hu
    | encode => exact run_bind_error hu
    | nop | clear | ptab | tree | emit | parse | matchBits | decode => exact absurd hi (by decide)
  have hst := enters_freqStage (accept (encode i) s)
  have hmem := ((built_stages .freq).noWrite Bool.noConfusion (accept (encode i) s)).1
  rw [show (stages .freq).run _ = _ from hu] at hmem
  rw [hu] at hst
  obtain ⟨t, h, hend, hcode, hlog, htmem, hops⟩ := exec_raises_bus ha hr hst
  exact ⟨t, h, hend, hcode, by rw [hlog, hreads, accept_accesses]; exact Nat.zero_add j, htmem.trans hmem, hops⟩

/-! ### EMIT -/

theorem put_refused {b : Byte} {s : State} (hcap : s.cursor < s.dstCap.toNat)
    (h : s.memOK (s.dstAt s.cursor) .write = false) :
    (put b).run s = .error { kind := .bus, info := s.dstAt s.cursor } s := by
  rw [put_run, if_neg (Nat.ne_of_lt hcap), h]
  rfl

theorem put_admitted {b : Byte} {s : State} (hcap : s.cursor < s.dstCap.toNat)
    (h : s.memOK (s.dstAt s.cursor) .write = true) : ∃ t, (put b).run s = .ok () t := by
  rw [put_run, if_neg (Nat.ne_of_lt hcap), if_pos h]
  exact ⟨_, rfl⟩

/-- A string is put up to its first unwritable byte. -/
theorem putStr_refused {j : Nat} {l : List Byte} {s : State} (hj : j < l.length) (hcap : s.cursor + j < s.dstCap.toNat)
    (hok : ∀ k, k < j → s.memOK (s.dstAt (s.cursor + k)) .write = true)
    (hno : s.memOK (s.dstAt (s.cursor + j)) .write = false) :
    ∃ t, (putStr l).run s = .error { kind := .bus, info := s.dstAt (s.cursor + j) } t
      ∧ (writesOf t.accesses).length = (writesOf s.accesses).length + j := by
  induction j generalizing l s with
  | zero =>
    obtain ⟨b, l, rfl⟩ := List.exists_cons_of_length_pos hj
    exact ⟨s, run_bind_error (put_refused hcap hno), rfl⟩
  | succ j ih =>
    obtain ⟨b, l, rfl⟩ := List.exists_cons_of_length_pos (Nat.zero_lt_of_lt hj)
    obtain ⟨u, hu⟩ := put_admitted (b := b) (Nat.lt_of_le_of_lt (Nat.le_add_right _ _) hcap) (hok 0 (Nat.succ_pos j))
    have hputs := put_putsBytes hu
    have hcur : u.cursor = s.cursor + 1 := hputs.cursor
    have hat : ∀ k, u.dstAt (u.cursor + k) = s.dstAt (s.cursor + (k + 1)) := fun k => by
      rw [hputs.operands.dstAt, hcur, Nat.add_assoc, Nat.add_comm 1]
    obtain ⟨t, ht, hlen⟩ := ih (l := l) (s := u) (Nat.lt_of_succ_lt_succ hj)
      (by rw [hcur, hputs.operands.dstCap]; omega)
      (fun k hk => by rw [hat, hputs.operands.memOK]; exact hok (k + 1) (by omega))
      (by rw [hat, hputs.operands.memOK]; exact hno)
    refine ⟨t, ?_, hlen.trans ?_⟩
    · rw [← hat]
      exact (run_bind_ok hu).trans ht
    · rw [hputs.writes, List.length_append, State.writesAt_cons, List.length_cons]
      exact Nat.add_assoc _ _ _ |>.trans (congrArg _ (Nat.add_comm 1 j))

theorem dstWritable_iff (s : State) (n : Nat) :
    dstWritable s n = true ↔ ∀ k, k < n → s.memOK (s.dstAt k) .write = true := by
  simp [dstWritable]

/-- EMIT ends at the first unwritable byte of the header. -/
theorem emit_refused {s : State} {j : Nat} (ha : admitted .emit s = true) (hj : j < (artifactHeader s).length)
    (hcap : j < s.dstCap.toNat) (hok : dstWritable s j = true) (hno : s.memOK (s.dstAt j) .write = false) :
    ∃ t, exec .emit s = .next t ∧ EndedWith t .bus (s.dstAt j) .emit ∧ t.errCode = 9
      ∧ (writesOf t.accesses).length = j ∧ readsOf t.accesses = [] ∧ SameOperands s t := by
  have hbegin : ∀ k, ({ accept (encode .emit) s with stage := .emit } : State).cursor + k = k := Nat.zero_add
  obtain ⟨u, hu, hwrites⟩ := putStr_refused (l := artifactHeader s)
    (s := { accept (encode .emit) s with stage := .emit }) hj
    (by rw [hbegin]; exact hcap) (fun k hk => by rw [hbegin]; exact (dstWritable_iff s j).1 hok k hk)
    (by rw [hbegin]; exact hno)
  rw [hbegin] at hu
  have hr : (stages .emit).run (accept (encode .emit) s) = .error { kind := .bus, info := s.dstAt j } u := by
    rw [stages, emitStage, run_bind_ok (run_enter _ _), run_look]
    exact run_bind_error hu
  have hst := enters_emitStage (accept (encode .emit) s)
  rw [show emitStage.run _ = _ from hr] at hst
  have hreads := (built_putStr (r := False) (e := False) trivial (artifactHeader s)).noRead id
    { accept (encode .emit) s with stage := .emit }
  rw [hu] at hreads
  obtain ⟨t, h, hend, hcode, hlog, -, hops⟩ := exec_raises_bus ha hr hst
  refine ⟨t, h, hend, hcode, by rw [hlog, hwrites]; exact Nat.zero_add j, ?_, hops⟩
  rw [hlog]
  exact List.map_eq_nil_iff.1 hreads

end Sys2Proof.Machine
end

section
/-! PROOFS. PARSE and MATCH up to a refused access (60_exceptions.md R242): with no race the reads return the bytes of
the source region, which the Puts do not touch (20_memory.md R77). -/

namespace Sys2Proof.Machine

/-! ### What the source region gives -/

/-- Reading on from the offset `j` the engine is not refused and finds the bytes `l` in memory. -/
def Feeds (s : State) : Nat → List Byte → Prop
  | _, [] => True
  | j, b :: l => (s.memOK (s.srcAt j) .read = true ∧ s.mem.read (s.srcAt j).toNat = b) ∧ Feeds s (j + 1) l

theorem feeds_of_forall {s : State} {l : List Byte} {j : Nat}
    (hok : ∀ k, k < l.length → s.memOK (s.srcAt (j + k)) .read = true)
    (hl : ∀ k (h : k < l.length), s.mem.read (s.srcAt (j + k)).toNat = l[k]) : Feeds s j l := by
  induction l generalizing j with
  | nil => trivial
  | cons b l ih =>
    have hshift : ∀ k, j + (k + 1) = j + 1 + k := fun k => by omega
    exact ⟨⟨hok 0 (Nat.succ_pos _), hl 0 (Nat.succ_pos _)⟩,
      ih (fun k hk => hshift k ▸ hok (k + 1) (Nat.succ_lt_succ hk)) fun k hk =>
        hshift k ▸ hl (k + 1) (Nat.succ_lt_succ hk)⟩

theorem srcBytes_length (s : State) : (srcBytes s).length = s.srcLen.toNat := by
  rw [srcBytes, List.length_map, List.length_range]

/-- The bytes at the front of the source region. -/
theorem feeds_of_srcBytes {s : State} {l post : List Byte} (hl : srcBytes s = l ++ post)
    (hok : ∀ k, k < l.length → s.memOK (s.srcAt k) .read = true) : Feeds s 0 l := by
  refine feeds_of_forall (fun k hk => (Nat.zero_add k).symm ▸ hok k hk) fun k hk => ?_
  have hk' : k < (srcBytes s).length := by
    rw [hl, List.length_append]
    omega
  have hread : (srcBytes s)[k] = s.mem.read (s.srcAt k).toNat := by simp [srcBytes]
  rw [Nat.zero_add, ← hread]
  simp only [hl, List.getElem_append_left hk]

/-- What is found does not change while memory at those offsets does not. -/
theorem Feeds.congr {s t : State} {l : List Byte} {j : Nat} (h : Feeds s j l) (hops : SameOperands s t)
    (hmem : ∀ k, j ≤ k → k < j + l.length → t.mem.read (s.srcAt k).toNat = s.mem.read (s.srcAt k).toNat) :
    Feeds t j l := by
  induction l generalizing j with
  | nil => trivial
  | cons b l ih =>
    obtain ⟨⟨hok, hb⟩, h⟩ := h
    rw [List.length_cons] at hmem
    refine ⟨⟨?_, ?_⟩, ih h fun k hk hk' => hmem k (by omega) (by omega)⟩
    · rw [hops.memOK, hops.srcAt, hok]
    · rw [hops.srcAt, hmem j (Nat.le_refl j) (by omega), hb]

theorem Feeds.left {s : State} {l l' : List Byte} {j : Nat} (h : Feeds s j (l ++ l')) : Feeds s j l := by
  induction l generalizing j with
  | nil => trivial
  | cons b l ih => exact ⟨h.1, ih h.2⟩

theorem Feeds.right {s : State} {l l' : List Byte} {j : Nat} (h : Feeds s j (l ++ l')) : Feeds s (j + l.length) l' := by
  induction l generalizing j with
  | nil => exact h
  | cons b l ih =>
    rw [List.length_cons, Nat.add_comm l.length, ← Nat.add_assoc]
    exact ih h.2

/-- The state after a read that draws nothing. -/
def State.afterRead (s : State) (j : Nat) (b : Byte) : State :=
  { s with accesses := s.accesses ++ [.read (s.srcAt j) b] }

/-- With no race the next byte is read as it stands in memory. -/
theorem Feeds.srcByte {s : State} {j : Nat} {b : Byte} {l : List Byte} (h : Feeds s j (b :: l)) (hq : quiet s) :
    (srcByte j).run s = .ok b (s.afterRead j b) := by
  obtain ⟨⟨hok, hb⟩, -⟩ := h
  rw [srcByte_run, memRead_run, if_pos hok, busRead_quiet (olderValues_nil hq _), hb]
  rfl

theorem Feeds.afterRead {s : State} {j i : Nat} {b : Byte} {l : List Byte} (h : Feeds s j l) :
    Feeds (s.afterRead i b) j l :=
  h.congr (OffPort.refl s).operands fun _ _ _ => rfl

theorem afterRead_putsBytes (s : State) (j : Nat) (b : Byte) : PutsBytes [] s (s.afterRead j b) :=
  .nothing (OffPort.refl s).operands rfl rfl ⟨rfl, by simp [State.afterRead]⟩

theorem readsOf_afterRead (s : State) (j : Nat) (b : Byte) :
    (readsOf (s.afterRead j b).accesses).length = (readsOf s.accesses).length + 1 := by
  rw [State.afterRead, readsOf_append, List.length_append]
  rfl

/-! ### PARSE -/

/-- PARSE over bytes through which the header goes on. -/
theorem parseLoop_feeds {l : List Byte} {pos : Nat} {p p' : Parser} {s : State} {t' : CodeTable} (hq : quiet s)
    (hf : Feeds s pos l) (hp : parseBytes p s.codes l = some (p', t')) (left : Nat) : ∃ u,
      (parseLoop (l.length + left) pos p).run s = (parseLoop left (pos + l.length) p').run u
        ∧ SameOperands s u ∧ (readsOf u.accesses).length = (readsOf s.accesses).length + l.length := by
  induction l generalizing pos p s with
  | nil =>
    cases hp
    exact ⟨s, by rw [List.length_nil, Nat.zero_add, Nat.add_zero], (OffPort.refl s).operands, rfl⟩
  | cons b l ih =>
    obtain ⟨q, c, hb, hl⟩ := parseByte_of_parseBytes hp
    obtain ⟨u, hu, hops, hreads⟩ := ih (pos := pos + 1) (p := q) (s := { s.afterRead pos b with codes := c }) hq
      (hf.2.congr (OffPort.refl s).operands fun _ _ _ => rfl) hl
    refine ⟨u, ?_, hops, hreads.trans ?_⟩
    · rw [List.length_cons, Nat.add_right_comm, parseLoop, run_bind_ok (hf.srcByte hq), run_look,
        show (s.afterRead pos b).codes = s.codes from rfl, hb, Nat.add_comm l.length 1, ← Nat.add_assoc]
      exact hu
    · rw [readsOf_afterRead, List.length_cons]
      omega

/-- PARSE ends at the first unreadable byte after bytes that begin a header. -/
theorem parse_refused {s : State} {j : Nat} (ha : admitted .parse s = true) (hq : quiet s) (hj : j < s.srcLen.toNat)
    (hok : ∀ k, k < j → s.memOK (s.srcAt k) .read = true) (hno : s.memOK (s.srcAt j) .read = false)
    (hb : headerBegins ((srcBytes s).take j)) :
    ∃ t, exec .parse s = .next t ∧ EndedWith t .bus (s.srcAt j) .parse ∧ t.errCode = 9
      ∧ (readsOf t.accesses).length = j ∧ t.mem = s.mem ∧ SameOperands s t := by
  obtain ⟨p, c, hp⟩ := parseBytes_of_headerBegins hb
  have hlen : ((srcBytes s).take j).length = j := by
    rw [List.length_take, srcBytes_length]
    omega
  have hf : Feeds s 0 ((srcBytes s).take j) :=
    feeds_of_srcBytes (List.take_append_drop j _).symm fun k hk => hok k (hlen ▸ hk)
  obtain ⟨u, hu, hops, hreads⟩ := parseLoop_feeds (p := Parser.start)
    (s := { accept (encode .parse) s with stage := .parse, codes := CodeTable.empty }) hq
    (hf.congr (OffPort.refl s).operands fun _ _ _ => rfl) hp (s.srcLen.toNat - j - 1 + 1)
  rw [hlen, Nat.zero_add, show j + (s.srcLen.toNat - j - 1 + 1) = s.srcLen.toNat by omega] at hu
  have hno' : u.memOK (u.srcAt j) .read = false := by
    rw [hops.memOK, hops.srcAt]
    exact hno
  have hr : (stages .parse).run (accept (encode .parse) s) = .error { kind := .bus, info := s.srcAt j } u := by
    refine Eq.trans (b := (parseLoop s.srcLen.toNat 0 Parser.start).run _) rfl (hu.trans ?_)
    rw [parseLoop, run_bind_error (srcByte_refused hno'), hops.srcAt]
    rfl
  have hst := enters_parseStage (accept (encode .parse) s)
  have hmem := ((built_stages .parse).noWrite Bool.noConfusion (accept (encode .parse) s)).1
  rw [show parseStage.run _ = _ from hr] at hst
  rw [hr] at hmem
  obtain ⟨t, h, hend, hcode, hlog, htmem, htops⟩ := exec_raises_bus ha hr hst
  refine ⟨t, h, hend, hcode, ?_, htmem.trans hmem, htops⟩
  rw [hlog, hreads, hlen]
  exact Nat.zero_add j

/-! ### MATCH -/

/-- The source region and the destination region share no byte (20_memory.md R77). -/
def Apart (s : State) : Prop := ∀ i k, i < s.srcLen.toNat → k < s.dstCap.toNat → (s.srcAt i).toNat ≠ (s.dstAt k).toNat

theorem srcAt_toNat (s : State) (i : Nat) : (s.srcAt i).toNat = (s.srcAddr.toNat + i) % 2 ^ 32 := by
  rw [State.srcAt, BitVec.toNat_add, BitVec.toNat_ofNat, Nat.add_mod_mod]

theorem apart_of_admitted {c : Instr} {s : State} (h : admitted c s = true) (hs : usesSource c = true)
    (hd : usesDest c = true) : Apart s := by
  intro i k hi hk
  simp only [admitted, rangeBad, sourceWraps, destWraps, regionsOverlap, hs, hd, Bool.and_eq_true, Bool.not_eq_true',
    Bool.true_and, Bool.or_eq_false_iff, decide_eq_false_iff_not, Bool.and_eq_false_iff] at h
  have hsize : Config.memSize = 2 ^ 32 := rfl
  rw [srcAt_toNat, dstAt_toNat]
  omega

/-- Puts into the destination region leave the source as it is found. -/
theorem Feeds.putsBytes {s t : State} {j : Nat} {l bytes : List Byte} (h : Feeds s j l) (hp : PutsBytes bytes s t)
    (hapart : Apart s) (hlen : j + l.length ≤ s.srcLen.toNat) (hcap : t.cursor ≤ s.dstCap.toNat) : Feeds t j l :=
  h.congr hp.operands fun k _ hk => hp.frame _ fun i _ hi => hapart k i (by omega) (by omega)

theorem Apart.congr {s t : State} (h : Apart s) (hops : SameOperands s t) : Apart t := by
  obtain ⟨-, -, hlen, -⟩ := id hops
  intro i k hi hk
  rw [hops.srcAt, hops.dstAt]
  exact h i k (hlen ▸ hi) (hops.dstCap ▸ hk)

/-- What MATCH does with the bit `b` at the offset `j`. -/
def matchBit (t : CodeTable) (left j : Nat) (acc : Codeword) (start : Nat) (b : Bool) : Engine Unit :=
  match findSymbol t (acc ++ [b]) with
  | some c => do
    put c
    matchLoop left (j + 1) [] (if acc = [] then j else start)
  | none => matchLoop left (j + 1) (acc ++ [b]) (if acc = [] then j else start)

theorem matchBit_some {t : CodeTable} {acc : Codeword} {b : Bool} {c : Byte} (h : findSymbol t (acc ++ [b]) = some c)
    (left j start : Nat) : matchBit t left j acc start b = (do
      put c
      matchLoop left (j + 1) [] (if acc = [] then j else start)) := by
  rw [matchBit, h]

theorem matchBit_none {t : CodeTable} {acc : Codeword} {b : Bool} (h : findSymbol t (acc ++ [b]) = none)
    (left j start : Nat) :
    matchBit t left j acc start b = matchLoop left (j + 1) (acc ++ [b]) (if acc = [] then j else start) := by
  rw [matchBit, h]

/-- MATCH reads the next bit, and then does what that bit asks for. -/
theorem matchLoop_bit {s : State} {j : Nat} {b : Bool} {l : List Byte} (hq : quiet s) (hf : Feeds s j (bitChar b :: l))
    (left : Nat) (acc : Codeword) (start : Nat) :
    (matchLoop (left + 1) j acc start).run s =
      (matchBit s.codes left j acc start b).run (s.afterRead j (bitChar b)) := by
  have hbit : isBitChar (bitChar b) = true := by cases b <;> decide
  have hval : charBit (bitChar b) = b := by cases b <;> decide
  rw [matchLoop, run_bind_ok (hf.srcByte hq), hbit, if_neg (by decide), run_look, hval]
  rfl

/-- MATCH stops where the next bit completes a codeword and the symbol may not be written. -/
theorem matchLoop_put_refused {s : State} {j : Nat} {b : Bool} {l : List Byte} {acc : Codeword} {c : Byte}
    (hq : quiet s) (hf : Feeds s j (bitChar b :: l)) (hc : findSymbol s.codes (acc ++ [b]) = some c)
    (hcap : s.cursor < s.dstCap.toNat) (hno : s.memOK (s.dstAt s.cursor) .write = false) (left start : Nat) :
    (matchLoop (left + 1) j acc start).run s =
      .error { kind := .bus, info := s.dstAt s.cursor } (s.afterRead j (bitChar b)) := by
  rw [matchLoop_bit hq hf, matchBit_some hc]
  exact run_bind_error (put_refused (s := s.afterRead j (bitChar b)) hcap hno)

/-- The cursor has room for as many bytes, all of them writable. -/
def Room (s : State) (n : Nat) : Prop :=
  s.cursor + n ≤ s.dstCap.toNat ∧ ∀ k, k < n → s.memOK (s.dstAt (s.cursor + k)) .write = true

theorem put_reads {b : Byte} {s t : State} (h : (put b).run s = .ok () t) :
    (readsOf t.accesses).length = (readsOf s.accesses).length := by
  have hlog := congrArg List.length (put_noRead b s)
  rw [h] at hlog
  simpa [State.readAddrs, endOf] using hlog

theorem SamePort.codes {s t : State} (h : SamePort s t) : t.codes = s.codes := by rw [h]

theorem Room.put {s : State} {n : Nat} (h : Room s (n + 1)) (b : Byte) :
    ∃ t, (put b).run s = .ok () t ∧ PutsBytes [b] s t ∧ Room t n := by
  obtain ⟨hcap, hok⟩ := h
  obtain ⟨t, ht⟩ := put_admitted (b := b) (by omega) (hok 0 (Nat.succ_pos n))
  have hputs := put_putsBytes ht
  have hcur : t.cursor = s.cursor + 1 := hputs.cursor
  refine ⟨t, ht, hputs, ?_, fun k hk => ?_⟩
  · rw [hcur, hputs.operands.dstCap]
    omega
  · rw [hputs.operands.memOK, hputs.operands.dstAt, hcur, Nat.add_assoc, Nat.add_comm 1]
    exact hok (k + 1) (Nat.succ_lt_succ hk)

theorem Room.capacity {s : State} {n : Nat} (h : Room s n) : s.cursor ≤ s.dstCap.toNat :=
  (Nat.le_add_right _ n).trans h.1

/-- MATCH over bits of which every cut has room: the symbols cut are put, and the rest is accumulated (43_decoder.md
R197, R198). -/
theorem matchLoop_feeds {bits : List Bool} {j : Nat} {acc : Codeword} {start : Nat} {s : State} (hq : quiet s)
    (hf : Feeds s j (bitsText bits)) (hapart : Apart s) (hlen : j + bits.length ≤ s.srcLen.toNat)
    (hroom : Room s (cutBits s.codes acc bits).1.length) (left : Nat) : ∃ start' u,
      (matchLoop (bits.length + left) j acc start).run s =
          (matchLoop left (j + bits.length) (cutBits s.codes acc bits).2 start').run u
        ∧ PutsBytes (cutBits s.codes acc bits).1 s u ∧ u.codes = s.codes
        ∧ (readsOf u.accesses).length = (readsOf s.accesses).length + bits.length := by
  induction bits generalizing j acc start s with
  | nil =>
    exact ⟨start, s, by rw [List.length_nil, Nat.zero_add, Nat.add_zero]; rfl,
      .nothing (OffPort.refl s).operands rfl rfl ⟨rfl, rfl⟩, rfl, rfl⟩
  | cons b bits ih =>
    have hshift : bits.length + 1 + left = bits.length + left + 1 := Nat.add_right_comm _ _ _
    have hnext : j + 1 + bits.length = j + (bits.length + 1) := by omega
    have hread := readsOf_afterRead s j (bitChar b)
    have hsrcLen : (s.afterRead j (bitChar b)).srcLen = s.srcLen := rfl
    rw [List.length_cons] at hlen ⊢
    rw [hshift, matchLoop_bit hq hf, ← hnext]
    rw [cutBits] at hroom ⊢
    cases hfind : findSymbol s.codes (acc ++ [b]) with
    | some c =>
      simp only [hfind] at hroom ⊢
      rw [matchBit_some hfind]
      obtain ⟨t, ht, hputs, hroomt⟩ := Room.put (s := s.afterRead j (bitChar b)) hroom c
      have hcodes : t.codes = s.codes := (put_ok ht).codes
      have hput := put_reads ht
      have hft : Feeds t (j + 1) (bitsText bits) := hf.2.afterRead.putsBytes hputs hapart
        (by rw [List.length_map, hsrcLen, hnext]; exact hlen) (hputs.operands.dstCap ▸ hroomt.capacity)
      obtain ⟨start', u, hu, hputs', hcodes', hreads⟩ := ih (j := j + 1) (acc := [])
        (start := if acc = [] then j else start) (hputs.raced.trans hq) hft (hapart.congr hputs.operands)
        (by rw [hputs.operands.srcLen, hsrcLen, hnext]; exact hlen) (hcodes.symm ▸ hroomt)
      rw [hcodes] at hu hputs' hcodes'
      exact ⟨start', u, (run_bind_ok ht).trans hu, ((afterRead_putsBytes s j (bitChar b)).trans hputs).trans hputs',
        hcodes', by omega⟩
    | none =>
      simp only [hfind] at hroom ⊢
      rw [matchBit_none hfind]
      obtain ⟨start', u, hu, hputs, hcodes, hreads⟩ := ih (j := j + 1) (acc := acc ++ [b])
        (start := if acc = [] then j else start) (s := s.afterRead j (bitChar b)) hq hf.2.afterRead hapart
        (by rw [hsrcLen, hnext]; exact hlen) hroom
      exact ⟨start', u, hu, (afterRead_putsBytes s j (bitChar b)).trans hputs, hcodes, by omega⟩

/-- The bit at which the cut number `m` is made. -/
theorem cutBits_split {t : CodeTable} {bits : List Bool} {acc : Codeword} {m : Nat}
    (h : m < (cutBits t acc bits).1.length) :
    ∃ pre b rest c, bits = pre ++ b :: rest ∧ (cutBits t acc pre).1.length = m
      ∧ findSymbol t ((cutBits t acc pre).2 ++ [b]) = some c := by
  induction bits generalizing acc m with
  | nil => exact absurd h (Nat.not_lt_zero m)
  | cons b bits ih =>
    rw [cutBits] at h
    cases hfind : findSymbol t (acc ++ [b]) with
    | none =>
      simp only [hfind] at h
      obtain ⟨pre, b', rest, c, rfl, hlen, hc⟩ := ih h
      exact ⟨b :: pre, b', rest, c, rfl, by simpa [cutBits, hfind] using hlen, by simpa [cutBits, hfind] using hc⟩
    | some c =>
      cases m with
      | zero => exact ⟨[], b, bits, c, rfl, rfl, hfind⟩
      | succ m =>
        simp only [hfind] at h
        obtain ⟨pre, b', rest, c, rfl, hlen, hc⟩ := ih (Nat.lt_of_succ_lt_succ h)
        exact ⟨b :: pre, b', rest, c, rfl, by simpa [cutBits, hfind] using hlen, by simpa [cutBits, hfind] using hc⟩

/-- MATCH over bits up to the cut number `m`, whose symbol may not be written. -/
theorem matchLoop_write_refused {bits : List Bool} {j m : Nat} {acc : Codeword} {start : Nat} {s : State} (hq : quiet s)
    (hf : Feeds s j (bitsText bits)) (hapart : Apart s) (hlen : j + bits.length ≤ s.srcLen.toNat)
    (hm : m < (cutBits s.codes acc bits).1.length) (hroom : Room s m) (hcap : s.cursor + m < s.dstCap.toNat)
    (hno : s.memOK (s.dstAt (s.cursor + m)) .write = false) (left : Nat) : ∃ u,
      (matchLoop (bits.length + left) j acc start).run s = .error { kind := .bus, info := s.dstAt (s.cursor + m) } u
        ∧ (writesOf u.accesses).length = (writesOf s.accesses).length + m := by
  obtain ⟨pre, b, rest, c, rfl, hpre, hc⟩ := cutBits_split hm
  rw [bitsText, List.map_append, List.map_cons] at hf
  rw [List.length_append, List.length_cons] at hlen
  obtain ⟨start', u, hu, hputs, hcodes, -⟩ := matchLoop_feeds (bits := pre) (acc := acc) (start := start) hq hf.left
    hapart (by omega) (hpre.symm ▸ hroom) (rest.length + left + 1)
  rw [← hcodes] at hc
  have hcur : u.cursor = s.cursor + m := hpre ▸ hputs.cursor
  have hat : u.dstAt u.cursor = s.dstAt (s.cursor + m) := by rw [hcur, hputs.operands.dstAt]
  have hfu : Feeds u (j + pre.length) (bitChar b :: rest.map bitChar) := by
    have h := hf.right.putsBytes hputs hapart (by simp only [List.length_cons, List.length_map]; omega) (hcur ▸ hcap.le)
    rwa [List.length_map] at h
  have hstop := matchLoop_put_refused (hputs.raced.trans hq) hfu hc (by rw [hcur, hputs.operands.dstCap]; exact hcap)
    (by rw [hat, hputs.operands.memOK]; exact hno) (rest.length + left) start'
  rw [hcodes] at hstop
  have hwrites := (hputs.trans (afterRead_putsBytes u (j + pre.length) (bitChar b))).writes
  refine ⟨u.afterRead (j + pre.length) (bitChar b), ?_, ?_⟩
  · rw [List.length_append, List.length_cons,
      show pre.length + (rest.length + 1) + left = pre.length + (rest.length + left + 1) by omega, hu, ← hat]
    exact hstop
  · rw [hwrites, List.length_append, State.writesAt_length, List.append_nil, hpre]

/-- The state in which MATCH begins its loop. -/
def State.matchBegun (s : State) : State := { accept (encode .matchBits) s with stage := .matchBits }

theorem Feeds.matchBegun {s : State} {j : Nat} {l : List Byte} (h : Feeds s j l) : Feeds s.matchBegun j l :=
  h.congr (OffPort.refl s).operands fun _ _ _ => rfl

theorem room_matchBegun {s : State} {n : Nat} (hcap : n ≤ s.dstCap.toNat) (hok : dstWritable s n = true) :
    Room s.matchBegun n := by
  have hcur : ∀ k, s.matchBegun.cursor + k = k := Nat.zero_add
  refine ⟨by rw [hcur]; exact hcap, fun k hk => ?_⟩
  rw [hcur]
  exact (dstWritable_iff s n).1 hok k hk

/-- MATCH ends with the BusError its loop raises. -/
theorem match_raises_bus {s u : State} {a : Word} (ha : admitted .matchBits s = true)
    (hr : (matchLoop s.srcLen.toNat 0 [] 0).run s.matchBegun = .error { kind := .bus, info := a } u) :
    ∃ t, exec .matchBits s = .next t ∧ EndedWith t .bus a .matchBits ∧ t.errCode = 9 ∧ t.accesses = u.accesses
      ∧ SameOperands s t := by
  have hr' : (stages .matchBits).run (accept (encode .matchBits) s) = .error { kind := .bus, info := a } u := by
    rw [stages, matchStage, run_bind_ok (run_enter _ _), matchFrom, run_look]
    exact run_bind_error hr
  have hst := enters_matchStage 0 (accept (encode .matchBits) s)
  rw [show (matchStage 0).run _ = _ from hr'] at hst
  obtain ⟨t, h, hend, hcode, hlog, -, hops⟩ := exec_raises_bus ha hr' hst
  exact ⟨t, h, hend, hcode, hlog, hops⟩

/-- MATCH ends at the first unreadable byte after bits. -/
theorem match_read_refused {s : State} {bits : List Bool} {b : Byte} {post : List Byte}
    (ha : admitted .matchBits s = true) (hq : quiet s) (hsrc : srcBytes s = bitsText bits ++ b :: post)
    (hok : ∀ k, k < bits.length → s.memOK (s.srcAt k) .read = true) (hno : s.memOK (s.srcAt bits.length) .read = false)
    (hcap : (cutBits s.codes [] bits).1.length ≤ s.dstCap.toNat)
    (hw : dstWritable s (cutBits s.codes [] bits).1.length = true) :
    ∃ t, exec .matchBits s = .next t ∧ EndedWith t .bus (s.srcAt bits.length) .matchBits ∧ t.errCode = 9
      ∧ (readsOf t.accesses).length = bits.length
      ∧ (writesOf t.accesses).length = (cutBits s.codes [] bits).1.length ∧ SameOperands s t := by
  have hlen : s.srcLen.toNat = bits.length + (post.length + 1) := by
    rw [← srcBytes_length, hsrc, List.length_append, bitsText_length, List.length_cons]
  have hf : Feeds s 0 (bitsText bits) := feeds_of_srcBytes hsrc fun k hk => hok k (bitsText_length bits ▸ hk)
  obtain ⟨start, u, hu, hputs, -, hreads⟩ := matchLoop_feeds (start := 0) (s := s.matchBegun) hq hf.matchBegun
    (apart_of_admitted (c := .matchBits) (s := s) ha rfl rfl)
    (by rw [Nat.zero_add]; exact hlen ▸ Nat.le_add_right _ _) (room_matchBegun hcap hw) (post.length + 1)
  have hno' : u.memOK (u.srcAt (0 + bits.length)) .read = false := by
    rw [hputs.operands.memOK, hputs.operands.srcAt, Nat.zero_add]
    exact hno
  have hr : (matchLoop s.srcLen.toNat 0 [] 0).run s.matchBegun =
      .error { kind := .bus, info := s.srcAt bits.length } u := by
    rw [hlen, hu, matchLoop, run_bind_error (srcByte_refused hno'), hputs.operands.srcAt, Nat.zero_add]
    rfl
  obtain ⟨t, h, hend, hcode, hlog, hops⟩ := match_raises_bus ha hr
  refine ⟨t, h, hend, hcode, ?_, ?_, hops⟩
  · rw [hlog, hreads]
    exact Nat.zero_add _
  · rw [hlog, hputs.writes, List.length_append, State.writesAt_length]
    exact Nat.zero_add _

/-- MATCH ends at the first unwritable byte of its output. -/
theorem match_write_refused {s : State} {bits : List Bool} {post : List Byte} {j : Nat}
    (ha : admitted .matchBits s = true) (hq : quiet s) (hread : srcReadable s = true)
    (hsrc : srcBytes s = bitsText bits ++ post) (hj : j < (cutBits s.codes [] bits).1.length)
    (hcap : j < s.dstCap.toNat) (hw : dstWritable s j = true) (hno : s.memOK (s.dstAt j) .write = false) :
    ∃ t, exec .matchBits s = .next t ∧ EndedWith t .bus (s.dstAt j) .matchBits ∧ t.errCode = 9
      ∧ (writesOf t.accesses).length = j ∧ SameOperands s t := by
  have hlen : s.srcLen.toNat = bits.length + post.length := by
    rw [← srcBytes_length, hsrc, List.length_append, bitsText_length]
  have hok : ∀ k, k < s.srcLen.toNat → s.memOK (s.srcAt k) .read = true := by
    simpa [srcReadable] using hread
  have hf : Feeds s 0 (bitsText bits) := feeds_of_srcBytes hsrc fun k hk => hok k (by
    rw [bitsText_length] at hk
    omega)
  have hcur : s.matchBegun.cursor + j = j := Nat.zero_add j
  obtain ⟨u, hu, hwrites⟩ := matchLoop_write_refused (start := 0) (s := s.matchBegun) hq hf.matchBegun
    (apart_of_admitted (c := .matchBits) (s := s) ha rfl rfl)
    (by rw [Nat.zero_add]; exact hlen ▸ Nat.le_add_right _ _) hj (room_matchBegun hcap.le hw)
    (by rw [hcur]; exact hcap) (by rw [hcur]; exact hno) post.length
  rw [← hlen, hcur] at hu
  obtain ⟨t, h, hend, hcode, hlog, hops⟩ := match_raises_bus ha hu
  refine ⟨t, h, hend, hcode, ?_, hops⟩
  rw [hlog, hwrites]
  exact Nat.zero_add j

/-- Settles O29: a BusError names the refused address, and stage by stage the first refused access raises it. -/
theorem busErrorNamesARefusedAddress : Obligations.BusErrorNamesARefusedAddress := by
  refine ⟨fun i s t h ht => ?_, fun s a b => ⟨fun h => ?_, fun h => ?_⟩, fun i s j => freq_refused,
    fun s j => emit_refused, fun s j => parse_refused, fun s bits b post => match_read_refused,
    fun s bits post j => match_write_refused⟩
  · obtain ⟨hrefused, hstage⟩ := exec_bus h ht
    exact ⟨hrefused, hstage, hrefused.elim platform_ne_nil platform_ne_nil⟩
  · rw [memRead, h]
    rfl
  · rw [memWrite, h]
    rfl

end Sys2Proof.Machine
end

section
/-! PROOFS. Command words (30_encoding.md R100 to R105): a word is legal exactly when it is the word of a command, and
which command that is. -/

namespace Sys2Proof.Machine

/-- The opcodes of R101 are those of the commands. -/
theorem mem_opcodes {b : Byte} : b ∈ opcodes ↔ ∃ i : Instr, i.opcode = b := by
  constructor
  · intro h
    simp only [opcodes, List.mem_cons, List.not_mem_nil, or_false] at h
    rcases h with rfl | rfl | rfl | rfl | rfl | rfl | rfl | rfl | rfl | rfl
    exacts [⟨.nop, rfl⟩, ⟨.clear, rfl⟩, ⟨.freq, rfl⟩, ⟨.ptab, rfl⟩, ⟨.tree, rfl⟩, ⟨.emit, rfl⟩, ⟨.encode, rfl⟩,
      ⟨.parse, rfl⟩, ⟨.matchBits, rfl⟩, ⟨.decode, rfl⟩]
  · rintro ⟨i, rfl⟩
    cases i <;> decide

theorem zeroField_encode (i : Instr) : zeroField (encode i) = 0 := by
  cases i <;> rfl

theorem opcField_encode (i : Instr) : opcField (encode i) = i.opcode := by
  cases i <;> rfl

/-- A word is legal exactly when it is the word of a command. -/
theorem legalWord_iff {c : Word} : legalWord c = true ↔ ∃ i, c = encode i := by
  rw [legalWord, Bool.and_eq_true, beq_iff_eq, List.contains_iff_mem, mem_opcodes]
  constructor
  · rintro ⟨hzero, i, hopc⟩
    exact ⟨i, by rw [word_fields c, hzero, ← hopc]; rfl⟩
  · rintro ⟨i, rfl⟩
    exact ⟨zeroField_encode i, i, (opcField_encode i).symm⟩

/-- A word decodes to a command exactly when it is its word. -/
theorem decode_eq_ok_iff {c : Word} {i : Instr} : decode c = .ok i ↔ c = encode i :=
  ⟨encode_of_decode, fun h => h ▸ decode_encode i⟩

theorem encode_inj {i j : Instr} (h : encode i = encode j) : i = j := by
  have h' := (decode_encode i).symm.trans (h ▸ decode_encode j)
  injection h'

/-- Settles O1: each of the ten words, written out, is the word of its command. -/
theorem tenCommandWordsDecode : Obligations.TenCommandWordsDecode :=
  ⟨decode_encode .nop, decode_encode .clear, decode_encode .freq, decode_encode .ptab, decode_encode .tree,
    decode_encode .emit, decode_encode .encode, decode_encode .parse, decode_encode .matchBits, decode_encode .decode⟩

/-- Settles O2: a word that decodes is the word of its command alone, and a word that is rejected is none. -/
theorem everyWordIsACommandOrIllegal : Obligations.EveryWordIsACommandOrIllegal := by
  intro c
  refine ⟨?_, by simp only [legalWord_iff, decode_eq_ok_iff]⟩
  cases hd : decode c with
  | ok i =>
    obtain rfl := encode_of_decode hd
    exact .inl ⟨i, rfl, fun j => ⟨fun h => (encode_inj h).symm, fun h => h ▸ rfl⟩⟩
  | error e =>
    refine .inr ⟨⟨e, rfl⟩, fun j h => ?_⟩
    cases hd.symm.trans (decode_eq_ok_iff.2 h)

/-- Settles O3: every command is well formed, and its word decodes to it. -/
theorem decodeGivesBackEveryCommand : Obligations.DecodeGivesBackEveryCommand := fun i _ => decode_encode i

end Sys2Proof.Machine
end

section
/-! PROOFS. The step and the accepted command (30_encoding.md R116, R117; 70_reset_and_hazards.md R270). -/

namespace Sys2Proof.Machine

/-! ### The engine's turn -/

theorem step_of_noInputs {s : State} (h : s.inputs = []) : step s = engineTurn s := by
  rw [step, turn, h]

theorem step_event {s : State} {e : Event} {rest : List Event} (h : s.inputs = e :: rest) :
    step s = event e { s with inputs := rest } := by
  rw [step, turn, h]

/-- At its start the accepted command is executed. -/
theorem engineTurn_start {s : State} {c : Word} {i : Instr} (hc : s.running = some c) (hi : decode c = .ok i)
    (hp : s.progress = .start) : engineTurn s = exec i s := by
  simp only [engineTurn, hc, hi, if_pos hp]

/-- An access that leaves the engine a turn is the first piece of that turn. -/
theorem accessTurn_of_engineTurn {s t : State} (h : engineTurn s = .next t) :
    ∃ u, accessTurn s = .next u ∧ engineTurn u = .next t := by
  rw [engineTurn_eq_access] at h
  cases ha : accessTurn s with
  | next u =>
    rw [ha] at h
    exact ⟨u, rfl, h⟩
  | fault f =>
    rw [ha] at h
    cases h
  | refused r =>
    rw [ha] at h
    cases h

/-- Settles O4: the engine's turn, given or not, is the command or the rest of it, and an access is its first piece. -/
theorem engineTurnRunsTheAcceptedCommand : Obligations.EngineTurnRunsTheAcceptedCommand := by
  intro s c i rest hc hi
  refine ⟨fun hp => ⟨fun hin => ?_, fun hin => ?_⟩, fun hp => ⟨fun hin => ?_, fun hin => ?_⟩, fun hin t ht => ?_⟩
  · rw [step_of_noInputs hin, engineTurn_start hc hi hp]
  · exact (step_event hin).trans (engineTurn_start (s := { s with inputs := rest }) hc hi hp)
  · rw [step_of_noInputs hin, engineTurn_resumed hc hi hp]
  · exact (step_event hin).trans (engineTurn_resumed (s := { s with inputs := rest }) hc hi hp)
  · rw [step_event hin]
    exact accessTurn_of_engineTurn ht

/-- A command executed from the state in which its word has been accepted (log 2). -/
theorem exec_accept (i : Instr) (s : State) : exec i (accept (encode i) s) = exec i s := by
  rw [exec_eq_runCommand, runCommand_accept, ← exec_eq_runCommand]

/-- Settles O5: the engine has the turn, the word has been accepted, and acceptance made twice is made once. -/
theorem fetchedWordIsRunNext : Obligations.FetchedWordIsRunNext := by
  intro s i
  have hword : s.withFetchWord 32 (encode i).toNat = withCommand s (encode i) := by
    rw [State.withFetchWord, BitVec.ofNat_toNat, BitVec.setWidth_eq]
  rw [hword]
  calc step (withCommand s (encode i))
      = engineTurn (accept (encode i) s) := step_event (s := withCommand s (encode i)) rfl
    _ = exec i (accept (encode i) s) := engineTurn_start rfl (decode_encode i) rfl
    _ = exec i s := exec_accept i s

/-! ### A write to CMD -/

/-- An accepted word is ended by the engine's turn, with one termination. -/
theorem engineTurn_ends {s : State} {c : Word} (hc : s.running = some c) (hp : s.progress = .start)
    (hdevice : ∀ i, touchesDevice i s = false) : ∃ u, engineTurn s = .next u ∧ u.busy = false ∧ u.done = true := by
  cases hd : decode c with
  | error e => exact ⟨_, by simp only [engineTurn, hc, hd]; rfl, rfl, rfl⟩
  | ok i =>
    rw [engineTurn_start hc hd hp, exec_eq_runCommand]
    rcases runCommand_cases i (stages i) s with ⟨r, -, h⟩ | ⟨-, h, -⟩ | ⟨-, h⟩
    · exact ⟨_, h, rfl, rfl⟩
    · cases (hdevice i).symm.trans h
    · exact ⟨_, h, terminate_busy _, terminate_done _⟩

/-- Settles O6: with BUSY = 0 a write to CMD is acceptance, with BUSY = 1 it is ignored. -/
theorem cmdWriteAcceptsTheCommand : Obligations.CmdWriteAcceptsTheCommand := by
  intro s c rest hin
  rw [step_portWrite hin]
  refine ⟨fun hb => congrArg _ (portWrite_busy (s := { s with inputs := rest }) hb 3 c), fun hb hr => ?_⟩
  have haccept : portWrite 3 c { s with inputs := rest } = accept c { s with inputs := rest } :=
    portWrite_idle (s := { s with inputs := rest }) hb hr 3 c
  rw [haccept]
  exact ⟨_, rfl, rfl, rfl, engineTurn_ends (s := accept c { s with inputs := rest }) rfl rfl⟩

end Sys2Proof.Machine
end

section
/-! PROOFS. The bytes PARSE accepts (43_decoder.md R190 to R194): they begin a header, and the byte that ends the header
completes a well-formed one. -/

namespace Sys2Proof.Machine

/-! ### Digits and bits, one by one -/

/-- A digit written after a number (00_scope.md R16). -/
theorem dec_append_digit {n : Nat} {b : Byte} (hlo : 0x30 ≤ b.toNat) (hhi : b.toNat ≤ 0x39)
    (hpos : 1 ≤ 10 * n + (b.toNat - 0x30)) :
    dec (10 * n + (b.toNat - 0x30)) = (if n = 0 then [] else dec n) ++ [b] := by
  have hb : digitChar (b.toNat - 0x30) = b := by
    rw [digitChar, show 0x30 + (b.toNat - 0x30) = b.toNat by omega, BitVec.ofNat_toNat, BitVec.setWidth_eq]
  rw [dec_eq_digits (by omega), Nat.digits_eq_cons_digits_div (by omega) (by omega),
    show (10 * n + (b.toNat - 0x30)) % 10 = b.toNat - 0x30 by omega,
    show (10 * n + (b.toNat - 0x30)) / 10 = n by omega, List.map_cons, List.reverse_cons, hb]
  split
  next h0 => rw [h0, Nat.digits_zero]; rfl
  next hn => rw [dec_eq_digits hn]

theorem bitChar_charBit {b : Byte} (h : isBitChar b = true) : bitChar (charBit b) = b := by
  rw [isBitChar, Bool.or_eq_true, beq_iff_eq, beq_iff_eq] at h
  rcases h with rfl | rfl <;> rfl

theorem bitsText_append (c c' : Codeword) : bitsText (c ++ c') = bitsText c ++ bitsText c' := List.map_append

theorem CodeTable.appendAll_append (t : CodeTable) (b : Byte) (c : Codeword) (x : Bool) :
    t.appendAll b (c ++ [x]) = (t.appendAll b c).append b x := List.foldl_concat ..

theorem rowsTable_append (t : CodeTable) (rows : List Row) (x : Row) :
    rowsTable t (rows ++ [x]) = (rowsTable t rows).appendAll x.symbol x.code := List.foldl_concat ..

/-- Rows of distinct symbols give codewords to these symbols alone. -/
theorem rowsTable_len_eq_zero {rows : List Row} {t : CodeTable} (hok : ∀ x ∈ rows, x.ok = true)
    (hnodup : (rows.map Row.symbol).Nodup) (ht : ∀ x ∈ rows, t.len x.symbol = 0) (b : Byte) :
    (rowsTable t rows).len b = 0 ↔ t.len b = 0 ∧ b ∉ rows.map Row.symbol := by
  induction rows generalizing t with
  | nil => simp [rowsTable]
  | cons x rows ih =>
    obtain ⟨hx, hok⟩ := List.forall_mem_cons.1 hok
    obtain ⟨htx, ht⟩ := List.forall_mem_cons.1 ht
    obtain ⟨hnew, hnodup⟩ := List.nodup_cons.1 hnodup
    obtain ⟨-, -, hcode, hlen⟩ := (Row.ok_iff x).1 hx
    have hfits : t.len x.symbol + x.code.length ≤ Config.cwMax := by rwa [htx, Nat.zero_add]
    refine (ih (t := t.appendAll x.symbol x.code) hok hnodup fun y hy => ?_).trans ?_
    · rw [CodeTable.len_appendAll_other hfits fun e => hnew (e ▸ List.mem_map_of_mem hy)]
      exact ht y hy
    · by_cases hb : x.symbol = b
      · subst hb
        have hpos : 0 < x.code.length := List.length_pos_of_ne_nil hcode
        have hfull : (t.appendAll x.symbol x.code).len x.symbol ≠ 0 := by
          rw [CodeTable.len_appendAll_same hfits]
          omega
        simp [hfull]
      · rw [CodeTable.len_appendAll_other hfits hb, List.map_cons, List.mem_cons, not_or]
        exact and_congr_right fun _ => (and_iff_right (Ne.symm hb)).symm

/-! ### Where in a header the bytes end -/

/-- The size line and the first rows of a header of `n` rows. -/
def sizeAndRows (n : Nat) (rows : List Row) : List Byte := dec n ++ [LF] ++ rows.flatMap Row.text

theorem headerText_eq (rows : List Row) : headerText rows = sizeAndRows rows.length rows ++ [LF] := rfl

theorem sizeAndRows_append (n : Nat) (rows more : List Row) :
    sizeAndRows n (rows ++ more) = sizeAndRows n rows ++ more.flatMap Row.text := by
  simp only [sizeAndRows, List.flatMap_append, List.append_assoc]

/-- The first rows of a header have been read, `p.rows` of its `p.n` rows being left (43_decoder.md R191, R192). -/
structure RowsRead (p : Parser) (rows : List Row) : Prop where
  ok : ∀ x ∈ rows, x.ok = true
  nodup : (rows.map Row.symbol).Nodup
  count : rows.length + p.rows = p.n
  max : p.n ≤ Config.nsymMax

/-- The next row has been begun, that of the symbol `p.sym`. -/
structure RowBegun (p : Parser) (rows : List Row) : Prop extends RowsRead p rows where
  left : 1 ≤ p.rows
  fresh : p.sym ∉ rows.map Row.symbol

/-- The bytes through which a header has gone on, with the code table they give, by the phase of the next byte. -/
inductive HeaderPart (p : Parser) : CodeTable → List Byte → Prop
  | start (hp : p.phase = .size) (hk : p.k = 0) (hn : p.n = 0) : HeaderPart p .empty []
  | size (hp : p.phase = .size) (hk : 1 ≤ p.k ∧ p.k ≤ 3) (hn : 1 ≤ p.n) (hlt : p.n < 10 ^ p.k) :
      HeaderPart p .empty (dec p.n)
  | symbol {rows : List Row} (hp : p.phase = .symbol) (h : RowsRead p rows) (hleft : 1 ≤ p.rows) :
      HeaderPart p (rowsTable .empty rows) (sizeAndRows p.n rows)
  | tab {rows : List Row} (hp : p.phase = .tab) (h : RowBegun p rows) :
      HeaderPart p (rowsTable .empty rows) (sizeAndRows p.n rows ++ [p.sym])
  | prob {rows : List Row} {field : List Byte} (hp : p.phase = .prob) (h : RowBegun p rows)
      (hfield : ∀ b ∈ field, isProbChar b = true) (hk : p.k = field.length) :
      HeaderPart p (rowsTable .empty rows) (sizeAndRows p.n rows ++ ([p.sym, TAB] ++ field))
  | code {rows : List Row} {field : List Byte} {code : Codeword} (hp : p.phase = .code) (h : RowBegun p rows)
      (hfield : ∀ b ∈ field, isProbChar b = true) (hne : field ≠ []) (hlen : code.length ≤ Config.cwMax) :
      HeaderPart p ((rowsTable .empty rows).appendAll p.sym code)
        (sizeAndRows p.n rows ++ ([p.sym, TAB] ++ field ++ [TAB] ++ bitsText code))
  | blank {rows : List Row} (hp : p.phase = .blank) (h : RowsRead p rows) (hleft : p.rows = 0) (hne : 1 ≤ p.n) :
      HeaderPart p (rowsTable .empty rows) (sizeAndRows p.n rows)

theorem RowsRead.len_eq_zero {p : Parser} {rows : List Row} (h : RowsRead p rows) (b : Byte) :
    (rowsTable .empty rows).len b = 0 ↔ b ∉ rows.map Row.symbol := by
  rw [rowsTable_len_eq_zero h.ok h.nodup fun x _ => CodeTable.len_empty x.symbol]
  exact and_iff_right (CodeTable.len_empty b)

/-- The codeword of the row begun, so far. -/
theorem RowBegun.len_code {p : Parser} {rows : List Row} (h : RowBegun p rows) {code : Codeword}
    (hlen : code.length ≤ Config.cwMax) : ((rowsTable .empty rows).appendAll p.sym code).len p.sym = code.length := by
  have h0 := (h.len_eq_zero p.sym).2 h.fresh
  rw [CodeTable.len_appendAll_same (by rwa [h0, Nat.zero_add]), h0, Nat.zero_add]

/-- The row begun, completed. -/
theorem RowBegun.close {p : Parser} {rows : List Row} (h : RowBegun p rows) {x : Row} (hx : x.ok = true)
    (hsym : x.symbol = p.sym) {q : Parser} (hn : q.n = p.n) (hrows : q.rows = p.rows - 1) :
    RowsRead q (rows ++ [x]) where
  ok := by
    simp only [List.mem_append, List.mem_singleton]
    rintro y (hy | rfl)
    · exact h.ok y hy
    · exact hx
  nodup := by
    rw [List.map_append, List.nodup_append]
    refine ⟨h.nodup, List.nodup_singleton _, ?_⟩
    simp only [List.map_cons, List.map_nil, List.mem_singleton, forall_eq]
    exact fun b hb e => h.fresh (hsym ▸ e ▸ hb)
  count := by
    have hcount := h.count
    have hleft := h.left
    rw [List.length_append, List.length_singleton]
    omega
  max := hn ▸ h.max

/-! ### One byte more -/

theorem isDigit_iff {b : Byte} : isDigit b = true ↔ 0x30 ≤ b.toNat ∧ b.toNat ≤ 0x39 := by
  rw [isDigit, Bool.and_eq_true, decide_eq_true_eq, decide_eq_true_eq]
  rfl

/-- A digit of the size line. -/
theorem parseSize_digit {p p' : Parser} {t t' : CodeTable} {b : Byte} (hb : b ≠ LF)
    (h : parseSize p t b = .more p' t') :
    (0x30 ≤ b.toNat ∧ b.toNat ≤ 0x39) ∧ p.k ≠ 3 ∧ ¬ (p.k = 0 ∧ b = 0x30)
      ∧ p' = { p with n := 10 * p.n + (b.toNat - 0x30), k := p.k + 1 } ∧ t' = t := by
  rw [parseSize, if_neg hb] at h
  split at h
  · cases h
  next hdigit =>
  split at h
  · cases h
  next hk =>
  split at h
  · cases h
  next hzero =>
  injection h with hp ht
  exact ⟨isDigit_iff.1 (by simpa using hdigit), hk, hzero, hp.symm, ht.symm⟩

/-- The end of the size line. -/
theorem parseSize_lf {p p' : Parser} {t t' : CodeTable} (h : parseSize p t LF = .more p' t') :
    p.k ≠ 0 ∧ p.n ≤ Config.nsymMax
      ∧ p' = { p with phase := if p.n = 0 then .blank else .symbol, rows := p.n } ∧ t' = t := by
  rw [parseSize, if_pos rfl] at h
  split at h
  · cases h
  next hk =>
  split at h
  · cases h
  next hmax =>
  injection h with hp ht
  exact ⟨hk, Nat.le_of_not_lt hmax, hp.symm, ht.symm⟩

/-- The first digit is not 0, and up to three are accepted. -/
theorem headerPart_digit {p : Parser} {b : Byte} (hp : p.phase = .size) (hb : 0x30 ≤ b.toNat ∧ b.toNat ≤ 0x39)
    (hk : p.k < 3) (hlt : p.n < 10 ^ p.k) (hpos : 1 ≤ 10 * p.n + (b.toNat - 0x30)) :
    HeaderPart { p with n := 10 * p.n + (b.toNat - 0x30), k := p.k + 1 } .empty
      ((if p.n = 0 then [] else dec p.n) ++ [b]) := by
  rw [← dec_append_digit hb.1 hb.2 hpos]
  refine .size hp ⟨Nat.le_add_left 1 p.k, hk⟩ hpos ?_
  simp only [Nat.pow_succ]
  omega

theorem headerPart_more_size {p p' : Parser} {t t' : CodeTable} {l : List Byte} {b : Byte} (hp : p.phase = .size)
    (h : HeaderPart p t l) (hb : parseSize p t b = .more p' t') : HeaderPart p' t' (l ++ [b]) := by
  cases h with
  | start _ hk hn =>
    by_cases hlf : b = LF
    · subst hlf
      exact absurd hk (parseSize_lf hb).1
    · obtain ⟨hdigit, hk3, hzero, rfl, rfl⟩ := parseSize_digit hlf hb
      have hne : b.toNat ≠ 0x30 := fun e => hzero ⟨hk, BitVec.eq_of_toNat_eq e⟩
      have := headerPart_digit (p := p) hp hdigit (by omega) (by rw [hk, hn]; decide) (by omega)
      rwa [if_pos hn] at this
  | size _ hk hn hlt =>
    by_cases hlf : b = LF
    · subst hlf
      obtain ⟨-, hmax, rfl, rfl⟩ := parseSize_lf hb
      rw [if_neg (by omega)]
      have := HeaderPart.symbol (p := { p with phase := .symbol, rows := p.n }) (rows := []) rfl
        ⟨fun _ h => absurd h List.not_mem_nil, List.nodup_nil, Nat.zero_add _, hmax⟩ hn
      rwa [sizeAndRows, List.flatMap_nil, List.append_nil] at this
    · obtain ⟨hdigit, hk3, -, rfl, rfl⟩ := parseSize_digit hlf hb
      have := headerPart_digit (p := p) hp hdigit (by omega) hlt (by omega)
      rwa [if_neg (by omega)] at this
  | symbol h' | tab h' | prob h' | code h' | blank h' => cases hp.symm.trans h'

theorem headerPart_more_prob {p p' : Parser} {t' : CodeTable} {rows : List Row} {field : List Byte} {b : Byte}
    (hp : p.phase = .prob) (h : RowBegun p rows) (hfield : ∀ b ∈ field, isProbChar b = true) (hk : p.k = field.length)
    (hb : parseProb p (rowsTable .empty rows) b = .more p' t') :
    HeaderPart p' t' (sizeAndRows p.n rows ++ ([p.sym, TAB] ++ field) ++ [b]) := by
  rw [parseProb] at hb
  split at hb
  next htab =>
    split at hb
    · cases hb
    next hk0 =>
    cases hb
    subst htab
    have := HeaderPart.code (p := { p with phase := .code }) (code := []) rfl { h with } hfield
      (fun e => hk0 (hk.trans (congrArg List.length e))) (Nat.zero_le _)
    simpa [bitsText, CodeTable.appendAll] using this
  next =>
    split at hb
    · cases hb
    next hchar =>
    cases hb
    have := HeaderPart.prob (p := { p with k := p.k + 1 }) (field := field ++ [b]) hp { h with }
      (by
        simp only [List.mem_append, List.mem_singleton]
        rintro c (hc | rfl)
        · exact hfield c hc
        · simpa using hchar)
      (by rw [List.length_append, ← hk]; rfl)
    simpa using this

theorem headerPart_more_code {p p' : Parser} {t' : CodeTable} {rows : List Row} {field : List Byte} {code : Codeword}
    {b : Byte} (hp : p.phase = .code) (h : RowBegun p rows) (hfield : ∀ b ∈ field, isProbChar b = true)
    (hne : field ≠ []) (hlen : code.length ≤ Config.cwMax)
    (hb : parseCode p ((rowsTable .empty rows).appendAll p.sym code) b = .more p' t') :
    HeaderPart p' t' (sizeAndRows p.n rows ++ ([p.sym, TAB] ++ field ++ [TAB] ++ bitsText code) ++ [b]) := by
  rw [parseCode, h.len_code hlen] at hb
  split at hb
  next hlf =>
    split at hb
    · cases hb
    next hcode =>
    cases hb
    subst hlf
    have hx : Row.ok ⟨p.sym, field, code⟩ = true :=
      (Row.ok_iff _).2 ⟨hne, hfield, fun e => hcode (congrArg List.length e), hlen⟩
    have hread : RowsRead { p with phase := if p.rows = 1 then .blank else .symbol, rows := p.rows - 1 }
        (rows ++ [⟨p.sym, field, code⟩]) := h.close hx rfl rfl rfl
    have htext : sizeAndRows p.n (rows ++ [⟨p.sym, field, code⟩]) =
        sizeAndRows p.n rows ++ ([p.sym, TAB] ++ field ++ [TAB] ++ bitsText code) ++ [LF] := by
      simp [sizeAndRows_append, Row.text]
    have hleft := h.left
    have hcount := h.count
    rw [← htext, ← rowsTable_append CodeTable.empty rows ⟨p.sym, field, code⟩]
    by_cases hlast : p.rows = 1
    · rw [if_pos hlast] at hread ⊢
      exact .blank rfl hread (by simp only; omega) (by simp only; omega)
    · rw [if_neg hlast] at hread ⊢
      exact .symbol rfl hread (by simp only; omega)
  next =>
    split at hb
    · cases hb
    next hbit =>
    split at hb
    · cases hb
    next hfull =>
    cases hb
    have hbit' : isBitChar b = true := by simpa using hbit
    have := HeaderPart.code (code := code ++ [charBit b]) hp h hfield hne
      (by rw [List.length_append, List.length_singleton]; omega)
    rw [CodeTable.appendAll_append, bitsText_append, bitsText, bitsText, List.map_singleton,
      bitChar_charBit hbit'] at this
    simpa [bitsText] using this

/-- A byte through which the header goes on. -/
theorem HeaderPart.more {p p' : Parser} {t t' : CodeTable} {l : List Byte} {b : Byte} (h : HeaderPart p t l)
    (hb : parseByte p t b = .more p' t') : HeaderPart p' t' (l ++ [b]) := by
  have hsame := h
  cases h with
  | start hp | size hp =>
    rw [parseByte, hp] at hb
    exact headerPart_more_size hp hsame hb
  | symbol hp h hleft =>
    rw [parseByte, hp] at hb
    simp only [parseSymbol] at hb
    split at hb
    · cases hb
    next hlen =>
    cases hb
    exact .tab rfl { h with left := hleft, fresh := (h.len_eq_zero b).1 (not_not.1 hlen) }
  | tab hp h =>
    rw [parseByte, hp] at hb
    simp only [parseTab] at hb
    split at hb
    · cases hb
    next htab =>
    cases hb
    rw [not_not.1 htab, List.append_assoc]
    exact .prob (field := []) rfl { h with } (fun _ hb => absurd hb List.not_mem_nil) rfl
  | prob hp h hfield hk =>
    rw [parseByte, hp] at hb
    exact headerPart_more_prob hp h hfield hk hb
  | code hp h hfield hne hlen =>
    rw [parseByte, hp] at hb
    exact headerPart_more_code hp h hfield hne hlen hb
  | blank hp =>
    rw [parseByte, hp] at hb
    simp only [parseBlank] at hb
    split at hb <;> cases hb

theorem HeaderPart.bytes {p p' : Parser} {t t' : CodeTable} {l l' : List Byte} (h : HeaderPart p t l)
    (hl : parseBytes p t l' = some (p', t')) : HeaderPart p' t' (l ++ l') := by
  induction l' generalizing p t l with
  | nil =>
    cases hl
    rwa [List.append_nil]
  | cons b l' ih =>
    obtain ⟨q, u, hb, hl⟩ := parseByte_of_parseBytes hl
    have := ih (h.more hb) hl
    rwa [List.append_assoc] at this

/-- Bytes that are accepted are part of a header. -/
theorem headerPart_of_parseBytes {p : Parser} {t : CodeTable} {l : List Byte}
    (h : parseBytes Parser.start CodeTable.empty l = some (p, t)) : HeaderPart p t l :=
  (HeaderPart.start (p := Parser.start) rfl rfl rfl).bytes h

/-! ### The last byte -/

theorem parseByte_eq_done {p : Parser} {t : CodeTable} {b : Byte} (h : parseByte p t b = .done) :
    p.phase = .blank ∧ b = LF := by
  unfold parseByte at h
  cases hp : p.phase with
  | blank =>
    simp only [hp, parseBlank] at h
    split at h
    · cases h
    next hb => exact ⟨rfl, not_not.1 hb⟩
  | size | symbol | tab | prob | code =>
    simp only [hp, parseSize, parseSymbol, parseTab, parseProb, parseCode] at h
    repeat' split at h
    all_goals cases h

/-- The byte that ends the header completes a well-formed one (43_decoder.md R193). -/
theorem HeaderPart.done {p : Parser} {t : CodeTable} {l : List Byte} {b : Byte} (h : HeaderPart p t l)
    (hb : parseByte p t b = .done) : ∃ rows, rowsOk rows = true ∧ headerText rows = l ++ [b] := by
  obtain ⟨hphase, rfl⟩ := parseByte_eq_done hb
  cases h with
  | @blank rows hp h hleft hne =>
    have hcount := h.count
    rw [hleft, Nat.add_zero] at hcount
    refine ⟨rows, (rowsOk_iff rows).2 ⟨hcount ▸ hne, hcount ▸ h.max, h.ok, h.nodup⟩, ?_⟩
    rw [headerText_eq, hcount]
  | start hp | size hp | symbol hp | tab hp | prob hp | code hp => cases hphase.symm.trans hp

/-! ### What the header may go on with -/

/-- There are 256 symbols to give rows to. -/
theorem exists_fresh_symbols {l : List Byte} (hl : l.Nodup) {k : Nat} (hk : l.length + k ≤ 256) :
    ∃ more : List Byte, more.length = k ∧ (l ++ more).Nodup := by
  have hbytes : Fintype.card Byte = 256 := FinEnum.card_eq_fintypeCard.symm
  obtain ⟨u, hsub, hcard⟩ := Finset.exists_superset_card_eq (s := l.toFinset) (n := l.length + k)
    (by rw [List.toFinset_card_of_nodup hl]; omega) (by rw [hbytes]; exact hk)
  refine ⟨(u \ l.toFinset).toList, ?_, List.nodup_append'.2 ⟨hl, Finset.nodup_toList _, fun b hb hb' => ?_⟩⟩
  · rw [Finset.length_toList, Finset.card_sdiff_of_subset hsub, hcard, List.toFinset_card_of_nodup hl]
    omega
  · exact (Finset.mem_sdiff.1 (Finset.mem_toList.1 hb')).2 (List.mem_toFinset.2 hb)

/-- The shortest row of a symbol. -/
def Row.shortest (b : Byte) : Row := ⟨b, [0x30], [false]⟩

/-- Rows that have been read can be followed by as many as are left. -/
theorem RowsRead.exists_all {p : Parser} {rows : List Row} (h : RowsRead p rows) (hn : 1 ≤ p.n) :
    ∃ more, rowsOk (rows ++ more) = true ∧ (rows ++ more).length = p.n := by
  have hcount := h.count
  obtain ⟨more, hlen, hnodup⟩ := exists_fresh_symbols h.nodup (k := p.rows)
    (by rw [List.length_map, hcount]; exact h.max)
  have hall : (rows ++ more.map Row.shortest).length = p.n := by
    rw [List.length_append, List.length_map, hlen, hcount]
  refine ⟨more.map Row.shortest, (rowsOk_iff _).2 ⟨hall ▸ hn, hall ▸ h.max, ?_, ?_⟩, hall⟩
  · simp only [List.mem_append, List.mem_map]
    rintro x (hx | ⟨b, -, rfl⟩)
    · exact h.ok x hx
    · rfl
  · rw [List.map_append, List.map_map]
    simpa [Row.shortest, Function.comp_def] using hnodup

/-- What stands in a header before its blank line begins a header. -/
theorem RowsRead.headerBegins {p : Parser} {rows : List Row} (h : RowsRead p rows) (hn : 1 ≤ p.n) {l rest : List Byte}
    (hl : sizeAndRows p.n rows = l ++ rest) : headerBegins l := by
  obtain ⟨more, hok, hlen⟩ := h.exists_all hn
  refine .inl ⟨rows ++ more, rest ++ (more.flatMap Row.text ++ [LF]), hok, by simp, ?_⟩
  rw [headerText_eq, hlen, sizeAndRows_append, hl, List.append_assoc, List.append_assoc]

/-- A row that has been begun can be completed. -/
theorem RowBegun.headerBegins {p : Parser} {rows : List Row} (h : RowBegun p rows) {x : Row} (hx : x.ok = true)
    (hsym : x.symbol = p.sym) {part rest : List Byte} (htext : x.text = part ++ rest) :
    headerBegins (sizeAndRows p.n rows ++ part) := by
  have hread : RowsRead { p with rows := p.rows - 1 } (rows ++ [x]) := h.close hx hsym rfl rfl
  refine hread.headerBegins (rest := rest) (Nat.le_trans h.left (Nat.le_trans (Nat.le_add_left _ _) h.count.le)) ?_
  rw [sizeAndRows_append, List.flatMap_singleton, htext, List.append_assoc]

/-- A header of which nothing is read but its size. -/
theorem rowsRead_nil {p : Parser} (hrows : p.rows = p.n) (h : p.n ≤ Config.nsymMax) : RowsRead p [] :=
  ⟨fun _ h => absurd h List.not_mem_nil, List.nodup_nil, (Nat.zero_add _).trans hrows, h⟩

/-- What is part of a header begins one (43_decoder.md R191 to R193). -/
theorem HeaderPart.headerBegins {p : Parser} {t : CodeTable} {l : List Byte} (h : HeaderPart p t l) :
    headerBegins l := by
  have hsize : ∀ {n : Nat} {l rest : List Byte}, 1 ≤ n → n ≤ Config.nsymMax → sizeAndRows n [] = l ++ rest →
      Machine.headerBegins l := fun {n} _ _ hn hmax hl =>
    (rowsRead_nil (p := { Parser.start with n := n, rows := n }) rfl hmax).headerBegins hn hl
  cases h with
  | start => exact hsize (n := 1) (Nat.le_refl 1) (by decide) (List.nil_append _).symm
  | size _ hk hn hlt =>
    have h999 : p.n < 10 ^ 3 := hlt.trans_le (Nat.pow_le_pow_right (by omega) hk.2)
    by_cases hmax : p.n ≤ Config.nsymMax
    · exact hsize hn hmax (List.append_nil _)
    · exact .inr ⟨p.n, by omega, by omega, rfl⟩
  | symbol _ h hleft => exact h.headerBegins (hleft.trans (by have := h.count; omega)) (List.append_nil _).symm
  | tab _ h => exact h.headerBegins (x := .shortest p.sym) rfl rfl (part := [p.sym]) rfl
  | @prob _ field _ h hfield =>
    refine h.headerBegins (x := ⟨p.sym, field ++ [0x30], [false]⟩) 
      ((Row.ok_iff _).2 ⟨by simp, ?_, by simp, (by decide : 1 ≤ Config.cwMax)⟩) rfl
      (rest := [0x30, TAB] ++ bitsText [false] ++ [LF]) (by simp [Row.text])
    simp only [List.mem_append, List.mem_singleton]
    rintro b (hb | rfl)
    · exact hfield b hb
    · rfl
  | @code _ field code _ h hfield hne hlen =>
    by_cases hcode : code = []
    · exact h.headerBegins (x := ⟨p.sym, field, [false]⟩)
        ((Row.ok_iff _).2 ⟨hne, hfield, by simp, (by decide : 1 ≤ Config.cwMax)⟩) rfl
        (rest := bitsText [false] ++ [LF]) (by simp [Row.text, hcode, bitsText])
    · exact h.headerBegins (x := ⟨p.sym, field, code⟩) ((Row.ok_iff _).2 ⟨hne, hfield, hcode, hlen⟩) rfl rfl
  | blank _ h _ hne => exact h.headerBegins hne (List.append_nil _).symm

/-- The bytes that are accepted are those that begin a header. -/
theorem headerBegins_iff {l : List Byte} :
    headerBegins l ↔ ∃ p t, parseBytes Parser.start CodeTable.empty l = some (p, t) :=
  ⟨parseBytes_of_headerBegins, fun ⟨_, _, h⟩ => (headerPart_of_parseBytes h).headerBegins⟩

end Sys2Proof.Machine
end

section
/-! PROOFS. How PARSE ends on a source region that does not begin with a well-formed header (60_exceptions.md R234): at
the first byte that is not accepted, or with the region read. -/

namespace Sys2Proof.Machine

/-- Bytes are accepted to the last, or up to one that is not. -/
theorem parseBytes_cases (p : Parser) (t : CodeTable) (l : List Byte) :
    (∃ q u, parseBytes p t l = some (q, u))
      ∨ ∃ pre b post q u, l = pre ++ b :: post ∧ parseBytes p t pre = some (q, u)
          ∧ (parseByte q u b = .bad ∨ parseByte q u b = .done) := by
  induction l generalizing p t with
  | nil => exact .inl ⟨p, t, rfl⟩
  | cons b l ih =>
    cases hb : parseByte p t b with
    | bad => exact .inr ⟨[], b, l, p, t, rfl, rfl, .inl hb⟩
    | done => exact .inr ⟨[], b, l, p, t, rfl, rfl, .inr hb⟩
    | more p' t' =>
      rcases ih p' t' with ⟨q, u, h⟩ | ⟨pre, c, post, q, u, rfl, h, hc⟩
      · exact .inl ⟨q, u, (parseBytes_cons hb l).trans h⟩
      · exact .inr ⟨b :: pre, c, post, q, u, rfl, (parseBytes_cons hb pre).trans h, hc⟩

/-- Without a well-formed header at its front a region is all part of one, or has a byte that no header has there. -/
theorem headerBegins_cases {l : List Byte} (h : ¬ ∃ rows rest, rowsOk rows = true ∧ l = headerText rows ++ rest) :
    (∃ q u, parseBytes Parser.start CodeTable.empty l = some (q, u))
      ∨ ∃ pre b post q u, l = pre ++ b :: post ∧ parseBytes Parser.start CodeTable.empty pre = some (q, u)
          ∧ parseByte q u b = .bad := by
  rcases parseBytes_cases Parser.start CodeTable.empty l with hall | ⟨pre, b, post, q, u, rfl, hpre, hbad | hdone⟩
  · exact .inl hall
  · exact .inr ⟨pre, b, post, q, u, rfl, hpre, hbad⟩
  · obtain ⟨rows, hok, htext⟩ := (headerPart_of_parseBytes hpre).done hdone
    exact absurd ⟨rows, post, hok, by rw [htext, List.append_assoc, List.singleton_append]⟩ h

/-- A byte that is not accepted after bytes that are: with it they begin no header. -/
theorem not_headerBegins_of_bad {l : List Byte} {b : Byte} {p : Parser} {t : CodeTable}
    (hl : parseBytes Parser.start CodeTable.empty l = some (p, t)) (hb : parseByte p t b = .bad) :
    ¬ headerBegins (l ++ [b]) := by
  intro h
  obtain ⟨q, u, hq⟩ := headerBegins_iff.1 h
  rw [parseBytes_append hl] at hq
  obtain ⟨_, _, hmore, -⟩ := parseByte_of_parseBytes hq
  cases hb.symm.trans hmore

/-- The state after reads that gave a code table. -/
def State.afterHeader (s : State) (codes : CodeTable) (log : List Access) : State :=
  { s with codes := codes, accesses := s.accesses ++ log }

/-- PARSE over bytes that are accepted, with the state it leads to: that of `parseLoop_feeds`, in full. -/
theorem parseLoop_accepts {l : List Byte} {pos : Nat} {p p' : Parser} {s : State} {t' : CodeTable} (hq : quiet s)
    (hf : Feeds s pos l) (hp : parseBytes p s.codes l = some (p', t')) (left : Nat) : ∃ log,
      (parseLoop (l.length + left) pos p).run s =
          (parseLoop left (pos + l.length) p').run (s.afterHeader t' log)
        ∧ (readsOf log).length = l.length := by
  induction l generalizing pos p s with
  | nil =>
    cases hp
    exact ⟨[], by rw [List.length_nil, Nat.zero_add, Nat.add_zero, State.afterHeader, List.append_nil], rfl⟩
  | cons b l ih =>
    obtain ⟨q, c, hb, hl⟩ := parseByte_of_parseBytes hp
    obtain ⟨log, hrun, hlog⟩ := ih (pos := pos + 1) (p := q) (s := { s.afterRead pos b with codes := c }) hq
      (hf.2.congr (OffPort.refl s).operands fun _ _ _ => rfl) hl
    refine ⟨.read (s.srcAt pos) b :: log, ?_, congrArg (· + 1) hlog⟩
    rw [List.length_cons, Nat.add_right_comm, parseLoop, run_bind_ok (hf.srcByte hq), run_look,
      show (s.afterRead pos b).codes = s.codes from rfl, hb, Nat.add_comm l.length 1, ← Nat.add_assoc,
      State.afterHeader, List.append_cons]
    exact hrun

/-- PARSE at a byte that is not accepted. -/
theorem parseLoop_bad {pos : Nat} {p : Parser} {s : State} {b : Byte} (hq : quiet s) (hf : Feeds s pos [b])
    (hb : parseByte p s.codes b = .bad) (left : Nat) :
    (parseLoop (left + 1) pos p).run s =
      .error { kind := .malformedArtifact, info := BitVec.ofNat 32 pos } (s.afterRead pos b) := by
  rw [parseLoop, run_bind_ok (hf.srcByte hq), run_look, show (s.afterRead pos b).codes = s.codes from rfl, hb]
  rfl

/-- The state in which PARSE begins its loop. -/
def State.parseBegun (s : State) : State :=
  { accept (encode .parse) s with stage := .parse, codes := CodeTable.empty }

theorem Feeds.parseBegun {s : State} {j : Nat} {l : List Byte} (h : Feeds s j l) : Feeds s.parseBegun j l :=
  h.congr (OffPort.refl s).operands fun _ _ _ => rfl

/-- A command whose stages raise an error ends with it. -/
theorem exec_raises {i : Instr} {s u : State} {x : Raise} {st : Stage} (ha : admitted i s = true)
    (hr : (stages i).run (accept (encode i) s) = .error x u) (hst : u.stage = st) :
    ∃ t, exec i s = .next t ∧ EndedWith t x.kind x.info st ∧ t.errCode = x.kind.code ∧ t.accesses = u.accesses
      ∧ t.mem = u.mem ∧ SameOperands s t := by
  have h : exec i s = .next (errorTerminate x u) := by
    rw [exec_eq_runCommand, runCommand_admitted ha, hr]
    rfl
  exact ⟨_, h, ⟨rfl, rfl, rfl, rfl, hst, rfl, rfl, rfl, rfl, rfl, rfl, rfl, rfl⟩, rfl, rfl, rfl,
    noCommandChangesOperands i s _ h⟩

/-- PARSE ends with the error its loop raises, memory being as it was. -/
theorem parse_raises {s u : State} {info : Word} (ha : admitted .parse s = true)
    (hr : (parseLoop s.srcLen.toNat 0 Parser.start).run s.parseBegun = .error ⟨.malformedArtifact, info⟩ u) :
    ∃ t, exec .parse s = .next t ∧ EndedWith t .malformedArtifact t.errInfo .parse ∧ t.errCode = 4
      ∧ t.errInfo = info ∧ t.accesses = u.accesses ∧ t.mem = s.mem ∧ SameOperands s t := by
  have hr' : (stages .parse).run (accept (encode .parse) s) = .error ⟨.malformedArtifact, info⟩ u := hr
  have hst := enters_parseStage (accept (encode .parse) s)
  have hmem := ((built_stages .parse).noWrite Bool.noConfusion (accept (encode .parse) s)).1
  rw [show parseStage.run _ = _ from hr'] at hst
  rw [hr'] at hmem
  obtain ⟨t, h, hend, hcode, hlog, htmem, hops⟩ := exec_raises ha hr' hst
  obtain ⟨-, -, -, hinfo, -⟩ := id hend
  exact ⟨t, h, hinfo.symm ▸ hend, hcode, hinfo, hlog, htmem.trans hmem, hops⟩

/-- Settles O49: PARSE reads on while the bytes begin a header, up to the first that no header has at its place. -/
theorem parseRefusesEverythingElse : Obligations.ParseRefusesEverythingElse := by
  intro s ha hq hreadable hno
  have hreads : ∀ k, k < s.srcLen.toNat → s.memOK (s.srcAt k) .read = true := by
    simpa [srcReadable] using hreadable
  have hlen := srcBytes_length s
  rcases headerBegins_cases hno with ⟨q, c, hall⟩ | ⟨pre, b, post, q, c, hsrc, hpre, hbad⟩
  · have hf : Feeds s 0 (srcBytes s) := feeds_of_srcBytes (List.append_nil _).symm (hlen.symm ▸ hreads)
    obtain ⟨log, hrun, hlog⟩ := parseLoop_accepts (s := s.parseBegun) hq hf.parseBegun hall 0
    rw [hlen] at hrun hlog
    obtain ⟨t, h, hend, hcode, hinfo, haccesses, hmem, hops⟩ := parse_raises (info := s.srcLen) ha hrun
    exact ⟨t, h, hend, hcode, .inl ⟨hinfo, haccesses ▸ hlog, headerBegins_iff.2 ⟨q, c, hall⟩⟩, hmem, hops⟩
  · rw [hsrc, List.length_append, List.length_cons] at hlen
    have hf : Feeds s 0 (pre ++ [b]) := feeds_of_srcBytes (post := post) (by simpa using hsrc) fun k hk => by
      rw [List.length_append, List.length_singleton] at hk
      exact hreads k (by omega)
    obtain ⟨log, hrun, hlog⟩ := parseLoop_accepts (s := s.parseBegun) hq hf.left.parseBegun hpre (post.length + 1)
    have hfb : Feeds (s.parseBegun.afterHeader c log) (0 + pre.length) [b] :=
      hf.right.congr (OffPort.refl s).operands fun _ _ _ => rfl
    rw [hlen, parseLoop_bad (s := s.parseBegun.afterHeader c log) hq hfb hbad, Nat.zero_add] at hrun
    obtain ⟨t, h, hend, hcode, hinfo, haccesses, hmem, hops⟩ := parse_raises ha hrun
    have hpos : t.errInfo.toNat = pre.length := by
      rw [hinfo, BitVec.toNat_ofNat]
      exact Nat.mod_eq_of_lt (by have := s.srcLen.isLt; omega)
    refine ⟨t, h, hend, hcode, .inr ⟨by omega, ?_, ?_, ?_⟩, hmem, hops⟩
    · rw [haccesses, readsOf_afterRead, hpos]
      exact congrArg (· + 1) hlog
    · rw [hsrc, hpos, List.take_left]
      exact headerBegins_iff.2 ⟨q, c, hpre⟩
    · rw [hsrc, hpos, List.append_cons, List.take_left' (by rw [List.length_append, List.length_singleton])]
      exact not_headerBegins_of_bad hpre hbad

end Sys2Proof.Machine
end

section
/-! PROOFS. A stage inside a longer command does what it does in a command of its own (30_encoding.md R124; 42_encoder.md
R178; 43_decoder.md R205): it does not look at the command word, at the accesses made before it, or at where in the
source region of the whole command its own begins. -/

namespace Sys2Proof.Machine

variable {α β : Type}

/-! ### What a stage does not look at -/

/-- What surrounds a stage: the command in work and its source region, the fields of STATUS and ERRINFO that belong to
its end, and the accesses it has made before. -/
structure Context where
  running : Option Word
  progress : Progress
  done : Bool
  err : Option ErrKind
  errInfo : Word
  srcAddr : Word
  srcLen : Word
  before : List Access

/-- The state with other surroundings. -/
def State.within (s : State) (c : Context) : State :=
  { s with
    running := c.running, progress := c.progress, done := c.done, err := c.err, errInfo := c.errInfo
    srcAddr := c.srcAddr, srcLen := c.srcLen, accesses := c.before ++ s.accesses }

/-- The surroundings of a state. -/
def State.context (s : State) : Context where
  running := s.running
  progress := s.progress
  done := s.done
  err := s.err
  errInfo := s.errInfo
  srcAddr := s.srcAddr
  srcLen := s.srcLen
  before := []

theorem within_context (s : State) : s.within s.context = s := rfl

/-- The surroundings after more accesses. -/
def Context.after (c : Context) (l : List Access) : Context := { c with before := c.before ++ l }

/-- The source region of the stage is the rest of that of the command, `base` bytes in. -/
structure Context.Shifts (c : Context) (base : Nat) (s : State) : Prop where
  srcAddr : s.srcAddr = c.srcAddr + BitVec.ofNat 32 base
  srcLen : c.srcLen.toNat = s.srcLen.toNat + base

/-- With the same source region. -/
theorem shifts_zero_iff {c : Context} {s : State} : c.Shifts 0 s ↔ c.srcAddr = s.srcAddr ∧ c.srcLen = s.srcLen := by
  refine ⟨fun h => ⟨?_, BitVec.eq_of_toNat_eq h.srcLen⟩, fun h => ⟨?_, congrArg BitVec.toNat h.2⟩⟩
  · exact (h.srcAddr.trans (BitVec.add_zero _)).symm
  · exact h.1.symm.trans (BitVec.add_zero _).symm

/-- Where the piece that ended in `x` ran to its end, the piece that ended in `y` did the same in the surroundings
`c`. -/
def Follows (c : Context) (base : Nat) (x y : EStateM.Result Raise State α) : Prop :=
  ∀ a t, x = .ok a t → y = .ok a (t.within c) ∧ c.Shifts base t

variable {c : Context} {base : Nat} {s : State}

theorem follows_bind {m m' : Engine α} {f f' : α → Engine β} (hm : Follows c base (m.run s) (m'.run (s.within c)))
    (hf : ∀ a t, c.Shifts base t → Follows c base ((f a).run t) ((f' a).run (t.within c))) :
    Follows c base ((m >>= f).run s) ((m' >>= f').run (s.within c)) := by
  intro b u h
  rw [run_bind] at h
  cases hr : m.run s with
  | error r t =>
    rw [hr] at h
    cases h
  | ok a t =>
    rw [hr] at h
    obtain ⟨hrun, hshift⟩ := hm a t hr
    rw [run_bind, hrun]
    exact hf a t hshift b u h

theorem follows_look {f f' : State → Engine α} (h : Follows c base ((f s).run s) ((f' (s.within c)).run (s.within c))) :
    Follows c base ((get >>= f).run s) ((get >>= f').run (s.within c)) := h

theorem follows_pure (h : c.Shifts base s) (a : α) :
    Follows c base ((pure a : Engine α).run s) ((pure a : Engine α).run (s.within c)) := by
  rintro _ _ ⟨⟩
  exact ⟨rfl, h⟩

theorem follows_throw (r : Raise) (y : EStateM.Result Raise State α) : Follows c base ((throw r : Engine α).run s) y :=
  fun _ _ h => by cases h

theorem follows_modify {f f' : State → State} (hf : f' (s.within c) = (f s).within c) (h : c.Shifts base (f s)) :
    Follows c base ((modify f : Engine Unit).run s) ((modify f' : Engine Unit).run (s.within c)) := by
  rintro _ _ ⟨⟩
  exact ⟨by rw [run_modify, hf], h⟩

theorem follows_ite {p : Prop} [Decidable p] {m m' n n' : Engine α}
    (hm : Follows c base (m.run s) (m'.run (s.within c))) (hn : Follows c base (n.run s) (n'.run (s.within c))) :
    Follows c base ((if p then m else n).run s) ((if p then m' else n').run (s.within c)) := by
  split
  · exact hm
  · exact hn

theorem follows_enter (h : c.Shifts base s) (st : Stage) :
    Follows c base ((enter st).run s) ((enter st).run (s.within c)) := follows_modify rfl ⟨h.srcAddr, h.srcLen⟩

/-! ### The memory port -/

theorem Context.Shifts.srcAt (h : c.Shifts base s) (i : Nat) : (s.within c).srcAt (i + base) = s.srcAt i := by
  rw [State.srcAt, State.srcAt, h.srcAddr, BitVec.add_assoc, ← BitVec.ofNat_add, Nat.add_comm]
  rfl

theorem busRead_within (a : Word) (s : State) (c : Context) :
    busRead a (s.within c) = ((busRead a s).1, (busRead a s).2.within c) := by
  have holder : (s.within c).olderValues a = s.olderValues a := rfl
  rw [busRead, busRead, holder]
  cases s.olderValues a <;> rfl

theorem busWrite_within (a : Word) (b : Byte) (s : State) (c : Context) :
    busWrite a b (s.within c) = (busWrite a b s).within c := by
  have holder : (s.within c).olderValues a = s.olderValues a := rfl
  rw [busWrite, busWrite, holder]
  cases s.olderValues a with
  | nil => rfl
  | cons old olds =>
    rw [show (s.within c).draws = s.draws from rfl]
    dsimp only
    split <;> rfl

theorem follows_srcByte (h : c.Shifts base s) (i : Nat) :
    Follows c base ((srcByte i).run s) ((srcByte (i + base)).run (s.within c)) := by
  intro b t hr
  rw [srcByte_run, memRead_run] at hr ⊢
  rw [h.srcAt, busRead_within]
  split at hr
  next hok =>
    cases hr
    refine ⟨(if_pos hok).trans ?_, ⟨h.srcAddr, h.srcLen⟩⟩
    simp only [State.within, List.append_assoc]
  next => cases hr

theorem follows_put (h : c.Shifts base s) (b : Byte) : Follows c base ((put b).run s) ((put b).run (s.within c)) := by
  intro a t hr
  rw [put_run] at hr ⊢
  split at hr
  · cases hr
  next hcap =>
  split at hr
  next hok =>
    cases hr
    refine ⟨(if_neg hcap).trans ((if_pos hok).trans ?_), ⟨h.srcAddr, h.srcLen⟩⟩
    rw [show (s.within c).dstAt (s.within c).cursor = s.dstAt s.cursor from rfl, busWrite_within]
    simp only [State.within, List.append_assoc]
  next => cases hr

theorem follows_putStr (h : c.Shifts base s) (l : List Byte) :
    Follows c base ((putStr l).run s) ((putStr l).run (s.within c)) := by
  induction l generalizing s with
  | nil => exact follows_pure h ()
  | cons b l ih => exact follows_bind (follows_put h b) fun _ t ht => ih ht

/-! ### The stages -/

theorem follows_freqLoop (h : c.Shifts 0 s) (n i : Nat) :
    Follows c 0 ((freqLoop n i).run s) ((freqLoop n i).run (s.within c)) := by
  induction n generalizing i s with
  | zero => exact follows_pure h ()
  | succ n ih =>
    exact follows_bind (follows_srcByte h i) fun b t ht =>
      follows_bind (follows_modify rfl ⟨ht.srcAddr, ht.srcLen⟩) fun _ u hu => ih hu _

theorem follows_freqStage (h : c.Shifts 0 s) : Follows c 0 (freqStage.run s) (freqStage.run (s.within c)) := by
  refine follows_bind (follows_bind (follows_enter h .freq) fun _ t ht => follows_look ?_)
    fun _ t ht => follows_look (follows_bind ?_ fun _ u hu => ?_)
  · rw [show (t.within c).srcLen = t.srcLen from (shifts_zero_iff.1 ht).2]
    exact follows_ite (follows_throw _ _) (follows_modify rfl ⟨ht.srcAddr, ht.srcLen⟩)
  · rw [show (t.within c).srcLen = t.srcLen from (shifts_zero_iff.1 ht).2]
    exact follows_freqLoop ht _ 0
  · refine follows_modify ?_ ⟨hu.srcAddr, hu.srcLen⟩
    rw [freqResults, freqResults, show (u.within c).srcLen = u.srcLen from (shifts_zero_iff.1 hu).2]
    rfl

theorem storeEntries_within (l : List Entry) (i : Nat) (s : State) (c : Context) :
    storeEntries i l (s.within c) = (storeEntries i l s).within c := by
  induction l generalizing i s with
  | nil => rfl
  | cons x l ih => exact ih (i + 1) { s with psym := s.psym.put i x.symbol, prob := s.prob.put i x.prob }

theorem ptabResults_within (s : State) (c : Context) : ptabResults (s.within c) = (ptabResults s).within c := by
  rw [ptabResults, storeEntries_within]
  rfl

theorem follows_ptabStage (h : c.Shifts 0 s) : Follows c 0 (ptabStage.run s) (ptabStage.run (s.within c)) := by
  refine follows_bind (follows_enter h .ptab) fun _ t ht => follows_modify (ptabResults_within t c) ?_
  rw [ptabResults_eq]
  exact ⟨ht.srcAddr, ht.srcLen⟩

theorem follows_treeStage (h : c.Shifts 0 s) : Follows c 0 (treeStage.run s) (treeStage.run (s.within c)) :=
  follows_bind (follows_enter h .tree) fun _ _ ht => follows_modify rfl ⟨ht.srcAddr, ht.srcLen⟩

theorem follows_emitLoop (h : c.Shifts 0 s) (n j : Nat) :
    Follows c 0 ((emitLoop n j).run s) ((emitLoop n j).run (s.within c)) := by
  induction n generalizing j s with
  | zero => exact follows_pure h ()
  | succ n ih =>
    exact follows_bind (follows_srcByte h j) fun b t ht => follows_look
      (follows_ite (follows_throw _ _) (follows_bind (follows_putStr ht _) fun _ u hu => ih hu _))

theorem follows_emitStage (h : c.Shifts 0 s) : Follows c 0 (emitStage.run s) (emitStage.run (s.within c)) := by
  refine follows_bind (follows_enter h .emit) fun _ t ht => follows_look (follows_bind (follows_putStr ht _)
    fun _ u hu => follows_look (follows_look (follows_bind ?_ fun _ v hv =>
      follows_modify rfl ⟨hv.srcAddr, hv.srcLen⟩)))
  rw [show (u.within c).srcLen = u.srcLen from (shifts_zero_iff.1 hu).2]
  exact follows_emitLoop hu _ 0

theorem follows_parseLoop (h : c.Shifts 0 s) (left pos : Nat) (p : Parser) :
    Follows c 0 ((parseLoop left pos p).run s) ((parseLoop left pos p).run (s.within c)) := by
  induction left generalizing pos p s with
  | zero => exact follows_look (follows_throw _ _)
  | succ left ih =>
    refine follows_bind (follows_srcByte h pos) fun b t ht => follows_look ?_
    rw [show (t.within c).codes = t.codes from rfl]
    cases parseByte p t.codes b with
    | bad => exact follows_throw _ _
    | more p' codes => exact ih (s := { t with codes := codes }) ⟨ht.srcAddr, ht.srcLen⟩ (pos + 1) p'
    | done =>
      refine follows_modify (f := parseResults p.n (pos + 1)) (f' := parseResults p.n (pos + 1)) ?_
        ⟨ht.srcAddr, ht.srcLen⟩
      rw [parseResults, parseResults, show (t.within c).srcLen = t.srcLen from (shifts_zero_iff.1 ht).2]
      rfl

theorem follows_parseStage (h : c.Shifts 0 s) : Follows c 0 (parseStage.run s) (parseStage.run (s.within c)) := by
  refine follows_bind (follows_bind (follows_enter h .parse) fun _ t ht =>
    follows_modify rfl ⟨ht.srcAddr, ht.srcLen⟩) fun _ t ht => follows_look ?_
  rw [show (t.within c).srcLen = t.srcLen from (shifts_zero_iff.1 ht).2]
  exact follows_parseLoop ht _ 0 Parser.start

theorem follows_matchLoop (h : c.Shifts base s) (left j : Nat) (acc : Codeword) (start start' : Nat) :
    Follows c base ((matchLoop left j acc start).run s) ((matchLoop left (j + base) acc start').run (s.within c)) := by
  induction left generalizing j acc start start' s with
  | zero => exact follows_ite (follows_pure h ()) (follows_throw _ _)
  | succ left ih =>
    refine follows_bind (follows_srcByte h j) fun b t ht =>
      follows_ite (follows_throw _ _) (follows_look ?_)
    dsimp only
    rw [show (t.within c).codes = t.codes from rfl, Nat.add_right_comm]
    cases findSymbol t.codes (acc ++ [charBit b]) with
    | some x => exact follows_bind (follows_put ht x) fun _ u hu => ih hu _ _ _ _
    | none => exact ih ht _ _ _ _

/-- MATCH on the rest of a source region is MATCH of the whole from there on. -/
theorem follows_matchStage (h : c.Shifts base s) :
    Follows c base ((matchStage 0).run s) ((matchStage base).run (s.within c)) := by
  refine follows_bind (follows_enter h .matchBits) fun _ t ht => follows_look (follows_bind ?_ fun _ u hu => ?_)
  · have hlen : (t.within c).srcLen.toNat - base = t.srcLen.toNat - 0 := Nat.sub_eq_of_eq_add ht.srcLen
    have hloop := follows_matchLoop ht (t.srcLen.toNat - 0) 0 [] 0 base
    rw [Nat.zero_add] at hloop
    rw [hlen]
    exact hloop
  · have hlen : (u.within c).srcLen.toNat - base = u.srcLen.toNat - 0 := Nat.sub_eq_of_eq_add hu.srcLen
    refine follows_modify ?_ ⟨hu.srcAddr, hu.srcLen⟩
    rw [matchResults, matchResults, hlen]
    rfl

end Sys2Proof.Machine
end

section
/-! PROOFS. ENCODE is FREQ, PTAB, TREE and EMIT, and DECODE is PARSE and MATCH (30_encoding.md R124; 42_encoder.md R178;
43_decoder.md R205): where the commands end normally one after the other, so do their stages in one command. -/

namespace Sys2Proof.Machine

/-! ### Normal endings -/

/-- A command that ended without an error was admitted and ran its stages to their end. -/
theorem exec_normal {i : Instr} {s t : State} (h : exec i s = .next t) (herr : t.err = none) :
    ∃ u, admitted i s = true ∧ (stages i).run (accept (encode i) s) = .ok () u ∧ t = normalTerminate u := by
  rw [exec_eq_runCommand] at h
  rcases runCommand_next h with ⟨r, -, rfl⟩ | ⟨ha, rfl⟩
  · cases herr
  · obtain ⟨u, hu, ht⟩ := terminate_normal herr
    exact ⟨u, ha, hu, ht⟩

/-- An error would have left PV 0 (60_exceptions.md R243). -/
theorem err_eq_none_of_pv {i : Instr} {s t : State} (h : exec i s = .next t) (hpv : t.pv = true) : t.err = none := by
  rcases exec_next h with ⟨r, u, rfl, -⟩ | ⟨u, rfl, hu, -, -⟩
  · cases hpv
  · exact hu.err

theorem exec_of_run {i : Instr} {s u : State} (ha : admitted i s = true)
    (hr : (stages i).run (accept (encode i) s) = .ok () u) : exec i s = .next (normalTerminate u) := by
  rw [exec_eq_runCommand, runCommand_admitted ha, hr]
  rfl

/-- Without Puts the output cursor stays; the bytes raced are the host's doing alone (20_memory.md R80). -/
theorem Built.cursor_raced {r w e : Prop} {m : Engine Unit} (h : Built r w e m) (hw : ¬ w) {s t : State}
    (hr : m.run s = .ok () t) : t.cursor = s.cursor ∧ t.raced = s.raced := by
  have hkeeps := h.keeps (R := fun s t => t.cursor = s.cursor ∧ t.raced = s.raced)
    (fun _ _ _ h h' => ⟨h'.1.trans h.1, h'.2.trans h.2⟩) (fun _ _ ho => ⟨ho.cursor, ho.still.2.2⟩)
    (fun _ _ _ => ⟨rfl, rfl⟩) (fun _ i s => ⟨(srcByte_frame i s).2.2, (srcByte_frame i s).2.1⟩)
    (fun hp => absurd hp hw) s
  rwa [hr] at hkeeps

/-! ### From one command to the next -/

/-- What a stage does not look at it does not move. -/
theorem context_of_follows {m : Engine Unit} {s t : State}
    (hm : Follows s.context 0 (m.run s) (m.run (s.within s.context))) (hr : m.run s = .ok () t) :
    t.err = s.err ∧ t.errInfo = s.errInfo := by
  obtain ⟨hrun, -⟩ := hm () t hr
  rw [within_context, hr] at hrun
  injection hrun with _ ht
  exact ⟨(congrArg State.err ht :), (congrArg State.errInfo ht :)⟩

theorem shifts_context (s : State) : s.context.Shifts 0 s := shifts_zero_iff.2 ⟨rfl, rfl⟩

/-- The stage begins by entering itself, wherever the command has been. -/
def EntersFirst (m : Engine Unit) : Prop := ∀ s st, m.run { s with stage := st } = m.run s

/-- The source region of the next command (30_encoding.md R103). -/
def State.withSource (s : State) (addr len : Word) : State := { s with srcAddr := addr, srcLen := len }

/-- A stage that ran in a command of its own, accepted after the command that ended in `u`, runs alike in one command
with the stages that ended in `u`. -/
theorem run_next_stage {m m' : Engine Unit} {c : Context} {base : Nat} {u t : State} {w addr len : Word}
    (hm : ∀ {c s}, c.Shifts base s → Follows c base (m.run s) (m'.run (s.within c))) (henter : EntersFirst m')
    (hcur : u.cursor = 0) (hraced : u.raced = []) (hshift : c.Shifts base (u.withSource addr len))
    (hr : m.run (accept w ((normalTerminate u).withSource addr len)) = .ok () t) :
    m'.run (u.within c) = .ok () (t.within (c.after u.accesses)) ∧ (c.after u.accesses).Shifts base t := by
  have hstate : (accept w ((normalTerminate u).withSource addr len)).within (c.after u.accesses) =
      { u.within c with stage := .none } := by
    simp [State.within, Context.after, accept, normalTerminate, State.idle, State.withSource, hcur, hraced]
  rw [← henter (u.within c) .none, ← hstate]
  exact hm (c := c.after u.accesses) (s := accept w ((normalTerminate u).withSource addr len))
    ⟨hshift.srcAddr, hshift.srcLen⟩ () t hr

/-- The end of a command whose last stage ended as it did in a command of its own. -/
theorem normalTerminate_within {t : State} {c : Context} (herr : t.err = c.err) (hinfo : t.errInfo = c.errInfo) :
    normalTerminate (t.within c) =
      { normalTerminate t with srcAddr := c.srcAddr, srcLen := c.srcLen, accesses := c.before ++ t.accesses } := by
  simp [State.within, normalTerminate, State.idle, herr, hinfo]

/-! ### ENCODE -/

/-- Settles O47: stage by stage, ENCODE runs from where the commands before it have ended. -/
theorem encodeIsItsFourStages : Obligations.EncodeIsItsFourStages := by
  intro s s1 s2 s3 s4 hq ha h1 herr1 h2 h3 h4 herr4
  obtain ⟨u1, -, r1, rfl⟩ := exec_normal h1 herr1
  obtain ⟨u4, ha4, r4, rfl⟩ := exec_normal h4 herr4
  have hpv3 : s3.pv = true := (Bool.and_eq_true_iff.1 (tablesReady_of_admitted ha4)).1
  obtain ⟨u3, ha3, r3, rfl⟩ := exec_normal h3 (err_eq_none_of_pv h3 hpv3)
  obtain ⟨u2, -, r2, rfl⟩ := exec_normal h2 (err_eq_none_of_pv h2 (tablesReady_of_admitted ha3))
  have hkeep1 := (built_stages .freq).cursor_raced Bool.noConfusion r1
  have hkeep2 := (built_stages .ptab).cursor_raced Bool.noConfusion r2
  have hkeep3 := (built_stages .tree).cursor_raced Bool.noConfusion r3
  have hlog2 := (ptabStage_still (accept (encode .ptab) (normalTerminate u1))).1
  have hlog3 := (treeStage_still (accept (encode .tree) (normalTerminate u2))).1
  rw [show ptabStage.run _ = _ from r2] at hlog2
  rw [show treeStage.run _ = _ from r3] at hlog3
  obtain ⟨k1, hshift1⟩ := follows_freqStage (c := (accept (encode .encode) s).context)
    (s := accept (encode .freq) s) (shifts_zero_iff.2 ⟨rfl, rfl⟩) () u1 r1
  obtain ⟨k2, hshift2⟩ := run_next_stage (m := ptabStage) (addr := u1.srcAddr) (len := u1.srcLen) follows_ptabStage
    (fun _ _ => rfl) hkeep1.1 (hkeep1.2.trans hq) hshift1 r2
  obtain ⟨k3, hshift3⟩ := run_next_stage (m := treeStage) (addr := u2.srcAddr) (len := u2.srcLen) follows_treeStage
    (fun _ _ => rfl) hkeep2.1 hkeep2.2 hshift2 r3
  obtain ⟨k4, hshift4⟩ := run_next_stage (m := emitStage) (addr := u3.srcAddr) (len := u3.srcLen) follows_emitStage
    (fun _ _ => rfl) hkeep3.1 hkeep3.2 hshift3 r4
  have hrun : (stages .encode).run (accept (encode .encode) s) = _ :=
    (run_bind_ok k1).trans ((run_bind_ok k2).trans ((run_bind_ok k3).trans k4))
  obtain ⟨herr, hinfo⟩ := context_of_follows (follows_emitStage (shifts_context _)) r4
  obtain ⟨haddr, hlen⟩ := shifts_zero_iff.1 hshift4
  rw [exec_of_run ha hrun, normalTerminate_within herr hinfo, haddr, hlen]
  simp only [Context.after, State.context, show u2.accesses = [] from hlog2, show u3.accesses = [] from hlog3,
    List.nil_append, List.append_nil]
  rfl

/-! ### DECODE -/

/-- BS_OFF lies in the source region (43_decoder.md R190). -/
theorem bsOff_le_of_parseStage {s u : State} (h : parseStage.run s = .ok () u) : u.bsOff.toNat ≤ s.srcLen.toNat := by
  obtain ⟨k, hk, -, hdone⟩ := reads_parseStage s
  exact hdone () u h ▸ hk

/-- Settles O56: MATCH runs from where PARSE has ended, on the source region from BS_OFF on. -/
theorem decodeIsParseThenMatch : Obligations.DecodeIsParseThenMatch := by
  intro s s1 s2 hq ha h1 herr1 h2 herr2
  obtain ⟨u1, -, r1, rfl⟩ := exec_normal h1 herr1
  obtain ⟨u2, -, r2, rfl⟩ := exec_normal h2 herr2
  have hkeep1 := (built_stages .parse).cursor_raced Bool.noConfusion r1
  have hoff : u1.bsOff.toNat ≤ s.srcLen.toNat :=
    bsOff_le_of_parseStage (s := accept (encode .parse) s) r1
  obtain ⟨k1, -⟩ := follows_parseStage (c := (accept (encode .decode) s).context)
    (s := accept (encode .parse) s) (shifts_zero_iff.2 ⟨rfl, rfl⟩) () u1 r1
  have hshift : (accept (encode .decode) s).context.Shifts u1.bsOff.toNat
      (u1.withSource (s.srcAddr + u1.bsOff) (s.srcLen - u1.bsOff)) := by
    refine ⟨?_, ?_⟩
    · rw [BitVec.ofNat_toNat, BitVec.setWidth_eq]
      rfl
    · change s.srcLen.toNat = (s.srcLen - u1.bsOff).toNat + u1.bsOff.toNat
      rw [BitVec.toNat_sub_of_le hoff, Nat.sub_add_cancel hoff]
  obtain ⟨k2, -⟩ := run_next_stage (m := matchStage 0) (m' := matchStage u1.bsOff.toNat) follows_matchStage
    (fun _ _ => rfl) hkeep1.1 (hkeep1.2.trans hq) hshift r2
  have hrun : (stages .decode).run (accept (encode .decode) s) = _ := (run_bind_ok k1).trans k2
  obtain ⟨herr, hinfo⟩ := context_of_follows (follows_matchStage (shifts_context _)) r2
  rw [exec_of_run ha hrun, normalTerminate_within herr hinfo]
  rfl

end Sys2Proof.Machine
end

section
/-! PROOFS. Probabilities (40_freq_ptab.md R132, R134): a rounded quotient of counts is off by at most 2^-53 of its
value, which is less than the distance between two probabilities, so rounding keeps their order. -/

namespace Sys2Proof.Machine

/-! ### How far rounding goes -/

/-- A rounded quotient is at most half a unit in its last place from the exact one. -/
theorem two_mul_roundingError_rn64_le {num den k : Nat} (hn : num ≠ 0) (hd : den ≠ 0)
    (hk : floorLog2 num den + 1022 = k) (hr : k ≤ 1074) : 2 * roundingError num den (rn64 num den) ≤ den * 2 ^ k := by
  rw [roundingError_of_units hr (units_rn64_eq hn hd hk hr), ← Nat.mul_assoc]
  exact Nat.mul_le_mul_right _ (two_mul_dist_rne_le _ den (Nat.pos_of_ne_zero hd))

/-- Relative to the exact quotient that is at most 2^-53. -/
theorem roundingError_fdiv_le {c n : Nat} (hc : 1 ≤ c) (hcn : c ≤ n) (hn : n < 2 ^ 32) :
    2 ^ 53 * roundingError c n (fdiv c n) ≤ c * unitsPerOne := by
  obtain ⟨k, hk, -, hr⟩ := exponent_of_counts hc hcn hn
  have c0 : c ≠ 0 := by omega
  have n0 : n ≠ 0 := by omega
  have low : 2 ^ 52 * n ≤ c * 2 ^ (1074 - k) := (le_floorLog2_iff c0 n0 52 (1074 - k)).1 (by omega)
  calc 2 ^ 53 * roundingError c n (fdiv c n) = 2 ^ 52 * (2 * roundingError c n (fdiv c n)) := by ring
    _ ≤ 2 ^ 52 * (n * 2 ^ k) := Nat.mul_le_mul_left _ (two_mul_roundingError_rn64_le c0 n0 hk (by omega))
    _ = 2 ^ 52 * n * 2 ^ k := (Nat.mul_assoc _ _ _).symm
    _ ≤ c * 2 ^ (1074 - k) * 2 ^ k := Nat.mul_le_mul_right _ low
    _ = c * unitsPerOne := by rw [Nat.mul_assoc, ← unitsPerOne_eq (by omega)]

/-- The same from both sides, without a difference. -/
theorem units_fdiv_bounds {c n : Nat} (hc : 1 ≤ c) (hcn : c ≤ n) (hn : n < 2 ^ 32) :
    2 ^ 53 * (c * unitsPerOne) ≤ 2 ^ 53 * (units (fdiv c n) * n) + c * unitsPerOne
      ∧ 2 ^ 53 * (units (fdiv c n) * n) ≤ 2 ^ 53 * (c * unitsPerOne) + c * unitsPerOne := by
  have h := roundingError_fdiv_le hc hcn hn
  unfold roundingError at h
  constructor <;> omega

/-! ### Order (R134) -/

/-- Quotients whose distance is more than the two rounding errors keep their order. -/
theorem units_fdiv_lt {c n d m : Nat} (hc : 1 ≤ c) (hcn : c ≤ n) (hn : n < 2 ^ 32) (hd : 1 ≤ d) (hdm : d ≤ m)
    (hm : m < 2 ^ 32) (gap : 2 ^ 53 * (d * n) + (d * n + c * m) < 2 ^ 53 * (c * m)) :
    units (fdiv d m) < units (fdiv c n) := by
  obtain ⟨low, -⟩ := units_fdiv_bounds hc hcn hn
  obtain ⟨-, high⟩ := units_fdiv_bounds hd hdm hm
  by_contra! h
  refine absurd (Nat.mul_lt_mul_of_pos_right gap unitsPerOne_pos) (Nat.not_lt.2 ?_)
  have hmn := Nat.mul_le_mul_right (n * m) h
  have hlow := Nat.mul_le_mul_right m low
  have hhigh := Nat.mul_le_mul_right n high
  linarith

theorem units_fdiv_lt_of_lt {c d n : Nat} (hd : 1 ≤ d) (hdc : d < c) (hcn : c ≤ n) (hn : n < 2 ^ 32) :
    units (fdiv d n) < units (fdiv c n) := by
  refine units_fdiv_lt (by omega) hcn hn hd (by omega) hn ?_
  calc 2 ^ 53 * (d * n) + (d * n + c * n) = (2 ^ 53 * d + (d + c)) * n := by ring
    _ < 2 ^ 53 * c * n := Nat.mul_lt_mul_of_pos_right (by omega) (by omega)
    _ = 2 ^ 53 * (c * n) := Nat.mul_assoc _ _ _

/-- Settles O36: rounding is strictly monotone on the counts of one table. -/
theorem probabilitiesOrderAsCounts : Obligations.ProbabilitiesOrderAsCounts := by
  intro c d n hc hcn hd hdn hn
  rcases Nat.lt_trichotomy d c with h | rfl | h
  · have := units_fdiv_lt_of_lt hd h hcn hn
    omega
  · omega
  · have := units_fdiv_lt_of_lt hc h hdn hn
    omega

end Sys2Proof.Machine
end

section
/-! PROOFS. The probability table (40_freq_ptab.md R132, R133, R135): what stands at a rank, and what the probabilities
of one table sum up to. -/

namespace Sys2Proof.Machine

/-! ### The counts of a table -/

/-- Symbols that are not counted add nothing (10_state.md R32). -/
theorem sum_counts_alphabet (f : Table Word) : ((alphabet f).map fun b => (f.at b.toNat).toNat).sum = freqSum f := by
  have drop : ∀ l : List Nat, (∀ i ∈ l, i < 256) →
      (((l.filter fun i => 1 ≤ (f.at i).toNat).map (BitVec.ofNat 8)).map fun b => (f.at b.toNat).toNat).sum
        = (l.map fun i => (f.at i).toNat).sum := by
    intro l hl
    induction l with
    | nil => rfl
    | cons i l ih =>
      obtain ⟨hi, hl⟩ := List.forall_mem_cons.1 hl
      rw [List.filter_cons, List.map_cons, List.sum_cons, ← ih hl]
      split
      · simp [Nat.mod_eq_of_lt hi]
      · simp_all
  exact drop (List.range 256) fun i => List.mem_range.1

/-- Every counted symbol has a count of 1 to TOTAL. -/
theorem count_bounds {f : Table Word} {b : Byte} (hb : b ∈ alphabet f) :
    1 ≤ (f.at b.toNat).toNat ∧ (f.at b.toNat).toNat ≤ freqSum f :=
  ⟨(mem_alphabet f b).1 hb, at_le_freqSum f b⟩

/-- A counted symbol leaves at least 1 to each of the others. -/
theorem count_add_alphabetSize_le {f : Table Word} {b : Byte} (hb : b ∈ alphabet f) :
    (f.at b.toNat).toNat + alphabetSize f ≤ freqSum f + 1 := by
  have hsplit := (List.perm_cons_erase hb).map fun b => (f.at b.toNat).toNat
  have others : ((alphabet f).erase b).length ≤ (((alphabet f).erase b).map fun b => (f.at b.toNat).toNat).sum := by
    have := List.length_le_sum_of_one_le (((alphabet f).erase b).map fun b => (f.at b.toNat).toNat) fun c hc => by
      obtain ⟨b', hb', rfl⟩ := List.mem_map.1 hc
      exact (mem_alphabet f b').1 (List.mem_of_mem_erase hb')
    rwa [List.length_map] at this
  rw [List.length_erase_of_mem hb] at others
  rw [← sum_counts_alphabet, hsplit.sum_eq, List.map_cons, List.sum_cons, alphabetSize]
  omega

/-! ### The entries, by rank (R133) -/

theorem rankedEntries_length (s : State) (n : Nat) : (rankedEntries s n).length = n := by
  rw [rankedEntries, List.length_map, List.length_range]

/-- At a rank of a ranking of counts stands a counted symbol, with the probability of its count. -/
theorem entry_at_rank {s : State} {n total i : Nat} {f : Table Word} (hi : i < n)
    (h : (rankedEntries s n).Perm (entries f total)) :
    s.psym.at i ∈ alphabet f ∧ s.prob.at i = fdiv (f.at (s.psym.at i).toNat).toNat total := by
  have hmem : { symbol := s.psym.at i, prob := s.prob.at i } ∈ entries f total :=
    h.mem_iff.1 (List.mem_map.2 ⟨i, List.mem_range.2 hi, rfl⟩)
  obtain ⟨b, hb, he⟩ := List.mem_map.1 hmem
  injection he with hsymbol hprob
  subst hsymbol
  exact ⟨hb, hprob.symm⟩

/-- In a ranking the lower rank stands before the higher. -/
theorem before_of_ranks {s : State} {n i j : Nat}
    (h : (rankedEntries s n).Pairwise fun x y => before x y = true) (hij : i < j) (hj : j < n) :
    units (s.prob.at j) < units (s.prob.at i)
      ∨ (units (s.prob.at i) = units (s.prob.at j) ∧ (s.psym.at i).toNat < (s.psym.at j).toNat) := by
  have hlen := rankedEntries_length s n
  have hbefore := List.pairwise_iff_getElem.1 h i j (by omega) (by omega) hij
  simpa only [before_iff, rankedEntries, List.getElem_map, List.getElem_range] using hbefore

/-! ### The range of a probability (R135) -/

/-- No count in no table has a lesser probability than 1 in 2^32 - 1. -/
theorem units_fdiv_least {c n : Nat} (hc : 1 ≤ c) (hcn : c ≤ n) (hn : n < 2 ^ 32) :
    units (fdiv 1 (2 ^ 32 - 1)) ≤ units (fdiv c n) := by
  have least_count : units (fdiv 1 n) ≤ units (fdiv c n) := by
    rcases Nat.eq_or_lt_of_le hc with rfl | h
    · exact le_rfl
    · exact (units_fdiv_lt_of_lt le_rfl h hcn hn).le
  refine le_trans ?_ least_count
  rcases Nat.eq_or_lt_of_le (Nat.le_sub_one_of_lt hn) with rfl | h
  · exact le_rfl
  · exact (units_fdiv_lt le_rfl (hc.trans hcn) hn le_rfl (by omega) (by omega) (by omega)).le

/-- Only the whole table has the probability 1.0. -/
theorem count_eq_of_units_fdiv {c n : Nat} (hc : 1 ≤ c) (hcn : c ≤ n) (hn : n < 2 ^ 32)
    (h : units (fdiv c n) = unitsPerOne) : c = n := by
  by_contra hne
  have hlt : units (fdiv c n) < units (fdiv n n) := units_fdiv_lt_of_lt hc (by omega) le_rfl hn
  have hle : units (fdiv n n) ≤ unitsPerOne := units_fdiv_le_one (by omega) le_rfl hn
  omega

theorem two_pow_le_units_fdiv {c n : Nat} (hc : 1 ≤ c) (hcn : c ≤ n) (hn : n < 2 ^ 32) :
    2 ^ 52 ≤ units (fdiv c n) := by
  obtain ⟨-, hexp, -⟩ := fdiv_rounds hc hcn hn
  exact (le_biasedExp_iff _ 0).1 hexp

/-! ### Sums -/

/-- 2^-53 in units: half a unit in the last place of a value from 1.0 to 2.0, the most by which a rounding below 2.0
is off. -/
def halfUlp : Nat := 2 ^ 1021

theorem two_pow_mul_halfUlp {j e : Nat} (h : j + 1021 = e) : 2 ^ j * halfUlp = 2 ^ e := by
  rw [halfUlp, ← Nat.pow_add, h]

theorem unitsPerOne_eq_halfUlps : unitsPerOne = 2 ^ 53 * halfUlp := by
  rw [unitsPerOne, two_pow_mul_halfUlp (e := 1074) rfl]

/-- The bounds of `units_fdiv_bounds` hold of a sum as they hold of its terms. -/
theorem sum_units_fdiv_bounds {n : Nat} (hn : n < 2 ^ 32) (l : List Nat) (hl : ∀ c ∈ l, 1 ≤ c ∧ c ≤ n) :
    2 ^ 53 * (l.sum * unitsPerOne) ≤ 2 ^ 53 * ((l.map fun c => units (fdiv c n)).sum * n) + l.sum * unitsPerOne
      ∧ 2 ^ 53 * ((l.map fun c => units (fdiv c n)).sum * n)
          ≤ 2 ^ 53 * (l.sum * unitsPerOne) + l.sum * unitsPerOne := by
  induction l with
  | nil => simp
  | cons c l ih =>
    obtain ⟨⟨hc, hcn⟩, hl⟩ := List.forall_mem_cons.1 hl
    obtain ⟨low, high⟩ := units_fdiv_bounds hc hcn hn
    obtain ⟨lows, highs⟩ := ih hl
    simp only [List.map_cons, List.sum_cons, Nat.add_mul]
    constructor <;> omega

/-- The exact sum of the values at the ranks below `n`. -/
def exactSum (prob : Table Double) (n : Nat) : Nat := ((List.range n).map fun i => units (prob.at i)).sum

theorem exactSum_succ (prob : Table Double) (n : Nat) :
    exactSum prob (n + 1) = exactSum prob n + units (prob.at n) := by
  simp [exactSum, List.range_succ]

/-- The probabilities of a table of counts sum up to 1.0 within 2^-53: what rounding adds to each or takes from it is
at most that share of it. -/
theorem exactSum_near_one {s : State} {n : Nat} {f : Table Word} (hpos : 1 ≤ freqSum f) (hlt : freqSum f < 2 ^ 32)
    (h : (rankedEntries s n).Perm (entries f (freqSum f))) :
    unitsPerOne ≤ exactSum s.prob n + halfUlp ∧ exactSum s.prob n ≤ unitsPerOne + halfUlp := by
  have hsum : exactSum s.prob n
      = (((alphabet f).map fun b => (f.at b.toNat).toNat).map fun c => units (fdiv c (freqSum f))).sum := by
    have := (h.map fun x => units x.prob).sum_eq
    simpa only [rankedEntries, entries, exactSum, List.map_map, Function.comp_def] using this
  obtain ⟨low, high⟩ := sum_units_fdiv_bounds hlt ((alphabet f).map fun b => (f.at b.toNat).toNat) fun c hc => by
    obtain ⟨b, hb, rfl⟩ := List.mem_map.1 hc
    exact count_bounds hb
  rw [← hsum, sum_counts_alphabet, unitsPerOne_eq_halfUlps] at low high
  rw [unitsPerOne_eq_halfUlps]
  have hscale : 0 < 2 ^ 53 * freqSum f := by omega
  exact ⟨Nat.le_of_mul_le_mul_right (by linarith) hscale, Nat.le_of_mul_le_mul_right (by linarith) hscale⟩

theorem units_zero : units 0#64 = 0 := rfl

/-- An addition below 2.0 is at most 2^-53 from the exact sum. -/
theorem fadd_near {a b : Double} (hb : 2 ^ 52 ≤ units b) (hlt : units a + units b < 2 * unitsPerOne) :
    ((units (fadd a b) : Int) - (units a + units b : Nat)).natAbs ≤ halfUlp := by
  unfold fadd
  split
  next h0 =>
    subst h0
    simp [units_zero]
  next h0 =>
    obtain ⟨x0, k, hk, -, hr⟩ := exponent_of_units (x := units a + units b) (l := 0) (h := 1022) (by omega) (by
      have hone := unitsPerOne_eq_halfUlps
      rw [← two_pow_mul_halfUlp (j := 54) rfl]
      omega)
    have near := two_mul_roundingError_rn64_le x0 unitsPerOne_pos.ne' hk (by omega)
    rw [roundingError_unitsPerOne, ← Nat.mul_assoc, Nat.mul_comm unitsPerOne] at near
    have hulp : 2 ^ k ≤ 2 ^ 1 * halfUlp := by
      rw [two_pow_mul_halfUlp (e := 1022) rfl, Nat.pow_le_pow_iff_right one_lt_two]
      exact hr
    have := Nat.le_of_mul_le_mul_right near unitsPerOne_pos
    omega

theorem probSum_range_succ (prob : Table Double) (n : Nat) :
    probSum prob (List.range (n + 1)) = fadd (probSum prob (List.range n)) (prob.at n) := by
  simp [probSum, List.range_succ]

/-- Summing by `fadd` adds at most 2^-53 for each addition after the first, which is exact. -/
theorem probSum_near_exactSum {prob : Table Double} {n : Nat} (hn : n ≤ 256)
    (hleast : ∀ i, i < n → 2 ^ 52 ≤ units (prob.at i)) (hsum : exactSum prob n ≤ unitsPerOne + halfUlp) :
    ((units (probSum prob (List.range n)) : Int) - exactSum prob n).natAbs ≤ (n - 1) * halfUlp := by
  induction n with
  | zero => simp [probSum, exactSum, units_zero]
  | succ n ih =>
    rw [exactSum_succ] at hsum ⊢
    rw [probSum_range_succ]
    have hprev := ih (by omega) (fun i hi => hleast i (by omega)) (by omega)
    rcases Nat.eq_zero_or_pos n with rfl | hpos
    · simp [probSum, exactSum, fadd]
    · have hlt : units (probSum prob (List.range n)) + units (prob.at n) < 2 * unitsPerOne := by
        have hbound : (n - 1) * halfUlp ≤ 255 * halfUlp := Nat.mul_le_mul_right _ (by omega)
        have hone := unitsPerOne_eq_halfUlps
        have := unitsPerOne_pos
        omega
      have hnear := fadd_near (hleast n (by omega)) hlt
      have hone : (n + 1 - 1) * halfUlp = (n - 1) * halfUlp + halfUlp := by
        rw [← Nat.succ_mul, Nat.succ_eq_add_one, Nat.sub_add_cancel hpos, Nat.add_sub_cancel]
      omega

/-- Settles O37: FREQ, as it stood when PTAB ran, is a table of counts of the sum TOTAL; with at most 256 entries the
255 roundings of `fadd` and the rounding of the entries add up to 256 times 2^-53. -/
theorem probabilitiesSumToOne : Obligations.ProbabilitiesSumToOne := by
  intro s hinv hpv
  obtain ⟨f, -, htotal, hpos, hsize, hperm, hsorted⟩ := hinv.ranking hpv
  have hlt : freqSum f < 2 ^ 32 := htotal ▸ s.total.isLt
  rw [← htotal] at hpos hperm
  have hmax : s.nsym.toNat ≤ 256 := hinv.nsymMax
  obtain ⟨exact_low, exact_high⟩ := exactSum_near_one hpos hlt hperm
  refine ⟨fun i hi => ?_, ?_, ?_⟩
  · obtain ⟨hmem, hprob⟩ := entry_at_rank hi hperm
    obtain ⟨hc, hcn⟩ := count_bounds hmem
    rw [hprob]
    refine ⟨units_fdiv_least hc hcn hlt, units_fdiv_le_one hc hcn hlt, fun hone => ?_, fun j hij hj => ?_⟩
    · have hall := count_eq_of_units_fdiv hc hcn hlt hone
      have := count_add_alphabetSize_le hmem
      exact BitVec.eq_of_toNat_eq (show s.nsym.toNat = 1 by omega)
    · rw [← hprob]
      rcases before_of_ranks hsorted hij hj with h | ⟨h, -⟩ <;> omega
  · change ((exactSum s.prob s.nsym.toNat : Int) - unitsPerOne).natAbs ≤ 2 ^ 1029
    rw [← two_pow_mul_halfUlp (j := 8) (e := 1029) rfl]
    omega
  · have hleast : ∀ i, i < s.nsym.toNat → 2 ^ 52 ≤ units (s.prob.at i) := fun i hi => by
      obtain ⟨hmem, hprob⟩ := entry_at_rank hi hperm
      obtain ⟨hc, hcn⟩ := count_bounds hmem
      exact hprob ▸ two_pow_le_units_fdiv hc hcn hlt
    have hnear := probSum_near_exactSum hmax hleast exact_high
    have hbound : (s.nsym.toNat - 1) * halfUlp ≤ 255 * halfUlp := Nat.mul_le_mul_right _ (by omega)
    change _ ≤ 2 ^ 1029
    rw [← two_pow_mul_halfUlp (j := 8) (e := 1029) rfl]
    omega

end Sys2Proof.Machine
end

section
/-! PROOFS. FREQ and PTAB (40_freq_ptab.md R130 to R133): with no race FREQ counts the bytes of the source region, and
PTAB ranks the counted symbols. -/

namespace Sys2Proof.Machine

/-! ### Counting (R130, R131) -/

/-- The counts of the bytes `l`, on top of the counts `f`. -/
def countAll (l : List Byte) (f : Table Word) : Table Word := l.foldl (fun t b => countByte b t) f

theorem countsOf_eq_countAll (l : List Byte) : countsOf l = countAll l Table.zeros := rfl

theorem countAll_cons (a : Byte) (l : List Byte) (f : Table Word) :
    countAll (a :: l) f = countAll l (countByte a f) := rfl

theorem at_countAll (l : List Byte) (f : Table Word) (b : Byte) :
    (countAll l f).at b.toNat = f.at b.toNat + BitVec.ofNat 32 (l.count b) := by
  induction l generalizing f with
  | nil => simp [countAll]
  | cons a l ih =>
    rw [countAll_cons, ih, countByte, Table.at_put_symbol, List.count_cons]
    by_cases h : a = b
    · subst h
      simp [BitVec.ofNat_add, add_assoc, add_left_comm, add_comm]
    · simp [h]

theorem freqSum_countAll {l : List Byte} {f : Table Word} (h : freqSum f + l.length < 2 ^ 32) :
    freqSum (countAll l f) = freqSum f + l.length := by
  induction l generalizing f with
  | nil => exact (Nat.add_zero _).symm
  | cons a l ih =>
    rw [List.length_cons] at h ⊢
    have hstep := freqSum_countByte a (t := f) (by omega)
    rw [countAll_cons, ih (by omega), hstep]
    omega

/-- Counts of bytes that a register word can count. -/
theorem countsOf_at {l : List Byte} (hl : l.length < 2 ^ 32) (b : Byte) :
    ((countsOf l).at b.toNat).toNat = l.count b := by
  have hcount : l.count b ≤ l.length := List.count_le_length
  rw [countsOf_eq_countAll, at_countAll, Table.zeros, Table.at_replicate, zero_add, BitVec.toNat_ofNat]
  exact Nat.mod_eq_of_lt (by omega)

theorem freqSum_countsOf {l : List Byte} (hl : l.length < 2 ^ 32) : freqSum (countsOf l) = l.length := by
  rw [countsOf_eq_countAll, freqSum_countAll (by rwa [freqSum_zeros, Nat.zero_add]), freqSum_zeros, Nat.zero_add]

/-- The counted symbols are those that occur. -/
theorem alphabetSize_countsOf {l : List Byte} (hl : l.length < 2 ^ 32) :
    alphabetSize (countsOf l) = l.dedup.length := by
  refine ((List.perm_ext_iff_of_nodup (nodup_alphabet _) (List.nodup_dedup l)).2 fun b => ?_).length_eq
  rw [mem_alphabet, countsOf_at hl, List.mem_dedup]
  exact List.count_pos_iff

/-! ### FREQ -/

/-- With no race the loop counts the bytes it is fed. -/
theorem freqLoop_feeds {l : List Byte} {i : Nat} {s : State} (hq : quiet s) (hf : Feeds s i l) :
    ∃ log, (freqLoop l.length i).run s = .ok () { s with freq := countAll l s.freq, accesses := log } := by
  induction l generalizing i s with
  | nil => exact ⟨s.accesses, rfl⟩
  | cons b l ih =>
    have hnext : Feeds { s.afterRead i b with freq := countByte b s.freq } (i + 1) l :=
      hf.2.congr (OffPort.refl s).operands fun _ _ _ => rfl
    obtain ⟨log, hlog⟩ := ih (s := { s.afterRead i b with freq := countByte b s.freq }) hq hnext
    exact ⟨log, (run_bind_ok (hf.srcByte hq)).trans hlog⟩

/-- The FREQ stage on a readable, non-empty source region. -/
theorem freqStage_counts {s : State} (hq : quiet s) (hread : srcReadable s = true) (hlen : s.srcLen ≠ 0) :
    ∃ log, freqStage.run s =
      .ok () (freqResults { s with stage := .freq, freq := countsOf (srcBytes s), accesses := log }) := by
  have hok : ∀ k, k < (srcBytes s).length → s.memOK (s.srcAt k) .read = true := fun k hk =>
    List.all_eq_true.1 hread k (List.mem_range.2 (srcBytes_length s ▸ hk))
  have hbegin : freqBegin.run s = .ok () { s with stage := .freq, freq := Table.zeros } := by
    rw [freqBegin_run, if_neg hlen]
  have hfeeds : Feeds { s with stage := .freq, freq := Table.zeros } 0 (srcBytes s) :=
    (feeds_of_srcBytes (List.append_nil _).symm hok).congr (OffPort.refl s).operands fun _ _ _ => rfl
  obtain ⟨log, hlog⟩ := freqLoop_feeds (s := { s with stage := .freq, freq := Table.zeros }) hq hfeeds
  rw [srcBytes_length] at hlog
  refine ⟨log, ?_⟩
  rw [freqStage, run_bind_ok hbegin, freqFrom, run_look]
  exact run_bind_ok hlog

/-- Settles O33: what FREQ leaves is what `freqResults` makes of the counts of the source bytes, of which there are
fewer than 2^32. -/
theorem freqCountsTheSource : Obligations.FreqCountsTheSource := by
  intro s ha hq hread hlen
  obtain ⟨log, hrun⟩ := freqStage_counts (s := accept (encode .freq) s) hq hread hlen
  have hlength := srcBytes_length s
  have hlt : (srcBytes s).length < 2 ^ 32 := hlength ▸ s.srcLen.isLt
  have hpos : 1 ≤ s.srcLen.toNat := Nat.pos_of_ne_zero fun h => hlen (BitVec.eq_of_toNat_eq h)
  have hsum := freqSum_countsOf hlt
  have hsize := alphabetSize_le (countsOf (srcBytes s))
  have hsome : 1 ≤ alphabetSize (countsOf (srcBytes s)) := alphabetSize_pos (by omega)
  have hdistinct := alphabetSize_countsOf hlt
  have hdedup := (List.dedup_sublist (srcBytes s)).length_le
  have hnsym : (BitVec.ofNat 32 (alphabetSize (countsOf (srcBytes s)))).toNat = alphabetSize (countsOf (srcBytes s)) :=
    (BitVec.toNat_ofNat ..).trans (Nat.mod_eq_of_lt (by omega))
  have hmin : alphabetSize (countsOf (srcBytes s)) ≤ min 256 s.srcLen.toNat := le_min hsize (by omega)
  exact ⟨_, exec_of_run ha hrun, ⟨rfl, rfl, rfl, rfl, rfl⟩, rfl, rfl, rfl, countsOf_at hlt, rfl, hnsym.trans hdistinct,
    hsum.trans hlength, hnsym.symm ▸ hsome, hnsym.trans_le hmin, rfl, rfl, rfl, rfl, rfl, rfl, rfl,
    (OffPort.refl s).operands⟩

/-! ### PTAB -/

theorem admitted_ptab {s : State} (h : s.fv = true) : admitted .ptab s = true := by
  simp [admitted, tablesReady, rangeBad, touchesDevice, usesSource, usesDest, h]

/-- Settles O34: what PTAB leaves is the ranking of the entries of FREQ. -/
theorem ptabRanksTheSymbols : Obligations.PtabRanksTheSymbols := by
  intro s hfv
  have hrun := ptabStage_run (accept (encode .ptab) s)
  rw [ptabResults_eq] at hrun
  refine ⟨_, exec_of_run (admitted_ptab hfv) hrun, ⟨rfl, rfl, rfl, rfl, rfl⟩, hfv, rfl, rfl, ?_⟩
  have hranked := rankedEntries_ptabResults { accept (encode .ptab) s with stage := .ptab }
  generalize ptabResults { accept (encode .ptab) s with stage := .ptab } = u at hranked ⊢
  have hperm : (rankedEntries u (alphabetSize s.freq)).Perm (entries s.freq s.total.toNat) :=
    hranked ▸ sortEntries_perm _
  have hsorted : (rankedEntries u (alphabetSize s.freq)).Pairwise fun x y => before x y = true :=
    hranked ▸ sortEntries_sorted _ (by rw [entries_symbols]; exact nodup_alphabet _)
  refine ⟨fun b => ?_, fun i hi => (entry_at_rank hi hperm).2, fun i j hij hj => before_of_ranks hsorted hij hj,
    rfl, rfl, rfl, rfl, rfl, rfl, rfl, rfl, (OffPort.refl s).operands⟩
  rw [← mem_alphabet, ← entries_symbols s.freq s.total.toNat, ← (hperm.map Entry.symbol).mem_iff,
    ← ranked_eq_map_rankedEntries]
  rfl

end Sys2Proof.Machine
end

section
/-! PROOFS. The codewords and the split points of TREE (41_tree.md R151 to R159): the codeword of an element is the path
through the splits, and a split stands where the running sum passes half. -/

namespace Sys2Proof.Machine

/-! ### Codewords (R151, R152, R154, R159) -/

/-- The code table TREE leaves, element by element. -/
theorem exec_tree_code {s : State} (hpv : s.pv = true) (h : 1 ≤ s.nsym.toNat) (h' : s.nsym.toNat ≤ 256)
    (hd : (ranked s.psym s.nsym.toNat).Nodup) :
    ∃ t, exec .tree s = .next t
      ∧ ∀ i, i < s.nsym.toNat → t.codes.code (s.psym.at i) = treeCode s.prob s.nsym.toNat i :=
  ⟨_, exec_tree hpv, fun _ hi => buildTree_code s.prob h h' hd hi⟩

/-- Settles O39: R151 and line B2 write out the codes of one and of two elements; neither looks at a probability. -/
theorem treeOfOneOrTwoSymbols : Obligations.TreeOfOneOrTwoSymbols := by
  refine fun s hpv => ⟨fun hn => ?_, fun hn hne => ?_⟩
  · have hn' : s.nsym.toNat = 1 := congrArg BitVec.toNat hn
    obtain ⟨t, ht, hcode⟩ := exec_tree_code hpv (by omega) (by omega) (hn' ▸ List.nodup_singleton _)
    rw [hn'] at hcode
    exact ⟨t, ht, hcode 0 one_pos⟩
  · have hn' : s.nsym.toNat = 2 := congrArg BitVec.toNat hn
    have distinct : (ranked s.psym 2).Nodup := by simpa [ranked, List.range_succ] using hne
    obtain ⟨t, ht, hcode⟩ := exec_tree_code hpv (by omega) (by omega) (hn' ▸ distinct)
    rw [hn'] at hcode
    exact ⟨t, ht, hcode 0 two_pos, hcode 1 one_lt_two⟩

/-- Settles O40: of two or more elements the code is that of the whole range. -/
theorem treeCodewordsFollowTheSplits : Obligations.TreeCodewordsFollowTheSplits := by
  intro s hpv h h' hd
  obtain ⟨t, ht, hcode⟩ := exec_tree_code hpv (by omega) h' hd
  exact ⟨t, ht, fun i hi => (hcode i hi).trans (if_neg (by omega))⟩

/-! ### The scan for the split point (R156 to R158) -/

theorem probSum_concat (prob : Table Double) (is : List Nat) (i : Nat) :
    probSum prob (is ++ [i]) = fadd (probSum prob is) (prob.at i) := by
  simp [probSum]

/-- Line B5 from the element `lo + k` on finds the first index up to which the sum from `lo` on is above half. -/
theorem firstAbove_eq_find? (prob : Table Double) (half : Double) (lo k m : Nat) :
    firstAbove prob half (probSum prob (List.range' lo k)) (List.range' (lo + k) m) =
      (List.range' (lo + k) m).find? fun i => !fle (probSum prob (indexes lo i)) half := by
  induction m generalizing k with
  | zero => rfl
  | succ m ih =>
    have next : List.range' lo k ++ [lo + k] = indexes lo (lo + k) := by
      rw [← List.range'_1_concat, indexes, Nat.add_assoc, Nat.add_sub_cancel_left]
    have rest := ih (k + 1)
    rw [List.range'_1_concat, next, ← Nat.add_assoc] at rest
    rw [List.range'_succ, firstAbove, List.find?_cons, ← probSum_concat, next, rest]
    cases fle (probSum prob (indexes lo (lo + k))) half <;> rfl

theorem firstAbove_indexes (prob : Table Double) (half : Double) (lo hi : Nat) :
    firstAbove prob half 0 (indexes lo hi) =
      (indexes lo hi).find? fun i => !fle (probSum prob (indexes lo i)) half :=
  firstAbove_eq_find? prob half lo 0 (hi + 1 - lo)

/-- Where the sum of the range is above half, the scan ends at its first element (line B7) or at the split point; the
fallback of line B6 does not occur. -/
theorem splitPoint_at_half (prob : Table Double) {lo hi : Nat} (h : lo ≤ hi)
    (above : fle (probSum prob (indexes lo hi)) (fhalf (probSum prob (indexes lo hi))) = false) :
    ((∀ k, lo ≤ k → k < splitPoint prob lo hi →
          fle (probSum prob (indexes lo k)) (fhalf (probSum prob (indexes lo hi))) = true)
        ∧ fle (probSum prob (indexes lo (splitPoint prob lo hi))) (fhalf (probSum prob (indexes lo hi))) = false)
      ∨ (splitPoint prob lo hi = lo + 1
        ∧ fle (probSum prob (indexes lo lo)) (fhalf (probSum prob (indexes lo hi))) = false) := by
  rw [splitPoint, firstAbove_indexes]
  split
  next hnone =>
    have := List.find?_eq_none.1 hnone hi (mem_indexes.2 ⟨h, le_rfl⟩)
    simp [above] at this
  next i hsome =>
    obtain ⟨at_i, -, before_i⟩ := List.find?_range'_eq_some.1 hsome
    rw [Bool.not_eq_true'] at at_i
    split
    next hlo => exact .inr ⟨rfl, hlo ▸ at_i⟩
    next => exact .inl ⟨fun k hk hki => by simpa using before_i k hk hki, at_i⟩

/-! ### Sums of probabilities are in the range of R15 (R155) -/

/-- The range of the quotients of 32-bit counts: 2^-32 to 1.0. -/
def IsProb (p : Double) : Prop := 991 ≤ biasedExp p ∧ units p ≤ unitsPerOne

theorem isProb_fdiv {c n : Nat} (hc : 1 ≤ c) (hcn : c ≤ n) (hn : n < 2 ^ 32) : IsProb (fdiv c n) := by
  obtain ⟨k, hk, hlow, hhigh⟩ := exponent_of_counts hc hcn hn
  have above : k + 1 ≤ biasedExp (fdiv c n) := lt_biasedExp_rn64 (by omega) (by omega) hk (by omega)
  exact ⟨by omega, units_fdiv_le_one hc hcn hn⟩

theorem mul_unitsPerOne_lt {m j e : Nat} (hm : m < 2 ^ j) (he : j + 1074 = e) : m * unitsPerOne < 2 ^ e :=
  calc m * unitsPerOne < 2 ^ j * unitsPerOne := Nat.mul_lt_mul_of_pos_right hm unitsPerOne_pos
    _ = 2 ^ e := by rw [unitsPerOne, ← Nat.pow_add, he]

/-- A value of at most 256 is well below the upper end of the range of `fhalf`. -/
theorem biasedExp_le_of_units_le {p : Double} {m : Nat} (hm : m ≤ 256) (h : units p ≤ m * unitsPerOne) :
    biasedExp p ≤ 1031 :=
  (biasedExp_le_iff p 1031).2 (h.trans_lt (mul_unitsPerOne_lt (j := 9) (by omega) rfl))

/-- An addition does not round above a multiple of 1.0 that bounds the exact sum. -/
theorem units_fadd_le {a b : Double} {m : Nat} (hb : 2 ^ 52 ≤ units b) (hm : m ≤ 256)
    (h : units a + units b ≤ m * unitsPerOne) : units (fadd a b) ≤ m * unitsPerOne := by
  unfold fadd
  split
  next => exact (Nat.le_add_left _ _).trans h
  next =>
    obtain ⟨x0, k, hk, -, hr⟩ := exponent_of_units (x := units a + units b) (l := 0) (h := 1030) (by omega)
      (h.trans_lt (mul_unitsPerOne_lt (j := 9) (by omega) rfl))
    have hdvd : 2 ^ k ∣ unitsPerOne := unitsPerOne_eq (k := k) (by omega) ▸ Nat.dvd_mul_left _ _
    exact units_rn64_le x0 unitsPerOne_pos.ne' hk (by omega) (Dvd.dvd.mul_left hdvd m) (Nat.mul_le_mul_right _ h)

/-- A sum of up to 256 probabilities is normal, as they are, and at most their number. -/
theorem probSum_bounds {prob : Table Double} {is : List Nat} (h : ∀ i ∈ is, IsProb (prob.at i)) (hne : is ≠ [])
    (hlen : is.length ≤ 256) :
    991 ≤ biasedExp (probSum prob is) ∧ units (probSum prob is) ≤ is.length * unitsPerOne := by
  induction is using List.reverseRecOn with
  | nil => exact absurd rfl hne
  | append_singleton is i ih =>
    obtain ⟨hlow, hhigh⟩ := h i (by simp)
    rw [probSum_concat]
    rcases eq_or_ne is [] with rfl | hne'
    · simpa [probSum, fadd] using And.intro hlow hhigh
    · rw [List.length_append, List.length_singleton] at hlen ⊢
      obtain ⟨slow, shigh⟩ := ih (fun j hj => h j (by simp [hj])) hne' (by omega)
      have sexp := biasedExp_le_of_units_le (by omega) shigh
      have pexp := biasedExp_le_of_units_le (p := prob.at i) (m := 1) (by omega) (by rwa [Nat.one_mul])
      obtain ⟨-, low, -, -⟩ := fadd_rounds (l := 990) (h := 1030) slow sexp pexp (by omega)
      have normal : 2 ^ 52 ≤ units (prob.at i) := (le_biasedExp_iff _ 0).1 (by omega)
      exact ⟨low, units_fadd_le normal hlen (by rw [Nat.succ_mul]; omega)⟩

/-- R157: a total in the range of R15 is above its half. -/
theorem fle_fhalf_self {p : Double} (hl : 2 ≤ biasedExp p) (hu : biasedExp p ≤ 1076) : fle p (fhalf p) = false := by
  obtain ⟨-, -, -, hexact⟩ := fhalf_exact hl hu
  have positive : 2 ^ 52 ≤ units p := (le_biasedExp_iff p 0).1 (by omega)
  rw [fle, decide_eq_false_iff_not]
  omega

/-- Settles O41: the sum of the range is above its own half, so the scan ends within the range. -/
theorem splitPointIsAtHalf : Obligations.SplitPointIsAtHalf := by
  intro prob lo hi n hlohi hhi _ hn hprob
  obtain ⟨hlow, hle⟩ := splitPoint_bounds prob (lo := lo) (hi := hi) (by omega)
  have probs : ∀ i ∈ indexes lo hi, IsProb (prob.at i) := fun i hi' => by
    obtain ⟨h1, h2⟩ := mem_indexes.1 hi'
    obtain ⟨c, hc, hcn, hat⟩ := hprob i h1 h2
    exact hat ▸ isProb_fdiv hc hcn hn
  have size : (indexes lo hi).length ≤ 256 := by
    rw [indexes, List.length_range']
    omega
  obtain ⟨tlow, thigh⟩ := probSum_bounds probs (List.ne_nil_of_mem (mem_indexes.2 ⟨le_rfl, by omega⟩)) size
  have texp := biasedExp_le_of_units_le size thigh
  exact ⟨hlow, hle, splitPoint_at_half prob (by omega) (fle_fhalf_self (by omega) (by omega))⟩

end Sys2Proof.Machine
end

section
/-! PROOFS. EMIT piece by piece (42_encoder.md R170 to R176): what it reads and puts while the source bytes have
codewords and the destination region has room, and where it stops at a byte without one and at the capacity. -/

namespace Sys2Proof.Machine

/-! ### Source bytes still to come -/

/-- With no race the bytes `l` are read from the offset `j` on, whatever is put between the reads (20_memory.md R77,
R80). -/
structure Supplied (s : State) (j : Nat) (l : List Byte) : Prop where
  quiet : quiet s
  feeds : Feeds s j l
  apart : Apart s
  inside : j + l.length ≤ s.srcLen.toNat

theorem Supplied.left {s : State} {j : Nat} {l l' : List Byte} (h : Supplied s j (l ++ l')) : Supplied s j l := by
  have inside := h.inside
  rw [List.length_append] at inside
  exact ⟨h.quiet, h.feeds.left, h.apart, by omega⟩

/-- The bytes `l` having been read and others put, the rest is still to come. -/
theorem Supplied.right {s t : State} {j : Nat} {l l' bytes : List Byte} (h : Supplied s j (l ++ l'))
    (hp : PutsBytes bytes s t) (hcap : t.cursor ≤ s.dstCap.toNat) : Supplied t (j + l.length) l' := by
  have inside := h.inside
  rw [List.length_append, ← Nat.add_assoc] at inside
  exact ⟨hp.raced.trans h.quiet, h.feeds.right.putsBytes hp h.apart inside hcap, h.apart.congr hp.operands,
    hp.operands.srcLen.symm ▸ inside⟩

theorem Supplied.congr {s t : State} {j : Nat} {l : List Byte} (h : Supplied s j l) (hops : SameOperands s t)
    (hraced : t.raced = s.raced) (hmem : t.mem = s.mem) : Supplied t j l :=
  ⟨hraced.trans h.quiet, h.feeds.congr hops fun _ _ _ => by rw [hmem], h.apart.congr hops, hops.srcLen.symm ▸ h.inside⟩

/-- The source region of an admitted command that also stores. -/
theorem supplied_of_admitted {c : Instr} {s : State} (ha : admitted c s = true) (hs : usesSource c = true)
    (hd : usesDest c = true) (hq : quiet s) (hread : srcReadable s = true) : Supplied s 0 (srcBytes s) := by
  have hlen := srcBytes_length s
  have hok : ∀ k, k < s.srcLen.toNat → s.memOK (s.srcAt k) .read = true := by
    simpa [srcReadable] using hread
  exact ⟨hq, feeds_of_srcBytes (List.append_nil _).symm (hlen.symm ▸ hok), apart_of_admitted ha hs hd, by omega⟩

/-! ### Bytes read and bytes put -/

/-- From `s` to `t` the memory port alone moves: `k` bytes are read and these bytes are put. -/
structure Packs (k : Nat) (bytes : List Byte) (s t : State) : Prop where
  puts : PutsBytes bytes s t
  port : SamePort s t
  reads : (readsOf t.accesses).length = (readsOf s.accesses).length + k

theorem Packs.refl (s : State) : Packs 0 [] s s :=
  ⟨.nothing (OffPort.refl s).operands rfl rfl ⟨rfl, rfl⟩, samePort_refl s, rfl⟩

theorem Packs.trans {k k' : Nat} {bytes bytes' : List Byte} {s t u : State} (h : Packs k bytes s t)
    (h' : Packs k' bytes' t u) : Packs (k + k') (bytes ++ bytes') s u :=
  ⟨h.puts.trans h'.puts, samePort_trans _ _ _ h.port h'.port, by rw [h'.reads, h.reads, Nat.add_assoc]⟩

theorem afterRead_packs (s : State) (j : Nat) (b : Byte) : Packs 1 [] s (s.afterRead j b) :=
  ⟨afterRead_putsBytes s j b, rfl, readsOf_afterRead s j b⟩

/-! ### Strings (00_scope.md R12) -/

/-- A string that has room is put. -/
theorem Room.putStr {l : List Byte} {n : Nat} {s : State} (h : Room s (l.length + n)) :
    ∃ t, (putStr l).run s = .ok () t ∧ Packs 0 l s t ∧ Room t n := by
  induction l generalizing s with
  | nil => exact ⟨s, putStr_nil s, Packs.refl s, Nat.zero_add n ▸ h⟩
  | cons b l ih =>
    rw [List.length_cons, Nat.add_right_comm] at h
    obtain ⟨t, ht, hputs, hroom⟩ := h.put b
    obtain ⟨u, hu, hpacks, hroom'⟩ := ih hroom
    have hput : Packs 0 [b] s t := ⟨hputs, put_ok ht, put_reads ht⟩
    exact ⟨u, (run_bind_ok ht).trans hu, hput.trans hpacks, hroom'⟩

/-- At the capacity no byte is put (60_exceptions.md R238). -/
theorem put_full {b : Byte} {s : State} (h : s.cursor = s.dstCap.toNat) :
    (put b).run s = .error { kind := .dstOverflow, info := s.dstCap } s := by
  rw [put_run, if_pos h]

/-- Of a string that does not fit, what fits is put. -/
theorem putStr_full {l : List Byte} {n : Nat} {s : State} (hroom : Room s n) (hfull : s.cursor + n = s.dstCap.toNat)
    (hn : n < l.length) :
    ∃ t, (putStr l).run s = .error { kind := .dstOverflow, info := s.dstCap } t ∧ Packs 0 (l.take n) s t := by
  have hlen : (l.take n).length = n := List.length_take_of_le hn.le
  obtain ⟨t, ht, hpacks, -⟩ := Room.putStr (l := l.take n) (n := 0) (hlen.symm ▸ hroom)
  have hcur : t.cursor = t.dstCap.toNat := by rw [hpacks.puts.cursor, hlen, hfull, hpacks.puts.operands.dstCap]
  refine ⟨t, ?_, hpacks⟩
  rw [← List.take_append_drop n l, putStr_append, ht, List.drop_eq_getElem_cons hn, ← hpacks.puts.operands.dstCap]
  exact run_bind_error (put_full hcur)

/-! ### The bitstream (42_encoder.md R173, R174, R176) -/

/-- A byte that has a codeword is read, and then its bits are put. -/
theorem emitLoop_known {s : State} {j : Nat} {b : Byte} {l : List Byte} (h : Supplied s j (b :: l))
    (hb : s.codes.len b ≠ 0) (n : Nat) :
    (emitLoop (n + 1) j).run s =
      (do putStr (bitsText (s.codes.code b)); emitLoop n (j + 1) : Engine Unit).run (s.afterRead j b) := by
  rw [emitLoop, run_bind_ok (h.feeds.srcByte h.quiet), run_look, show (s.afterRead j b).codes = s.codes from rfl,
    if_neg hb]

/-- A byte that has none is read, and nothing is put. -/
theorem emitLoop_unknown {s : State} {j : Nat} {b : Byte} {l : List Byte} (h : Supplied s j (b :: l))
    (hb : s.codes.len b = 0) (n : Nat) :
    (emitLoop (n + 1) j).run s =
      .error { kind := .unknownSymbol, info := BitVec.ofNat 32 j } (s.afterRead j b) := by
  rw [emitLoop, run_bind_ok (h.feeds.srcByte h.quiet), run_look, show (s.afterRead j b).codes = s.codes from rfl,
    if_pos hb]
  rfl

/-- A byte whose bits have room is done with, and the loop goes on. -/
theorem emitLoop_step {s : State} {j m : Nat} {b : Byte} {l : List Byte} (h : Supplied s j (b :: l))
    (hb : s.codes.len b ≠ 0) (hroom : Room s ((bitsText (s.codes.code b)).length + m)) :
    ∃ t, (∀ n, (emitLoop (n + 1) j).run s = (emitLoop n (j + 1)).run t)
      ∧ Packs 1 (bitsText (s.codes.code b)) s t ∧ Room t m ∧ Supplied t (j + 1) l := by
  obtain ⟨t, ht, hputs, hroomt⟩ := Room.putStr (s := s.afterRead j b) hroom
  have hpacks := (afterRead_packs s j b).trans hputs
  exact ⟨t, fun n => (emitLoop_known h hb n).trans (run_bind_ok ht), hpacks, hroomt,
    h.right (l := [b]) hpacks.puts (hpacks.puts.operands.dstCap ▸ hroomt.capacity)⟩

theorem bitstream_cons (t : CodeTable) (b : Byte) (l : List Byte) :
    bitstream t (b :: l) = bitsText (t.code b) ++ bitstream t l := List.flatMap_cons

/-- The bits of known bytes that have room are put. -/
theorem emitLoop_feeds {l : List Byte} {j : Nat} {s : State} (h : Supplied s j l) (hknown : ∀ b ∈ l, s.codes.len b ≠ 0)
    (hroom : Room s (bitstream s.codes l).length) (left : Nat) :
    ∃ u, (emitLoop (l.length + left) j).run s = (emitLoop left (j + l.length)).run u
      ∧ Packs l.length (bitstream s.codes l) s u := by
  induction l generalizing j s with
  | nil => exact ⟨s, by rw [List.length_nil, Nat.zero_add, Nat.add_zero], Packs.refl s⟩
  | cons b l ih =>
    obtain ⟨hb, hl⟩ := List.forall_mem_cons.1 hknown
    rw [bitstream_cons, List.length_append] at hroom
    obtain ⟨t, ht, hpacks, hroomt, hsupp⟩ := emitLoop_step h hb hroom
    rw [← hpacks.port.codes] at hl hroomt
    obtain ⟨u, hu, hpacks'⟩ := ih hsupp hl hroomt
    rw [hpacks.port.codes] at hpacks'
    rw [List.length_cons, Nat.add_right_comm, ht, Nat.add_comm l.length 1, ← Nat.add_assoc, bitstream_cons]
    exact ⟨u, hu, hpacks.trans hpacks'⟩

/-- Where the bits of known bytes do not fit, those that fit are put. -/
theorem emitLoop_full {l : List Byte} {j m : Nat} {s : State} (h : Supplied s j l)
    (hknown : ∀ b ∈ l, s.codes.len b ≠ 0) (hroom : Room s m) (hfull : s.cursor + m = s.dstCap.toNat)
    (hm : m < (bitstream s.codes l).length) (left : Nat) :
    ∃ u k, (emitLoop (l.length + left) j).run s = .error { kind := .dstOverflow, info := s.dstCap } u
      ∧ k ≤ l.length ∧ Packs k ((bitstream s.codes l).take m) s u := by
  induction l generalizing j m s with
  | nil => exact absurd hm (Nat.not_lt_zero m)
  | cons b l ih =>
    obtain ⟨hb, hl⟩ := List.forall_mem_cons.1 hknown
    rw [List.length_cons, Nat.add_right_comm, bitstream_cons, List.take_append]
    rw [bitstream_cons, List.length_append] at hm
    rcases Nat.lt_or_ge m (bitsText (s.codes.code b)).length with hcode | hcode
    · obtain ⟨u, hu, hpacks⟩ := putStr_full (s := s.afterRead j b) hroom hfull hcode
      rw [Nat.sub_eq_zero_of_le hcode.le, List.take_zero, List.append_nil, emitLoop_known h hb]
      exact ⟨u, 1, run_bind_error hu, by omega, (afterRead_packs s j b).trans hpacks⟩
    · obtain ⟨m, rfl⟩ := Nat.exists_eq_add_of_le hcode
      obtain ⟨t, ht, hpacks, hroomt, hsupp⟩ := emitLoop_step h hb hroom
      have hcap : t.dstCap = s.dstCap := hpacks.puts.operands.dstCap
      have hfullt : t.cursor + m = t.dstCap.toNat := by rw [hpacks.puts.cursor, hcap, ← hfull, Nat.add_assoc]
      rw [← hpacks.port.codes] at hl
      obtain ⟨u, k, hu, hk, hpacks'⟩ := ih hsupp hl hroomt hfullt (by rw [hpacks.port.codes]; omega)
      rw [hpacks.port.codes] at hpacks'
      rw [List.take_of_length_le hcode, Nat.add_sub_cancel_left, ht, hu, hcap]
      exact ⟨u, 1 + k, rfl, by omega, hpacks.trans hpacks'⟩

end Sys2Proof.Machine
end

section
/-! PROOFS. How EMIT ends (42_encoder.md R170 to R177): with the artifact written, at a source byte without a codeword,
or at the capacity. -/

namespace Sys2Proof.Machine

/-! ### Where EMIT begins -/

/-- A stage begins in `t` with operands and memory as the command, accepted in `s`, found them, and with nothing put. -/
structure Fresh (s t : State) : Prop where
  operands : SameOperands s t
  raced : t.raced = s.raced
  mem : t.mem = s.mem
  cursor : t.cursor = 0

/-- EMIT as a command of its own begins once it has been accepted and its stage entered. -/
def State.emitBegun (s : State) : State := { accept (encode .emit) s with stage := .emit }

theorem fresh_emitBegun (s : State) : Fresh s s.emitBegun := ⟨(OffPort.refl s).operands, rfl, rfl, rfl⟩

section
variable {s t u v : State} {n : Nat} {bytes : List Byte} (h : Fresh s t)
include h

theorem Fresh.room (hcap : n ≤ s.dstCap.toNat) (hok : dstWritable s n = true) : Room t n := by
  refine ⟨by rw [h.cursor, Nat.zero_add, h.operands.dstCap]; exact hcap, fun k hk => ?_⟩
  rw [h.cursor, Nat.zero_add, h.operands.memOK, h.operands.dstAt]
  exact (dstWritable_iff s n).1 hok k hk

theorem Fresh.supplied {j : Nat} {l : List Byte} (hs : Supplied s j l) : Supplied t j l :=
  hs.congr h.operands h.raced h.mem

/-- The bytes put stand in the destination region. -/
theorem Fresh.dstBytes (hp : PutsBytes bytes t v) (hq : quiet s) (hwf : s.mem.wf = true)
    (hcap : bytes.length ≤ s.dstCap.toNat) (hops : SameOperands s u) (hmem : u.mem = v.mem) :
    dstBytes u bytes.length = bytes := by
  have hlt := s.dstCap.isLt
  rw [Machine.dstBytes, hops.dstAt, ← h.operands.dstAt, hmem, hp.mem (h.raced.trans hq), h.cursor, h.mem,
    List.range_eq_range']
  exact writeAll_writesAt t 0 bytes s.mem hwf (by omega)

/-- The source region stands as it was. -/
theorem Fresh.srcBytes (hp : PutsBytes bytes t v) (hapart : Apart s) (hcap : bytes.length ≤ s.dstCap.toNat)
    (hops : SameOperands s u) (hmem : u.mem = v.mem) : srcBytes u = srcBytes s := by
  have hcur : v.cursor = bytes.length := by rw [hp.cursor, h.cursor, Nat.zero_add]
  rw [Machine.srcBytes, hops.srcLen, hops.srcAt, hmem]
  refine List.map_congr_left fun i hi => (hp.frame _ fun k _ hk => ?_).trans (by rw [h.mem])
  rw [h.operands.dstAt]
  exact hapart i k (List.mem_range.1 hi) (by omega)

end

/-! ### Header and bitstream (42_encoder.md R170, R173) -/

theorem run_bind_congr {α β : Type} {m m' : Engine α} {f : α → Engine β} {s t : State} (h : m.run s = m'.run t) :
    (m >>= f).run s = (m' >>= f).run t := by
  rw [run_bind, run_bind, h]

theorem emitStage_run (s : State) :
    emitStage.run s = (headerFrom (artifactHeader s)).run { s with stage := .emit } := rfl

/-- After the header the bitstream is put. -/
theorem headerFrom_run {hdr : List Byte} {s t : State} (hcur : s.cursor = 0) (ht : (putStr hdr).run s = .ok () t)
    (hputs : PutsBytes hdr s t) :
    (headerFrom hdr).run s =
      (do emitLoop s.srcLen.toNat 0; modify (emitResults hdr.length) : Engine Unit).run t := by
  rw [headerFrom, run_bind_ok ht, run_look, bitsFrom, run_look, hputs.cursor, hcur, Nat.zero_add,
    hputs.operands.srcLen, Nat.sub_zero]

section
variable {hdr l : List Byte} {s : State} {left : Nat} (h : Supplied s 0 l) (hlen : s.srcLen.toNat = l.length + left)
  (hcur : s.cursor = 0) (hknown : ∀ b ∈ l, s.codes.len b ≠ 0)
include h hlen hcur hknown

/-- The header and the bits of known bytes that have room are put. -/
theorem headerFrom_feeds (hroom : Room s (hdr ++ bitstream s.codes l).length) :
    ∃ v, (headerFrom hdr).run s =
        (do emitLoop left l.length; modify (emitResults hdr.length) : Engine Unit).run v
      ∧ Packs l.length (hdr ++ bitstream s.codes l) s v := by
  rw [List.length_append] at hroom
  obtain ⟨t, ht, hpacks, hroomt⟩ := Room.putStr hroom
  have hsupp : Supplied t 0 l := h.right (l := []) hpacks.puts (hpacks.puts.operands.dstCap ▸ hroomt.capacity)
  rw [← hpacks.port.codes] at hknown hroomt ⊢
  obtain ⟨v, hv, hpacks'⟩ := emitLoop_feeds hsupp hknown hroomt left
  rw [Nat.zero_add] at hv
  rw [headerFrom_run hcur ht hpacks.puts, hlen]
  exact ⟨v, run_bind_congr hv, Nat.zero_add l.length ▸ hpacks.trans hpacks'⟩

/-- Where the header and the bits of known bytes do not fit, what fits is put, the header first. -/
theorem headerFrom_full (hroom : Room s s.dstCap.toNat) (hfull : s.dstCap.toNat < (hdr ++ bitstream s.codes l).length) :
    ∃ v k, (headerFrom hdr).run s = .error { kind := .dstOverflow, info := s.dstCap } v
      ∧ k ≤ l.length ∧ (s.dstCap.toNat < hdr.length → k = 0)
      ∧ Packs k ((hdr ++ bitstream s.codes l).take s.dstCap.toNat) s v := by
  rw [List.length_append] at hfull
  rw [List.take_append]
  rcases Nat.lt_or_ge s.dstCap.toNat hdr.length with hhdr | hhdr
  · obtain ⟨v, hv, hpacks⟩ := putStr_full hroom (by omega) hhdr
    rw [Nat.sub_eq_zero_of_le hhdr.le, List.take_zero, List.append_nil]
    exact ⟨v, 0, run_bind_error hv, Nat.zero_le _, fun _ => rfl, hpacks⟩
  · obtain ⟨m, hm⟩ := Nat.exists_eq_add_of_le hhdr
    rw [hm] at hroom
    obtain ⟨t, ht, hpacks, hroomt⟩ := Room.putStr hroom
    have hcap : t.dstCap = s.dstCap := hpacks.puts.operands.dstCap
    have hfullt : t.cursor + m = t.dstCap.toNat := by rw [hpacks.puts.cursor, hcap, hcur, hm, Nat.zero_add]
    have hsupp : Supplied t 0 l := h.right (l := []) hpacks.puts (hcap ▸ hroomt.capacity)
    rw [← hpacks.port.codes] at hknown hfull ⊢
    obtain ⟨v, k, hv, hk, hpacks'⟩ := emitLoop_full hsupp hknown hroomt hfullt (by omega) left
    rw [List.take_of_length_le hhdr, headerFrom_run hcur ht hpacks.puts, hlen, hm, Nat.add_sub_cancel_left]
    exact ⟨v, k, run_bind_error (hcap ▸ hv), hk, fun hlt => absurd hlt (by omega),
      Nat.zero_add k ▸ hpacks.trans hpacks'⟩

end

/-! ### The ends of EMIT -/

/-- The end of a command that put the artifact: it stands in the destination region with its lengths filed, and the
source region stands as it was. -/
theorem artifact_stands {s t v : State} {hdr bits : List Byte} (h : Fresh s t) (hp : PutsBytes (hdr ++ bits) t v)
    (hq : quiet s) (hwf : s.mem.wf = true) (hapart : Apart s) (hfit : (hdr ++ bits).length ≤ s.dstCap.toNat) :
    let u := normalTerminate (emitResults hdr.length v)
    dstBytes u u.dstLen.toNat = hdr ++ bits ∧ u.bsOff.toNat = hdr.length ∧ u.bitLen.toNat = bits.length
      ∧ u.dstLen.toNat = u.bsOff.toNat + u.bitLen.toNat ∧ srcBytes u = srcBytes s ∧ SameOperands s u := by
  have hops : SameOperands s (normalTerminate (emitResults hdr.length v)) := h.operands.trans hp.operands
  have hcur : v.cursor = hdr.length + bits.length := by
    rw [hp.cursor, h.cursor, Nat.zero_add, List.length_append]
  have hlt := s.dstCap.isLt
  rw [List.length_append] at hfit
  have hoff : (BitVec.ofNat 32 hdr.length).toNat = hdr.length := by
    rw [BitVec.toNat_ofNat, Nat.mod_eq_of_lt (by omega)]
  have hbits : (BitVec.ofNat 32 (v.cursor - hdr.length)).toNat = bits.length := by
    rw [hcur, Nat.add_sub_cancel_left, BitVec.toNat_ofNat, Nat.mod_eq_of_lt (by omega)]
  have htotal : (BitVec.ofNat 32 v.cursor).toNat = hdr.length + bits.length := by
    rw [hcur, BitVec.toNat_ofNat, Nat.mod_eq_of_lt (by omega)]
  rw [← List.length_append] at hfit
  have hstands := h.dstBytes hp hq hwf hfit hops rfl
  rw [List.length_append, ← htotal] at hstands
  exact ⟨hstands, hoff, hbits, htotal.trans (congrArg₂ _ hoff hbits).symm, h.srcBytes hp hapart hfit hops rfl, hops⟩

/-- Where every source byte is known and the artifact fits, EMIT runs to its end. -/
theorem emitStage_writes {s t : State} (hfresh : Fresh s { t with stage := .emit })
    (h : Supplied s 0 (srcBytes s)) (hknown : ∀ b ∈ srcBytes s, t.codes.len b ≠ 0)
    (hfit : (artifactHeader t ++ bitstream t.codes (srcBytes s)).length ≤ s.dstCap.toNat)
    (hok : dstWritable s (artifactHeader t ++ bitstream t.codes (srcBytes s)).length = true) :
    ∃ v, emitStage.run t = .ok () (emitResults (artifactHeader t).length v)
      ∧ Packs s.srcLen.toNat (artifactHeader t ++ bitstream t.codes (srcBytes s)) { t with stage := .emit } v := by
  have hlen := srcBytes_length s
  obtain ⟨v, hv, hpacks⟩ := headerFrom_feeds (hdr := artifactHeader t) (left := 0) (hfresh.supplied h)
    (hfresh.operands.srcLen ▸ hlen.symm) hfresh.cursor hknown (hfresh.room hfit hok)
  exact ⟨v, (emitStage_run t).trans hv, hlen ▸ hpacks⟩

/-- EMIT ends with the error its header or its bitstream raises, the bytes put before standing in the destination
region. -/
theorem exec_emit_raises {s v : State} {x : Raise} {k : Nat} {bytes : List Byte} (ha : admitted .emit s = true)
    (hr : (headerFrom (artifactHeader s)).run s.emitBegun = .error x v) (hp : Packs k bytes s.emitBegun v)
    (hq : quiet s) (hwf : s.mem.wf = true) (hcap : bytes.length ≤ s.dstCap.toNat) :
    ∃ t, exec .emit s = .next t ∧ EndedWith t x.kind x.info .emit ∧ t.errCode = x.kind.code
      ∧ dstBytes t bytes.length = bytes ∧ (writesOf t.accesses).length = bytes.length
      ∧ (readsOf t.accesses).length = k := by
  have hst : v.stage = .emit := by rw [hp.port]; rfl
  obtain ⟨t, h, hend, hcode, hlog, hmem, hops⟩ := exec_raises ha ((emitStage_run _).trans hr) hst
  refine ⟨t, h, hend, hcode, (fresh_emitBegun s).dstBytes hp.puts hq hwf hcap hops hmem, ?_, ?_⟩
  · rw [hlog, hp.puts.writes, List.length_append, State.writesAt_length]
    exact Nat.zero_add _
  · rw [hlog, hp.reads]
    exact Nat.zero_add k

/-- Settles O43: the header and then the codewords are put, and the lengths filed. -/
theorem emitWritesTheArtifact : Obligations.EmitWritesTheArtifact := by
  intro s ha hq hwf hread hknown hfit hok
  have hsupp := supplied_of_admitted ha rfl rfl hq hread
  obtain ⟨v, hrun, hpacks⟩ := emitStage_writes (t := accept (encode .emit) s) (fresh_emitBegun s) hsupp hknown hfit hok
  obtain ⟨hdst, hoff, hbits, hsum, hsrc, hops⟩ :=
    artifact_stands (fresh_emitBegun s) hpacks.puts hq hwf hsupp.apart hfit
  have hport := hpacks.port
  refine ⟨_, exec_of_run ha hrun, ?_, hdst, hoff, hbits, hsum, ?_⟩
  · rw [hport]
    exact ⟨rfl, rfl, rfl, rfl, rfl⟩
  · rw [hport]
    exact ⟨rfl, rfl, rfl, rfl, rfl, rfl, rfl, rfl, rfl, hport ▸ hsrc, hport ▸ hops⟩

/-- Settles O44: the bytes before it having been packed, the unknown byte is read and raises. -/
theorem emitStopsAtAnUnknownSymbol : Obligations.EmitStopsAtAnUnknownSymbol := by
  intro s pre post b ha hq hwf hread hsrc hknown hb hfit hok
  have hfresh := fresh_emitBegun s
  have hlen := srcBytes_length s
  rw [hsrc, List.length_append, List.length_cons] at hlen
  have hsupp : Supplied s.emitBegun 0 (pre ++ b :: post) :=
    hsrc ▸ hfresh.supplied (supplied_of_admitted ha rfl rfl hq hread)
  obtain ⟨v, hv, hpacks⟩ := headerFrom_feeds (hdr := artifactHeader s) (s := s.emitBegun) (left := post.length + 1)
    hsupp.left hlen.symm rfl hknown (hfresh.room hfit hok)
  have hcap : v.cursor ≤ s.dstCap.toNat := hpacks.puts.room (Nat.zero_le _)
  have hrest := hsupp.right hpacks.puts hcap
  rw [Nat.zero_add] at hrest
  have hstop := emitLoop_unknown hrest (by rw [hpacks.port.codes]; exact hb) post.length
  have hlast := hpacks.trans (afterRead_packs v pre.length b)
  rw [List.append_nil] at hlast
  obtain ⟨t, h, hend, hcode, hdst, -, hreads⟩ :=
    exec_emit_raises ha (hv.trans (run_bind_error hstop)) hlast hq hwf hfit
  exact ⟨t, h, hend, hcode, hdst, hreads⟩

/-- Settles O45: the bytes of the artifact are put up to the capacity, where the next one raises. -/
theorem emitOverflowsAtCapacity : Obligations.EmitOverflowsAtCapacity := by
  intro s pre post ha hq hwf hread hsrc hknown hfull hok
  have hfresh := fresh_emitBegun s
  have hlen := srcBytes_length s
  rw [hsrc, List.length_append] at hlen
  have hsupp : Supplied s.emitBegun 0 (pre ++ post) :=
    hsrc ▸ hfresh.supplied (supplied_of_admitted ha rfl rfl hq hread)
  obtain ⟨v, k, hv, hk, hzero, hpacks⟩ := headerFrom_full (hdr := artifactHeader s) (s := s.emitBegun) hsupp.left
    hlen.symm rfl hknown (hfresh.room le_rfl hok) hfull
  have htake : ((artifactHeader s ++ bitstream s.codes pre).take s.dstCap.toNat).length = s.dstCap.toNat :=
    List.length_take_of_le hfull.le
  obtain ⟨t, h, hend, hcode, hdst, hwrites, hreads⟩ := exec_emit_raises ha hv hpacks hq hwf htake.le
  exact ⟨t, h, hend, hcode, (congrArg (dstBytes t) htake).symm.trans hdst, hwrites.trans htake, hreads.trans_le hk,
    fun hlt => List.eq_nil_of_length_eq_zero (hreads.trans (hzero hlt))⟩

end Sys2Proof.Machine
end

section
/-! PROOFS. ENCODE (42_encoder.md R178, R179): its first three stages build the tables of its input, whatever the tables
held before, and the fourth writes the artifact by them. -/

namespace Sys2Proof.Machine

/-! ### The tables of ENCODE (42_encoder.md R178) -/

theorem rankedEntries_congr {s t : State} (hsym : t.psym = s.psym) (hprob : t.prob = s.prob) (n : Nat) :
    rankedEntries t n = rankedEntries s n := by
  rw [rankedEntries, rankedEntries, hsym, hprob]

/-- The state holds the tables of the input `l`: the ranking of its counts, and the code built from it. -/
structure TablesOf (l : List Byte) (t : State) : Prop where
  nsym : t.nsym = BitVec.ofNat 32 (alphabetSize (countsOf l))
  ranks : rankedEntries t (alphabetSize (countsOf l)) = sortEntries (entries (countsOf l) l.length)
  codes : t.codes = buildTree t.psym t.prob (alphabetSize (countsOf l))

theorem toNat_alphabetSize (f : Table Word) : (BitVec.ofNat 32 (alphabetSize f)).toNat = alphabetSize f := by
  have hle := alphabetSize_le f
  rw [BitVec.toNat_ofNat, Nat.mod_eq_of_lt (by omega)]

/-- PTAB leaves the ranking of the counts it found. -/
theorem ptabResults_ranks {l : List Byte} {s : State} (hfreq : s.freq = countsOf l)
    (htotal : s.total.toNat = l.length) :
    rankedEntries (ptabResults s) (alphabetSize (countsOf l)) = sortEntries (entries (countsOf l) l.length) := by
  rw [← hfreq, ← htotal]
  exact rankedEntries_ptabResults s

theorem ptabResults_nsym (s : State) : (ptabResults s).nsym = s.nsym := by rw [ptabResults_eq]

/-- TREE makes the tables of an input from the ranking of its counts. -/
theorem tablesOf_treeResults {l : List Byte} {s : State} (hnsym : s.nsym = BitVec.ofNat 32 (alphabetSize (countsOf l)))
    (hranks : rankedEntries s (alphabetSize (countsOf l)) = sortEntries (entries (countsOf l) l.length)) :
    TablesOf l (treeResults s) :=
  ⟨hnsym, (rankedEntries_congr rfl rfl _).trans hranks, by rw [treeResults_codes, hnsym, toNat_alphabetSize]; rfl⟩

section
variable {l : List Byte}

/-- The state `artifactOf` takes the artifact of an input from holds the tables of that input. -/
theorem tablesOf_tablesFor (hl : l.length < 2 ^ 32) : TablesOf l (tablesFor l) := by
  refine tablesOf_treeResults (ptabResults_nsym _) (ptabResults_ranks rfl ?_)
  change (BitVec.ofNat 32 l.length).toNat = l.length
  rw [BitVec.toNat_ofNat, Nat.mod_eq_of_lt hl]

variable {s t : State}

/-- Rank by rank the tables of an input are the same. -/
theorem TablesOf.ranks_eq (h : TablesOf l s) (h' : TablesOf l t) {i : Nat} (hi : i < alphabetSize (countsOf l)) :
    t.psym.at i = s.psym.at i ∧ t.prob.at i = s.prob.at i := by
  have hentry := List.map_inj_left.1 (h'.ranks.trans h.ranks.symm) i (List.mem_range.2 hi)
  exact ⟨congrArg Entry.symbol hentry, congrArg Entry.prob hentry⟩

theorem TablesOf.codes_eq (h : TablesOf l s) (h' : TablesOf l t) (hpos : 1 ≤ alphabetSize (countsOf l)) :
    t.codes = s.codes := by
  rw [h.codes, h'.codes]
  exact buildTree_congr hpos fun i hi => h.ranks_eq h' hi

/-- The header is a matter of the input, whatever the tables held before (R171). -/
theorem TablesOf.header_eq (h : TablesOf l s) (h' : TablesOf l t) (hpos : 1 ≤ alphabetSize (countsOf l)) :
    artifactHeader t = artifactHeader s := by
  have hrow : ∀ i ∈ List.range (alphabetSize (countsOf l)), artifactRow t i = artifactRow s i := fun i hi => by
    obtain ⟨hsym, hprob⟩ := h.ranks_eq h' (List.mem_range.1 hi)
    rw [artifactRow, artifactRow, hsym, hprob, h.codes_eq h' hpos]
  rw [artifactHeader, artifactHeader, h.nsym, h'.nsym, toNat_alphabetSize, List.flatMap_congr hrow]

/-- Exactly the bytes of the input are ranked, each once. -/
theorem TablesOf.ranked_perm (h : TablesOf l t) :
    (ranked t.psym (alphabetSize (countsOf l))).Perm (alphabet (countsOf l)) := by
  rw [ranked_eq_map_rankedEntries, h.ranks, ← entries_symbols (countsOf l) l.length]
  exact (sortEntries_perm _).map _

/-- Every byte of the input has a codeword (R179). -/
theorem TablesOf.known (h : TablesOf l t) (hl : l.length < 2 ^ 32) (hpos : 1 ≤ alphabetSize (countsOf l)) :
    ∀ b ∈ l, t.codes.len b ≠ 0 := by
  intro b hb
  have hcounted : b ∈ alphabet (countsOf l) := (mem_alphabet _ b).2 (by
    rw [countsOf_at hl]
    exact List.count_pos_iff.2 hb)
  rw [h.codes, buildTree_len_ne_zero _ hpos (alphabetSize_le _) (h.ranked_perm.nodup_iff.2 (nodup_alphabet _))]
  exact h.ranked_perm.mem_iff.2 hcounted

end

/-! ### ENCODE (42_encoder.md R178, R179) -/

/-- PTAB and TREE go from the counts of an input to its tables, and EMIT runs from there. -/
theorem stages_after_freq_run {l : List Byte} {s : State} (hfreq : s.freq = countsOf l)
    (htotal : s.total.toNat = l.length) (hnsym : s.nsym = BitVec.ofNat 32 (alphabetSize (countsOf l))) :
    ∃ t, (do ptabStage; treeStage; emitStage : Engine Unit).run s = emitStage.run t ∧ TablesOf l t
      ∧ t = { s with
        psym := t.psym, prob := t.prob, codes := t.codes, pv := true, cv := true, stage := .tree } := by
  have hrun := ptabStage_run s
  have hrest := ptabResults_eq { s with stage := .ptab }
  have hranks := ptabResults_ranks (s := { s with stage := .ptab }) hfreq htotal
  have hkept := ptabResults_nsym { s with stage := .ptab }
  generalize ptabResults { s with stage := .ptab } = u at hrun hrest hranks hkept
  refine ⟨_, (run_bind_ok hrun).trans (run_bind_ok (treeStage_run u)), tablesOf_treeResults (hkept.trans hnsym)
    ((rankedEntries_congr rfl rfl _).trans hranks), ?_⟩
  rw [hrest]
  rfl

/-- After its first three stages ENCODE holds the tables of its input, and runs as EMIT from there. -/
theorem encodeStages_run {s : State} (hq : quiet s) (hread : srcReadable s = true) (hlen : s.srcLen ≠ 0)
    (hcur : s.cursor = 0) :
    ∃ t, encodeStages.run s = emitStage.run t ∧ Fresh s { t with stage := .emit } ∧ TablesOf (srcBytes s) t
      ∧ t.fv = true ∧ t.pv = true ∧ t.cv = true ∧ t.total = s.srcLen ∧ t.err = s.err ∧ t.errInfo = s.errInfo := by
  obtain ⟨log, hfreq⟩ := freqStage_counts hq hread hlen
  obtain ⟨t, hrun, htables, ht⟩ := stages_after_freq_run (l := srcBytes s)
    (s := freqResults { s with stage := .freq, freq := countsOf (srcBytes s), accesses := log }) rfl
    (srcBytes_length s).symm rfl
  refine ⟨t, (run_bind_ok hfreq).trans hrun, ?_, htables, ?_⟩
  · rw [ht]
    exact ⟨(OffPort.refl s).operands, rfl, rfl, hcur⟩
  · rw [ht]
    exact ⟨rfl, rfl, rfl, rfl, rfl, rfl⟩

/-- Settles O46: the first three stages build the tables of the input, by which the fourth finds every byte known. -/
theorem encodeWritesTheArtifactOfItsInput : Obligations.EncodeWritesTheArtifactOfItsInput := by
  intro s ha hq hwf hread hlen hfit hok
  have hsupp := supplied_of_admitted ha rfl rfl hq hread
  have hlt : (srcBytes s).length < 2 ^ 32 := srcBytes_length s ▸ s.srcLen.isLt
  have hpos : 1 ≤ alphabetSize (countsOf (srcBytes s)) := alphabetSize_pos (by
    have hne : s.srcLen.toNat ≠ 0 := fun h => hlen (BitVec.eq_of_toNat_eq h)
    rw [freqSum_countsOf hlt, srcBytes_length]
    omega)
  obtain ⟨t, hrun, hbegun, htables, hfv, hpv, hcv, htotal, herr, hinfo⟩ :=
    encodeStages_run (s := accept (encode .encode) s) hq hread hlen rfl
  have hfresh : Fresh s { t with stage := .emit } := ⟨hbegun.operands, hbegun.raced, hbegun.mem, hbegun.cursor⟩
  have hfor := tablesOf_tablesFor hlt
  rw [artifactOf, ← hfor.header_eq htables hpos, ← hfor.codes_eq htables hpos] at hfit hok ⊢
  obtain ⟨v, hemit, hpacks⟩ := emitStage_writes hfresh hsupp (htables.known hlt hpos) hfit hok
  obtain ⟨hdst, -, -, hsum, hsrc, hops⟩ := artifact_stands hfresh hpacks.puts hq hwf hsupp.apart hfit
  have hnsym := (congrArg BitVec.toNat htables.nsym).trans ((toNat_alphabetSize _).trans (alphabetSize_countsOf hlt))
  have hport := hpacks.port
  exact ⟨_, exec_of_run ha (hrun.trans hemit),
    ⟨rfl, rfl, (congrArg State.err hport).trans herr, (congrArg State.errInfo hport).trans hinfo,
      congrArg State.stage hport⟩,
    (congrArg State.fv hport).trans hfv, (congrArg State.pv hport).trans hpv, (congrArg State.cv hport).trans hcv, hdst,
    (congrArg State.total hport).trans htotal, (congrArg (fun u => u.nsym.toNat) hport).trans hnsym, hsum, hsrc, hops⟩

end Sys2Proof.Machine
end

section
/-! PROOFS. PARSE on a well-formed header (43_decoder.md R190 to R193): the code table it loads is that of the rows,
with no bit beyond a codeword. -/

namespace Sys2Proof.Machine

/-! ### The code table of the rows -/

theorem rowCode_cons (x : Row) (rows : List Row) (b : Byte) :
    rowCode (x :: rows) b = if x.symbol = b then x.code else rowCode rows b := by
  by_cases h : x.symbol = b <;> simp [rowCode, h]

theorem rowCode_eq_nil {rows : List Row} {b : Byte} (h : b ∉ rows.map Row.symbol) : rowCode rows b = [] := by
  induction rows with
  | nil => rfl
  | cons x rows ih =>
    obtain ⟨hx, hrows⟩ := not_or.1 (List.mem_cons.not.1 h)
    rw [rowCode_cons, if_neg (Ne.symm hx), ih hrows]

/-- Every symbol gets the codeword of its row, behind the codeword it had. -/
theorem rowsTable_code {rows : List Row} {t : CodeTable} (hok : ∀ x ∈ rows, x.ok = true)
    (hnodup : (rows.map Row.symbol).Nodup) (ht : ∀ x ∈ rows, t.len x.symbol = 0) (b : Byte) :
    (rowsTable t rows).code b = t.code b ++ rowCode rows b := by
  induction rows generalizing t with
  | nil => exact (List.append_nil _).symm
  | cons x rows ih =>
    obtain ⟨hx, hok⟩ := List.forall_mem_cons.1 hok
    obtain ⟨htx, ht⟩ := List.forall_mem_cons.1 ht
    obtain ⟨hnew, hnodup⟩ := List.nodup_cons.1 hnodup
    obtain ⟨-, -, -, hlen⟩ := (Row.ok_iff x).1 hx
    have hfits : t.len x.symbol + x.code.length ≤ Config.cwMax := by rwa [htx, Nat.zero_add]
    have hrest := ih (t := t.appendAll x.symbol x.code) hok hnodup fun y hy => by
      rw [CodeTable.len_appendAll_other hfits fun e => hnew (e ▸ List.mem_map_of_mem hy)]
      exact ht y hy
    refine hrest.trans ?_
    rw [CodeTable.code_appendAll hfits, rowCode_cons]
    split
    next hb => rw [rowCode_eq_nil (hb ▸ hnew), List.append_nil, hb]
    next => rfl

theorem rowsTable_empty_code {rows : List Row} (h : rowsOk rows = true) (b : Byte) :
    (rowsTable .empty rows).code b = rowCode rows b := by
  obtain ⟨-, -, hok, hnodup⟩ := (rowsOk_iff rows).1 h
  rw [rowsTable_code hok hnodup fun x _ => CodeTable.len_empty x.symbol, CodeTable.code_empty, List.nil_append]

/-- Accepted bytes leave no bit beyond a codeword (10_state.md R44). -/
theorem parseBytes_padded {p p' : Parser} {t t' : CodeTable} {l : List Byte} (hp : p.ok t) (hpad : t.padded)
    (h : parseBytes p t l = some (p', t')) : t'.padded := by
  induction l generalizing p t with
  | nil =>
    cases h
    exact hpad
  | cons b l ih =>
    obtain ⟨q, u, hb, hl⟩ := parseByte_of_parseBytes h
    obtain ⟨hq, hu⟩ := parseByte_more hp hpad hb
    exact ih hq hu hl

theorem rowsTable_empty_padded {rows : List Row} (h : rowsOk rows = true) : (rowsTable .empty rows).padded := by
  obtain ⟨p, -, -, hp⟩ := parseBytes_header h
  exact parseBytes_padded (Parser.start_ok _) CodeTable.padded_empty hp

/-! ### The header, read -/

theorem parseLoop_done {pos : Nat} {p : Parser} {s : State} (hq : quiet s) (hf : Feeds s pos [LF])
    (hp : p.phase = .blank) (left : Nat) :
    (parseLoop (left + 1) pos p).run s = .ok () (parseResults p.n (pos + 1) (s.afterRead pos LF)) := by
  have hb : parseByte p s.codes LF = .done := by rw [parseByte, hp]; rfl
  rw [parseLoop, run_bind_ok (hf.srcByte hq), run_look, show (s.afterRead pos LF).codes = s.codes from rfl, hb]
  rfl

/-- What PARSE has made of the state once it has read a header with these rows. -/
def State.parsed (s : State) (rows : List Row) (log : List Access) : State :=
  parseResults rows.length (headerText rows).length
    ({ s with stage := .parse }.afterHeader (rowsTable .empty rows) log)

/-- The PARSE stage on a source region that begins with a well-formed header. -/
theorem parseStage_header {s : State} {rows : List Row} (hq : quiet s) (hf : Feeds s 0 (headerText rows))
    (hlen : (headerText rows).length ≤ s.srcLen.toNat) (hok : rowsOk rows = true) : ∃ log,
      parseStage.run s = .ok () (s.parsed rows log)
        ∧ (readsOf log).length = (headerText rows).length ∧ writesOf log = [] := by
  obtain ⟨p, hphase, hn, hp⟩ := parseBytes_header hok
  change parseBytes _ _ (sizeAndRows rows.length rows) = _ at hp
  have hcount : (headerText rows).length = (sizeAndRows rows.length rows).length + 1 := by
    rw [headerText_eq, List.length_append, List.length_singleton]
  obtain ⟨left, hleft⟩ := Nat.exists_eq_add_of_le hlen
  rw [headerText_eq] at hf
  obtain ⟨log, hrun, hlog⟩ := parseLoop_accepts (s := { s with stage := .parse, codes := .empty }) hq
    (hf.left.congr (OffPort.refl s).operands fun _ _ _ => rfl) hp (left + 1)
  have hlast := parseLoop_done (p := p) (s := { s with stage := .parse }.afterHeader (rowsTable .empty rows) log) hq
    (hf.right.congr (OffPort.refl s).operands fun _ _ _ => rfl) hphase left
  have hstage : parseStage.run s = .ok () (s.parsed rows
      (log ++ [.read (s.srcAt (sizeAndRows rows.length rows).length) LF])) := by
    change (parseLoop s.srcLen.toNat 0 Parser.start).run { s with stage := .parse, codes := .empty } = _
    rw [hleft, hcount, Nat.add_assoc, Nat.add_comm 1, hrun]
    refine hlast.trans ?_
    rw [State.parsed, hcount, hn, Nat.zero_add, State.afterRead, State.afterHeader, State.afterHeader,
      List.append_assoc]
    rfl
  refine ⟨_, hstage, ?_, ?_⟩
  · rw [readsOf_append, List.length_append, hlog, hcount]
    rfl
  · have hwrites := ((built_stages .parse).noWrite Bool.noConfusion s).2
    rw [show (stages .parse).run s = _ from hstage] at hwrites
    simpa [endOf, State.parsed, State.afterHeader] using hwrites

/-- A well-formed header at the front of a readable source region. -/
theorem feeds_header {s : State} {rows : List Row} {rest : List Byte} (hread : srcReadable s = true)
    (hsrc : srcBytes s = headerText rows ++ rest) :
    Feeds s 0 (headerText rows) ∧ s.srcLen.toNat = (headerText rows).length + rest.length := by
  have hlen := srcBytes_length s
  rw [hsrc, List.length_append] at hlen
  exact ⟨feeds_of_srcBytes hsrc fun k hk => List.all_eq_true.1 hread k (List.mem_range.2 (by omega)), hlen.symm⟩

theorem toNat_ofNat_of_le {n : Nat} {w : Word} (h : n ≤ w.toNat) : (BitVec.ofNat 32 n).toNat = n :=
  Nat.mod_eq_of_lt (h.trans_lt w.isLt)

/-- The two parts of a region of `w` bytes, as register words. -/
theorem toNat_ofNat_parts {n m : Nat} {w : Word} (h : w.toNat = n + m) :
    (BitVec.ofNat 32 n).toNat = n ∧ (BitVec.ofNat 32 (w.toNat - n)).toNat = m := by
  refine ⟨toNat_ofNat_of_le (w := w) (h ▸ Nat.le_add_right n m), ?_⟩
  rw [h, Nat.add_sub_cancel_left]
  exact toNat_ofNat_of_le (w := w) (h ▸ Nat.le_add_left m n)

theorem toNat_ofNat_rows {rows : List Row} (h : rowsOk rows = true) :
    (BitVec.ofNat 32 rows.length).toNat = rows.length := by
  obtain ⟨-, hmax, -, -⟩ := (rowsOk_iff rows).1 h
  exact Nat.mod_eq_of_lt (hmax.trans_lt (by decide))

/-- Settles O48: the bytes of the header are accepted one after the other, and the last one ends the stage. -/
theorem parseLoadsAWellFormedHeader : Obligations.ParseLoadsAWellFormedHeader := by
  intro s rows rest ha hq hread hok hsrc
  obtain ⟨hf, hlen⟩ := feeds_header hread hsrc
  obtain ⟨log, hrun, hlog, -⟩ := parseStage_header (s := accept (encode .parse) s) hq
    (hf.congr (OffPort.refl s).operands fun _ _ _ => rfl) (hlen ▸ Nat.le_add_right _ _) hok
  obtain ⟨hoff, hbits⟩ := toNat_ofNat_parts hlen
  exact ⟨_, exec_of_run ha hrun, ⟨rfl, rfl, rfl, rfl, rfl⟩, rfl, rfl, rfl, rowsTable_empty_code hok,
    rowsTable_empty_padded hok, toNat_ofNat_rows hok, hoff, hbits, rfl, rfl, rfl, rfl, rfl, rfl, hlog,
    (OffPort.refl s).operands⟩

end Sys2Proof.Machine
end

section
/-! PROOFS. The cuts of a bitstream (43_decoder.md R197 to R199): which symbol an accumulator finds, that the cuts are a
matter of the codewords alone, and that a code none of whose codewords begins another cuts joined codewords back. -/

namespace Sys2Proof.Machine

/-! ### The symbol of an accumulator (R199) -/

/-- The symbols in ascending order. -/
def allBytes : List Byte := (List.range 256).map (BitVec.ofNat 8)

theorem allBytes_getElem {i : Nat} (h : i < allBytes.length) : (allBytes[i]).toNat = i := by
  have hi : i < 256 := by simpa [allBytes] using h
  simp [allBytes, Nat.mod_eq_of_lt hi]

/-- A codeword that equals the accumulator has its length. -/
theorem findSymbol_eq (t : CodeTable) (acc : Codeword) :
    findSymbol t acc = allBytes.find? fun b => decide (t.code b = acc) := by
  refine congrArg (fun p => allBytes.find? p) (funext fun b => ?_)
  by_cases h : t.code b = acc
  · simp [← h, CodeTable.code_length]
  · simp [h]

/-- Settles O50: the symbols are tried in ascending order. -/
theorem smallestEqualCodewordWins : Obligations.SmallestEqualCodewordWins := by
  intro t acc b
  have hlen : allBytes.length = 256 := by simp [allBytes]
  rw [findSymbol_eq, List.find?_eq_some_iff_getElem]
  simp only [decide_eq_true_eq, Bool.not_eq_true', decide_eq_false_iff_not]
  refine and_congr_right fun _ => ⟨?_, fun h => ?_⟩
  · rintro ⟨i, hi, rfl, hbefore⟩ c hc
    rw [allBytes_getElem hi] at hc
    have hat : allBytes[c.toNat]'(by omega) = c := BitVec.eq_of_toNat_eq (allBytes_getElem _)
    exact hat ▸ hbefore c.toNat hc
  · have hb : b.toNat < allBytes.length := hlen ▸ b.isLt
    refine ⟨b.toNat, hb, BitVec.eq_of_toNat_eq (allBytes_getElem hb), fun j hj => h _ ?_⟩
    rwa [allBytes_getElem]

theorem code_of_findSymbol {t : CodeTable} {acc : Codeword} {b : Byte} (h : findSymbol t acc = some b) :
    t.code b = acc := ((smallestEqualCodewordWins t acc b).1 h).1

/-! ### The cuts (R197, R198) -/

theorem cutBits_cons_some {t : CodeTable} {acc : Codeword} {b : Bool} {c : Byte}
    (h : findSymbol t (acc ++ [b]) = some c) (bits : List Bool) :
    cutBits t acc (b :: bits) = (c :: (cutBits t [] bits).1, (cutBits t [] bits).2) := by
  rw [cutBits, h]

theorem cutBits_cons_none {t : CodeTable} {acc : Codeword} {b : Bool} (h : findSymbol t (acc ++ [b]) = none)
    (bits : List Bool) : cutBits t acc (b :: bits) = cutBits t (acc ++ [b]) bits := by
  rw [cutBits, h]

/-- Tables with the same codewords cut alike. -/
theorem cutBits_congr {t u : CodeTable} (h : ∀ b, t.code b = u.code b) (acc : Codeword) (bits : List Bool) :
    cutBits t acc bits = cutBits u acc bits := by
  have hfind : ∀ acc, findSymbol t acc = findSymbol u acc := fun acc => by
    simp only [findSymbol_eq, h]
  induction bits generalizing acc with
  | nil => rfl
  | cons b bits ih => simp only [cutBits, hfind, ih]

/-- More bits are cut from where the bits before them have left the accumulator. -/
theorem cutBits_append (t : CodeTable) (acc : Codeword) (bits bits' : List Bool) :
    cutBits t acc (bits ++ bits') =
      ((cutBits t acc bits).1 ++ (cutBits t (cutBits t acc bits).2 bits').1,
        (cutBits t (cutBits t acc bits).2 bits').2) := by
  induction bits generalizing acc with
  | nil => rfl
  | cons b bits ih =>
    rw [List.cons_append]
    cases h : findSymbol t (acc ++ [b]) with
    | some c => rw [cutBits_cons_some h, cutBits_cons_some h, ih, List.cons_append]
    | none => rw [cutBits_cons_none h, cutBits_cons_none h, ih]

/-! ### Codes none of whose codewords begins another (R198, R206) -/

theorem prefixFree_iff (t : CodeTable) : t.prefixFree = true ↔
    ∀ a, t.len a ≠ 0 → ∀ b, t.len b ≠ 0 → t.code a <+: t.code b → a = b := by
  simp only [CodeTable.prefixFree, List.all_eq_true, mem_symbols, Bool.or_eq_true, beq_iff_eq, Bool.not_eq_true',
    ← Bool.not_eq_true, List.isPrefixOf_iff_prefix, or_iff_not_imp_right, not_not]

section
variable {t : CodeTable} (h : t.prefixFree = true) {b : Byte} (hb : t.len b ≠ 0)
include h hb

/-- What begins a codeword and is not empty is no codeword but that one. -/
theorem eq_of_findSymbol {acc : Codeword} (hne : acc ≠ []) (hacc : acc <+: t.code b) {c : Byte}
    (hc : findSymbol t acc = some c) : c = b := by
  have hcode := code_of_findSymbol hc
  refine (prefixFree_iff t).1 h c ?_ b hb (hcode ▸ hacc)
  rwa [← CodeTable.code_length, hcode, Ne, List.length_eq_zero_iff]

/-- A whole codeword finds its symbol. -/
theorem findSymbol_code : findSymbol t (t.code b) = some b := by
  have hne : t.code b ≠ [] := by rwa [Ne, ← List.length_eq_zero_iff, CodeTable.code_length]
  cases hc : findSymbol t (t.code b) with
  | none =>
    rw [findSymbol_eq, List.find?_eq_none] at hc
    exact absurd (decide_eq_true rfl) (hc b (List.mem_map.2 ⟨b.toNat, List.mem_range.2 b.isLt, by simp⟩))
  | some c => rw [eq_of_findSymbol h hb hne (List.prefix_refl _) hc]

/-- The rest of a codeword whose beginning is in the accumulator is cut at its last bit. -/
theorem cutBits_code {acc code : Codeword} (hcode : acc ++ code = t.code b) (hne : code ≠ []) (bits : List Bool) :
    cutBits t acc (code ++ bits) = (b :: (cutBits t [] bits).1, (cutBits t [] bits).2) := by
  induction code generalizing acc with
  | nil => exact absurd rfl hne
  | cons x code ih =>
    rw [List.append_cons] at hcode
    rw [List.cons_append]
    cases hfind : findSymbol t (acc ++ [x]) with
    | some c =>
      obtain rfl : c = b := eq_of_findSymbol h hb (by simp) ⟨code, hcode⟩ hfind
      have hfull : code = [] := by
        have hall := code_of_findSymbol hfind
        rwa [← hcode, List.append_right_eq_self] at hall
      rw [cutBits_cons_some hfind, hfull, List.nil_append]
    | none =>
      rw [cutBits_cons_none hfind]
      refine ih hcode ?_
      rintro rfl
      rw [List.append_nil] at hcode
      rw [hcode, findSymbol_code h hb] at hfind
      cases hfind

end

/-- Settles O52: the first codeword is cut at its last bit, and the next from an empty accumulator. -/
theorem prefixFreeCodeCutsBack : Obligations.PrefixFreeCodeCutsBack := by
  intro t l h hl
  induction l with
  | nil => rfl
  | cons b l ih =>
    obtain ⟨hb, hl⟩ := List.forall_mem_cons.1 hl
    have hne : t.code b ≠ [] := by rwa [Ne, ← List.length_eq_zero_iff, CodeTable.code_length]
    rw [List.flatMap_cons, cutBits_code h hb (List.nil_append _) hne, ih hl]

end Sys2Proof.Machine
end

section
/-! PROOFS. MATCH bit by bit (43_decoder.md R197 to R203): what it reads and puts while the bits have room for their
cuts, and where it stops at a byte that is no bit, at the capacity, and with bits left over. -/

namespace Sys2Proof.Machine

/-! ### The loop -/

/-- A bit that completes a codeword is read, and its symbol put. -/
theorem matchLoop_cut {s : State} {j m : Nat} {acc : Codeword} {b : Bool} {l : List Byte} {c : Byte}
    (h : Supplied s j (bitChar b :: l)) (hfind : findSymbol s.codes (acc ++ [b]) = some c) (hroom : Room s (m + 1))
    (start : Nat) : ∃ t,
      (∀ left, (matchLoop (left + 1) j acc start).run s =
          (matchLoop left (j + 1) [] (if acc = [] then j else start)).run t)
        ∧ Packs 1 [c] s t ∧ Room t m ∧ Supplied t (j + 1) l := by
  obtain ⟨t, ht, hputs, hroomt⟩ := Room.put (s := s.afterRead j (bitChar b)) hroom c
  have hput : Packs 0 [c] (s.afterRead j (bitChar b)) t := ⟨hputs, put_ok ht, put_reads ht⟩
  have hpacks := (afterRead_packs s j (bitChar b)).trans hput
  refine ⟨t, fun left => ?_, hpacks, hroomt,
    h.right (l := [bitChar b]) hpacks.puts (hputs.operands.dstCap ▸ hroomt.capacity)⟩
  rw [matchLoop_bit h.quiet h.feeds, matchBit_some hfind]
  exact run_bind_ok ht

/-- A bit that completes none is read, and accumulated. -/
theorem matchLoop_keep {s : State} {j : Nat} {acc : Codeword} {b : Bool} {l : List Byte}
    (h : Supplied s j (bitChar b :: l)) (hfind : findSymbol s.codes (acc ++ [b]) = none) (left start : Nat) :
    (matchLoop (left + 1) j acc start).run s =
      (matchLoop left (j + 1) (acc ++ [b]) (if acc = [] then j else start)).run (s.afterRead j (bitChar b)) := by
  rw [matchLoop_bit h.quiet h.feeds, matchBit_none hfind]

/-- MATCH over bits of which every cut has room: that of `matchLoop_feeds`, in full. The offset that is kept is that of
the first bit in the accumulator (R200). -/
theorem matchLoop_cuts {bits : List Bool} {j : Nat} {acc : Codeword} {start : Nat} {s : State}
    (h : Supplied s j (bitsText bits)) (hstart : acc ≠ [] → start + acc.length = j)
    (hroom : Room s (cutBits s.codes acc bits).1.length) (left : Nat) : ∃ start' u,
      (matchLoop (bits.length + left) j acc start).run s =
          (matchLoop left (j + bits.length) (cutBits s.codes acc bits).2 start').run u
        ∧ ((cutBits s.codes acc bits).2 ≠ [] → start' + (cutBits s.codes acc bits).2.length = j + bits.length)
        ∧ Packs bits.length (cutBits s.codes acc bits).1 s u := by
  induction bits generalizing j acc start s with
  | nil => exact ⟨start, s, by rw [List.length_nil, Nat.zero_add, Nat.add_zero]; rfl, hstart, Packs.refl s⟩
  | cons b bits ih =>
    rw [List.length_cons, Nat.add_right_comm, Nat.add_comm bits.length 1, ← Nat.add_assoc]
    cases hfind : findSymbol s.codes (acc ++ [b]) with
    | some c =>
      rw [cutBits_cons_some hfind] at hroom ⊢
      obtain ⟨t, ht, hpacks, hroomt, hnext⟩ := matchLoop_cut h hfind hroom start
      rw [← hpacks.port.codes] at hroomt ⊢
      obtain ⟨start', u, hu, hkept, hpacks'⟩ := ih hnext (fun hne => absurd rfl hne) hroomt
      exact ⟨start', u, (ht _).trans hu, hkept, hpacks.trans hpacks'⟩
    | none =>
      rw [cutBits_cons_none hfind] at hroom ⊢
      have hpacks := afterRead_packs s j (bitChar b)
      have hnext : Supplied (s.afterRead j (bitChar b)) (j + 1) (bitsText bits) :=
        h.right (l := [bitChar b]) hpacks.puts hroom.capacity
      have hstart' : (if acc = [] then j else start) + (acc ++ [b]).length = j + 1 := by
        rw [List.length_append, List.length_singleton, ← Nat.add_assoc]
        split
        next hnil => rw [hnil, List.length_nil, Nat.add_zero]
        next hne => rw [hstart hne]
      obtain ⟨start', u, hu, hkept, hpacks'⟩ := ih hnext (fun _ => hstart') hroom
      exact ⟨start', u, (matchLoop_keep h hfind _ _).trans hu, hkept, hpacks.trans hpacks'⟩

/-- Where the cuts do not fit, those that fit are put. -/
theorem matchLoop_full {bits : List Bool} {j m start : Nat} {s : State} (h : Supplied s j (bitsText bits))
    (hroom : Room s m) (hfull : s.cursor + m = s.dstCap.toNat) (hm : m < (cutBits s.codes [] bits).1.length)
    (left : Nat) : ∃ u k,
      (matchLoop (bits.length + left) j [] start).run s = .error { kind := .dstOverflow, info := s.dstCap } u
        ∧ Packs k ((cutBits s.codes [] bits).1.take m) s u := by
  obtain ⟨pre, b, rest, c, rfl, hpre, hfind⟩ := cutBits_split hm
  rw [bitsText_append] at h
  obtain ⟨start', u, hu, -, hpacks⟩ := matchLoop_cuts (start := start) h.left (fun hne => absurd rfl hne)
    (hpre.symm ▸ hroom) (rest.length + left + 1)
  have hcur : u.cursor = s.dstCap.toNat := by rw [hpacks.puts.cursor, hpre, hfull]
  have hnext := h.right hpacks.puts hcur.le
  rw [bitsText_length] at hnext
  rw [← hpacks.port.codes] at hfind
  have hlast := hpacks.trans (afterRead_packs u (j + pre.length) (bitChar b))
  rw [List.append_nil] at hlast
  refine ⟨u.afterRead (j + pre.length) (bitChar b), pre.length + 1, ?_, ?_⟩
  · rw [List.length_append, List.length_cons,
      show pre.length + (rest.length + 1) + left = pre.length + (rest.length + left + 1) by omega, hu,
      ← hpacks.port.codes, matchLoop_bit hnext.quiet hnext.feeds, matchBit_some hfind, ← hpacks.puts.operands.dstCap]
    exact run_bind_error (put_full (hcur.trans (congrArg _ hpacks.puts.operands.dstCap.symm)))
  · rwa [cutBits_append, List.take_left' hpre]

/-- A byte that is no bit is read, and nothing is put (R201). -/
theorem matchLoop_not_bit {s : State} {j : Nat} {b : Byte} {l : List Byte} (h : Supplied s j (b :: l))
    (hb : isBitChar b = false) (left : Nat) (acc : Codeword) (start : Nat) :
    (matchLoop (left + 1) j acc start).run s =
      .error { kind := .malformedArtifact, info := BitVec.ofNat 32 j } (s.afterRead j b) := by
  rw [matchLoop, run_bind_ok (h.feeds.srcByte h.quiet), hb]
  rfl

/-! ### The stage -/

section
variable {base : Nat} {bits : List Bool} {s : State}

theorem matchFrom_run (base : Nat) (s : State) : (matchFrom base base [] base).run s =
    (do matchLoop (s.srcLen.toNat - base) base [] base; modify (matchResults base) : Engine Unit).run s := rfl

/-- MATCH of bits whose cuts have room, to its end or up to the bits left over (R200). -/
theorem matchFrom_cuts (h : Supplied s base (bitsText bits)) (hlen : s.srcLen.toNat = base + bits.length)
    (hroom : Room s (cutBits s.codes [] bits).1.length) : ∃ v,
      Packs bits.length (cutBits s.codes [] bits).1 s v
        ∧ ((cutBits s.codes [] bits).2 = [] →
            (matchFrom base base [] base).run s = .ok () (matchResults base v))
        ∧ ((cutBits s.codes [] bits).2 ≠ [] →
            (matchFrom base base [] base).run s =
              .error ⟨.unmatchedBits, BitVec.ofNat 32 (s.srcLen.toNat - (cutBits s.codes [] bits).2.length)⟩ v) := by
  obtain ⟨start, v, hv, hstart, hpacks⟩ := matchLoop_cuts (start := base) h (fun hne => absurd rfl hne) hroom 0
  rw [matchFrom_run, hlen, Nat.add_sub_cancel_left]
  refine ⟨v, hpacks, fun hnil => ?_, fun hne => ?_⟩
  · rw [matchLoop, if_pos hnil] at hv
    exact run_bind_ok hv
  · rw [matchLoop, if_neg hne] at hv
    rw [← hstart hne, Nat.add_sub_cancel]
    exact run_bind_error hv

/-- MATCH of bits whose cuts have room, up to a byte that is no bit. -/
theorem matchFrom_not_bit {b : Byte} {post : List Byte} (h : Supplied s base (bitsText bits ++ b :: post))
    (hlen : s.srcLen.toNat = base + (bits.length + (post.length + 1))) (hb : isBitChar b = false)
    (hroom : Room s (cutBits s.codes [] bits).1.length) : ∃ v,
      (matchFrom base base [] base).run s =
          .error { kind := .malformedArtifact, info := BitVec.ofNat 32 (base + bits.length) } v
        ∧ Packs (bits.length + 1) (cutBits s.codes [] bits).1 s v := by
  obtain ⟨start, v, hv, -, hpacks⟩ := matchLoop_cuts (start := base) h.left (fun hne => absurd rfl hne) hroom
    (post.length + 1)
  have hnext := h.right hpacks.puts (hpacks.puts.room hroom.capacity)
  rw [bitsText_length] at hnext
  have hlast := hpacks.trans (afterRead_packs v (base + bits.length) b)
  rw [List.append_nil] at hlast
  rw [matchFrom_run, hlen, Nat.add_sub_cancel_left]
  exact ⟨_, run_bind_error (hv.trans (matchLoop_not_bit hnext hb post.length _ start)), hlast⟩

/-- MATCH of bits that hold more cuts than there is room for (R203). -/
theorem matchFrom_full {post : List Byte} (h : Supplied s base (bitsText bits ++ post))
    (hlen : s.srcLen.toNat = base + (bits.length + post.length)) (hcur : s.cursor = 0) (hroom : Room s s.dstCap.toNat)
    (hfull : s.dstCap.toNat < (cutBits s.codes [] bits).1.length) : ∃ v k,
      (matchFrom base base [] base).run s = .error { kind := .dstOverflow, info := s.dstCap } v
        ∧ Packs k ((cutBits s.codes [] bits).1.take s.dstCap.toNat) s v := by
  obtain ⟨v, k, hv, hpacks⟩ := matchLoop_full (start := base) h.left hroom (by omega) hfull post.length
  rw [matchFrom_run, hlen, Nat.add_sub_cancel_left]
  exact ⟨v, k, run_bind_error hv, hpacks⟩

end

end Sys2Proof.Machine
end

section
/-! PROOFS. How MATCH and DECODE end (43_decoder.md R197 to R205): both come to match the bits of a bitstream, MATCH
from its first byte on and DECODE from the end of the header on, with the codewords of the rows. -/

namespace Sys2Proof.Machine

/-! ### Where matching begins -/

/-- The command `i`, accepted in `s`, comes in the state `t` to match the bytes `l`, which are those from the offset
`base` on; the bytes before have been read, and nothing has been put. -/
structure Matching (i : Instr) (s : State) (base : Nat) (l : List Byte) (t : State) : Prop where
  run : (stages i).run (accept (encode i) s) = (matchFrom base base [] base).run t
  fresh : Fresh s t
  apart : Apart s
  supplied : Supplied t base l
  length : t.srcLen.toNat = base + l.length
  stage : t.stage = .matchBits
  err : t.err = none
  info : t.errInfo = 0
  reads : (readsOf t.accesses).length = base
  writes : writesOf t.accesses = []

theorem matching_matchBits {s : State} (ha : admitted .matchBits s = true) (hq : quiet s)
    (hread : srcReadable s = true) : Matching .matchBits s 0 (srcBytes s) s.matchBegun where
  run := rfl
  fresh := ⟨(OffPort.refl s).operands, rfl, rfl, rfl⟩
  apart := apart_of_admitted ha rfl rfl
  supplied := (supplied_of_admitted ha rfl rfl hq hread).congr (OffPort.refl s).operands rfl rfl
  length := by rw [srcBytes_length, Nat.zero_add]; rfl
  stage := rfl
  err := rfl
  info := rfl
  reads := rfl
  writes := rfl

/-- The state in which DECODE begins to match, having parsed a header with these rows (R205). -/
def State.decodeBegun (s : State) (rows : List Row) (log : List Access) : State :=
  { (accept (encode .decode) s).parsed rows log with stage := .matchBits }

theorem matching_decode {s : State} {rows : List Row} {l : List Byte} (ha : admitted .decode s = true) (hq : quiet s)
    (hread : srcReadable s = true) (hok : rowsOk rows = true) (hsrc : srcBytes s = headerText rows ++ l) :
    ∃ log, Matching .decode s (headerText rows).length l (s.decodeBegun rows log) := by
  obtain ⟨hf, hlen⟩ := feeds_header hread hsrc
  obtain ⟨log, hrun, hreads, hwrites⟩ := parseStage_header (s := accept (encode .decode) s) hq
    (hf.congr (OffPort.refl s).operands fun _ _ _ => rfl) (hlen ▸ Nat.le_add_right _ _) hok
  have hfresh : Fresh s (s.decodeBegun rows log) := ⟨(OffPort.refl s).operands, rfl, rfl, rfl⟩
  have hoff : (BitVec.ofNat 32 (headerText rows).length).toNat = (headerText rows).length :=
    toNat_ofNat_of_le (w := s.srcLen) (hlen ▸ Nat.le_add_right _ _)
  have hsupp := hfresh.supplied (hsrc ▸ supplied_of_admitted ha rfl rfl hq hread)
  have hrest := hsupp.right (Packs.refl (s.decodeBegun rows log)).puts (Nat.zero_le _)
  rw [Nat.zero_add] at hrest
  refine ⟨log, ⟨?_, hfresh, apart_of_admitted ha rfl rfl, hrest, hlen, rfl, rfl, rfl, hreads, hwrites⟩⟩
  refine (run_bind_ok hrun).trans ?_
  rw [run_look, State.parsed, parseResults_bsOff, hoff]
  rfl

/-- DECODE cuts by the codewords of the rows. -/
theorem cutBits_decodeBegun {s : State} {rows : List Row} {log : List Access} {c : CodeTable}
    (hok : rowsOk rows = true) (hc : ∀ b, c.code b = rowCode rows b) :
    cutBits (s.decodeBegun rows log).codes = cutBits c := by
  funext acc bits
  exact cutBits_congr (fun b => (rowsTable_empty_code hok b).trans (hc b).symm) acc bits

/-! ### The ends -/

section
variable {i : Instr} {s t v : State} {base k : Nat} {l bytes : List Byte} (h : Matching i s base l t)
include h

theorem Matching.capacity (hp : Packs k bytes t v) : bytes.length ≤ s.dstCap.toNat := by
  have hroom := hp.puts.room (h.fresh.cursor ▸ Nat.zero_le _)
  rwa [hp.puts.cursor, h.fresh.cursor, Nat.zero_add, h.fresh.operands.dstCap] at hroom

/-- The command ends with the error its matching raises, the symbols put before standing in the destination region. -/
theorem Matching.raises {x : Raise} (ha : admitted i s = true) (hq : quiet s) (hwf : s.mem.wf = true)
    (hr : (matchFrom base base [] base).run t = .error x v) (hp : Packs k bytes t v) :
    ∃ u, exec i s = .next u ∧ EndedWith u x.kind x.info .matchBits ∧ u.errCode = x.kind.code
      ∧ dstBytes u bytes.length = bytes ∧ (writesOf u.accesses).length = bytes.length
      ∧ (readsOf u.accesses).length = base + k ∧ srcBytes u = srcBytes s ∧ SameOperands s u := by
  have hcap := h.capacity hp
  have hst : v.stage = .matchBits := (congrArg State.stage hp.port).trans h.stage
  obtain ⟨u, hu, hend, hcode, hlog, hmem, hops⟩ := exec_raises ha (h.run.trans hr) hst
  refine ⟨u, hu, hend, hcode, h.fresh.dstBytes hp.puts hq hwf hcap hops hmem, ?_, ?_,
    h.fresh.srcBytes hp.puts h.apart hcap hops hmem, hops⟩
  · rw [hlog, hp.puts.writes, h.writes, List.nil_append, State.writesAt_length]
  · rw [hlog, hp.reads, h.reads]

/-- The command ends normally, the symbols put standing in the destination region. -/
theorem Matching.ends (ha : admitted i s = true) (hq : quiet s) (hwf : s.mem.wf = true)
    (hr : (matchFrom base base [] base).run t = .ok () (matchResults base v)) (hp : Packs k bytes t v) :
    let u := normalTerminate (matchResults base v)
    exec i s = .next u ∧ EndedNormally u .matchBits ∧ u.dstLen.toNat = bytes.length
      ∧ dstBytes u bytes.length = bytes ∧ srcBytes u = srcBytes s ∧ SameOperands s u := by
  have hcap := h.capacity hp
  have hexec := exec_of_run ha (h.run.trans hr)
  have hops := noCommandChangesOperands i s _ hexec
  have hcur : v.cursor = bytes.length := by rw [hp.puts.cursor, h.fresh.cursor, Nat.zero_add]
  refine ⟨hexec, ⟨rfl, rfl, (congrArg State.err hp.port).trans h.err, (congrArg State.errInfo hp.port).trans h.info,
    (congrArg State.stage hp.port).trans h.stage⟩, ?_, h.fresh.dstBytes hp.puts hq hwf hcap hops rfl,
    h.fresh.srcBytes hp.puts h.apart hcap hops rfl, hops⟩
  change (BitVec.ofNat 32 v.cursor).toNat = bytes.length
  rw [hcur]
  exact toNat_ofNat_of_le hcap

end

section
variable {i : Instr} {s t : State} {base : Nat} {bits : List Bool} (ha : admitted i s = true) (hq : quiet s)
  (hwf : s.mem.wf = true)
include ha hq hwf

/-- Bits whose cuts have room are cut, to the end or up to the bits left over (R197, R200). -/
theorem Matching.cuts (h : Matching i s base (bitsText bits) t)
    (hfit : (cutBits t.codes [] bits).1.length ≤ s.dstCap.toNat)
    (hok : dstWritable s (cutBits t.codes [] bits).1.length = true) :
    ∃ u, exec i s = .next u ∧ dstBytes u (cutBits t.codes [] bits).1.length = (cutBits t.codes [] bits).1
      ∧ ((cutBits t.codes [] bits).2 = [] → EndedNormally u .matchBits
          ∧ u.dstLen.toNat = (cutBits t.codes [] bits).1.length
          ∧ ∃ v, SamePort t v ∧ u = normalTerminate (matchResults base v))
      ∧ ((cutBits t.codes [] bits).2 ≠ [] →
          EndedWith u .unmatchedBits (BitVec.ofNat 32 (s.srcLen.toNat - (cutBits t.codes [] bits).2.length)) .matchBits
            ∧ u.errCode = 3)
      ∧ srcBytes u = srcBytes s ∧ SameOperands s u := by
  obtain ⟨v, hpacks, hnormal, hleft⟩ := matchFrom_cuts h.supplied (bitsText_length bits ▸ h.length)
    (h.fresh.room hfit hok)
  rw [h.fresh.operands.srcLen] at hleft
  by_cases hnil : (cutBits t.codes [] bits).2 = []
  · obtain ⟨hexec, hend, hlen, hdst, hsrc, hops⟩ := h.ends ha hq hwf (hnormal hnil) hpacks
    exact ⟨_, hexec, hdst, fun _ => ⟨hend, hlen, v, hpacks.port, rfl⟩, fun hne => absurd hnil hne, hsrc, hops⟩
  · obtain ⟨u, hexec, hend, hcode, hdst, -, -, hsrc, hops⟩ := h.raises ha hq hwf (hleft hnil) hpacks
    exact ⟨u, hexec, hdst, fun h => absurd h hnil, fun _ => ⟨hend, hcode⟩, hsrc, hops⟩

/-- The first byte that is no bit character ends the command (R201). -/
theorem Matching.not_bit {b : Byte} {post : List Byte} (h : Matching i s base (bitsText bits ++ b :: post) t)
    (h0 : b ≠ 0x30) (h1 : b ≠ 0x31) (hfit : (cutBits t.codes [] bits).1.length ≤ s.dstCap.toNat)
    (hok : dstWritable s (cutBits t.codes [] bits).1.length = true) :
    ∃ u, exec i s = .next u
      ∧ EndedWith u .malformedArtifact (BitVec.ofNat 32 (base + bits.length)) .matchBits ∧ u.errCode = 4
      ∧ dstBytes u (cutBits t.codes [] bits).1.length = (cutBits t.codes [] bits).1
      ∧ (readsOf u.accesses).length = base + bits.length + 1 := by
  have hb : isBitChar b = false := by rw [isBitChar, beq_false_of_ne h0, beq_false_of_ne h1]; rfl
  have hlen := h.length
  rw [List.length_append, List.length_cons, bitsText_length] at hlen
  obtain ⟨v, hv, hpacks⟩ := matchFrom_not_bit h.supplied hlen hb (h.fresh.room hfit hok)
  obtain ⟨u, hexec, hend, hcode, hdst, -, hreads, -⟩ := h.raises ha hq hwf hv hpacks
  exact ⟨u, hexec, hend, hcode, hdst, hreads⟩

/-- More cuts than the destination region holds end the command at its capacity (R203). -/
theorem Matching.full {post : List Byte} (h : Matching i s base (bitsText bits ++ post) t)
    (hok : dstWritable s s.dstCap.toNat = true) (hfull : s.dstCap.toNat < (cutBits t.codes [] bits).1.length) :
    ∃ u, exec i s = .next u ∧ EndedWith u .dstOverflow s.dstCap .matchBits ∧ u.errCode = 8
      ∧ dstBytes u s.dstCap.toNat = (cutBits t.codes [] bits).1.take s.dstCap.toNat
      ∧ (writesOf u.accesses).length = s.dstCap.toNat := by
  have hlen := h.length
  rw [List.length_append, bitsText_length] at hlen
  have hcap := h.fresh.operands.dstCap
  obtain ⟨v, k, hv, hpacks⟩ := matchFrom_full h.supplied hlen h.fresh.cursor (hcap ▸ h.fresh.room le_rfl hok)
    (hcap ▸ hfull)
  obtain ⟨u, hexec, hend, hcode, hdst, hwrites, -⟩ := h.raises ha hq hwf hv hpacks
  rw [hcap] at hend hdst hwrites
  rw [List.length_take_of_le hfull.le] at hdst hwrites
  exact ⟨u, hexec, hend, hcode, hdst, hwrites⟩

end

/-- Settles O51: MATCH matches the whole source region. -/
theorem matchCutsTheBitstream : Obligations.MatchCutsTheBitstream := by
  intro s bits ha hq hwf hread hsrc hfit hok
  have hmatch := matching_matchBits ha hq hread
  have hlen := srcBytes_length s
  rw [hsrc] at hmatch
  rw [hsrc, bitsText_length] at hlen
  obtain ⟨t, hexec, hdst, hnormal, hleft, hsrc', hops⟩ := hmatch.cuts ha hq hwf hfit hok
  refine ⟨t, hexec, hdst, fun hnil => ?_, hlen ▸ hleft, hsrc', hops⟩
  obtain ⟨hend, hdstLen, v, hport, rfl⟩ := hnormal hnil
  refine ⟨hend, hdstLen, ?_⟩
  rw [hport]
  exact ⟨BitVec.eq_of_toNat_eq (toNat_ofNat_of_le (w := s.srcLen) le_rfl), rfl, rfl, rfl, rfl, rfl, rfl, rfl, rfl, rfl,
    rfl⟩

/-- Settles O53: what holds of MATCH holds of DECODE from the end of the header on. -/
theorem matchRefusesANonBit : Obligations.MatchRefusesANonBit := by
  intro s bits b post hq hwf hread h0 h1
  refine ⟨fun ha hsrc hfit hok => ?_, fun rows c ha hrows hsrc hc hfit hok => ?_⟩
  · have hmatch := matching_matchBits ha hq hread
    rw [hsrc] at hmatch
    have hend := hmatch.not_bit ha hq hwf h0 h1 hfit hok
    rwa [Nat.zero_add] at hend
  · rw [List.append_assoc] at hsrc
    obtain ⟨log, hmatch⟩ := matching_decode ha hq hread hrows hsrc
    rw [← cutBits_decodeBegun (s := s) (log := log) hrows hc] at hfit hok ⊢
    exact hmatch.not_bit ha hq hwf h0 h1 hfit hok

/-- Settles O54: what holds of MATCH holds of DECODE from the end of the header on. -/
theorem matchOverflowsAtCapacity : Obligations.MatchOverflowsAtCapacity := by
  intro s bits post hq hwf hread hok
  refine ⟨fun ha hsrc hfull => ?_, fun rows c ha hrows hsrc hc hfull => ?_⟩
  · have hmatch := matching_matchBits ha hq hread
    rw [hsrc] at hmatch
    exact Matching.full (t := s.matchBegun) ha hq hwf hmatch hok hfull
  · rw [List.append_assoc] at hsrc
    obtain ⟨log, hmatch⟩ := matching_decode ha hq hread hrows hsrc
    rw [← cutBits_decodeBegun (s := s) (log := log) hrows hc] at hfull ⊢
    exact hmatch.full ha hq hwf hok hfull

/-- Settles O55: DECODE matches the bitstream from the end of the header on. -/
theorem decodeReadsAnArtifact : Obligations.DecodeReadsAnArtifact := by
  intro s rows bits c ha hq hwf hread hrows hsrc hc hfit hok
  obtain ⟨log, hmatch⟩ := matching_decode ha hq hread hrows hsrc
  obtain ⟨-, hlen⟩ := feeds_header hread hsrc
  rw [bitsText_length] at hlen
  rw [← cutBits_decodeBegun (s := s) (log := log) hrows hc] at hfit hok ⊢
  obtain ⟨t, hexec, hdst, hnormal, hleft, hsrc', hops⟩ := hmatch.cuts ha hq hwf hfit hok
  refine ⟨t, hexec, hdst, fun hnil => ?_, hleft, hsrc', hops⟩
  obtain ⟨hend, hdstLen, v, hport, rfl⟩ := hnormal hnil
  obtain ⟨hoff, hbits⟩ := toNat_ofNat_parts hlen
  refine ⟨hend, ?_⟩
  rw [hport] at hdstLen ⊢
  exact ⟨rfl, rfl, rfl, hdstLen, toNat_ofNat_rows hrows, rfl, hoff, hbits, rowsTable_empty_code hrows,
    rowsTable_empty_padded hrows, rfl, rfl, rfl⟩

end Sys2Proof.Machine
end

section
/-! PROOFS. The header ENCODE writes (42_encoder.md R171): it is well formed, its rows being those of the tables, of
whose codewords none begins another, for one symbol too. -/

namespace Sys2Proof.Machine

/-! ### The text of a probability (43_decoder.md R192) -/

theorem isDigit_digitChar {d : Nat} (h : d < 10) : isDigit (digitChar d) = true :=
  isDigit_iff.2 (by rw [digitChar_toNat h]; omega)

theorem isDigit_of_mem_fixedDigits {k n : Nat} {b : Byte} (h : b ∈ fixedDigits k n) : isDigit b = true := by
  induction k generalizing n with
  | zero => cases h
  | succ k ih =>
    rcases List.mem_append.1 h with h | h
    · exact ih h
    · exact List.mem_singleton.1 h ▸ isDigit_digitChar (Nat.mod_lt n (by decide))

theorem isProbChar_of_isDigit {b : Byte} (h : isDigit b = true) : isProbChar b = true := by simp [isProbChar, h]

/-- PARSE accepts the text of a probability. -/
theorem isProbChar_of_mem_probText {x : Double} (h : units x ≤ unitsPerOne) :
    ∀ b ∈ probText x, isProbChar b = true := by
  have hscaled := probScaled_le h
  have hfirst : probScaled x / 10 ^ probDigits < 10 := by
    rw [probDigits]
    omega
  intro b hb
  rw [probText, List.mem_cons, List.mem_cons] at hb
  rcases hb with rfl | rfl | hb
  · exact isProbChar_of_isDigit (isDigit_digitChar hfirst)
  · rfl
  · exact isProbChar_of_isDigit (isDigit_of_mem_fixedDigits hb)

/-! ### The rows -/

/-- Row `i` of the header, as PARSE reads it. -/
def State.rowAt (s : State) (i : Nat) : Row :=
  ⟨s.psym.at i, probText (s.prob.at i), s.codes.code (s.psym.at i)⟩

/-- The rows of the header. -/
def State.headerRows (s : State) : List Row := (List.range s.nsym.toNat).map s.rowAt

theorem headerRows_length (s : State) : s.headerRows.length = s.nsym.toNat := by
  rw [State.headerRows, List.length_map, List.length_range]

theorem headerRows_symbols (s : State) : s.headerRows.map Row.symbol = ranked s.psym s.nsym.toNat := by
  rw [State.headerRows, List.map_map]
  rfl

/-- What EMIT writes as a header is the text of these rows (30_encoding.md R108; 42_encoder.md R171). -/
theorem artifactHeader_eq (s : State) : artifactHeader s = headerText s.headerRows := by
  rw [headerText, headerRows_length, State.headerRows, List.flatMap_map]
  rfl

/-- Rows that give their symbols the codewords of a table. -/
theorem rowCode_eq_code {rows : List Row} {t : CodeTable} (h : ∀ x ∈ rows, x.code = t.code x.symbol) {b : Byte}
    (hb : b ∈ rows.map Row.symbol) : rowCode rows b = t.code b := by
  induction rows with
  | nil => cases hb
  | cons x rows ih =>
    obtain ⟨hx, hrows⟩ := List.forall_mem_cons.1 h
    rw [rowCode_cons]
    split
    next he => exact he ▸ hx
    next hne => exact ih hrows ((List.mem_cons.1 hb).resolve_left (Ne.symm hne))

/-- R162, for one symbol too. -/
theorem buildTree_prefixFree_of_pos {psym : Table Byte} {n : Nat} (prob : Table Double) (h : 1 ≤ n) (h' : n ≤ 256)
    (hd : (ranked psym n).Nodup) : (buildTree psym prob n).prefixFree = true := by
  rcases Nat.eq_or_lt_of_le h with rfl | h2
  · refine (prefixFree_iff _).2 fun a ha b hb _ => ?_
    rw [buildTree_len_ne_zero prob le_rfl h' hd] at ha hb
    exact (List.mem_singleton.1 ha).trans (List.mem_singleton.1 hb).symm
  · exact buildTree_prefixFree prob h2 h' hd

section
variable {l : List Byte} {s : State} (h : TablesOf l s) (hl : l.length < 2 ^ 32)
  (hpos : 1 ≤ alphabetSize (countsOf l))
include h

theorem TablesOf.nsym_toNat : s.nsym.toNat = alphabetSize (countsOf l) :=
  (congrArg BitVec.toNat h.nsym).trans (toNat_alphabetSize _)

theorem TablesOf.nodup_ranked : (ranked s.psym (alphabetSize (countsOf l))).Nodup :=
  h.ranked_perm.nodup_iff.2 (nodup_alphabet _)

include hpos

theorem TablesOf.padded : s.codes.padded :=
  h.codes ▸ buildTree_padded s.prob hpos (alphabetSize_le _) h.nodup_ranked

theorem TablesOf.prefixFree : s.codes.prefixFree = true :=
  h.codes ▸ buildTree_prefixFree_of_pos s.prob hpos (alphabetSize_le _) h.nodup_ranked

theorem TablesOf.len_ne_zero (b : Byte) : s.codes.len b ≠ 0 ↔ b ∈ s.headerRows.map Row.symbol := by
  rw [headerRows_symbols, h.nsym_toNat, h.codes]
  exact buildTree_len_ne_zero s.prob hpos (alphabetSize_le _) h.nodup_ranked b

/-- The rows give every symbol the codeword it has in the table, and none to the others. -/
theorem TablesOf.rowCode (b : Byte) : rowCode s.headerRows b = s.codes.code b := by
  by_cases hb : b ∈ s.headerRows.map Row.symbol
  · refine rowCode_eq_code (fun x hx => ?_) hb
    obtain ⟨i, -, rfl⟩ := List.mem_map.1 hx
    rfl
  · have hlen := not_not.1 (mt (h.len_ne_zero hpos b).1 hb)
    rw [rowCode_eq_nil hb, eq_comm, ← List.length_eq_zero_iff, CodeTable.code_length, hlen]

include hl

/-- Every row is in order: the probability is a quotient of counts, at most 1, and the codeword is there. -/
theorem TablesOf.row_ok {i : Nat} (hi : i < s.nsym.toNat) : (s.rowAt i).ok = true := by
  have hi' : i < alphabetSize (countsOf l) := h.nsym_toNat ▸ hi
  obtain ⟨hmem, hprob⟩ := entry_at_rank (s := s) hi' (h.ranks ▸ sortEntries_perm _)
  obtain ⟨hc, hcn⟩ := count_bounds hmem
  rw [freqSum_countsOf hl] at hcn
  have hcode : s.codes.len (s.psym.at i) ≠ 0 := (h.len_ne_zero hpos _).2 (by
    rw [headerRows_symbols]
    exact mem_ranked.2 ⟨i, hi, rfl⟩)
  refine (Row.ok_iff _).2 ⟨List.cons_ne_nil _ _, ?_, ?_, ?_⟩
  · exact isProbChar_of_mem_probText (hprob ▸ units_fdiv_le_one hc hcn hl)
  · rwa [State.rowAt, Ne, ← List.length_eq_zero_iff, CodeTable.code_length]
  · rw [State.rowAt, CodeTable.code_length, Config.cwMax]
    exact Nat.le_of_lt_succ (s.codes.clen.at _).isLt

/-- The header of the tables of an input is well formed. -/
theorem TablesOf.rowsOk : rowsOk s.headerRows = true := by
  refine (rowsOk_iff _).2 ⟨?_, ?_, fun x hx => ?_, ?_⟩
  · rwa [headerRows_length, h.nsym_toNat]
  · rw [headerRows_length, h.nsym_toNat]
    exact alphabetSize_le _
  · obtain ⟨i, hi, rfl⟩ := List.mem_map.1 hx
    exact h.row_ok hl hpos (List.mem_range.1 hi)
  · rw [headerRows_symbols, h.nsym_toNat]
    exact h.nodup_ranked

/-- The bitstream of the input cuts back into it (43_decoder.md R206). -/
theorem TablesOf.cuts : cutBits s.codes [] (l.flatMap s.codes.code) = (l, []) :=
  prefixFreeCodeCutsBack s.codes l (h.prefixFree hpos) (h.known hl hpos)

end

/-- A bitstream is the text of the codewords, end to end. -/
theorem bitstream_eq_bitsText (t : CodeTable) (l : List Byte) : bitstream t l = bitsText (l.flatMap t.code) :=
  (List.map_flatMap ..).symm

end Sys2Proof.Machine
end

section
/-! PROOFS. The round trip (43_decoder.md R206): where ENCODE has ended normally it has read its whole input and put the
whole artifact, which DECODE cuts back. -/

namespace Sys2Proof.Machine

/-! ### What a normal end says of the reads -/

theorem encodeStages_empty {s : State} (h : s.srcLen = 0) :
    encodeStages.run s = .error { kind := .emptyInput, info := 0 } { s with stage := .freq } := by
  have hbegin : freqBegin.run s = .error { kind := .emptyInput, info := 0 } { s with stage := .freq } := by
    rw [freqBegin_run, if_pos h]
  exact run_bind_error (run_bind_error hbegin)

/-- A byte that may not be read would have ended FREQ (60_exceptions.md R242). -/
theorem srcReadable_of_encode {s t : State} (h : exec .encode s = .next t) (herr : t.err = none)
    (ha : admitted .encode s = true) : srcReadable s = true := by
  have hok : ∀ j, j < s.srcLen.toNat → s.memOK (s.srcAt j) .read = true := by
    intro j
    induction j using Nat.strong_induction_on with
    | _ j ih =>
      intro hj
      by_contra hno
      obtain ⟨u, hu, ⟨-, -, hbus, -⟩, -⟩ := freq_refused (i := .encode) (by decide) ha hj
        (fun k hk => ih k hk (hk.trans hj)) (Bool.eq_false_iff.2 hno)
      rw [h] at hu
      cases hu
      cases herr.symm.trans hbus
  simpa [srcReadable] using hok

/-! ### What a normal end says of the bytes put -/

/-- Where a piece ran to its end, so did its first part. -/
theorem ok_of_run_bind {α β : Type} {m : Engine α} {f : α → Engine β} {s u : State} {b : β}
    (h : (m >>= f).run s = .ok b u) : ∃ a t, m.run s = .ok a t ∧ (f a).run t = .ok b u := by
  cases hm : m.run s with
  | error x t =>
    rw [run_bind_error hm] at h
    cases h
  | ok a t => exact ⟨a, t, rfl, run_bind_ok hm ▸ h⟩

theorem putStr_ok {l : List Byte} {s t : State} (h : (putStr l).run s = .ok () t) : Packs 0 l s t := by
  induction l generalizing s with
  | nil =>
    cases h
    exact Packs.refl _
  | cons b l ih =>
    obtain ⟨_, u, hb, hrest⟩ := ok_of_run_bind (f := fun _ => putStr l) h
    have hput : Packs 0 [b] s u := ⟨put_putsBytes hb, put_ok hb, put_reads hb⟩
    exact hput.trans (ih hrest)

/-- Where the loop has run to its end, the bits of all bytes are put. -/
theorem emitLoop_ok {l : List Byte} {j : Nat} {s u : State} (h : Supplied s j l) (hknown : ∀ b ∈ l, s.codes.len b ≠ 0)
    (hcap : s.cursor ≤ s.dstCap.toNat) (hr : (emitLoop l.length j).run s = .ok () u) :
    Packs l.length (bitstream s.codes l) s u := by
  induction l generalizing j s with
  | nil =>
    cases hr
    exact Packs.refl _
  | cons b l ih =>
    obtain ⟨hb, hl⟩ := List.forall_mem_cons.1 hknown
    rw [List.length_cons, emitLoop_known h hb] at hr
    obtain ⟨_, t, ht, hrest⟩ := ok_of_run_bind hr
    have hpacks := (afterRead_packs s j b).trans (putStr_ok ht)
    have hcapt := hpacks.puts.room hcap
    have hnext : Supplied t (j + 1) l := h.right (l := [b]) hpacks.puts hcapt
    rw [← hpacks.port.codes] at hl
    have hpacks' := ih hnext hl (hpacks.puts.operands.dstCap ▸ hcapt) hrest
    rw [hpacks.port.codes] at hpacks'
    rw [List.length_cons, Nat.add_comm, bitstream_cons]
    exact hpacks.trans hpacks'

/-- Where EMIT has run to its end, the artifact is put. -/
theorem emitStage_ok {s t u : State} (hfresh : Fresh s { t with stage := .emit }) (h : Supplied s 0 (srcBytes s))
    (hknown : ∀ b ∈ srcBytes s, t.codes.len b ≠ 0) (hr : emitStage.run t = .ok () u) : ∃ v,
      u = emitResults (artifactHeader t).length v
        ∧ Packs s.srcLen.toNat (artifactHeader t ++ bitstream t.codes (srcBytes s)) { t with stage := .emit } v := by
  rw [emitStage_run, headerFrom] at hr
  obtain ⟨_, w, hw, -⟩ := ok_of_run_bind hr
  have hpacks := putStr_ok hw
  rw [← headerFrom, headerFrom_run hfresh.cursor hw hpacks.puts, hfresh.operands.srcLen, ← srcBytes_length] at hr
  obtain ⟨_, v, hv, hresults⟩ := ok_of_run_bind hr
  have hcap := hpacks.puts.room (hfresh.cursor ▸ Nat.zero_le _)
  have hsupp : Supplied w 0 (srcBytes s) := (hfresh.supplied h).right (l := []) hpacks.puts hcap
  have hcodes : w.codes = t.codes := hpacks.port.codes
  rw [← hcodes] at hknown
  have hall := hpacks.trans (emitLoop_ok hsupp hknown (hpacks.puts.operands.dstCap ▸ hcap) hv)
  rw [Nat.zero_add, srcBytes_length, hcodes] at hall
  cases hresults
  exact ⟨v, rfl, hall⟩

/-! ### What ENCODE leaves -/

/-- The state `t` in which ENCODE of the input `l` has ended normally: the tables of the input, and its artifact in the
destination region. -/
structure Encoded (l : List Byte) (t : State) : Prop where
  tables : TablesOf l t
  symbols : 1 ≤ alphabetSize (countsOf l)
  bytes : dstBytes t t.dstLen.toNat = artifactHeader t ++ bitstream t.codes l
  bsOff : t.bsOff.toNat = (artifactHeader t).length
  bitLen : t.bitLen.toNat = (bitstream t.codes l).length

theorem srcBytes_length_lt (s : State) : (srcBytes s).length < 2 ^ 32 := srcBytes_length s ▸ s.srcLen.isLt

/-- A source region that is not empty has a symbol. -/
theorem one_le_alphabetSize_srcBytes {s : State} (h : s.srcLen ≠ 0) : 1 ≤ alphabetSize (countsOf (srcBytes s)) := by
  refine alphabetSize_pos ?_
  rw [freqSum_countsOf (srcBytes_length_lt s), srcBytes_length]
  exact Nat.pos_of_ne_zero fun h0 => h (BitVec.eq_of_toNat_eq h0)

/-- ENCODE that ended normally found its input readable and not empty, and put all of its artifact (42_encoder.md R178,
R179). -/
theorem encoded_of_encode {s t : State} (hq : quiet s) (hwf : s.mem.wf = true) (h : exec .encode s = .next t)
    (herr : t.err = none) : Encoded (srcBytes s) t := by
  obtain ⟨u, ha, hrun, rfl⟩ := exec_normal h herr
  have hread := srcReadable_of_encode h herr ha
  have hne : s.srcLen ≠ 0 := fun h0 => by
    cases (encodeStages_empty (s := accept (encode .encode) s) h0).symm.trans hrun
  have hsupp := supplied_of_admitted ha rfl rfl hq hread
  have hlt := srcBytes_length_lt s
  have hpos := one_le_alphabetSize_srcBytes hne
  obtain ⟨w, hstages, hbegun, htables, -⟩ := encodeStages_run (s := accept (encode .encode) s) hq hread hne rfl
  have hfresh : Fresh s { w with stage := .emit } := ⟨hbegun.operands, hbegun.raced, hbegun.mem, hbegun.cursor⟩
  obtain ⟨v, rfl, hpacks⟩ := emitStage_ok hfresh hsupp (htables.known hlt hpos) (hstages.symm.trans hrun)
  have hfit := hpacks.puts.room (hbegun.cursor ▸ Nat.zero_le _)
  rw [hpacks.puts.cursor, hfresh.cursor, Nat.zero_add, hfresh.operands.dstCap] at hfit
  obtain ⟨hdst, hoff, hbits, -⟩ := artifact_stands hfresh hpacks.puts hq hwf hsupp.apart hfit
  have hend : TablesOf (srcBytes s) (normalTerminate (emitResults (artifactHeader w).length v)) := by
    rw [hpacks.port]
    exact ⟨htables.nsym, htables.ranks, htables.codes⟩
  have hheader := htables.header_eq hend hpos
  have hcodes := htables.codes_eq hend hpos
  exact ⟨hend, hpos, by rw [hheader, hcodes]; exact hdst, by rw [hheader]; exact hoff, by rw [hcodes]; exact hbits⟩

/-- Settles O57: the artifact is a well-formed header and the codewords of the input, which DECODE cuts back by the rows
of that header. -/
theorem decodeOfEncodeIsTheInput : Obligations.DecodeOfEncodeIsTheInput := by
  intro s t u hq hwf h herr hqu hwfu _ hsrc hau hreadu hfit hok
  obtain ⟨htables, hpos, hbytes, hoff, hbits⟩ := encoded_of_encode hq hwf h herr
  have hlength := srcBytes_length s
  have hlt := srcBytes_length_lt s
  have hcuts := htables.cuts hlt hpos
  rw [bitstream_eq_bitsText] at hbytes hbits
  rw [bitsText_length] at hbits
  rw [artifactHeader_eq] at hbytes hoff
  have hdecode := decodeReadsAnArtifact u t.headerRows ((srcBytes s).flatMap t.codes.code) t.codes hau hqu hwfu hreadu
    (htables.rowsOk hlt hpos) (hsrc.trans hbytes) fun b => (htables.rowCode hpos b).symm
  simp only [hcuts, hlength] at hdecode
  obtain ⟨v, hv, hdst, hnormal, -⟩ := hdecode hfit hok
  obtain ⟨hend, hfv, hpv, hcv, hdstLen, hnsym, htotal, hbsOff, hbitLen, hcode, hpad, -⟩ := hnormal trivial
  rw [headerRows_length] at hnsym
  exact ⟨v, hv, hend, hfv, hpv, hcv, BitVec.eq_of_toNat_eq hdstLen, hdst, BitVec.eq_of_toNat_eq hnsym,
    BitVec.eq_of_toNat_eq (hbsOff.trans hoff.symm), BitVec.eq_of_toNat_eq (hbitLen.trans hbits.symm), htotal,
    CodeTable.eq_of_code _ _ hpad (htables.padded hpos) fun b => (hcode b).trans (htables.rowCode hpos b)⟩

end Sys2Proof.Machine
end

section
/-! PROOFS. The commands that run no stage (44_control.md R220, R221): nothing keeps them from being admitted, and what
they leave is their acceptance, their one change and their normal termination. -/

namespace Sys2Proof.Machine

/-- A command without a region is admitted as soon as its tables are valid: no range is bad, and no device memory is
touched (20_memory.md R76, R77). -/
theorem admitted_eq_tablesReady {i : Instr} (hsrc : usesSource i = false) (hdst : usesDest i = false) (s : State) :
    admitted i s = tablesReady i s := by
  have hrange : rangeBad i s = false := by simp [rangeBad, hsrc, hdst]
  have hdevice : touchesDevice i s = false := by simp [touchesDevice, hsrc, hdst]
  simp [admitted, hrange, hdevice]

/-- Settles O31: admitted in every state, NOP terminates from the state of its acceptance. -/
theorem nopOnlyTerminates : Obligations.NopOnlyTerminates := by
  intro s
  have ha : admitted .nop s = true := admitted_eq_tablesReady rfl rfl s
  exact exec_of_run ha (run_pure () _)

/-- Settles O32: admitted in every state, CLEAR drops the results of the state of its acceptance and terminates. -/
theorem clearDropsResults : Obligations.ClearDropsResults := by
  intro s
  have ha : admitted .clear s = true := admitted_eq_tablesReady rfl rfl s
  exact exec_of_run ha (run_modify State.dropResults _)

end Sys2Proof.Machine
end

section
/-! PROOFS. What an error termination leaves (60_exceptions.md R243), and the errors found before any stage: an illegal
word (R235), a table that is not valid (R236). -/

namespace Sys2Proof.Machine

variable {i : Instr} {s t : State} {e : ErrKind} {x : Raise}

/-! ### How a command ends with an error -/

/-- A command that is not admitted ends with the error its admission raises (60_exceptions.md R240). -/
theorem exec_of_admission (h : admission i s = some x) :
    exec i s = .next (errorTerminate x (accept (encode i) s)) := by
  rw [exec_eq_runCommand, runCommand, admission_accept, h]

/-- A command whose stages raise an error ends with it, from the state it is raised in. -/
theorem exec_of_error {u : State} (ha : admitted i s = true)
    (hr : (stages i).run (accept (encode i) s) = .error x u) : exec i s = .next (errorTerminate x u) := by
  rw [exec_eq_runCommand, runCommand_admitted ha, hr]
  rfl

/-- The errors admission raises, each on its own condition (60_exceptions.md R240). -/
theorem admission_some (h : admission i s = some x) :
    (tablesReady i s = false ∧ x = { kind := .sequence, info := encode i })
      ∨ (rangeBad i s = true ∧ x = { kind := .range, info := encode i }) := by
  rcases admission_cases i s with ⟨hready, ha⟩ | ⟨-, hbad, ha⟩ | ⟨-, -, ha⟩ <;> rw [ha] at h <;> cases h
  · exact .inl ⟨hready, rfl⟩
  · exact .inr ⟨hbad, rfl⟩

/-- A command that ended with an error was not admitted, or its stages raised it. -/
theorem exec_error (h : exec i s = .next t) (he : t.err = some e) :
    (∃ x, admission i s = some x ∧ x.kind = e ∧ t = errorTerminate x (accept (encode i) s))
      ∨ ∃ x u, admitted i s = true ∧ (stages i).run (accept (encode i) s) = .error x u ∧ x.kind = e
          ∧ t = errorTerminate x u := by
  rw [exec_eq_runCommand] at h
  rcases runCommand_next h with ⟨x, hx, rfl⟩ | ⟨ha, rfl⟩
  · exact .inl ⟨x, hx, Option.some.inj he, rfl⟩
  · have hfoot := (does_stages i (accept (encode i) s)).1
    cases hr : (stages i).run (accept (encode i) s) with
    | error x u =>
      rw [hr] at he
      exact .inr ⟨x, u, ha, rfl, Option.some.inj he, rfl⟩
    | ok a u =>
      rw [hr] at he hfoot
      cases he.symm.trans hfoot.err

/-- An error that admission does not raise is raised by the stages. -/
theorem exec_error_of_stages (h : exec i s = .next t) (he : t.err = some e) (hseq : e ≠ .sequence)
    (hrange : e ≠ .range) :
    ∃ x u, admitted i s = true ∧ (stages i).run (accept (encode i) s) = .error x u ∧ x.kind = e
      ∧ t = errorTerminate x u := by
  rcases exec_error h he with ⟨x, hx, rfl, -⟩ | hstages
  · rcases admission_some hx with ⟨-, rfl⟩ | ⟨-, rfl⟩
    · exact absurd rfl hseq
    · exact absurd rfl hrange
  · exact hstages

/-! ### What an error leaves (R243) -/

/-- What an error leaves wherever it is raised. -/
theorem errorTerminate_endedWith (x : Raise) (u : State) :
    EndedWith (errorTerminate x u) x.kind x.info u.stage ∧ (errorTerminate x u).errCode = x.kind.code :=
  ⟨⟨rfl, rfl, rfl, rfl, rfl, rfl, rfl, rfl, rfl, rfl, rfl, rfl, rfl⟩, rfl⟩

/-- An error raised before any stage has begun leaves no stage and no access. -/
theorem errorTerminate_accept (x : Raise) (c : Word) (s : State) :
    EndedWith (errorTerminate x (accept c s)) x.kind x.info .none
      ∧ (errorTerminate x (accept c s)).errCode = x.kind.code ∧ NoAccess s (errorTerminate x (accept c s))
      ∧ SameOperands s (errorTerminate x (accept c s)) := by
  obtain ⟨hend, hcode⟩ := errorTerminate_endedWith x (accept c s)
  exact ⟨hend, hcode, ⟨rfl, rfl⟩, (OffPort.refl s).operands⟩

/-- With no race a command moves memory by its writes alone (20_memory.md R78). -/
theorem exec_mem (h : exec i s = .next t) (hq : quiet s) : t.mem = writeAll (writesOf t.accesses) s.mem := by
  obtain ⟨m, -, hm, rfl⟩ := exec_runs h
  obtain ⟨bytes, hputs⟩ := hm.stores (accept (encode i) s)
  rw [terminate_mem, terminate_accesses, hputs.mem hq, hputs.writes]
  rfl

/-- Settles O25: every error is taken by one operation, and what a command writes is in its log. -/
theorem errorTerminationDropsResults : Obligations.ErrorTerminationDropsResults := by
  intro i s t e h he
  obtain ⟨x, u, rfl, rfl⟩ : ∃ x u, x.kind = e ∧ t = errorTerminate x u := by
    rcases exec_error h he with ⟨x, -, hx, ht⟩ | ⟨x, u, -, -, hx, ht⟩
    · exact ⟨x, _, hx, ht⟩
    · exact ⟨x, u, hx, ht⟩
  obtain ⟨⟨hbusy, hdone, -, -, -, hnone⟩, hcode⟩ := errorTerminate_endedWith x u
  exact ⟨hbusy, hdone, rfl, hcode, hnone, noCommandChangesOperands i s _ h, exec_mem h⟩

/-! ### Illegal words (R235) -/

theorem engineTurn_illegal {c : Word} {d : DecodeError} (hc : s.running = some c) (hd : decode c = .error d) :
    engineTurn s = .next (errorTerminate { kind := .illegalCommand, info := c } (accept c s)) := by
  simp only [engineTurn, hc, hd, runIllegal]

/-- Settles O7: a word that is the word of no command is rejected by the decoder, and its acceptance is all that is
made of it before the error. -/
theorem illegalWordEndsWithIllegalCommand : Obligations.IllegalWordEndsWithIllegalCommand := by
  intro s c hin hc hno
  rw [step_of_noInputs hin]
  cases hd : decode c with
  | ok i => exact absurd (encode_of_decode hd) (hno i)
  | error d => exact ⟨_, engineTurn_illegal hc hd, errorTerminate_accept _ c s⟩

/-! ### Tables that are not valid (R236) -/

theorem admission_of_not_ready (h : tablesReady i s = false) :
    admission i s = some { kind := .sequence, info := encode i } := by
  simp [admission, h]

/-- Settles O26: the tables are the first thing that is checked of a command. -/
theorem sequenceErrorWithoutTable : Obligations.SequenceErrorWithoutTable := by
  intro i s hi
  have hready : tablesReady i s = false := by
    rcases hi with ⟨rfl, h⟩ | ⟨rfl, h⟩ | ⟨rfl, h | h⟩ | ⟨rfl, h⟩ <;> simp [tablesReady, h]
  exact ⟨_, exec_of_admission (admission_of_not_ready hready), errorTerminate_accept _ _ s⟩

end Sys2Proof.Machine
end

section
/-! PROOFS. Which stage raises which error (60_exceptions.md R230 to R242): piece by piece, up to the stages of a
command. -/

namespace Sys2Proof.Machine

variable {α β : Type}

/-! ### What a piece raises -/

/-- Every error the piece raises is, with the state it is raised in, one of `P`. -/
def Raises (P : Raise → State → Prop) (m : Engine α) : Prop := ∀ s x t, m.run s = .error x t → P x t

/-- Where one piece after the other raises an error, the first raises it, or the second after the first has run to its
end. -/
theorem error_of_run_bind {m : Engine α} {f : α → Engine β} {s t : State} {x : Raise}
    (h : (m >>= f).run s = .error x t) :
    m.run s = .error x t ∨ ∃ a u, m.run s = .ok a u ∧ (f a).run u = .error x t := by
  cases hm : m.run s with
  | error y u =>
    rw [run_bind_error hm] at h
    cases h
    exact .inl rfl
  | ok a u => exact .inr ⟨a, u, rfl, run_bind_ok hm ▸ h⟩

section
variable {P Q : Raise → State → Prop} {m n : Engine α}

theorem Raises.mono (h : Raises P m) (hPQ : ∀ x t, P x t → Q x t) : Raises Q m := fun s x t hr => hPQ x t (h s x t hr)

theorem raises_pure (a : α) : Raises P (pure a : Engine α) := fun s x t h => by cases h

theorem raises_modify (f : State → State) : Raises P (modify f : Engine Unit) := fun s x t h => by cases h

theorem raises_set (u : State) : Raises P (set u : Engine Unit) := fun s x t h => by cases h

theorem raises_throw {x : Raise} (h : ∀ t, P x t) : Raises P (throw x : Engine α) := fun s y t hr => by
  cases hr
  exact h s

theorem raises_bind {f : α → Engine β} (hm : Raises P m) (hf : ∀ a, Raises P (f a)) : Raises P (m >>= f) := by
  intro s x t h
  rcases error_of_run_bind h with hr | ⟨a, u, -, hr⟩
  · exact hm s x t hr
  · exact hf a u x t hr

theorem raises_look {f : State → Engine α} (h : ∀ s, Raises P (f s)) : Raises P (get >>= f) := fun s => h s s

theorem raises_ite {p : Prop} [Decidable p] (hm : Raises P m) (hn : Raises P n) : Raises P (if p then m else n) := by
  split
  · exact hm
  · exact hn

end

/-! ### The memory port (00_scope.md R12) -/

/-- BusError (R242). -/
def BusRaised (x : Raise) (_ : State) : Prop := x.kind = .bus

/-- BusError, or DstOverflow at the capacity (R238). -/
def PutRaised (x : Raise) (t : State) : Prop :=
  x.kind = .bus ∨ x.kind = .dstOverflow ∧ x.info = t.dstCap ∧ t.cursor = t.dstCap.toNat

theorem srcByte_raises (i : Nat) : Raises BusRaised (srcByte i) := by
  intro s x t h
  rw [srcByte_run, memRead_run] at h
  split at h
  · cases h
  · cases h
    rfl

theorem put_raises (b : Byte) : Raises PutRaised (put b) := by
  intro s x t h
  rw [put_run] at h
  split at h
  · rename_i hcap
    cases h
    exact .inr ⟨rfl, rfl, hcap⟩
  · split at h
    · cases h
    · cases h
      exact .inl rfl

theorem putStr_raises (l : List Byte) : Raises PutRaised (putStr l) := by
  induction l with
  | nil => exact raises_pure ()
  | cons b l ih => exact raises_bind (put_raises b) fun _ => ih

/-! ### The stages -/

/-- The errors each stage raises (R231 to R234, R238, R242). -/
def Stage.errors : Stage → List ErrKind
  | .freq => [.emptyInput, .bus]
  | .emit => [.unknownSymbol, .dstOverflow, .bus]
  | .parse => [.malformedArtifact, .bus]
  | .matchBits => [.unmatchedBits, .malformedArtifact, .dstOverflow, .bus]
  | .none | .ptab | .tree => []

/-- RangeError is found before any stage (R237). -/
theorem range_not_mem_errors (st : Stage) : .range ∉ st.errors := by
  cases st <;> decide

/-- One of the errors of the stage `st`; a DstOverflow is raised at the capacity (R238). -/
def ErrorOf (st : Stage) (x : Raise) (t : State) : Prop :=
  x.kind ∈ st.errors ∧ (x.kind = .dstOverflow → x.info = t.dstCap ∧ t.cursor = t.dstCap.toNat)

section
variable {st : Stage}

theorem errorOf_throw {k : ErrKind} {info : Word} (h : k ∈ st.errors) (hk : k ≠ .dstOverflow) :
    Raises (ErrorOf st) (throw { kind := k, info := info } : Engine α) :=
  raises_throw fun _ => ⟨h, fun hd => absurd hd hk⟩

theorem errorOf_srcByte (h : .bus ∈ st.errors) (i : Nat) : Raises (ErrorOf st) (srcByte i) :=
  (srcByte_raises i).mono fun x t hx => by
    rw [BusRaised] at hx
    exact ⟨hx ▸ h, fun hd => by cases hx.symm.trans hd⟩

theorem PutRaised.errorOf {x : Raise} {t : State} (hx : PutRaised x t) (hbus : .bus ∈ st.errors)
    (hfull : .dstOverflow ∈ st.errors) : ErrorOf st x t := by
  rcases hx with hx | ⟨hx, hat⟩
  · exact ⟨hx ▸ hbus, fun hd => by cases hx.symm.trans hd⟩
  · exact ⟨hx ▸ hfull, fun _ => hat⟩

end

theorem errorOf_freqBegin : Raises (ErrorOf .freq) freqBegin :=
  raises_bind (raises_modify _) fun _ => raises_look fun _ =>
    raises_ite (errorOf_throw (by decide) ErrKind.noConfusion) (raises_modify _)

theorem errorOf_freqLoop (n i : Nat) : Raises (ErrorOf .freq) (freqLoop n i) := by
  induction n generalizing i with
  | zero => exact raises_pure ()
  | succ n ih =>
    exact raises_bind (errorOf_srcByte (by decide) i) fun _ => raises_bind (raises_modify _) fun _ => ih _

theorem errorOf_freqStage : Raises (ErrorOf .freq) freqStage :=
  raises_bind errorOf_freqBegin fun _ => raises_look fun _ =>
    raises_bind (errorOf_freqLoop _ 0) fun _ => raises_modify _

theorem errorOf_putStr_emit (l : List Byte) : Raises (ErrorOf .emit) (putStr l) :=
  (putStr_raises l).mono fun _ _ hx => hx.errorOf (by decide) (by decide)

theorem errorOf_emitLoop (n j : Nat) : Raises (ErrorOf .emit) (emitLoop n j) := by
  induction n generalizing j with
  | zero => exact raises_pure ()
  | succ n ih =>
    exact raises_bind (errorOf_srcByte (by decide) j) fun _ => raises_look fun _ =>
      raises_ite (errorOf_throw (by decide) ErrKind.noConfusion)
        (raises_bind (errorOf_putStr_emit _) fun _ => ih _)

theorem errorOf_emitStage : Raises (ErrorOf .emit) emitStage :=
  raises_bind (raises_modify _) fun _ => raises_look fun _ => raises_bind (errorOf_putStr_emit _) fun _ =>
    raises_look fun _ => raises_look fun _ => raises_bind (errorOf_emitLoop _ 0) fun _ => raises_modify _

theorem errorOf_parseLoop (left pos : Nat) (p : Parser) : Raises (ErrorOf .parse) (parseLoop left pos p) := by
  induction left generalizing pos p with
  | zero => exact raises_look fun _ => errorOf_throw (by decide) ErrKind.noConfusion
  | succ left ih =>
    refine raises_bind (errorOf_srcByte (by decide) pos) fun b => raises_look fun s => ?_
    cases parseByte p s.codes b with
    | bad => exact errorOf_throw (by decide) ErrKind.noConfusion
    | more p' t => exact raises_bind (raises_set _) fun _ => ih _ p'
    | done => exact raises_set _

theorem errorOf_parseStage : Raises (ErrorOf .parse) parseStage :=
  raises_bind (raises_bind (raises_modify _) fun _ => raises_modify _) fun _ =>
    raises_look fun _ => errorOf_parseLoop _ 0 _

theorem errorOf_matchLoop (left j : Nat) (acc : Codeword) (start : Nat) :
    Raises (ErrorOf .matchBits) (matchLoop left j acc start) := by
  induction left generalizing j acc start with
  | zero => exact raises_ite (raises_pure ()) (errorOf_throw (by decide) ErrKind.noConfusion)
  | succ left ih =>
    refine raises_bind (errorOf_srcByte (by decide) j) fun b =>
      raises_ite (errorOf_throw (by decide) ErrKind.noConfusion) (raises_look fun s => ?_)
    dsimp only
    cases findSymbol s.codes (acc ++ [charBit b]) with
    | some c =>
      exact raises_bind ((put_raises c).mono fun _ _ hx => hx.errorOf (by decide) (by decide)) fun _ => ih _ _ _
    | none => exact ih _ _ _

theorem errorOf_matchStage (base : Nat) : Raises (ErrorOf .matchBits) (matchStage base) :=
  raises_bind (raises_modify _) fun _ => raises_look fun _ =>
    raises_bind (errorOf_matchLoop _ base [] base) fun _ => raises_modify _

/-! ### The commands -/

/-- The stages of a command that can raise an error (30_encoding.md R101, column "stages run"). -/
def raisingStages : Instr → List Stage
  | .freq => [.freq]
  | .emit => [.emit]
  | .encode => [.freq, .emit]
  | .parse => [.parse]
  | .matchBits => [.matchBits]
  | .decode => [.parse, .matchBits]
  | .nop | .clear | .ptab | .tree => []

/-- Raised in one of the stages, and an error of that stage. -/
def RaisedIn (l : List Stage) (x : Raise) (t : State) : Prop := t.stage ∈ l ∧ ErrorOf t.stage x t

theorem Raises.inStage {st : Stage} {l : List Stage} {m : Engine α} (h : Raises (ErrorOf st) m) (hst : Enters st m)
    (hl : st ∈ l) : Raises (RaisedIn l) m := by
  intro s x t hr
  have hstage : t.stage = st := by
    have hend := hst s
    rwa [hr] at hend
  rw [RaisedIn, hstage]
  exact ⟨hl, h s x t hr⟩

theorem raises_ptabStage {P : Raise → State → Prop} : Raises P ptabStage :=
  raises_bind (raises_modify _) fun _ => raises_modify _

theorem raises_treeStage {P : Raise → State → Prop} : Raises P treeStage :=
  raises_bind (raises_modify _) fun _ => raises_modify _

/-- Every error of the stages of a command is raised in one of them, and is an error of that stage. -/
theorem stages_raises (c : Instr) : Raises (RaisedIn (raisingStages c)) (stages c) := by
  cases c with
  | nop => exact raises_pure ()
  | clear => exact raises_modify _
  | ptab => exact raises_ptabStage
  | tree => exact raises_treeStage
  | freq => exact errorOf_freqStage.inStage enters_freqStage (by decide)
  | emit => exact errorOf_emitStage.inStage enters_emitStage (by decide)
  | encode =>
    exact raises_bind (errorOf_freqStage.inStage enters_freqStage (by decide)) fun _ =>
      raises_bind raises_ptabStage fun _ => raises_bind raises_treeStage fun _ =>
        errorOf_emitStage.inStage enters_emitStage (by decide)
  | parse => exact errorOf_parseStage.inStage enters_parseStage (by decide)
  | matchBits => exact (errorOf_matchStage 0).inStage (enters_matchStage 0) (by decide)
  | decode =>
    exact raises_bind (errorOf_parseStage.inStage enters_parseStage (by decide)) fun _ => raises_look fun s =>
      (errorOf_matchStage s.bsOff.toNat).inStage (enters_matchStage _) (by decide)

end Sys2Proof.Machine
end

section
/-! PROOFS. Which command ends with which error (60_exceptions.md R230): a bad region (R237), an empty source region
(R231), and error by error the commands and the stages. -/

namespace Sys2Proof.Machine

variable {i : Instr} {s t : State}

/-! ### Bad regions (R237; 20_memory.md R77) -/

theorem usesSource_iff (i : Instr) :
    usesSource i = true ↔ i ∈ [.freq, .emit, .encode, .parse, .matchBits, .decode] := by
  cases i <;> decide

theorem usesDest_iff (i : Instr) : usesDest i = true ↔ i ∈ [.emit, .encode, .matchBits, .decode] := by
  cases i <;> decide

/-- The column "destination region" of R103 lies inside the column "source region". -/
theorem usesSource_of_usesDest (h : usesDest i = true) : usesSource i = true := by
  cases i with
  | emit | encode | matchBits | decode => rfl
  | nop | clear | freq | ptab | tree | parse => cases h

theorem sourceWraps_iff (s : State) : sourceWraps s = true ↔ 2 ^ 32 < s.srcAddr.toNat + s.srcLen.toNat :=
  decide_eq_true_iff

theorem destWraps_iff (s : State) : destWraps s = true ↔ 2 ^ 32 < s.dstAddr.toNat + s.dstCap.toNat :=
  decide_eq_true_iff

theorem regionsOverlap_iff (s : State) :
    regionsOverlap s = true ↔ 0 < s.srcLen.toNat ∧ 0 < s.dstCap.toNat
      ∧ s.srcAddr.toNat < s.dstAddr.toNat + s.dstCap.toNat ∧ s.dstAddr.toNat < s.srcAddr.toNat + s.srcLen.toNat := by
  simp only [regionsOverlap, Bool.and_eq_true, decide_eq_true_eq, and_assoc]

/-- A region is bad where a region the command uses wraps, or the two it uses overlap. -/
theorem rangeBad_iff (i : Instr) (s : State) :
    rangeBad i s = true ↔ (usesSource i = true ∧ sourceWraps s = true) ∨ (usesDest i = true ∧ destWraps s = true)
      ∨ (usesDest i = true ∧ regionsOverlap s = true) := by
  have hboth : usesSource i = true ∧ usesDest i = true ↔ usesDest i = true :=
    and_iff_right_of_imp usesSource_of_usesDest
  simp only [rangeBad, Bool.or_eq_true, Bool.and_eq_true, hboth, or_assoc]

theorem usesSource_of_rangeBad (h : rangeBad i s = true) : usesSource i = true := by
  rcases (rangeBad_iff i s).1 h with ⟨hs, -⟩ | ⟨hd, -⟩ | ⟨hd, -⟩
  · exact hs
  · exact usesSource_of_usesDest hd
  · exact usesSource_of_usesDest hd

theorem admission_of_rangeBad (hready : tablesReady i s = true) (hbad : rangeBad i s = true) :
    admission i s = some { kind := .range, info := encode i } := by
  simp [admission, hready, hbad]

/-- A command that ends with RangeError has a bad region, and has done nothing before the error. -/
theorem exec_range (h : exec i s = .next t) (he : t.err = some .range) :
    rangeBad i s = true ∧ t = errorTerminate { kind := .range, info := encode i } (accept (encode i) s) := by
  rcases exec_error h he with ⟨x, hx, hk, ht⟩ | ⟨x, u, -, hr, hk, -⟩
  · rcases admission_some hx with ⟨-, rfl⟩ | ⟨hbad, rfl⟩
    · cases hk
    · exact ⟨hbad, ht⟩
  · obtain ⟨-, herr, -⟩ := stages_raises i _ x u hr
    exact absurd (hk ▸ herr) (range_not_mem_errors _)

/-- Settles O27: the check of the regions raises RangeError, and no stage does. -/
theorem rangeErrorOnBadRegion : Obligations.RangeErrorOnBadRegion := by
  intro i s hready
  simp only [← usesSource_iff, ← usesDest_iff, ← sourceWraps_iff, ← destWraps_iff, ← regionsOverlap_iff]
  rw [← rangeBad_iff]
  refine ⟨⟨fun hbad => ⟨_, exec_of_admission (admission_of_rangeBad hready hbad), rfl⟩,
    fun ⟨t, h, he⟩ => (exec_range h he).1⟩, fun t h he => ?_⟩
  rw [(exec_range h he).2]
  exact errorTerminate_accept _ _ s

/-! ### Empty source regions (R231) -/

theorem freqStage_empty (h : s.srcLen = 0) :
    freqStage.run s = .error { kind := .emptyInput, info := 0 } { s with stage := .freq } := by
  refine run_bind_error ?_
  rw [freqBegin_run, if_pos h]

/-- Settles O28: the FREQ stage, the first of both commands, begins by looking at SRC_LEN. -/
theorem emptyInputErrorOnEmptySource : Obligations.EmptyInputErrorOnEmptySource := by
  intro i s hi ha hlen
  have hr : (stages i).run (accept (encode i) s) =
      .error { kind := .emptyInput, info := 0 } { accept (encode i) s with stage := .freq } := by
    cases i with
    | freq => exact freqStage_empty hlen
    | encode => exact encodeStages_empty hlen
    | nop | clear | ptab | tree | emit | parse | matchBits | decode => exact absurd hi (by decide)
  obtain ⟨hend, hcode⟩ := errorTerminate_endedWith { kind := .emptyInput, info := 0 }
    { accept (encode i) s with stage := .freq }
  exact ⟨_, exec_of_error ha hr, hend, hcode, ⟨rfl, rfl⟩, rfl, (OffPort.refl s).operands⟩

/-! ### Full destination regions (R238) -/

/-- Where a command ends with DstOverflow the destination region is full. -/
theorem exec_dstOverflow (h : exec i s = .next t) (he : t.err = some .dstOverflow) :
    t.errInfo = s.dstCap ∧ (writesOf t.accesses).length = s.dstCap.toNat := by
  obtain ⟨x, u, -, hr, hk, rfl⟩ := exec_error_of_stages h he (by decide) (by decide)
  obtain ⟨-, -, hfull⟩ := stages_raises i _ x u hr
  obtain ⟨hinfo, hcap⟩ := hfull hk
  obtain ⟨bytes, hputs⟩ := (built_stages i).stores (accept (encode i) s)
  rw [hr] at hputs
  have hops : u.dstCap = s.dstCap := hputs.operands.dstCap
  have hcur : u.cursor = bytes.length := hputs.cursor.trans (Nat.zero_add _)
  have hwrites : writesOf u.accesses = (accept (encode i) s).writesAt 0 bytes := hputs.writes
  refine ⟨hinfo.trans hops, ?_⟩
  calc (writesOf u.accesses).length
      = bytes.length := by rw [hwrites, State.writesAt_length]
    _ = s.dstCap.toNat := by rw [← hcur, hcap, hops]

/-! ### Unknown bytes (R179, R232) -/

/-- FREQ that did not end with BusError, in ENCODE too, found its source region readable. -/
theorem srcReadable_of_freq (hi : i ∈ [.freq, .encode]) (ha : admitted i s = true) (h : exec i s = .next t)
    (he : t.err ≠ some .bus) : srcReadable s = true := by
  have hok : ∀ j, j < s.srcLen.toNat → s.memOK (s.srcAt j) .read = true := by
    intro j
    induction j using Nat.strong_induction_on with
    | _ j ih =>
      intro hj
      by_contra hno
      obtain ⟨u, hu, ⟨-, -, hbus, -⟩, -⟩ :=
        freq_refused hi ha hj (fun k hk => ih k hk (hk.trans hj)) (Bool.eq_false_iff.2 hno)
      cases h.symm.trans hu
      exact he hbus
  simpa [srcReadable] using hok

theorem PutRaised.known {x : Raise} {u : State} (h : PutRaised x u) : x.kind ≠ .unknownSymbol := by
  rcases h with hx | ⟨hx, -⟩ <;> rw [hx] <;> exact ErrKind.noConfusion

/-- Where every byte has a codeword the loop raises no UnknownSymbolError. -/
theorem emitLoop_known_error {l : List Byte} {j : Nat} {x : Raise} {u : State} (h : Supplied s j l)
    (hknown : ∀ b ∈ l, s.codes.len b ≠ 0) (hcap : s.cursor ≤ s.dstCap.toNat)
    (hr : (emitLoop l.length j).run s = .error x u) : x.kind ≠ .unknownSymbol := by
  induction l generalizing j s with
  | nil => cases hr
  | cons b l ih =>
    obtain ⟨hb, hl⟩ := List.forall_mem_cons.1 hknown
    rw [List.length_cons, emitLoop_known h hb] at hr
    rcases error_of_run_bind hr with hput | ⟨_, t, ht, hrest⟩
    · exact (putStr_raises _ _ _ _ hput).known
    · have hpacks := (afterRead_packs s j b).trans (putStr_ok ht)
      have hcapt := hpacks.puts.room hcap
      have hnext : Supplied t (j + 1) l := h.right (l := [b]) hpacks.puts hcapt
      rw [← hpacks.port.codes] at hl
      exact ih hnext hl (hpacks.puts.operands.dstCap ▸ hcapt) hrest

/-- Where every source byte has a codeword EMIT raises no UnknownSymbolError. -/
theorem emitStage_known_error {x : Raise} {u : State} (hfresh : Fresh s { t with stage := .emit })
    (h : Supplied s 0 (srcBytes s)) (hknown : ∀ b ∈ srcBytes s, t.codes.len b ≠ 0)
    (hr : emitStage.run t = .error x u) : x.kind ≠ .unknownSymbol := by
  rw [emitStage_run, headerFrom] at hr
  rcases error_of_run_bind hr with hput | ⟨_, w, hw, -⟩
  · exact (putStr_raises _ _ _ _ hput).known
  · have hpacks := putStr_ok hw
    rw [← headerFrom, headerFrom_run hfresh.cursor hw hpacks.puts, hfresh.operands.srcLen, ← srcBytes_length] at hr
    have hcap := hpacks.puts.room (hfresh.cursor ▸ Nat.zero_le _)
    have hsupp : Supplied w 0 (srcBytes s) := (hfresh.supplied h).right (l := []) hpacks.puts hcap
    have hcodes : w.codes = t.codes := hpacks.port.codes
    rw [← hcodes] at hknown
    rcases error_of_run_bind hr with hloop | ⟨_, v, -, hresults⟩
    · exact emitLoop_known_error hsupp hknown (hpacks.puts.operands.dstCap ▸ hcap) hloop
    · cases hresults

/-- With no race ENCODE knows every byte of its input (42_encoder.md R179). -/
theorem encode_known (hq : quiet s) (h : exec .encode s = .next t) : t.err ≠ some .unknownSymbol := by
  intro he
  obtain ⟨x, u, ha, hr, hk, rfl⟩ := exec_error_of_stages h he (by decide) (by decide)
  have hread : srcReadable s = true := srcReadable_of_freq (by decide) ha h (by rw [he]; decide)
  have hne : s.srcLen ≠ 0 := fun h0 => by
    cases (encodeStages_empty (s := accept (encode .encode) s) h0).symm.trans hr
    cases hk
  obtain ⟨w, hstages, hbegun, htables, -⟩ := encodeStages_run (s := accept (encode .encode) s) hq hread hne rfl
  have hfresh : Fresh s { w with stage := .emit } := ⟨hbegun.operands, hbegun.raced, hbegun.mem, hbegun.cursor⟩
  exact emitStage_known_error hfresh (supplied_of_admitted ha rfl rfl hq hread)
    (htables.known (srcBytes_length_lt s) (one_le_alphabetSize_srcBytes hne)) (hstages.symm.trans hr) hk

/-! ### The column "raised by" (R230) -/

/-- The commands of R236. -/
theorem mem_of_not_tablesReady (h : tablesReady i s = false) : i ∈ [.ptab, .tree, .emit, .matchBits] := by
  cases i with
  | ptab | tree | emit | matchBits => decide
  | nop | clear | freq | encode | parse | decode => cases h

/-- Each stage that raises errors is run by two commands (30_encoding.md R101). -/
theorem mem_raisingStages {st : Stage} (h : st ∈ raisingStages i) :
    (i ∈ [.freq, .encode] ∧ st = .freq) ∨ (i ∈ [.emit, .encode] ∧ st = .emit)
      ∨ (i ∈ [.parse, .decode] ∧ st = .parse) ∨ (i ∈ [.matchBits, .decode] ∧ st = .matchBits) := by
  revert st
  cases i <;> decide

/-- Where an error comes from: an admission check, or one of the four stages that raise errors. -/
theorem exec_error_origin {e : ErrKind} (h : exec i s = .next t) (he : t.err = some e) :
    (e = .sequence ∧ i ∈ [.ptab, .tree, .emit, .matchBits] ∧ t.stage = .none)
      ∨ (e = .range ∧ i ∈ [.freq, .emit, .encode, .parse, .matchBits, .decode] ∧ t.stage = .none)
      ∨ (e ∈ Stage.errors .freq ∧ i ∈ [.freq, .encode] ∧ t.stage = .freq)
      ∨ (e ∈ Stage.errors .emit ∧ i ∈ [.emit, .encode] ∧ t.stage = .emit)
      ∨ (e ∈ Stage.errors .parse ∧ i ∈ [.parse, .decode] ∧ t.stage = .parse)
      ∨ (e ∈ Stage.errors .matchBits ∧ i ∈ [.matchBits, .decode] ∧ t.stage = .matchBits) := by
  rcases exec_error h he with ⟨x, hx, rfl, rfl⟩ | ⟨x, u, -, hr, rfl, rfl⟩
  · rcases admission_some hx with ⟨hready, rfl⟩ | ⟨hbad, rfl⟩
    · exact .inl ⟨rfl, mem_of_not_tablesReady hready, rfl⟩
    · exact .inr (.inl ⟨rfl, (usesSource_iff i).1 (usesSource_of_rangeBad hbad), rfl⟩)
  · obtain ⟨hst, herr, -⟩ := stages_raises i _ x u hr
    rcases mem_raisingStages hst with ⟨hi, hst⟩ | ⟨hi, hst⟩ | ⟨hi, hst⟩ | ⟨hi, hst⟩ <;> rw [hst] at herr
    · exact .inr (.inr (.inl ⟨herr, hi, hst⟩))
    · exact .inr (.inr (.inr (.inl ⟨herr, hi, hst⟩)))
    · exact .inr (.inr (.inr (.inr (.inl ⟨herr, hi, hst⟩))))
    · exact .inr (.inr (.inr (.inr (.inr ⟨herr, hi, hst⟩))))

/-- UnknownSymbolError ends EMIT, and ENCODE with a race alone (42_encoder.md R179). -/
theorem exec_unknownSymbol (h : exec i s = .next t) (he : t.err = some .unknownSymbol) :
    (i = .emit ∨ (i = .encode ∧ ¬ quiet s)) ∧ t.stage = .emit := by
  have horigin : (i = .emit ∨ i = .encode) ∧ t.stage = .emit := by
    simpa [Stage.errors] using exec_error_origin h he
  obtain ⟨rfl | rfl, hst⟩ := horigin
  · exact ⟨.inl rfl, hst⟩
  · exact ⟨.inr ⟨rfl, fun hq => encode_known hq h he⟩, hst⟩

/-- Settles O30: error by error, the places it can come from. -/
theorem errorsComeFromTheirCommands : Obligations.ErrorsComeFromTheirCommands := by
  intro i s t h
  have hlegal : t.err ≠ some .illegalCommand := fun he => by
    have horigin := exec_error_origin h he
    simp [Stage.errors] at horigin
  refine ⟨fun he => ?_, exec_unknownSymbol h, fun he => ?_, fun he => ?_, hlegal, fun he => ?_, fun he => ?_,
    fun he => ⟨?_, exec_dstOverflow h he⟩, fun he => ?_⟩
  all_goals
    have horigin := exec_error_origin h he
    simpa [Stage.errors] using horigin

end Sys2Proof.Machine
end

section
/-! PROOFS. The interrupt line (10_state.md R48; 60_exceptions.md R247, R248): where it rises and where it falls. -/

namespace Sys2Proof.Machine

variable {s t : State}

/-! ### Terminations (R247) -/

/-- Every command ends with one termination. -/
theorem exec_terminates {i : Instr} (h : exec i s = .next t) : t.busy = false ∧ t.done = true ∧ t.ie = s.ie := by
  have hie := (noCommandChangesOperands i s t h).1
  obtain ⟨m, -, -, rfl⟩ := exec_runs h
  exact ⟨terminate_busy _, terminate_done _, hie⟩

/-- The engine's turn ends what runs with one termination. -/
theorem engineTurn_terminates (hb : s.busy = true) (h : engineTurn s = .next t) :
    t.busy = false ∧ t.done = true ∧ t.ie = s.ie := by
  rcases engineTurn_cases s with ⟨hnone, -⟩ | ⟨w, d, hw, hd, -⟩ | ⟨w, c, -, -, -, hexec⟩ | ⟨w, c, -, -, hp, hrest⟩
  · rw [State.busy, hnone] at hb
    cases hb
  · rw [engineTurn_illegal hw hd] at h
    cases h
    exact ⟨rfl, rfl, rfl⟩
  · exact exec_terminates (hexec.symm.trans h)
  · cases hrest.symm.trans h
    obtain ⟨hie, -⟩ := (built_finish c hp).operands s.resumed
    exact ⟨terminate_busy _, terminate_done _, (terminate_frame _).1.trans hie⟩

/-- The access after which no command runs any more is the end of the engine's turn. -/
theorem engineTurn_of_last_access (h : accessTurn s = .next t) (hidle : t.busy = false) : engineTurn s = .next t := by
  rw [engineTurn_eq_access, h]
  exact engineTurn_idle hidle

theorem irq_of_done (hd : t.done = true) (hie : t.ie = s.ie) : t.irq = s.ie := by
  rw [State.irq, hd, hie, Bool.and_true]

/-! ### Host writes (R248) -/

theorem irq_writeStatus (s : State) (v : Word) : (s.writeStatus v).irq = (s.irq && !v.getLsbD 1) := by
  rw [writeStatus_eq, State.irq, State.irq, Bool.and_assoc]

theorem irq_resetRegisters (s : State) : (resetRegisters s).irq = false := rfl

/-- Settles O14: a termination sets DONE and leaves CTRL; the rest are the ways DONE or IE is cleared. -/
theorem irqRisesAtTerminationAndFalls : Obligations.IrqRisesAtTerminationAndFalls := by
  refine ⟨fun i s t h => ?_, fun s t hb h => ?_, fun s t hb h hidle => ?_, fun s v hb hr => ?_, fun s t h => ?_,
    fun s => ⟨rfl, fun hr => ?_⟩, fun s hinv hr => ?_⟩
  · obtain ⟨-, hd, hie⟩ := exec_terminates h
    exact irq_of_done hd hie
  · obtain ⟨hidle, hd, hie⟩ := engineTurn_terminates hb h
    exact ⟨hidle, irq_of_done hd hie⟩
  · obtain ⟨-, hd, hie⟩ := engineTurn_terminates hb (engineTurn_of_last_access h hidle)
    exact irq_of_done hd hie
  · have hwrite : ∀ idx, portWrite idx v s = writeIdle v s (regAt idx) := fun idx => portWrite_idle hb hr idx v
    have hstatus : (portWrite 2 v s).irq = (s.irq && !v.getLsbD 1) := by
      rw [hwrite]
      exact irq_writeStatus s v
    have hctrl : (portWrite 1 v s).irq = (v.getLsbD 0 && s.done) := by
      rw [hwrite]
      rfl
    have hcmd : (portWrite 3 v s).irq = false := by
      rw [hwrite]
      exact Bool.and_false s.ie
    refine ⟨fun hv => ?_, fun hv => ?_, fun hv => ?_, hcmd⟩
    · rw [hstatus, hv, Bool.not_true, Bool.and_false]
    · rw [hstatus, hv, Bool.not_false, Bool.and_true]
    · rw [hctrl, hv, Bool.false_and]
  · cases h
    exact irq_resetRegisters s
  · rw [driveReset_release hr]
    exact irq_resetRegisters s
  · rw [hinv.held hr]
    rfl

end Sys2Proof.Machine
end

section
/-! PROOFS. Reset (70_reset_and_hazards.md R260) and the host port of a running engine (R264). -/

namespace Sys2Proof.Machine

/-! ### The reset state (10_state.md R52) -/

/-- Below the windows stand the registers (R21). -/
theorem regAt_low {idx : BitVec 12} (h : idx.toNat < 256) : regAt idx = lowReg idx.toNat := by
  unfold regAt
  exact if_pos h

/-- After reset every register but ID is 0. -/
theorem readIdle_resetRegisters (s : State) (l : List Event) (r : Bool) {k : Nat} (h0 : 0 < k) :
    readIdle { resetRegisters s with inputs := l, rst := r } (lowReg k) = some 0 := by
  by_cases h : k < 14
  · have hreset : readIdle State.reset (lowReg k) = some 0 := by interval_cases k <;> decide
    rw [← hreset]
    interval_cases k <;> rfl
  · unfold lowReg
    iterate 14 rw [if_neg (by omega)]
    rfl

theorem atReset_resetRegisters (s : State) (l : List Event) (r : Bool) :
    AtReset { resetRegisters s with inputs := l, rst := r } := by
  have idle : ∀ l', State.busy { resetRegisters s with inputs := l', rst := r } = false := fun _ => rfl
  refine ⟨rfl, fun idx h0 h => ?_, rfl, rfl, rfl, rfl, rfl, rfl, rfl, rfl, ?_⟩
  · refine portValue_of_readIdle (idle l) ?_
    rw [regAt_low h]
    exact readIdle_resetRegisters s l r h0
  · exact (step_of_noInputs rfl).trans (engineTurn_idle (idle []))

/-- A step on a pulse of `rst`, on its assertion, or on its release. -/
theorem step_reset {s : State} {e : Event} {rest : List Event}
    (he : e = .reset ∨ e = .rst true ∨ (e = .rst false ∧ s.rst = true)) (hin : s.inputs = e :: rest) :
    step s = .next { resetRegisters s with inputs := rest, rst := decide (e = .rst true) } := by
  rw [step_event hin]
  rcases he with rfl | rfl | ⟨rfl, hr⟩
  · rfl
  · rfl
  · exact congrArg _ (driveReset_release (s := { s with inputs := rest }) hr)

/-- Settles O8: every way to reset ends in the registers of R52, and the invariant says that they stay while `rst` is
held. -/
theorem resetLeavesEveryRegisterZero : Obligations.ResetLeavesEveryRegisterZero := by
  refine ⟨atReset_resetRegisters State.reset [] false, fun s e rest he hin => ?_, fun s hinv hr => ?_,
    fun s idx v rest hr hin => ?_, fun s rest hr hin => ?_⟩
  · exact ⟨_, step_reset he hin, atReset_resetRegisters s rest _, rfl, rfl, decide_eq_true_iff⟩
  · exact (congrArg AtReset (hinv.held hr)).mpr (atReset_resetRegisters s s.inputs true)
  · rw [step_portWrite hin, portWrite_held (s := { s with inputs := rest }) hr]
  · rw [step_event hin]
    exact congrArg _ (driveReset_released (s := { s with inputs := rest }) hr)

/-! ### The host port while BUSY = 1 (R264) -/

/-- A read of a word that has a value while BUSY = 1 returns it. -/
theorem portValue_of_readBusy {s : State} {idx : BitVec 12} {v : Word} (hb : s.busy = true)
    (h : readBusy s (Config.freeWord s.draws) (regAt idx) = some v) : portValue s idx = v := by
  rw [portValue_busy hb, h, Option.getD_some]

/-- A read of a word that has none returns the free value that stands ready (log 6). -/
theorem portValue_busy_free {s : State} {idx : BitVec 12} (hb : s.busy = true)
    (h : readBusy s (Config.freeWord s.draws) (regAt idx) = none) : portValue s idx = Config.freeWord s.draws := by
  rw [portValue_busy hb, h, Option.getD_none]

/-- Result registers and windows have no value while BUSY = 1. -/
theorem readBusy_unspecified (s : State) (free : Word) {idx : BitVec 12}
    (h : (8 ≤ idx.toNat ∧ idx.toNat < 14) ∨ (256 ≤ idx.toNat ∧ idx.toNat < 1536) ∨ 2048 ≤ idx.toNat) :
    readBusy s free (regAt idx) = none := by
  rcases h with ⟨h1, h2⟩ | ⟨h1, h2⟩ | h
  · rw [regAt_low (by omega)]
    generalize idx.toNat = k at h1 h2
    interval_cases k <;> rfl
  · unfold regAt
    dsimp only
    rw [if_neg (by omega)]
    repeat' split
    all_goals rfl
  · unfold regAt
    dsimp only
    iterate 6 rw [if_neg (by omega)]
    rfl

/-- The defined fields of STATUS while a command runs: BUSY alone is 1. -/
theorem statusLow_busy {s : State} (hb : s.busy = true) (hd : s.done = false) (he : s.err = none) :
    s.statusLow = 1 := by
  rw [State.statusLow, State.errBit, State.errCode, hb, hd, he]
  rfl

/-- Whatever the free fields are, the others are those of BUSY = 1. -/
theorem statusBusy_fields (free : Word) :
    (1 ||| (free &&& 0xF700)).extractLsb' 0 8 = 1#8 ∧ (1 ||| (free &&& 0xF700)).getLsbD 11 = false
      ∧ (1 ||| (free &&& 0xF700)).extractLsb' 16 16 = 0 := by
  refine ⟨?_, ?_, ?_⟩
  · rw [BitVec.extractLsb'_or, BitVec.extractLsb'_and, show (0xF700 : Word).extractLsb' 0 8 = 0#8 by decide,
      BitVec.and_zero]
    rfl
  · rw [BitVec.getLsbD_or, BitVec.getLsbD_and, show (0xF700 : Word).getLsbD 11 = false by decide, Bool.and_false]
    rfl
  · rw [BitVec.extractLsb'_or, BitVec.extractLsb'_and, show (0xF700 : Word).extractLsb' 16 16 = 0#16 by decide,
      BitVec.and_zero]
    rfl

/-- Settles O10: the map of R264, word by word. -/
theorem portAccessesWhileBusy : Obligations.PortAccessesWhileBusy := by
  intro s idx v rest hinv hb
  refine ⟨fun hin => ?_, fun hin => ⟨_, step_portRead hin, rfl, ?_⟩⟩
  · rw [step_portWrite hin, portWrite_busy (s := { s with inputs := rest }) hb]
  have value : ∀ {r : BitVec 12} {w : Word}, readBusy s (Config.freeWord s.draws) (regAt r) = some w →
      portValue s r = w := portValue_of_readBusy hb
  refine ⟨fun h => value (h ▸ rfl), fun h => value (h ▸ rfl), fun h => ?_, fun h => value (h ▸ rfl),
    fun h => value (h ▸ rfl), fun h => value (h ▸ rfl), fun h => value (h ▸ rfl), fun h => value ?_,
    fun h => portValue_busy_free hb (readBusy_unspecified s _ h)⟩
  · obtain ⟨hd, he⟩ := hinv.running hb
    obtain ⟨hlow, hbit, hhigh⟩ := statusBusy_fields (Config.freeWord s.draws)
    have status : portValue s idx = 1 ||| (Config.freeWord s.draws &&& 0xF700) := by
      rw [← statusLow_busy hb hd he]
      exact value (h ▸ rfl)
    dsimp only
    rw [status]
    exact ⟨hlow, hbit, hhigh, rfl⟩
  · rcases h with rfl | h
    · rfl
    · rw [regAt_reserved h]
      rfl

end Sys2Proof.Machine
end

section
/-! PROOFS. Every command ends (70_reset_and_hazards.md R268), in one turn of the engine and access by access. -/

namespace Sys2Proof.Machine

/-! ### In one turn -/

/-- Settles O17: a command is refused admission, or refused for device memory, or its stages run to a termination. -/
theorem everyCommandTerminates : Obligations.EveryCommandTerminates := by
  intro i s
  rw [exec_eq_runCommand]
  refine ⟨fun h => ?_, fun ⟨hdev, hready, hrange⟩ => ?_⟩
  · rcases runCommand_cases i (stages i) s with ⟨r, -, hrun⟩ | ⟨hadm, hdev, -⟩ | ⟨-, hrun⟩
    · exact ⟨_, hrun, rfl, rfl⟩
    · rcases admission_cases i s with ⟨-, ha⟩ | ⟨-, -, ha⟩ | ⟨hready, hrange, -⟩
      · cases ha.symm.trans hadm
      · cases ha.symm.trans hadm
      · simp [hdev, hready, hrange] at h
    · exact ⟨_, hrun, terminate_busy _, terminate_done _⟩
  · rcases runCommand_cases i (stages i) s with ⟨r, hadm, -⟩ | ⟨-, -, hrun⟩ | ⟨hadm, -⟩
    · simp [admission, hready, hrange] at hadm
    · exact hrun
    · cases hdev.symm.trans ((admitted_iff i s).1 hadm).2

/-! ### Where an access stops -/

/-- Every place the piece stops at satisfies `P`. -/
def StopsAt (P : Progress → Prop) (m : Engine (Option Progress)) : Prop := ∀ s q t, m.run s = .ok (some q) t → P q

section
variable {α : Type} {P : Progress → Prop}

theorem stopsAt_none : StopsAt P (pure none) := fun _ _ _ h => by cases h

theorem stopsAt_some {q : Progress} (hq : P q) : StopsAt P (pure (some q)) := fun _ _ _ h => by
  cases h
  exact hq

theorem stopsAt_throw (x : Raise) : StopsAt P (throw x) := fun _ _ _ h => by cases h

theorem stopsAt_bind {m : Engine α} {f : α → Engine (Option Progress)} (hf : ∀ a, StopsAt P (f a)) :
    StopsAt P (m >>= f) := by
  intro s q t h
  rw [run_bind] at h
  cases hr : m.run s with
  | ok a u =>
    rw [hr] at h
    exact hf a u q t h
  | error x u =>
    rw [hr] at h
    cases h

theorem stopsAt_ite {p : Prop} [Decidable p] {m n : Engine (Option Progress)} (hm : p → StopsAt P m)
    (hn : StopsAt P n) : StopsAt P (if p then m else n) := by
  split
  · exact hm ‹p›
  · exact hn

theorem stopsAt_emitBegin (h : ∀ l, P (.header l)) : StopsAt P emitBegin :=
  stopsAt_bind fun _ => stopsAt_bind fun _ => stopsAt_some (h _)

theorem stopsAt_matchBegin (base : Nat) (h : P (.matching base base [] base)) : StopsAt P (matchBegin base) :=
  stopsAt_bind fun _ => stopsAt_some h

theorem stopsAt_afterFreq (c : Instr) (h : ∀ l, P (.header l)) : StopsAt P (afterFreq c) := by
  cases c with
  | encode => exact stopsAt_bind fun _ => stopsAt_bind fun _ => stopsAt_emitBegin h
  | nop | clear | freq | ptab | tree | emit | parse | matchBits | decode => exact stopsAt_none

theorem stopsAt_afterParse (c : Instr) (h : ∀ base, P (.matching base base [] base)) : StopsAt P (afterParse c) := by
  cases c with
  | decode => exact stopsAt_bind fun _ => stopsAt_matchBegin _ (h _)
  | nop | clear | freq | ptab | tree | emit | encode | parse | matchBits => exact stopsAt_none

end

/-- A place is nearer to the end than the start. -/
theorem toGo_lt_start (len : Nat) {q : Progress} (hq : q ≠ .start) : q.toGo len < Progress.start.toGo len := by
  cases q with
  | start => exact absurd rfl hq
  | freq _ | header _ | bits _ _ _ | parse _ _ | matching _ _ _ _ | found _ _ _ _ => exact toLex_lt (by omega)

/-- Each access brings its command nearer to the end, whatever the state. -/
theorem advance_toGo {c : Instr} {p q : Progress} {s t : State} (h : (advance c p).run s = .ok (some q) t) :
    q.toGo s.srcLen.toNat < p.toGo s.srcLen.toNat := by
  have stops : ∀ {m : Engine (Option Progress)}, m.run s = .ok (some q) t →
      StopsAt (fun q => q.toGo s.srcLen.toNat < p.toGo s.srcLen.toNat) m →
      q.toGo s.srcLen.toNat < p.toGo s.srcLen.toNat := fun hr hm => hm _ _ _ hr
  cases p with
  | start => exact toGo_lt_start _ ((begin_piece c).2 s q t h)
  | freq i =>
    rw [advance, freqAccess, run_bind, run_get] at h
    refine stops h (stopsAt_ite (fun hi => ?_) ?_)
    · exact stopsAt_bind fun _ => stopsAt_bind fun _ => stopsAt_some (toLex_read hi)
    · exact stopsAt_bind fun _ => stopsAt_afterFreq c fun _ => toLex_lt (by omega)
  | header rest =>
    cases rest with
    | nil => exact stops h (stopsAt_bind fun _ => stopsAt_some (toLex_lt (by omega)))
    | cons b rest => exact stops h (stopsAt_bind fun _ => stopsAt_some (toLex_lt (by simp)))
  | bits hdr j rest =>
    cases rest with
    | nil =>
      rw [advance, bitsAccess, run_bind, run_get] at h
      refine stops h (stopsAt_ite (fun hj => ?_) ?_)
      · exact stopsAt_bind fun _ => stopsAt_bind fun _ =>
          stopsAt_ite (fun _ => stopsAt_throw _) (stopsAt_some (toLex_read hj))
      · exact stopsAt_bind fun _ => stopsAt_none
    | cons b rest => exact stops h (stopsAt_bind fun _ => stopsAt_some (toLex_lt (by simp)))
  | parse pos p =>
    rw [advance, parseAccess, run_bind, run_get] at h
    refine stops h (stopsAt_ite (fun hpos => ?_) (stopsAt_throw _))
    refine stopsAt_bind fun b => stopsAt_bind fun u => ?_
    cases parseByte p u.codes b with
    | bad => exact stopsAt_throw _
    | more p' codes => exact stopsAt_bind fun _ => stopsAt_some (toLex_read hpos)
    | done => exact stopsAt_bind fun _ => stopsAt_afterParse c fun _ => toLex_lt (by omega)
  | matching base j acc start =>
    rw [advance, matchAccess, run_bind, run_get] at h
    refine stops h (stopsAt_ite (fun hj => ?_)
      (stopsAt_ite (fun _ => stopsAt_bind fun _ => stopsAt_none) (stopsAt_throw _)))
    refine stopsAt_bind fun b => stopsAt_ite (fun _ => stopsAt_throw _) (stopsAt_bind fun u => ?_)
    dsimp only
    split <;> exact stopsAt_some (toLex_read hj)
  | found base j b start => exact stops h (stopsAt_bind fun _ => stopsAt_some (toLex_lt (by omega)))

/-! ### Access by access -/

/-- How much is left of the running command. -/
def State.toGo (s : State) : ℕ ×ₗ ℕ ×ₗ ℕ := s.progress.toGo s.srcLen.toNat

theorem pause_toGo {c : Instr} {p : Progress} {s : State} (h : (pause ((advance c p).run s)).busy = true) :
    (pause ((advance c p).run s)).toGo < p.toGo s.srcLen.toNat := by
  obtain ⟨q, u, hr, hpause⟩ := pause_busy h
  have hlen := ((built_advance c p).operands s).srcLen
  rw [hr] at hlen
  rw [hpause, State.toGo, show u.srcLen = s.srcLen from hlen]
  exact advance_toGo hr

theorem accessTurn_toGo {s u : State} (h : accessTurn s = .next u) (hb : u.busy = true) : u.toGo < s.toGo := by
  rcases accessTurn_next h with ⟨hrun, rfl⟩ | ⟨w, -, hi⟩ | ⟨c, -, ⟨r, rfl⟩ | ⟨hp, -, rfl⟩ | ⟨-, rfl⟩⟩
  · rw [State.busy, hrun] at hb
    cases hb
  · cases hi
    cases hb
  · cases hb
  · rw [State.toGo, State.toGo, hp]
    exact pause_toGo hb
  · exact pause_toGo hb

/-- Where the engine's turn ends, its accesses end after some number of them. -/
theorem accessTurns_end {s t : State} (h : engineTurn s = .next t) : ∃ n, accessTurns n s = .next t := by
  induction hg : s.toGo using WellFoundedLT.induction generalizing s with
  | ind g ih =>
    subst hg
    obtain ⟨u, ha, hu⟩ := accessTurn_of_engineTurn h
    have first : ∀ n, accessTurns (n + 1) s = accessTurns n u := fun n => by rw [accessTurns, ha]
    by_cases hb : u.busy = true
    · obtain ⟨n, hn⟩ := ih _ (accessTurn_toGo ha hb) hu rfl
      exact ⟨n + 1, (first n).trans hn⟩
    · refine ⟨1, (first 0).trans ?_⟩
      exact (engineTurn_idle (Bool.eq_false_iff.2 hb)).symm.trans hu

/-- Where the engine's turn ends, no number of accesses is stopped on the way. -/
theorem accessTurns_next {s t : State} (h : engineTurn s = .next t) (n : Nat) :
    ∃ m, accessTurns n s = .next m ∧ engineTurn m = .next t := by
  induction n generalizing s with
  | zero => exact ⟨s, rfl, h⟩
  | succ n ih =>
    obtain ⟨u, ha, hu⟩ := accessTurn_of_engineTurn h
    rw [accessTurns, ha]
    exact ih hu

end Sys2Proof.Machine
end

section
/-! PROOFS. A reset inside a command (70_reset_and_hazards.md R261; 20_memory.md R78): memory holds the writes made so
far, and each access adds one at most. -/

namespace Sys2Proof.Machine

/-! ### The accesses made so far -/

/-- The accesses the command has made so far: none while it stands at its start, where the log is still that of the
command before. -/
def State.made (s : State) : List Access := if s.busy = true ∧ s.progress = .start then [] else s.accesses

theorem made_start {s : State} (hb : s.busy = true) (hp : s.progress = .start) : s.made = [] := if_pos ⟨hb, hp⟩

theorem made_inside {s : State} (hp : s.progress ≠ .start) : s.made = s.accesses := if_neg fun h => hp h.2

theorem made_idle {s : State} (hb : s.busy = false) : s.made = s.accesses :=
  if_neg fun h => Bool.false_ne_true (hb.symm.trans h.1)

/-- A command without races begun on the memory `mem`: memory holds what it has written so far, and past its start its
word is that of a command. -/
structure Traced (mem : Memory) (s : State) : Prop where
  quiet : quiet s
  mem : s.mem = writeAll (writesOf s.made) mem
  legal : s.progress ≠ .start → ∃ c, s.running = some (encode c)

/-- What one access makes of a traced command. -/
def TracedNext (mem : Memory) (s u : State) : Prop :=
  Traced mem u ∧ ∃ l, l.length ≤ 1 ∧ u.made = s.made ++ l

/-- An error found before the first access. -/
theorem Traced.refused {mem : Memory} {s : State} (h : Traced mem s) (hm : s.made = []) (r : Raise) (w : Word) :
    TracedNext mem s (errorTerminate r (accept w s)) := by
  have hmade : (errorTerminate r (accept w s)).made = s.made := (made_idle rfl).trans hm.symm
  exact ⟨⟨rfl, hmade ▸ h.mem, fun hp => absurd rfl hp⟩, [], Nat.zero_le 1, hmade.trans (List.append_nil _).symm⟩

/-- A piece of a command adds to what has been made the one access it makes, if any. -/
theorem traced_pause {mem : Memory} {c : Instr} (p : Progress) {s v : State} (h : Traced mem s)
    (hw : v.running = some (encode c)) (hmem : v.mem = s.mem) (hraced : v.raced = s.raced)
    (hacc : v.accesses = s.made) : TracedNext mem s (pause ((advance c p).run v)) := by
  obtain ⟨hr, l, hl, ha, hm⟩ := advance_oneAccess c p v
  obtain ⟨htask, hstop⟩ := advance_piece c p
  have hrun := (htask v).1.trans hw
  have hv : quiet v := hraced.trans h.quiet
  have hq := hr.trans hv
  rw [hacc] at ha
  have hmem' : (endOf ((advance c p).run v)).mem = writeAll (writesOf (s.made ++ l)) mem := by
    rw [hm hv, hmem, h.mem, writesOf_append, writeAll_append]
  have goal : ∀ u : State, u.made = s.made ++ l → quiet u → u.mem = writeAll (writesOf (s.made ++ l)) mem →
      (u.progress ≠ .start → ∃ c, u.running = some (encode c)) → TracedNext mem s u :=
    fun u hu hqu hmu hlegal => ⟨⟨hqu, hu ▸ hmu, hlegal⟩, l, hl, hu⟩
  cases hres : (advance c p).run v with
  | error r t =>
    rw [hres] at ha hmem'
    exact goal _ ((made_idle rfl).trans ha) rfl hmem' fun hp => absurd rfl hp
  | ok o t =>
    rw [hres] at ha hmem' hrun hq
    cases o with
    | none => exact goal _ ((made_idle rfl).trans ha) rfl hmem' fun hp => absurd rfl hp
    | some q =>
      exact goal { t with progress := q } ((made_inside (hstop v q t hres)).trans ha) hq hmem' fun _ => ⟨c, hrun⟩

/-- The turn of one access inside a command is its next piece. -/
theorem accessTurn_resumed {s : State} {c : Instr} (hw : s.running = some (encode c)) (hp : s.progress ≠ .start) :
    accessTurn s = .next (pause ((advance c s.progress).run s.resumed)) := by
  simp only [accessTurn, hw, decode_encode, if_neg hp]

theorem Traced.next {mem : Memory} {s u : State} (h : Traced mem s) (hu : accessTurn s = .next u) :
    TracedNext mem s u := by
  by_cases hp : s.progress = .start
  · have made : ∀ {w}, s.running = some w → s.made = [] := fun hw => made_start (by rw [State.busy, hw]; rfl) hp
    rcases accessTurn_next hu with ⟨-, rfl⟩ | ⟨w, hw, hi⟩ | ⟨c, hw, ⟨r, rfl⟩ | ⟨-, -, rfl⟩ | ⟨hne, -⟩⟩
    · exact ⟨h, [], Nat.zero_le 1, (List.append_nil _).symm⟩
    · cases hi
      exact h.refused (made hw) _ w
    · exact h.refused (made hw) r _
    · exact traced_pause .start h rfl rfl rfl (made hw).symm
    · exact absurd hp hne
  · obtain ⟨c, hw⟩ := h.legal hp
    cases (accessTurn_resumed hw hp).symm.trans hu
    exact traced_pause s.progress h hw rfl rfl (made_inside hp).symm

/-! ### Prefixes of the writes -/

theorem accessTurns_first {n : Nat} {s m : State} (h : accessTurns (n + 1) s = .next m) :
    ∃ u, accessTurn s = .next u ∧ accessTurns n u = .next m := by
  rw [accessTurns] at h
  cases ha : accessTurn s with
  | next u =>
    rw [ha] at h
    exact ⟨u, rfl, h⟩
  | fault f =>
    rw [ha] at h
    cases h
  | refused r =>
    rw [ha] at h
    cases h

/-- Over any number of accesses what has been made grows. -/
theorem Traced.later {mem : Memory} {s m : State} {n : Nat} (h : Traced mem s)
    (hm : accessTurns n s = .next m) : Traced mem m ∧ s.made <+: m.made := by
  induction n generalizing s with
  | zero =>
    cases hm
    exact ⟨h, List.prefix_rfl⟩
  | succ n ih =>
    obtain ⟨u, ha, hrest⟩ := accessTurns_first hm
    obtain ⟨hu, l, -, hmade⟩ := h.next ha
    obtain ⟨htraced, hprefix⟩ := ih hu hrest
    exact ⟨htraced, (hmade ▸ List.prefix_append _ _).trans hprefix⟩

/-- Every number of writes on the way is reached, since an access makes one at most. -/
theorem Traced.reaches {mem : Memory} {s m : State} {n k : Nat} (h : Traced mem s) (hm : accessTurns n s = .next m)
    (hs : (writesOf s.made).length ≤ k) (hk : k ≤ (writesOf m.made).length) :
    ∃ n' m', accessTurns n' s = .next m' ∧ (writesOf m'.made).length = k := by
  induction n generalizing s with
  | zero =>
    cases hm
    exact ⟨0, _, rfl, Nat.le_antisymm hs hk⟩
  | succ n ih =>
    rcases Nat.eq_or_lt_of_le hs with he | hlt
    · exact ⟨0, s, rfl, he⟩
    obtain ⟨u, ha, hrest⟩ := accessTurns_first hm
    obtain ⟨hu, l, hl, hmade⟩ := h.next ha
    have hone : (writesOf l).length ≤ 1 := (List.length_filterMap_le _ l).trans hl
    obtain ⟨n', m', hn', hk'⟩ := ih hu hrest (by rw [hmade, writesOf_append, List.length_append]; omega)
    exact ⟨n' + 1, m', by rw [accessTurns, ha]; exact hn', hk'⟩

/-- The writes made so far are the first of those made in all. -/
theorem Traced.mem_take {mem : Memory} {m t : State} (h : Traced mem m) (ht : engineTurn m = .next t) :
    (writesOf m.made).length ≤ (writesOf t.made).length
      ∧ m.mem = writeAll ((writesOf t.made).take (writesOf m.made).length) mem := by
  obtain ⟨n, hn⟩ := accessTurns_end ht
  have hprefix : writesOf m.made <+: writesOf t.made := (h.later hn).2.filterMap _
  exact ⟨hprefix.length_le, List.prefix_iff_eq_take.1 hprefix ▸ h.mem⟩

/-- Settles O9: memory holds the writes made so far, each access adds one at most, and a reset leaves memory alone. -/
theorem resetAbandonsTheRunningCommand : Obligations.ResetAbandonsTheRunningCommand := by
  intro s t rest hb hp hq ht
  have hmade : s.made = [] := made_start hb hp
  have hs : Traced s.mem s := ⟨hq, hmade ▸ rfl, fun hne => absurd hp hne⟩
  rw [← made_idle (engineTurn_terminates hb ht).1]
  obtain ⟨N, hN⟩ := accessTurns_end ht
  refine ⟨fun n => ?_, fun k hk => ?_, N, hN⟩
  · obtain ⟨m, hm, hmt⟩ := accessTurns_next ht n
    obtain ⟨hlen, hmem⟩ := (hs.later hm).1.mem_take hmt
    exact ⟨m, _, hm, hlen, hmem, fun e he => ⟨_, step_reset (he.imp_right .inl) rfl, rfl, rfl, rfl, rfl, rfl, rfl,
      ⟨rfl, rfl, rfl, rfl, rfl, rfl, rfl, rfl⟩, rfl, rfl, rfl, rfl, rfl, rfl⟩⟩
  · obtain ⟨n, m, hm, rfl⟩ := hs.reaches hN (by simp [hmade, writesOf]) hk
    exact ⟨n, m, hm, ((hs.later hm).1.mem_take ((engineTurn_accessTurns hm).symm.trans ht)).2⟩

end Sys2Proof.Machine
end
